-- ==== Sys2Proof/Word.lean ====
section
/-! DEFINITION. The word types of the LW64's buses and registers. -/

namespace Sys2Proof

/-- One byte on either request bus or in the staging store. -/
abbrev Byte := BitVec 8

/-- A 40-bit byte address (R2, R135). -/
abbrev Addr := BitVec 40

/-- A 32-bit register or counter. -/
abbrev Word32 := BitVec 32

/-- A host request id, 0 to 255 (R2). -/
abbrev HostId := BitVec 8

/-- A group tag, 0 to 63; 0 marks untagged traffic (R2). -/
abbrev Tag := BitVec 6

/-- A memory-side request id, 0 to 31: the index of an outstanding-table entry (R135). -/
abbrev MemId := BitVec 5

/-- A commit number, 32 bits, wrapping (R58). -/
abbrev CommitNumber := BitVec 32

/-- An epoch, 16 bits, wrapping (R88). -/
abbrev Epoch := BitVec 16

/-- `ceil(a / b)` of the Conventions (00_scope.md), for `b > 0`. -/
def ceilDiv (a b : Nat) : Nat := (a + b - 1) / b

end Sys2Proof
end

