-- ==== Sys2Proof/Syntax.lean ====
section
/-! DEFINITION. The commands of the LW64: one constructor of `Instr` per row of spec/opcode_table.json. -/

namespace Sys2Proof

/-- The kind field of a host request (R2). -/
inductive RequestKind where
  | read
  | write
  | marker
  deriving DecidableEq, Repr

/-- The marker code field (R2); `unknown` is any other code the bus can carry (R5). -/
inductive MarkerCode where
  | commit
  | abort
  | foldOver
  | foldUnder
  | unknown (code : Nat)
  deriving DecidableEq, Repr

/-- A request on the host request channel, with every field of the table of R2. -/
structure HostRequest where
  kind   : RequestKind
  id     : HostId
  tag    : Tag
  addr   : Addr
  length : Nat
  mask   : Option (List Bool)
  data   : List Byte
  code   : MarkerCode
  target : Tag
  deriving DecidableEq, Repr

/-- The status of a memory-side response (R135). -/
inductive MemStatus where
  | ok
  | err
  deriving DecidableEq, Repr

/-- One bit of the staging store that has changed since the word was written (R21).
`word` counts the 8-byte words of the 8192 segments; `bit` 0 to 63 is a data bit, from 64 on a bit of the check code. -/
structure Upset where
  word : Nat
  bit  : Nat
  deriving DecidableEq, Repr

/-- The two free pools of the staging store (R22, R28). -/
inductive Pool where
  | descriptors
  | segments
  deriving DecidableEq, Repr

/-- The commands. Each constructor's docstring gives its row of the table and the rule the row names. -/
inductive Instr where
  /-- HOST_REQUEST_ACCEPT (R1): the host places request `r` on the request channel. -/
  | hostRequestAccept (r : HostRequest)
  /-- READ (R8): HP takes a READ from the head of the intake queue. -/
  | read (upsets : List Upset)
  /-- WRITE (R8): HP takes a WRITE from the head of the intake queue. -/
  | write
  /-- COMMIT (R59): HP takes a COMMIT marker. -/
  | commit
  /-- ABORT (R48): HP takes an ABORT marker. -/
  | abort
  /-- FOLD_OVER (R51): HP takes a FOLD_OVER marker. -/
  | foldOver
  /-- FOLD_UNDER (R51): HP takes a FOLD_UNDER marker. -/
  | foldUnder
  /-- RESPONSE_DELIVERY (R3): the host response channel accepts the head response. -/
  | responseDelivery
  /-- STAGE_WAIT_EXPIRY (R26): the stage-wait timer runs out. -/
  | stageWaitExpiry
  /-- LOGGING_START (R91): LE starts the oldest QUEUED record. -/
  | loggingStart
  /-- LOG_RECORD_HAND (R93): LE hands the group's next record. -/
  | logRecordHand (upsets : List Upset)
  /-- TRAILER_HAND (R95): LE hands the OK trailer. -/
  | trailerHand
  /-- VOID_TRAILER_HAND (R97): LE hands the VOID trailer. -/
  | voidTrailerHand
  /-- ANCHOR_WRITE_REQUEST (R99): LE requests and hands an anchor write. -/
  | anchorWriteRequest
  /-- APPLY_START (R110): AE starts a DURABLE record. -/
  | applyStart
  /-- HOME_WRITE_HAND (R111): AE reads the next descriptor and hands its home write. -/
  | homeWriteHand (upsets : List Upset)
  /-- ARBITER_GRANT (R140): the arbiter grants one piece. -/
  | arbiterGrant
  /-- CHANNEL_ACCEPT (R141): the memory request channel accepts the piece at its head. -/
  | channelAccept
  /-- MEMORY_RESPONSE (R142): a memory-side response arrives. -/
  | memoryResponse (id : MemId) (status : MemStatus) (data : List Byte)
  /-- RESPONSE_TIMEOUT (R143): an entry's timer runs out. -/
  | responseTimeout (entry : MemId)
  /-- FORMAT (R155): the management port is sent the FORMAT command. -/
  | format
  /-- RECOVER (R155): the management port is sent the RECOVER command. -/
  | recover
  /-- RESTART (R155): the management port is sent the RESTART command. -/
  | restart
  /-- UNKNOWN_COMMAND_CODE (R185): the command register is written with `code`. -/
  | unknownCommandCode (code : Word32)
  /-- QUIESCE_DISCARD (R157): the discard step of quiesce. -/
  | quiesceDiscard
  /-- REPLAY_WRITE_HAND (R164): RE hands a replay home write. -/
  | replayWriteHand
  /-- ENDING_COMPLETE (R166): a failed command ends. -/
  | endingComplete
  /-- PFW_N_FALL (R170): PFW_N goes low. -/
  | pfwNFall
  /-- PFW_N_RISE (R170): PFW_N goes high. -/
  | pfwNRise
  /-- PFW_N_ASSERTION (R170): PFW_N has stayed low for 1 microsecond. -/
  | pfwNAssertion
  /-- SAFE (R173): the drain is complete. -/
  | safe
  /-- RESET_N_ASSERT (R168): RESET_N goes low. -/
  | resetNAssert
  /-- RESET_N_DEASSERT (R168): RESET_N goes high. -/
  | resetNDeassert
  /-- POWER_ON (R168): power-on. -/
  | powerOn
  /-- STATUS_CAPTURE (R186): a read frame; at 0020h it captures the status block (log 14). -/
  | statusCapture (addr : BitVec 16)
  /-- PER_TAG_WORD_A (R187): a read frame of word A of `tag`. -/
  | perTagWordA (tag : Tag)
  /-- PER_TAG_WORD_B (R187): a read frame of word B of `tag`. -/
  | perTagWordB (tag : Tag)
  /-- STARVATION_COUNTER_READ (R188): a read frame of a starvation counter. -/
  | starvationCounterRead (pool : Pool)
  /-- INTERRUPT_CAUSE_CLEAR (R189): a write frame to the interrupt cause register. -/
  | interruptCauseClear (value : Word32)
  /-- REGISTER_WRITE (R184): a write frame to register `addr`. -/
  | registerWrite (addr : BitVec 16) (value : Word32)
  /-- INCOMPLETE_FRAME (R179): a frame that ended after `bits` bits, or whose command byte is unknown. -/
  | incompleteFrame (cmd : BitVec 8) (bits : Nat) (addr : BitVec 16)
  /-- UNKNOWN_MARKER_CODE (R5): HP takes a MARKER whose code is none of the four. -/
  | unknownMarkerCode
  deriving DecidableEq, Repr

end Sys2Proof
end

