-- ==== Sys2Proof/Decode.lean ====
section
/-! DEFINITION. The reading of an SPI frame (R179): which command its 56 bits spell. The rows of opcode_table.json give no bits, so
`decodeTableWord` reads none (log 24); the management frames are the only commands of the block that arrive as bits. -/

namespace Sys2Proof

/-- The `n`-bit field at bit `off` of a frame, most significant bit first (R179). -/
def frameField (bits : List Bool) (off n : Nat) : Nat := ((bits.drop off).take n).foldl (fun v b => 2 * v + b.toNat) 0

/-- The command byte of a frame (R179). -/
def frameCommand (bits : List Bool) : BitVec 8 := BitVec.ofNat 8 (frameField bits 0 8)

/-- The register address of a frame (R179). -/
def frameAddress (bits : List Bool) : BitVec 16 := BitVec.ofNat 16 (frameField bits 8 16)

/-- The data field of a frame (R179). -/
def frameData (bits : List Bool) : Word32 := BitVec.ofNat 32 (frameField bits 24 32)

/-- The row of the table that a whole read frame of address `a` is (R179, R181, R186 to R188). -/
def commandOfRead (a : BitVec 16) : Instr :=
  let n := a.toNat
  if n = 0x0030 then .starvationCounterRead .descriptors
  else if n = 0x0031 then .starvationCounterRead .segments
  else if 0x0101 ≤ n ∧ n ≤ 0x013F then .perTagWordA (BitVec.ofNat 6 (n - 0x0100))
  else if 0x0141 ≤ n ∧ n ≤ 0x017F then .perTagWordB (BitVec.ofNat 6 (n - 0x0140))
  else .statusCapture a

/-- The row of the table that a whole write frame of `v` to address `a` is (R179, R184, R185, R189). -/
def commandOfWrite (a : BitVec 16) (v : Word32) : Instr :=
  if a = 0x0010 then
    if v = 1 then .format else if v = 2 then .recover else if v = 3 then .restart else .unknownCommandCode v
  else if a = 0x0018 then .interruptCauseClear v
  else .registerWrite a v

/-- The command that the bits of one frame spell, in the order in which MOSI carries them (R179): C1h is a read, C2h a write; a frame
of fewer than 56 bits, or with another command byte, is incomplete; bits after the 56th are ignored. -/
def commandOfFrame (bits : List Bool) : Instr :=
  if bits.length < 56 then .incompleteFrame (frameCommand bits) bits.length (frameAddress bits)
  else if frameCommand bits = 0xC1 then commandOfRead (frameAddress bits)
  else if frameCommand bits = 0xC2 then commandOfWrite (frameAddress bits) (frameData bits)
  else .incompleteFrame (frameCommand bits) bits.length (frameAddress bits)

/-- The command that a word of `nbits` bits spells by the table's bits: none, since no row of the table gives bits. -/
def decodeTableWord (_nbits _w : Nat) : Option Instr := none

end Sys2Proof
end

