-- ==== Sys2Proof/Config.lean ====
section
/-! DEFINITION. The sizes of the LW64 (00_scope.md, Organization) and the free values that the manual leaves open. -/

namespace Sys2Proof

/-- The three results of an ECC check of one word (R29). -/
inductive EccResult where
  | clean
  | corrected
  | uncorrectable
  deriving DecidableEq, Repr, Inhabited

namespace Config

/-- Host intake queue: 16 requests (R1). -/
def intakePlaces : Nat := 16

/-- Response queue: 272 places (R3). -/
def responsePlaces : Nat := 272

/-- Merge slots: 8 (R128). -/
def mergeSlots : Nat := 8

/-- Write descriptors: 4096 (R19). -/
def descriptors : Nat := 4096

/-- Staging segments: 8192 of 64 bytes (R20). -/
def segments : Nat := 8192

/-- Bytes in a staging segment (R20). -/
def segmentBytes : Nat := 64

/-- Writes per group: at most 1024 (R38). -/
def groupWrites : Nat := 1024

/-- Commit queue: 32 commit records (R58). -/
def commitRecords : Nat := 32

/-- Pass-through request list: 16 request records (R138). -/
def passRecords : Nat := 16

/-- Outstanding table: 32 entries (R139). -/
def tableEntries : Nat := 32

/-- Bytes of one ring unit (R76). -/
def unitBytes : Nat := 32

/-- The free value of R21: what the check of a word with three or more changed bits finds.
Its arguments are the eight bytes written and the bits that have changed (log 8). -/
opaque eccManyResult : List Byte → List Nat → EccResult

/-- The free value of R21: byte `j` of what such a check returns when it finds the word clean or corrected (log 8). -/
opaque eccManyByte : List Byte → List Nat → Nat → Byte

/-- The free value of a data byte that a bus transfer did not carry although its length field counts it (log 10). -/
opaque unsentByte : Nat → Byte

/-- The free value of a mask bit that a bus transfer did not carry although its length field counts it (log 10). -/
opaque unsentMaskBit : Nat → Bool

end Config
end Sys2Proof
end

