-- ==== Sys2Proof/Machine/State.lean ====
section
/-! DEFINITION. The state of the LW64: one structure per block of 00_scope.md, plain data throughout, and the state after reset.
Every field cites the rule that names it. -/

namespace Sys2Proof.Machine

/-! ## Host port -/

/-- Host statuses (R15) and marker answers (R16). -/
inductive Answer where
  | ok
  | memError
  | integrity
  | nolog
  | overflow
  | groupFaulted
  | groupFull
  | blocked
  | protocol
  | power
  | empty
  | failedGroup
  | tooLarge
  | voidedIntegrity
  | failedMedia
  | failedPower
  | stopped
  deriving DecidableEq, Repr

/-- A response on the host side (R3). -/
structure Response where
  id     : HostId
  answer : Answer
  data   : List Byte
  deriving DecidableEq, Repr

/-- The conditions on which the head request holds the port (R11). -/
inductive HoldCondition where
  | hazardOverlap
  | noMergeSlot
  | passListFull
  | commitQueueFull
  | stageWait
  deriving DecidableEq, Repr

/-- What an IN_USE merge slot holds (R128). -/
structure MergeSlot where
  id      : HostId
  addr    : Addr
  length  : Nat
  overlay : List (Option Byte)
  deriving DecidableEq, Repr

/-- The host port's state (R1, R3, R6, R11, R18, R128). -/
structure HostPort where
  channel   : List HostRequest
  intake    : List HostRequest
  hold      : Option HoldCondition
  inflight  : List HostId
  responses : List Response
  reserved  : Nat
  slots     : List (Option MergeSlot)
  deriving DecidableEq, Repr

/-! ## Staging store -/

/-- A held write descriptor (R19); its index is its key in `Staging.descs`. -/
structure Descriptor where
  addr   : Addr
  length : Nat
  mask   : Option (List Bool)
  segs   : List Nat
  logPos : Option Nat
  deriving DecidableEq, Repr

/-- What a read of an index that holds no descriptor gives; no reachable state makes one (log 26). -/
def Descriptor.none : Descriptor := ⟨0, 0, .none, [], .none⟩

/-- The staging store's state (R19 to R30). -/
structure Staging where
  descPool      : List Nat
  segPool       : List Nat
  descs         : List (Nat × Descriptor)
  cells         : List Host.Cell
  flips         : List (Nat × Nat)
  timer         : Option (BitVec 16)
  starveDesc    : BitVec 8
  starveSeg     : BitVec 8
  corrected     : Word32
  uncorrectable : Word32
  deriving DecidableEq, Repr

/-! ## Group table -/

/-- The state of a group context (R38). `opened` is OPEN. -/
inductive GroupState where
  | idle
  | opened
  | faulted
  deriving DecidableEq, Repr

/-- The fault reasons (R38, R44). -/
inductive FaultReason where
  | overflow
  | groupFull
  | integrity
  | stopped
  | fold
  deriving DecidableEq, Repr

/-- A group context (R38). -/
structure Context where
  state  : GroupState
  writes : List Nat
  count  : Nat
  bytes  : Nat
  units  : Nat
  reason : Option FaultReason
  deriving DecidableEq, Repr

/-- An IDLE context: empty list, all figures 0, no reason (R39). -/
def Context.idle : Context := ⟨.idle, [], 0, 0, 0, .none⟩

/-- A FAULTED context with its reason (R44). -/
def Context.faulted (why : FaultReason) : Context := ⟨.faulted, [], 0, 0, 0, some why⟩

/-- The group table: the contexts of tags 1 to 63, tag 1 first (R38). -/
structure GroupTable where
  ctxs : List Context
  deriving DecidableEq, Repr

/-! ## Commit controller -/

/-- The states of a commit record (R57). -/
inductive RecordState where
  | queued
  | logging
  | durable
  | applying
  | applied
  | voided
  deriving DecidableEq, Repr

/-- The fail reasons of a VOIDED record (R57). -/
inductive FailReason where
  | integrity
  | media
  | power
  deriving DecidableEq, Repr

/-- A log span: start offset and length in units (R57). -/
structure Span where
  start  : Nat
  length : Nat
  deriving DecidableEq, Repr

/-- A commit record (R57). -/
structure CommitRecord where
  number : CommitNumber
  hostId : HostId
  writes : List Nat
  count  : Nat
  units  : Nat
  span   : Option Span
  state  : RecordState
  reason : Option FailReason
  deriving DecidableEq, Repr

/-- The commit path states (R151). -/
inductive PathState where
  | unconfigured
  | formatting
  | recovering
  | run
  | stopped
  | draining
  | safe
  deriving DecidableEq, Repr

/-- The start-up commands (R155). -/
inductive Command where
  | format
  | recover
  | restart
  deriving DecidableEq, Repr

/-- The command status (R151). -/
inductive CommandStatus where
  | idle
  | busy
  | done
  | refusedState
  deriving DecidableEq, Repr

/-- The result codes (R155). -/
inductive ResultCode where
  | ok
  | formatFailed
  | noAnchor
  | readFailed
  | replayFailed
  | anchorFailed
  | interrupted
  deriving DecidableEq, Repr

/-- The commit controller's state (R57, R58, R151). -/
structure CommitControl where
  queue     : List CommitRecord
  next      : CommitNumber
  path      : PathState
  stopLog   : Bool
  stopApply : Bool
  quiesce   : Option Command
  status    : CommandStatus
  command   : Option Command
  result    : Option ResultCode
  replayed  : Word32
  skipped   : Word32
  deriving DecidableEq, Repr

/-! ## Log engine -/

/-- The anchor in flight (R90). -/
structure AnchorInFlight where
  slot     : Nat
  tail     : Nat
  commit   : CommitNumber
  released : Nat
  deriving DecidableEq, Repr

/-- The record that LE hands next for the LOGGING group (R93). -/
inductive LogNext where
  | hdr
  | dat (index : Nat)
  | done
  deriving DecidableEq, Repr

/-- LE's progress through the LOGGING record (R91 to R97; log 19): the group's first unit, the record to hand next and its
unit, the handed pieces not yet acknowledged, whether a read-out was uncorrectable, and the VOID flag of the trailer
once it has been handed. -/
structure LogJob where
  first   : Nat
  next    : LogNext
  unit    : Nat
  unacked : Nat
  void    : Bool
  trailer : Option Bool
  deriving DecidableEq, Repr

/-- The log engine's state (R89, R90). -/
structure LogEngine where
  head        : Nat
  tail        : Nat
  used        : Nat
  reclaimable : Nat
  reclaim     : Nat
  epoch       : Epoch
  slot        : Option Nat
  seq         : Word32
  anchor      : Option AnchorInFlight
  job         : Option LogJob
  deriving DecidableEq, Repr

/-! ## Memory port -/

/-- The request classes (R136). -/
inductive RequestClass where
  | pass
  | log
  | apply
  deriving DecidableEq, Repr

/-- READ or WRITE on the memory side (R135). -/
inductive MemKind where
  | read
  | write
  deriving DecidableEq, Repr

/-- The part of a group's span that a LOG request writes (R83). `dat` names its index, its descriptor and its unit. -/
inductive LogPart where
  | pad
  | hdr
  | dat (index desc unit : Nat)
  | trl (void : Bool)
  deriving DecidableEq, Repr

/-- The requests of the recovery engine (R158 to R165). -/
inductive RecoveryRequest where
  | anchorRead (slot : Nat)
  | startUnit
  | trailerUnit
  | datHeader
  | datRest
  | secondReading
  | replayWrite (index : Nat)
  | slotWrite (second : Bool)
  | closing
  deriving DecidableEq, Repr

/-- The owner reference of a piece: its request and its piece number (R139). -/
inductive Owner where
  | pass (record piece : Nat)
  | group (part : LogPart) (piece : Nat)
  | anchor
  | home (desc piece : Nat)
  | fallback (piece : Nat)
  | recovery (what : RecoveryRequest) (piece : Nat)
  deriving DecidableEq, Repr

/-- A piece of a request: what a ready list and an outstanding-table entry hold (R136, R139). -/
structure Piece where
  owner  : Owner
  kind   : MemKind
  addr   : Addr
  length : Nat
  mask   : Option (List Bool)
  data   : List Byte
  retry  : Nat
  deriving DecidableEq, Repr

/-- An outstanding-table entry (R139). `withdrawn` says that the piece's request has been withdrawn (R145, R148). -/
inductive Entry where
  | free
  | issued (piece : Piece) (timer : Option (BitVec 16)) (withdrawn : Bool)
  | orphaned (piece : Piece)
  deriving DecidableEq, Repr

/-- A request on the memory request channel (R135). -/
structure MemRequest where
  id     : Nat
  kind   : MemKind
  addr   : Addr
  length : Nat
  mask   : Option (List Bool)
  data   : List Byte
  deriving DecidableEq, Repr

/-- The state of one piece of a request record (R138). -/
inductive PassPieceState where
  | ready
  | issued
  | completedOk
  | completedErr
  | withdrawn
  deriving DecidableEq, Repr

/-- One piece of a request record: its place in the request and its state (R138). -/
structure PassPiece where
  offset : Nat
  length : Nat
  state  : PassPieceState
  deriving DecidableEq, Repr

/-- An IN_USE request record of the pass-through request list (R138). -/
structure PassRecord where
  id     : HostId
  kind   : MemKind
  addr   : Addr
  length : Nat
  pieces : List PassPiece
  buffer : List (Option Byte)
  deriving DecidableEq, Repr

/-- The memory port's state (R135 to R149). -/
structure MemoryPort where
  readyPass  : List Piece
  readyLog   : List Piece
  readyApply : List Piece
  entries    : List Entry
  records    : List (Option PassRecord)
  pointer    : RequestClass
  channel    : List MemRequest
  errors     : Word32
  timeouts   : Word32
  strays     : Word32
  orphaned   : Nat
  deriving DecidableEq, Repr

/-! ## Apply engine -/

/-- An owner's account of one piece of its request (R108, R138): awaited, completed with what a read returned, or
withdrawn before its grant. -/
inductive PieceMark where
  | pending
  | done (data : List Byte)
  | withdrawn
  | failed
  deriving DecidableEq, Repr

/-- The modes of the apply engine (R109). -/
inductive ApplyMode where
  | idle
  | walking
  | fetching
  | settling
  | halted
  deriving DecidableEq, Repr

/-- An entry of the handed set (R108). -/
structure HandedWrite where
  desc   : Nat
  addr   : Addr
  length : Nat
  pieces : List PieceMark
  deriving DecidableEq, Repr

/-- The fallback read (R108, R114). -/
structure Fallback where
  desc   : Nat
  unit   : Nat
  pieces : List PieceMark
  deriving DecidableEq, Repr

/-- The apply engine's state (R108). -/
structure ApplyEngine where
  mode     : ApplyMode
  current  : Option CommitNumber
  walk     : Nat
  next     : Option Nat
  handed   : List HandedWrite
  fallback : Option Fallback
  failed   : List Nat
  deriving DecidableEq, Repr

/-! ## Recovery engine -/

/-- The modes of the recovery engine (R160). -/
inductive RecoveryMode where
  | idle
  | anchorRead
  | formatWrite
  | scan
  | verify
  | replay
  | close
  | ending
  deriving DecidableEq, Repr

/-- An anchor as read from a slot (R78, R160). -/
structure Anchor where
  slot   : Nat
  seq    : Word32
  epoch  : Epoch
  tail   : Nat
  commit : CommitNumber
  deriving DecidableEq, Repr

/-- The group under test: write count, group units, trailer offset (R160). -/
structure GroupUnderTest where
  n : Nat
  g : Nat
  t : Nat
  deriving DecidableEq, Repr

/-- A read of the recovery engine in flight (log 19). -/
structure RecoveryRead where
  what   : RecoveryRequest
  pieces : List PieceMark
  deriving DecidableEq, Repr

/-- A data record's write: home address, length, mask, data (R80). -/
structure RecordWrite where
  addr   : Addr
  length : Nat
  mask   : Option (List Bool)
  data   : List Byte
  deriving DecidableEq, Repr

/-- An entry of the replay in-flight set (R160). -/
structure ReplayWrite where
  index  : Nat
  addr   : Addr
  length : Nat
  pieces : List PieceMark
  deriving DecidableEq, Repr

/-- The recovery engine's state (R160; the last six fields are the model's, log 19). -/
structure RecoveryEngine where
  mode      : RecoveryMode
  chosen    : Option Anchor
  e         : Epoch
  p         : Nat
  c         : CommitNumber
  group     : Option GroupUnderTest
  map       : List (Nat × Nat)
  i         : Nat
  q         : Nat
  replaySet : List ReplayWrite
  replayed  : Word32
  skipped   : Word32
  reads     : List RecoveryRead
  header    : List Byte
  held      : Option RecordWrite
  newEpoch  : Epoch
  firstSlot : Nat
  owed      : Option ResultCode
  deriving DecidableEq, Repr

/-! ## Power-fail controller -/

/-- The drain progress (R172). -/
structure DrainProgress where
  logging : Bool
  anchor  : Bool
  issued  : Nat
  deriving DecidableEq, Repr

/-- The dedicated lines and the drain progress (R168, R170, R172, R173). -/
structure PowerFail where
  resetAsserted : Bool
  pfwLow        : Bool
  qualifying    : Bool
  drain         : Option DrainProgress
  psafe         : Bool
  deriving DecidableEq, Repr

/-! ## Management port -/

/-- The configuration fields (R183). -/
structure Settings where
  logBase     : Addr
  sizeExp     : Nat
  burstCode   : Nat
  retryLimit  : Nat
  timeout     : BitVec 16
  stageWait   : BitVec 16
  quantumCode : Nat
  enables     : BitVec 7
  deriving DecidableEq, Repr

/-- The seven interrupt causes (R189). -/
inductive Cause where
  | stopLog
  | stopApply
  | cmdDone
  | starve
  | eccUncorrectable
  | orphan
  | safe
  deriving DecidableEq, Repr

/-- The six indications of the frame status (R180). -/
structure FrameStatus where
  taken      : Bool
  locked     : Bool
  refused    : Bool
  busy       : Bool
  badAddress : Bool
  incomplete : Bool
  deriving DecidableEq, Repr

/-- No indication set (R180). -/
def FrameStatus.clear : FrameStatus := ⟨false, false, false, false, false, false⟩

/-- The status capture: the figures of the status block from one event (R186). -/
structure StatusCapture where
  path       : PathState
  stopLog    : Bool
  stopApply  : Bool
  quiesce    : Bool
  pfwLow     : Bool
  psafe      : Bool
  freeDescs  : Nat
  freeSegs   : Nat
  occupancy  : Nat
  oldest     : CommitNumber
  next       : CommitNumber
  head       : Nat
  tail       : Nat
  used       : Nat
  epoch      : Epoch
  orphaned   : Nat
  deriving DecidableEq, Repr

/-- The per-tag capture (R187). -/
structure TagCapture where
  tag    : Tag
  state  : GroupState
  reason : Option FaultReason
  count  : Nat
  bytes  : Nat
  deriving DecidableEq, Repr

/-- The management port's state (R179 to R191). -/
structure Management where
  cfg        : Settings
  causes     : BitVec 7
  frame      : FrameStatus
  capture    : StatusCapture
  tagCapture : Option TagCapture
  misoStatus : BitVec 8
  misoData   : Word32
  deriving DecidableEq, Repr

/-! ## The whole state -/

/-- The state of the LW64 and the queue of the commands that wait (first in, first out). -/
structure State where
  pending : List Instr
  hp : HostPort
  ss : Staging
  gt : GroupTable
  cc : CommitControl
  le : LogEngine
  ae : ApplyEngine
  mp : MemoryPort
  re : RecoveryEngine
  pf : PowerFail
  mg : Management
  deriving DecidableEq, Repr

/-- The faults: none. The manual names no condition in which the device stops answering, so no command ends in a fault. -/
inductive Fault where
  deriving DecidableEq, Repr

/-- The refusals. -/
inductive Refusal where
  /-- Raised by an arm of `exec` whose command has no meaning yet (no arm raises it now). Safe: the model stops. -/
  | notModelled (mnemonic : String)
  deriving DecidableEq, Repr

/-! ## Named updates, one per block -/

/-- `s` with another command queue. -/
def State.withPending (s : State) (x : List Instr) : State := { s with pending := x }
/-- `s` with another host port. -/
def State.withHp (s : State) (x : HostPort) : State := { s with hp := x }
/-- `s` with another staging store. -/
def State.withSs (s : State) (x : Staging) : State := { s with ss := x }
/-- `s` with another group table. -/
def State.withGt (s : State) (x : GroupTable) : State := { s with gt := x }
/-- `s` with another commit controller. -/
def State.withCc (s : State) (x : CommitControl) : State := { s with cc := x }
/-- `s` with another log engine. -/
def State.withLe (s : State) (x : LogEngine) : State := { s with le := x }
/-- `s` with another apply engine. -/
def State.withAe (s : State) (x : ApplyEngine) : State := { s with ae := x }
/-- `s` with another memory port. -/
def State.withMp (s : State) (x : MemoryPort) : State := { s with mp := x }
/-- `s` with another recovery engine. -/
def State.withRe (s : State) (x : RecoveryEngine) : State := { s with re := x }
/-- `s` with another power-fail controller. -/
def State.withPf (s : State) (x : PowerFail) : State := { s with pf := x }
/-- `s` with another management port. -/
def State.withMg (s : State) (x : Management) : State := { s with mg := x }

/-! ## Reset -/

/-- The host port after reset (R18). -/
def HostPort.reset : HostPort :=
  { channel := [], intake := [], hold := none, inflight := [], responses := [], reserved := 0,
    slots := List.replicate Config.mergeSlots none }

/-- The staging store after reset (R37). The segment contents are undefined there: nothing is listed (log 9). -/
def Staging.reset : Staging :=
  { descPool := List.range' 0 Config.descriptors, segPool := List.range' 0 Config.segments, descs := [], cells := [],
    flips := [], timer := none, starveDesc := 0, starveSeg := 0, corrected := 0, uncorrectable := 0 }

/-- The group table after reset (R56). -/
def GroupTable.reset : GroupTable := ⟨List.replicate 63 Context.idle⟩

/-- The commit controller after reset (R73, R151). -/
def CommitControl.reset : CommitControl :=
  { queue := [], next := 0, path := .unconfigured, stopLog := false, stopApply := false, quiesce := none,
    status := .idle, command := none, result := none, replayed := 0, skipped := 0 }

/-- The log engine after reset (R107). -/
def LogEngine.reset : LogEngine :=
  { head := 0, tail := 0, used := 0, reclaimable := 0, reclaim := 0, epoch := 0, slot := none, seq := 0,
    anchor := none, job := none }

/-- The apply engine after reset (R123). -/
def ApplyEngine.reset : ApplyEngine :=
  { mode := .idle, current := none, walk := 1, next := none, handed := [], fallback := none, failed := [] }

/-- The memory port after reset (R150). -/
def MemoryPort.reset : MemoryPort :=
  { readyPass := [], readyLog := [], readyApply := [], entries := List.replicate Config.tableEntries .free,
    records := List.replicate Config.passRecords none, pointer := .pass, channel := [], errors := 0, timeouts := 0,
    strays := 0, orphaned := 0 }

/-- The recovery engine after reset (R160). -/
def RecoveryEngine.reset : RecoveryEngine :=
  { mode := .idle, chosen := none, e := 0, p := 0, c := 0, group := none, map := [], i := 1, q := 0, replaySet := [],
    replayed := 0, skipped := 0, reads := [], header := [], held := none, newEpoch := 0, firstSlot := 0, owed := none }

/-- The lines right after reset, with PFW_N high (log 13). -/
def PowerFail.reset : PowerFail :=
  { resetAsserted := false, pfwLow := false, qualifying := false, drain := none, psafe := false }

/-- The defaults of the configuration (R183). -/
def Settings.default : Settings :=
  { logBase := 0, sizeExp := 16, burstCode := 1, retryLimit := 1, timeout := 1000, stageWait := 100, quantumCode := 1,
    enables := 0 }

/-- What the status capture holds after reset (R186). -/
def StatusCapture.reset : StatusCapture :=
  { path := .unconfigured, stopLog := false, stopApply := false, quiesce := false, pfwLow := false, psafe := false,
    freeDescs := 4096, freeSegs := 8192, occupancy := 0, oldest := 0, next := 0, head := 0, tail := 0, used := 0,
    epoch := 0, orphaned := 0 }

/-- The management port after reset (R191). -/
def Management.reset : Management :=
  { cfg := Settings.default, causes := 0, frame := FrameStatus.clear, capture := StatusCapture.reset,
    tagCapture := none, misoStatus := 0, misoData := 0 }

/-- The machine right after reset (R168). -/
def State.reset : State :=
  { pending := [], hp := HostPort.reset, ss := Staging.reset, gt := GroupTable.reset, cc := CommitControl.reset,
    le := LogEngine.reset, ae := ApplyEngine.reset, mp := MemoryPort.reset, re := RecoveryEngine.reset,
    pf := PowerFail.reset, mg := Management.reset }

end Sys2Proof.Machine
end

