-- ==== Sys2Proof/Machine/Operands.lean ====
section
/-! DEFINITION. The operand forms: the fields of a host request as its kind reads them (R2), its checks and its class (R5, R7),
byte ranges, masks, segment counts (R20), data-record units (R84) and the cutting of a request into pieces (R137). -/

namespace Sys2Proof.Machine

/-! ## Byte lists -/

/-- The first `n` bytes of a transfer; a byte the transfer did not carry is a free value (log 10). -/
def fixBytes (n : Nat) (data : List Byte) : List Byte :=
  (List.range n).map fun j => data.getD j (Config.unsentByte j)

/-- `len` members of a list from `off` on. -/
def sliceOf {α : Type} (off len : Nat) (xs : List α) : List α := (xs.drop off).take len

/-! ## Ranges -/

/-- The byte ranges from `a` of length `la` and from `b` of length `lb` share a byte (R111, R124). -/
def rangesMeet (a la b lb : Nat) : Bool := decide (max a b < min (a + la) (b + lb))

/-! ## Host requests -/

/-- The data bytes of a WRITE, byte 0 first (R2). -/
def writeData (r : HostRequest) : List Byte := fixBytes r.length r.data

/-- The mask of a WRITE: absent when the request carries none or one that selects every byte (R2, R23). -/
def writeMask (r : HostRequest) : Option (List Bool) :=
  match r.mask with
  | none => none
  | some m =>
    let bits := (List.range r.length).map fun j => m.getD j (Config.unsentMaskBit j)
    if bits.all id then none else some bits

/-- The request is a FOLD marker (R7). -/
def isFold (r : HostRequest) : Bool :=
  r.kind == .marker && (r.code == .foldOver || r.code == .foldUnder)

/-- The marker code is none of the four (R5). -/
def isUnknownMarker (r : HostRequest) : Bool :=
  r.kind == .marker && (match r.code with | .unknown _ => true | _ => false)

/-- The length check of R5, which does not apply to a MARKER. -/
def badLength (r : HostRequest) : Bool := r.kind != .marker && (r.length == 0 || 256 < r.length)

/-- The 4 KiB check of R5, for READ and WRITE. -/
def crossesPage (r : HostRequest) : Bool := r.kind != .marker && 4096 < r.addr.toNat % 4096 + r.length

/-- The request fails a protocol check of R5; `inflight` is the in-flight id set at the moment it is taken. -/
def protocolError (inflight : List HostId) (r : HostRequest) : Bool :=
  badLength r || crossesPage r ||
  (r.kind == .read && r.mask.isSome) ||
  (r.kind == .marker && r.tag == 0) ||
  (isFold r && (r.target == 0 || r.target == r.tag)) ||
  isUnknownMarker r ||
  inflight.contains r.id

/-- The seven classes of R7, with `unknownMarker` for a code that R5 refuses. -/
inductive HostClass where
  | untaggedRead
  | taggedRead
  | untaggedWrite
  | taggedWrite
  | commit
  | abort
  | fold
  | unknownMarker
  deriving DecidableEq, Repr

/-- The class of a request, by kind, tag and marker code (R7). -/
def classify (r : HostRequest) : HostClass :=
  match r.kind with
  | .read => if r.tag == 0 then .untaggedRead else .taggedRead
  | .write => if r.tag == 0 then .untaggedWrite else .taggedWrite
  | .marker =>
    match r.code with
    | .commit => .commit
    | .abort => .abort
    | .foldOver => .fold
    | .foldUnder => .fold
    | .unknown _ => .unknownMarker

/-! ## Staged writes -/

/-- Segments that a write of length `len` needs (R20, R23). -/
def needSegs (len : Nat) : Nat := ceilDiv len 64

/-- Mask bytes of a data record: `m` of R39 and R80. -/
def maskLength (len : Nat) (masked : Bool) : Nat := if masked then ceilDiv len 8 else 0

/-- Data-record units of a write of length `len` (R39, R84). -/
def dataUnits (len : Nat) (masked : Bool) : Nat := 1 + ceilDiv (len + maskLength len masked) 32

/-- The mask selects byte `j`; an absent mask selects every byte (R19). -/
def selects (mask : Option (List Bool)) (j : Nat) : Bool :=
  match mask with
  | none => true
  | some m => m.getD j false

/-! ## Pieces -/

/-- The number of burst-boundary windows that `len` bytes from `addr` touch (R137). -/
def pieceCount (b addr len : Nat) : Nat := if len = 0 then 0 else (addr % b + len - 1) / b + 1

/-- Offset and length, within the request, of piece `i` (R137). -/
def pieceRange (b addr len i : Nat) : Nat × Nat :=
  let from0 := i * b - addr % b
  let upTo := min len ((i + 1) * b - addr % b)
  (from0, upTo - from0)

/-- The pieces of a request in address order, each as offset and length within the request (R137). -/
def splitRanges (b addr len : Nat) : List (Nat × Nat) :=
  (List.range (pieceCount b addr len)).map (pieceRange b addr len)

/-- The burst boundary B of a configuration: 64, 128 or 256 bytes for code 0, 1 or 2 (R183). -/
def burst (cfg : Settings) : Nat := 64 * 2 ^ cfg.burstCode

/-- The class of a piece, fixed by the block that handed it (R136). -/
def ownerClass : Owner → RequestClass
  | .pass _ _ => .pass
  | .group _ _ => .log
  | .anchor => .log
  | .home _ _ => .apply
  | .fallback _ => .apply
  | .recovery _ _ => .apply

/-- The piece belongs to the group being logged (R93). -/
def isGroupOwner : Owner → Bool
  | .group _ _ => true
  | _ => false

/-- The piece belongs to the apply engine (R136). -/
def isApplyOwner : Owner → Bool
  | .home _ _ => true
  | .fallback _ => true
  | _ => false

/-- The piece belongs to the recovery engine (R136). -/
def isRecoveryOwner : Owner → Bool
  | .recovery _ _ => true
  | _ => false

/-- The pieces of a request at burst boundary `b`, each with its own part of the data and of the mask (R137). -/
def cutRequest (b : Nat) (owner : Nat → Owner) (kind : MemKind) (addr len : Nat) (mask : Option (List Bool))
    (data : List Byte) : List Piece :=
  (List.range (pieceCount b addr len)).map fun i =>
    let (off, n) := pieceRange b addr len i
    { owner := owner i, kind := kind, addr := BitVec.ofNat 40 (addr + off), length := n,
      mask := mask.map (sliceOf off n), data := sliceOf off n data, retry := 0 }

end Sys2Proof.Machine
end

