-- ==== Sys2Proof/Machine/Format.lean ====
section
/-! DEFINITION. The log region's format (05_log_region_format.md): placement, units, the check code, the layouts of anchors and
ring records, and the tests by which the device judges what it reads back (R75 to R87). -/

namespace Sys2Proof.Machine

/-! ## Placement (R75, R76) -/

/-- U, the units of the ring of a region of 2^k bytes (R76). -/
def ringUnits (k : Nat) : Nat := (2 ^ k - 256) / 32

/-- The region's base: the configured log base with bits 0 to k - 1 taken as zero (R75). -/
def regionBase (cfg : Settings) : Nat := cfg.logBase.toNat / 2 ^ cfg.sizeExp * 2 ^ cfg.sizeExp

/-- The address of ring unit `o` (R76). -/
def unitAddr (cfg : Settings) (o : Nat) : Nat := regionBase cfg + 256 + 32 * o

/-- The address of an anchor slot (R75). -/
def slotAddr (cfg : Settings) (slot : Nat) : Nat := regionBase cfg + 64 * slot

/-- The anchor quantum in units: floor(U/4), floor(U/8) or floor(U/16) for code 0, 1 or 2 (R99, R183). -/
def quantumUnits (cfg : Settings) : Nat := ringUnits cfg.sizeExp / (4 * 2 ^ cfg.quantumCode)

/-! ## Byte fields (R77) -/

/-- The `n` bytes of a value, least significant byte first (R77). -/
def leBytes : Nat → Nat → List Byte
  | 0, _ => []
  | n + 1, v => BitVec.ofNat 8 v :: leBytes n (v / 256)

/-- The value of bytes stored least significant byte first (R77). -/
def leNat : List Byte → Nat
  | [] => 0
  | b :: bs => b.toNat + 256 * leNat bs

/-- The `n`-byte field at offset `off` of a record (R77). -/
def fieldAt (bs : List Byte) (off n : Nat) : Nat := leNat (sliceOf off n bs)

/-- Zero bytes, which the device writes where the tables name no field (R77). -/
def zeroBytes (n : Nat) : List Byte := List.replicate n 0

/-! ## The check code (R81) -/

/-- One shift of the check-code register (R81). -/
def crcShift (r : Word32) : Word32 := if r.getLsbD 0 then (r >>> 1) ^^^ 0xEDB88320#32 else r >>> 1

/-- One byte into the check-code register: exclusive-OR into bits 0 to 7, then eight shifts (R81). -/
def crcByte (r : Word32) (b : Byte) : Word32 :=
  crcShift (crcShift (crcShift (crcShift (crcShift (crcShift (crcShift (crcShift (r ^^^ b.setWidth 32))))))))

/-- The check code of a list of bytes (R81). -/
def crc32 (bs : List Byte) : Word32 := bs.foldl crcByte 0xFFFFFFFF#32 ^^^ 0xFFFFFFFF#32

/-! ## Ring records (R79, R80) -/

/-- Bytes 0 to 15 of every ring record (R79). -/
def recordHead (type flags : Byte) (e : Epoch) (c : CommitNumber) (index payload units : Nat) : List Byte :=
  [type, flags] ++ leBytes 2 e.toNat ++ leBytes 4 c.toNat ++ leBytes 2 index ++ leBytes 2 payload ++ leBytes 4 units

/-- A header unit's 28 bytes with their check code in bytes 28 to 31; the code also covers `payload` (R79, R80). -/
def sealHeader (head payload : List Byte) : List Byte := head ++ leBytes 4 (crc32 (head ++ payload)).toNat

/-- The HDR of a group of `n` writes and `g` units (R79). -/
def hdrRecord (e : Epoch) (c : CommitNumber) (n g : Nat) : List Byte :=
  sealHeader (recordHead 0x51 0 e c 0 0 1 ++ leBytes 2 n ++ leBytes 4 g ++ zeroBytes 6) []

/-- The TRL with index `index`; `void` is its VOID flag (R79). -/
def trlRecord (e : Epoch) (c : CommitNumber) (index : Nat) (void : Bool) : List Byte :=
  sealHeader (recordHead 0x53 (if void then 1 else 0) e c index 0 1 ++ zeroBytes 12) []

/-- The header unit of a PAD that covers `units` units (R79). -/
def padRecord (e : Epoch) (c : CommitNumber) (units : Nat) : List Byte :=
  sealHeader (recordHead 0x54 0 e c 0 0 units ++ zeroBytes 12) []

/-- Mask byte `i` of a data record's payload (R80). -/
def maskByte (mask : List Bool) (i : Nat) : Byte :=
  BitVec.ofNat 8 (((List.range 8).map fun b => if mask.getD (8 * i + b) false then 2 ^ b else 0).sum)

/-- The mask bytes of a data record's payload (R80). -/
def maskBytes (len : Nat) : Option (List Bool) → List Byte
  | none => []
  | some m => (List.range (ceilDiv len 8)).map (maskByte m)

/-- The mask that the mask bytes of a data record hold (R80). -/
def unpackMask (len : Nat) (bs : List Byte) : List Bool :=
  (List.range len).map fun j => (bs.getD (j / 8) 0).getLsbD (j % 8)

/-- A data record: header unit, data, mask, zero fill to the end of its last unit (R79, R80). -/
def datRecord (e : Epoch) (c : CommitNumber) (index : Nat) (w : RecordWrite) : List Byte :=
  let masked := w.mask.isSome
  let payload := w.data ++ maskBytes w.length w.mask
  let units := dataUnits w.length masked
  let head := recordHead 0x52 (if masked then 1 else 0) e c index (w.length + maskLength w.length masked) units ++
    leBytes 5 w.addr.toNat ++ zeroBytes 3 ++ leBytes 2 w.length ++ zeroBytes 2
  sealHeader head payload ++ payload ++ zeroBytes (32 * (units - 1) - payload.length)

/-! ## Anchors (R78, R82) -/

/-- The signature ILFLOGAN (R78). -/
def anchorSignature : List Byte := [0x49, 0x4C, 0x46, 0x4C, 0x4F, 0x47, 0x41, 0x4E]

/-- The 64 bytes of an anchor (R78). -/
def anchorRecord (seq : Word32) (epoch : Epoch) (k tail : Nat) (commit : CommitNumber) : List Byte :=
  let body := anchorSignature ++ leBytes 4 seq.toNat ++ leBytes 2 epoch.toNat ++ [BitVec.ofNat 8 k, 0] ++
    leBytes 4 tail ++ leBytes 4 commit.toNat ++ zeroBytes 36
  body ++ leBytes 4 (crc32 body).toNat

/-- The anchor in a slot, when the slot is valid (R82); a tail offset of U or more is reduced modulo U (R78). -/
def readAnchor (k slot : Nat) (bs : List Byte) : Option Anchor :=
  if bs.take 8 == anchorSignature && (crc32 (bs.take 60)).toNat == fieldAt bs 60 4 && fieldAt bs 14 1 == k then
    some { slot := slot, seq := BitVec.ofNat 32 (fieldAt bs 8 4), epoch := BitVec.ofNat 16 (fieldAt bs 12 2),
           tail := fieldAt bs 16 4 % ringUnits k, commit := BitVec.ofNat 32 (fieldAt bs 20 4) }
  else none

/-- Sequence `a` is higher than `b`, as 32-bit wrapping values (R82). -/
def seqHigher (a b : Word32) : Bool := 1 ≤ (a - b).toNat && (a - b).toNat ≤ 0x7FFFFFFF

/-- The choice of the current anchor from slot 0 and slot 1 (R82). -/
def chooseAnchor : Option Anchor → Option Anchor → Option Anchor
  | some a, some b => if seqHigher b.seq a.seq then some b else some a
  | some a, none => some a
  | none, some b => some b
  | none, none => none

/-! ## The tests of R86 -/

/-- The check code of a record whose header unit is `bs` checks over bytes 0 to 27 and `payload` (R81). -/
def codeChecks (bs payload : List Byte) : Bool := (crc32 (bs.take 28 ++ payload)).toNat == fieldAt bs 28 4

/-- Type, epoch and commit number of R86. -/
def headMatches (type : Nat) (e : Epoch) (c : CommitNumber) (bs : List Byte) : Bool :=
  fieldAt bs 0 1 == type && fieldAt bs 2 2 == e.toNat && fieldAt bs 4 4 == c.toNat

/-- The unit `bs` at offset `p` passes as a PAD (R86). -/
def passesPad (u : Nat) (e : Epoch) (c : CommitNumber) (p : Nat) (bs : List Byte) : Bool :=
  headMatches 0x54 e c bs && codeChecks bs [] && 0 < p && fieldAt bs 8 2 == 0 && fieldAt bs 10 2 == 0 &&
  p + fieldAt bs 12 4 == u

/-- The write count and the group units of the unit `bs` at offset `p`, when it passes as a HDR (R86). -/
def passesHdr (u : Nat) (e : Epoch) (c : CommitNumber) (p : Nat) (bs : List Byte) : Option (Nat × Nat) :=
  let n := fieldAt bs 16 2
  let g := fieldAt bs 18 4
  if headMatches 0x51 e c bs && codeChecks bs [] && p + 1 ≤ u && fieldAt bs 8 2 == 0 && fieldAt bs 10 2 == 0 &&
      fieldAt bs 12 4 == 1 && 1 ≤ n && n ≤ Config.groupWrites && 2 + 2 * n ≤ g && g ≤ 2 + 10 * n && g ≤ u / 2 && p + g ≤ u
  then some (n, g) else none

/-- The VOID flag of the unit `bs` at offset `t`, when it passes as a TRL with index `index` (R86). -/
def passesTrl (u : Nat) (e : Epoch) (c : CommitNumber) (t index : Nat) (bs : List Byte) : Option Bool :=
  if headMatches 0x53 e c bs && codeChecks bs [] && t + 1 ≤ u && fieldAt bs 8 2 == index && fieldAt bs 10 2 == 0 &&
      fieldAt bs 12 4 == 1
  then some ((bs.getD 1 0).getLsbD 0) else none

/-- What the header unit of a data record names (R79). -/
structure DatFields where
  masked : Bool
  length : Nat
  units  : Nat
  addr   : Nat
  deriving DecidableEq, Repr

/-- The header fields of a data record, as they stand (R79). -/
def datFields (bs : List Byte) : DatFields :=
  { masked := (bs.getD 1 0).getLsbD 0, length := fieldAt bs 24 2, units := fieldAt bs 12 4, addr := fieldAt bs 16 5 }

/-- The header tests of R163 on the unit `bs` at offset `q`, for index `i` and the trailer at `t`. -/
def passesDatHeader (e : Epoch) (c : CommitNumber) (i q t : Nat) (bs : List Byte) : Option DatFields :=
  let f := datFields bs
  if headMatches 0x52 e c bs && fieldAt bs 8 2 == i && 1 ≤ f.length && f.length ≤ 256 &&
      fieldAt bs 10 2 == f.length + maskLength f.length f.masked && f.units == dataUnits f.length f.masked &&
      f.addr + f.length ≤ 2 ^ 40 && f.addr % 4096 + f.length ≤ 4096 && q + f.units ≤ t
  then some f else none

/-- The write that a data record holds, from its header unit's fields and the bytes that follow that unit (R80). -/
def recordWrite (f : DatFields) (rest : List Byte) : RecordWrite :=
  { addr := BitVec.ofNat 40 f.addr, length := f.length,
    mask := if f.masked then some (unpackMask f.length (rest.drop f.length)) else none, data := rest.take f.length }

/-- The payload bytes that the check code of a data record covers (R80). -/
def payloadOf (f : DatFields) (rest : List Byte) : List Byte := rest.take (f.length + maskLength f.length f.masked)

/-- A whole data record `bs` at offset `q` passes the tests of R163, check code included; its write. -/
def passesDat (e : Epoch) (c : CommitNumber) (i q t : Nat) (bs : List Byte) : Option RecordWrite :=
  match passesDatHeader e c i q t (bs.take 32) with
  | none => none
  | some f => if codeChecks (bs.take 32) (payloadOf f (bs.drop 32)) then some (recordWrite f (bs.drop 32)) else none

end Sys2Proof.Machine
end

