-- ==== Sys2Proof/Machine/Flags.lean ====
section
/-! DEFINITION. The flags: interrupt causes and IRQ_N (R189, R190), the frame status byte and the layouts of the registers
whose content is more than one number (R192). -/

namespace Sys2Proof.Machine

/-! ## Interrupt causes -/

/-- The bit of a cause in the cause and enable registers (R192). -/
def causeBit : Cause → Nat
  | .stopLog => 0
  | .stopApply => 1
  | .cmdDone => 2
  | .starve => 3
  | .eccUncorrectable => 4
  | .orphan => 5
  | .safe => 6

/-- The cause is set in a cause register. -/
def causeIn (c : Cause) (w : BitVec 7) : Bool := w.getLsbD (causeBit c)

/-- Set a cause; setting one that is set leaves it set (R189). -/
def setCause (c : Cause) (s : State) : State :=
  s.withMg { s.mg with causes := s.mg.causes ||| (1#7 <<< causeBit c) }

/-- IRQ_N is asserted (low): RESET_N is not asserted and a cause is set whose enable is set (R190). -/
def irqAsserted (s : State) : Bool := !s.pf.resetAsserted && (s.mg.causes &&& s.mg.cfg.enables) != 0

/-! ## Register layouts (R192) -/

/-- A bit as a number. -/
def bitNat (b : Bool) : Nat := if b then 1 else 0

/-- The frame status byte (R192). -/
def frameByte (f : FrameStatus) : BitVec 8 :=
  BitVec.ofNat 8 (bitNat f.taken + 2 * bitNat f.locked + 4 * bitNat f.refused + 8 * bitNat f.busy +
    16 * bitNat f.badAddress + 32 * bitNat f.incomplete)

/-- The code of a path state (R192). -/
def pathCode : PathState → Nat
  | .unconfigured => 0
  | .formatting => 1
  | .recovering => 2
  | .run => 3
  | .stopped => 4
  | .draining => 5
  | .safe => 6

/-- The code of a command status (R192). -/
def statusCode : CommandStatus → Nat
  | .idle => 0
  | .busy => 1
  | .done => 2
  | .refusedState => 3

/-- The code of the command field, which is also the command's code in the command register (R185, R192). -/
def commandCode : Option Command → Nat
  | none => 0
  | some .format => 1
  | some .recover => 2
  | some .restart => 3

/-- The code of the result field (R192). -/
def resultCode : Option ResultCode → Nat
  | none => 0
  | some .ok => 1
  | some .formatFailed => 2
  | some .noAnchor => 3
  | some .readFailed => 4
  | some .replayFailed => 5
  | some .anchorFailed => 6
  | some .interrupted => 7

/-- The code of a group state (R192). -/
def groupCode : GroupState → Nat
  | .idle => 0
  | .opened => 1
  | .faulted => 2

/-- The code of a fault reason (R192). -/
def reasonCode : Option FaultReason → Nat
  | none => 0
  | some .overflow => 1
  | some .groupFull => 2
  | some .integrity => 3
  | some .stopped => 4
  | some .fold => 5

/-- The command status word (R192). -/
def commandStatusWord (cc : CommitControl) : Word32 :=
  BitVec.ofNat 32 (statusCode cc.status + 2 ^ 4 * commandCode cc.command + 2 ^ 8 * resultCode cc.result)

/-- The path status word of a capture (R192). -/
def pathStatusWord (c : StatusCapture) : Word32 :=
  BitVec.ofNat 32 (pathCode c.path + 2 ^ 4 * bitNat c.stopLog + 2 ^ 5 * bitNat c.stopApply + 2 ^ 6 * bitNat c.quiesce +
    2 ^ 8 * bitNat c.pfwLow + 2 ^ 9 * bitNat c.psafe)

/-- Word A of a per-tag entry (R192). -/
def tagWordA (t : TagCapture) : Word32 :=
  BitVec.ofNat 32 (groupCode t.state + 2 ^ 4 * reasonCode t.reason + 2 ^ 16 * t.count)

/-- Word B of a per-tag entry (R192). -/
def tagWordB (t : TagCapture) : Word32 := BitVec.ofNat 32 t.bytes

end Sys2Proof.Machine
end

