-- ==== Sys2Proof/Machine/Ops.lean ====
section
/-! DEFINITION. The named operations that the commands share: the staging store's buffer, words and pools, the group contexts,
the host port's queue and responses, and the memory port's lists, entries and withdrawals. -/

namespace Sys2Proof.Machine

/-! ## The staging buffer: bytes at addresses 64 * segment + offset (R20, R21) -/

/-- The byte at address `x`; a byte nothing has written reads 00h (log 9). -/
def readCell : List Host.Cell → Nat → Byte
  | [], _ => 0
  | (a, b) :: rest, x => if a = x then b else readCell rest x

/-- Write one byte, keeping the canonical form. -/
def writeCell : List Host.Cell → Nat → Byte → List Host.Cell
  | [], x, v => if v = 0 then [] else [(x, v)]
  | (a, b) :: rest, x, v =>
    if x < a then (if v = 0 then (a, b) :: rest else (x, v) :: (a, b) :: rest)
    else if x = a then (if v = 0 then rest else (x, v) :: rest)
    else (a, b) :: writeCell rest x v

/-- Every address of the list is above `lo`. -/
def cellsAbove (lo : Nat) (cells : List Host.Cell) : Bool := cells.all fun c => lo < c.1

/-- The canonical form: addresses strictly rising, no entry 00h. -/
def cellsWf : List Host.Cell → Bool
  | [] => true
  | (a, b) :: rest => b != 0 && cellsAbove a rest && cellsWf rest

/-- Write consecutive bytes from `x` on. -/
def writeCells : List Host.Cell → Nat → List Byte → List Host.Cell
  | cells, _, [] => cells
  | cells, x, v :: vs => writeCells (writeCell cells x v) (x + 1) vs

/-- The 64 bytes of the segment at position `i` of a write: its data, then zeros (R20). -/
def segmentBytes (data : List Byte) (i : Nat) : List Byte :=
  (List.range Config.segmentBytes).map fun j => data.getD (64 * i + j) 0

/-- Write every byte of the segments of a write, in list order (R20, R21). -/
def writeSegments (cells : List Host.Cell) (segs : List Nat) (data : List Byte) : List Host.Cell :=
  (segs.zipIdx).foldl (fun cs (p : Nat × Nat) => writeCells cs (64 * p.1) (segmentBytes data p.2)) cells

/-! ## Changed bits (R21, R29) -/

/-- Change a bit of a word: a bit changed twice holds its old value. The list stays strictly rising. -/
def toggleFlip : List (Nat × Nat) → Nat → Nat → List (Nat × Nat)
  | [], w, b => [(w, b)]
  | (v, c) :: rest, w, b =>
    if w < v ∨ (w = v ∧ b < c) then (w, b) :: (v, c) :: rest
    else if w = v ∧ b = c then rest
    else (v, c) :: toggleFlip rest w b

/-- The bits of word `w` that have changed since it was written. -/
def flipsOf (flips : List (Nat × Nat)) (w : Nat) : List Nat := (flips.filter fun f => f.1 == w).map Prod.snd

/-- The bits that have changed in the store come in with the command that reads it next (log 7). -/
def applyUpsets (us : List Upset) (s : State) : State :=
  s.withSs { s.ss with flips := us.foldl (fun fs u => toggleFlip fs u.word u.bit) s.ss.flips }

/-! ## Words and read-outs (R29 to R31) -/

/-- What the check of one word gives: the result and the eight bytes returned (R29). -/
structure WordCheck where
  result : EccResult
  bytes  : List Byte
  deriving DecidableEq, Repr

/-- The eight bytes of word `w` as they were written (R21). -/
def wordBytes (cells : List Host.Cell) (w : Nat) : List Byte := (List.range 8).map fun j => readCell cells (8 * w + j)

/-- The check of word `w`: clean, corrected or uncorrectable for no, one or two changed bits; open for more (R21, R29). -/
def checkWord (ss : Staging) (w : Nat) : WordCheck :=
  let bytes := wordBytes ss.cells w
  match flipsOf ss.flips w with
  | [] => ⟨.clean, bytes⟩
  | [_] => ⟨.corrected, bytes⟩
  | [_, _] => ⟨.uncorrectable, bytes⟩
  | many => ⟨Config.eccManyResult bytes many, (List.range 8).map (Config.eccManyByte bytes many)⟩

/-- Count the result of one word (R30). -/
def countCheck (s : State) (c : WordCheck) : State :=
  match c.result with
  | .clean => s
  | .corrected => s.withSs { s.ss with corrected := s.ss.corrected + 1 }
  | .uncorrectable => setCause .eccUncorrectable (s.withSs { s.ss with uncorrectable := s.ss.uncorrectable + 1 })

/-- The result of a read-out of several words (R31). -/
def combineChecks (cs : List WordCheck) : EccResult :=
  if cs.any (fun c => c.result == .uncorrectable) then .uncorrectable
  else if cs.any (fun c => c.result == .corrected) then .corrected
  else .clean

/-- Read words: their joint result, their bytes in order, and the state with every word counted (R29 to R31). -/
def readWords (ws : List Nat) (s : State) : EccResult × List Byte × State :=
  let cs := ws.map (checkWord s.ss)
  (combineChecks cs, cs.flatMap WordCheck.bytes, cs.foldl countCheck s)

/-- Word `i` of a descriptor's data, counted through its segment list (R20, R29). -/
def descWord (d : Descriptor) (i : Nat) : Nat := 8 * d.segs.getD (i / 8) 0 + i % 8

/-- The read-out of the log engine and of the apply engine: every word that holds bytes 0 to L - 1 (R29). -/
def readDescriptor (d : Descriptor) (s : State) : EccResult × List Byte × State :=
  let r := readWords ((List.range (ceilDiv d.length 8)).map (descWord d)) s
  (r.1, r.2.1.take d.length, r.2.2)

/-! ## Descriptors (R19) -/

/-- The held descriptor with index `i`. -/
def lookupDesc : List (Nat × Descriptor) → Nat → Option Descriptor
  | [], _ => none
  | (j, d) :: rest, i => if j = i then some d else lookupDesc rest i

/-- Hold descriptor `i`; the list stays in index order. -/
def insertDesc : List (Nat × Descriptor) → Nat → Descriptor → List (Nat × Descriptor)
  | [], i, d => [(i, d)]
  | (j, x) :: rest, i, d =>
    if i < j then (i, d) :: (j, x) :: rest
    else if i = j then (i, d) :: rest
    else (j, x) :: insertDesc rest i d

/-- Every field of descriptor `i` but its index becomes absent (R33). -/
def eraseDesc (ds : List (Nat × Descriptor)) (i : Nat) : List (Nat × Descriptor) := ds.filter fun p => p.1 != i

/-- The descriptor with index `i`, or the blank one when it is free (log 26). -/
def descAt (s : State) (i : Nat) : Descriptor := (lookupDesc s.ss.descs i).getD Descriptor.none

/-- Set the log position of a held descriptor (R32, R94). -/
def setLogPos (i unit : Nat) (s : State) : State :=
  match lookupDesc s.ss.descs i with
  | none => s
  | some d => s.withSs { s.ss with descs := insertDesc s.ss.descs i { d with logPos := some unit } }

/-! ## Pools (R22, R23, R33) -/

/-- The pools are sufficient for a write of length `len` (R23). -/
def sufficient (ss : Staging) (len : Nat) : Bool := !ss.descPool.isEmpty && decide (needSegs len ≤ ss.segPool.length)

/-- Release one descriptor to the pool tails (R33). -/
def releaseOne (ss : Staging) (i : Nat) : Staging :=
  { ss with descPool := ss.descPool ++ [i],
            segPool := ss.segPool ++ ((lookupDesc ss.descs i).getD Descriptor.none).segs,
            descs := eraseDesc ss.descs i }

/-- Release descriptors in the order in which they stand in their holder's list (R33). -/
def releaseDescs (ds : List Nat) (s : State) : State := s.withSs (ds.foldl releaseOne s.ss)

/-- Allocate descriptor and segments for a tagged write from the pool heads and write its data (R23, steps 1 to 4).
The new descriptor's index is the head of the descriptor pool. -/
def allocate (r : HostRequest) (ss : Staging) : Staging :=
  let n := needSegs r.length
  let segs := ss.segPool.take n
  let d : Descriptor := ⟨r.addr, r.length, writeMask r, segs, none⟩
  { ss with
    descPool := ss.descPool.tail
    segPool := ss.segPool.drop n
    descs := insertDesc ss.descs (ss.descPool.headD 0) d
    cells := writeSegments ss.cells segs (writeData r)
    flips := ss.flips.filter fun f => !segs.contains (f.1 / 8) }

/-- The pools refilled in index order, no descriptor held; segment contents stay (R35). -/
def refillPools (ss : Staging) : Staging :=
  { ss with descPool := List.range' 0 Config.descriptors, segPool := List.range' 0 Config.segments, descs := [] }

/-! ## Group contexts (R38) -/

/-- The context of a tag; tag 0 has none and reads IDLE (R38). -/
def ctxOf (s : State) (t : Tag) : Context :=
  if t = 0 then Context.idle else s.gt.ctxs.getD (t.toNat - 1) Context.idle

/-- Set the context of a tag. -/
def setCtx (t : Tag) (c : Context) (s : State) : State :=
  if t = 0 then s else s.withGt ⟨s.gt.ctxs.set (t.toNat - 1) c⟩

/-- Append a staged descriptor to a group and update its figures (R41). -/
def appendWrite (c : Context) (i len : Nat) (masked : Bool) : Context :=
  { state := .opened, writes := c.writes ++ [i], count := c.count + 1, bytes := c.bytes + len,
    units := (if c.state = .opened then c.units else 2) + dataUnits len masked, reason := none }

/-- Every context IDLE (R56). -/
def idleContexts (s : State) : State := s.withGt ⟨s.gt.ctxs.map fun _ => Context.idle⟩

/-- The lists of the OPEN contexts, tag 1 first (R45, R56). -/
def openLists (s : State) : List Nat :=
  s.gt.ctxs.flatMap fun c => if c.state = .opened then c.writes else []

/-! ## Host port -/

/-- Accept waiting requests from the request channel while the intake queue has places (R1). -/
def acceptWaiting (s : State) : State :=
  if s.pf.resetAsserted then s else
  let room := Config.intakePlaces - s.hp.intake.length
  s.withHp { s.hp with intake := s.hp.intake ++ s.hp.channel.take room, channel := s.hp.channel.drop room }

/-- Place a response at the tail of the response queue, in the place reserved for it (R3). -/
def respond (id : HostId) (a : Answer) (data : List Byte) (s : State) : State :=
  s.withHp { s.hp with responses := s.hp.responses ++ [⟨id, a, data⟩], reserved := s.hp.reserved - 1 }

/-- The id leaves the in-flight id set (R6). -/
def leaveInflight (id : HostId) (s : State) : State :=
  s.withHp { s.hp with inflight := s.hp.inflight.filter fun x => x != id }

/-- The id joins the in-flight id set (R6). -/
def joinInflight (id : HostId) (s : State) : State :=
  s.withHp { s.hp with inflight := if s.hp.inflight.contains id then s.hp.inflight else s.hp.inflight ++ [id] }

/-- A response owed by an earlier dispatch: the id leaves the set as the response is placed (R6, R70, R133). -/
def respondOwed (id : HostId) (a : Answer) (data : List Byte) (s : State) : State :=
  leaveInflight id (respond id a data s)

/-- The head request leaves the intake queue; the place it frees takes a waiting request (R1, R4). -/
def leaveIntake (s : State) : State :=
  acceptWaiting (s.withHp { s.hp with intake := s.hp.intake.tail, hold := none })

/-- Answer the head request, which then leaves the intake queue (R4). -/
def answerHead (a : Answer) (s : State) : State :=
  match s.hp.intake with
  | [] => s
  | r :: _ => leaveIntake (respond r.id a [] s)

/-- The head request holds the port on a condition (R11). -/
def holdHead (c : HoldCondition) (s : State) : State := s.withHp { s.hp with hold := some c }

/-- The states in which HP takes requests, quiesce apart (R8 to R10). -/
def pathTakes (cc : CommitControl) : Bool :=
  match cc.path with
  | .unconfigured => true
  | .formatting => false
  | .recovering => false
  | .run => true
  | .stopped => cc.quiesce.isNone
  | .draining => true
  | .safe => true

/-! ## Memory port -/

/-- The ready list of a class (R136). -/
def readyOf (mp : MemoryPort) : RequestClass → List Piece
  | .pass => mp.readyPass
  | .log => mp.readyLog
  | .apply => mp.readyApply

/-- Replace the ready list of a class. -/
def setReady (c : RequestClass) (ps : List Piece) (mp : MemoryPort) : MemoryPort :=
  match c with
  | .pass => { mp with readyPass := ps }
  | .log => { mp with readyLog := ps }
  | .apply => { mp with readyApply := ps }

/-- The piece of an ISSUED entry. -/
def issuedPiece : Entry → Option Piece
  | .issued p _ _ => some p
  | _ => none

/-- ISSUED entries whose owner satisfies `sel` (R139, R172). -/
def issuedCount (sel : Owner → Bool) (mp : MemoryPort) : Nat :=
  (mp.entries.filter fun e => match issuedPiece e with | some p => sel p.owner | none => false).length

/-- The entry is FREE. -/
def isFree : Entry → Bool
  | .free => true
  | _ => false

/-- The cap of a class: PASS 16, LOG 8, APPLY 8 (R139). -/
def classCap : RequestClass → Nat
  | .pass => 16
  | .log => 8
  | .apply => 8

/-- Hand a request to MP: its pieces enter their class's ready list at the tail (R136, R137). -/
def handRequest (owner : Nat → Owner) (kind : MemKind) (addr len : Nat) (mask : Option (List Bool)) (data : List Byte)
    (s : State) : State :=
  let ps := cutRequest (burst s.mg.cfg) owner kind addr len mask data
  let c := ownerClass (owner 0)
  s.withMp (setReady c (readyOf s.mp c ++ ps) s.mp)

/-- The number of pieces that `handRequest` makes. -/
def handedPieces (s : State) (addr len : Nat) : Nat := pieceCount (burst s.mg.cfg) addr len

/-- Pieces of the owner that have never been granted (R146: a retry does not make a piece unissued). -/
def unissued (sel : Owner → Bool) (ps : List Piece) : Bool := ps.any fun p => sel p.owner && p.retry == 0

/-- An entry whose piece belongs to a withdrawn request (R148). -/
def markWithdrawn (sel : Owner → Bool) : Entry → Entry
  | .issued p t w => .issued p t (w || sel p.owner)
  | e => e

/-- Withdraw the LOG and APPLY requests of an owner: its pieces leave the ready lists, and a failure of an issued piece is
final from now on (R148). No piece that leaves a ready list is reported; for a retried one, already granted once, that is DESIGN CHOICE
(R146 speaks of pieces withdrawn before their first grant; log 34). -/
def withdrawRequests (sel : Owner → Bool) (s : State) : State :=
  s.withMp { s.mp with
    readyLog := s.mp.readyLog.filter fun p => !sel p.owner
    readyApply := s.mp.readyApply.filter fun p => !sel p.owner
    entries := s.mp.entries.map (markWithdrawn sel) }

/-! ## Piece marks -/

/-- Set the mark of piece `i`. -/
def markPiece (i : Nat) (m : PieceMark) (ms : List PieceMark) : List PieceMark := ms.set i m

/-- Every piece has completed OK. -/
def allDone (ms : List PieceMark) : Bool := ms.all fun m => match m with | .done _ => true | _ => false

/-- Some piece's outcome is still awaited. -/
def anyPending (ms : List PieceMark) : Bool := ms.any fun m => m == .pending

/-- What the pieces of a read returned, in address order (R137). -/
def piecesData (ms : List PieceMark) : List Byte :=
  ms.flatMap fun m => match m with | .done d => d | _ => []

/-- Marks of `n` pieces whose outcomes are awaited. -/
def freshMarks (n : Nat) : List PieceMark := List.replicate n .pending

end Sys2Proof.Machine
end

