-- ==== Sys2Proof/Machine/Intake.lean ====
section
/-! DEFINITION. Taking, holding and evaluating host requests: staging and stage wait (R23 to R27), releases (R33), group faults and
FOLD (R40 to R51), COMMIT (R59 to R62), the hazard check, the merge overlay and the dispatch of pass-through requests
(R124 to R132), and the evaluation of a request that holds the port (R13). -/

namespace Sys2Proof.Machine

/-- U for the configured region (R76). -/
def ringU (s : State) : Nat := ringUnits s.mg.cfg.sizeExp

/-! ## Staging and stage wait -/

/-- Stage the head request, a tagged write for which the pools are sufficient, and answer it OK (R23, R41). -/
def stageHead (r : HostRequest) (s : State) : State :=
  let c := appendWrite (ctxOf s r.tag) (s.ss.descPool.headD 0) r.length (writeMask r).isSome
  answerHead .ok (setCtx r.tag c (s.withSs { allocate r s.ss with timer := none }))

/-- The stage-wait test that follows a release event (R25). -/
def stageTest (s : State) : State :=
  match s.hp.hold, s.hp.intake with
  | some .stageWait, r :: _ => if sufficient s.ss r.length then stageHead r s else s
  | _, _ => s

/-- A release event: the descriptors go to the pool tails, then the waiting write is tested (R33, R25). -/
def releaseEvent (ds : List Nat) (s : State) : State :=
  if ds.isEmpty then s else stageTest (releaseDescs ds s)

/-- End a stage wait, if one is under way, with an answer; nothing is staged (R27). -/
def endStageWait (a : Answer) (s : State) : State :=
  if s.hp.hold = some .stageWait then answerHead a (s.withSs { s.ss with timer := none }) else s

/-- A fault of the group of tag `t` (R44). -/
def faultGroup (t : Tag) (why : FaultReason) (s : State) : State :=
  releaseEvent (ctxOf s t).writes (setCtx t (Context.faulted why) s)

/-- Every OPEN group faults with reason STOPPED, in one release event, tag 1 first (R45). -/
def faultOpenGroups (s : State) : State :=
  releaseEvent (openLists s)
    (s.withGt ⟨s.gt.ctxs.map fun c => if c.state = .opened then Context.faulted .stopped else c⟩)

/-- Increment a starvation counter, which stays at 255 (R28). -/
def satSucc (c : BitVec 8) : BitVec 8 := if c = 255 then 255 else c + 1

/-- Count the pools that are short for a write of length `len` and set STARVE (R24, R28). -/
def countStarved (len : Nat) (s : State) : State :=
  setCause .starve (s.withSs { s.ss with
    starveDesc := if s.ss.descPool.isEmpty then satSucc s.ss.starveDesc else s.ss.starveDesc
    starveSeg := if s.ss.segPool.length < needSegs len then satSucc s.ss.starveSeg else s.ss.starveSeg })

/-- Expiry of a stage wait: the write is answered OVERFLOW and its group faults, from IDLE too (R26, R43). -/
def expireHead (r : HostRequest) (s : State) : State :=
  faultGroup r.tag .overflow (answerHead .overflow (s.withSs { s.ss with timer := none }))

/-- Entry to stage wait (R24): with a limit of 0 it ends at once in expiry. -/
def enterStageWait (r : HostRequest) (s : State) : State :=
  let s1 := countStarved r.length s
  if s.mg.cfg.stageWait = 0 then expireHead r s1
  else holdHead .stageWait (s1.withSs { s1.ss with timer := some s.mg.cfg.stageWait })

/-- A tagged write taken in RUN: the group table's test, then the staging store's (R40, R42, R23, R24). -/
def taggedWrite (r : HostRequest) (s : State) : State :=
  let c := ctxOf s r.tag
  if c.state = .faulted then answerHead .groupFaulted s
  else if c.state = .opened ∧ Config.groupWrites ≤ c.count then faultGroup r.tag .groupFull (answerHead .groupFull s)
  else if sufficient s.ss r.length then stageHead r s
  else enterStageWait r s

/-! ## ABORT and FOLD -/

/-- ABORT taken by the group table (R48). -/
def abortGroup (r : HostRequest) (s : State) : State :=
  let c := ctxOf s r.tag
  releaseEvent c.writes (answerHead .ok (setCtx r.tag Context.idle s))

/-- The combined context of a FOLD at case 5: the target's list with the source's after it (OVER) or before it (UNDER),
and the figures of R51. -/
def foldedContext (sourceLast : Bool) (src tgt : Context) : Context :=
  { state := .opened
    writes := if sourceLast then tgt.writes ++ src.writes else src.writes ++ tgt.writes
    count := src.count + tgt.count
    bytes := src.bytes + tgt.bytes
    units := if tgt.state = .opened then src.units + tgt.units - 2 else src.units
    reason := none }

/-- FOLD in RUN: cases 2 to 5 of R49, with R50 and R51. -/
def foldGroups (r : HostRequest) (s : State) : State :=
  let src := ctxOf s r.tag
  let tgt := ctxOf s r.target
  if src.state = .idle then answerHead .ok s
  else if src.state = .faulted ∨ tgt.state = .faulted then
    let tgt' := if tgt.state = .faulted then tgt else Context.faulted .fold
    releaseEvent (src.writes ++ tgt.writes)
      (answerHead .failedGroup (setCtx r.target tgt' (setCtx r.tag Context.idle s)))
  else if Config.groupWrites < src.count + tgt.count then answerHead .groupFull s
  else answerHead .ok (setCtx r.target (foldedContext (r.code == .foldOver) src tgt) (setCtx r.tag Context.idle s))

/-! ## COMMIT -/

/-- The record that an accepted COMMIT appends (R62). -/
def newRecord (r : HostRequest) (c : Context) (number : CommitNumber) : CommitRecord :=
  { number := number, hostId := r.id, writes := c.writes, count := c.count, units := c.units, span := none,
    state := .queued, reason := none }

/-- Acceptance of a COMMIT (R62). -/
def acceptCommit (r : HostRequest) (s : State) : State :=
  let s1 := (setCtx r.tag Context.idle s).withCc { s.cc with
    queue := s.cc.queue ++ [newRecord r (ctxOf s r.tag) s.cc.next], next := s.cc.next + 1 }
  leaveIntake (joinInflight r.id s1)

/-- CC's ordered checks of a COMMIT in RUN and STOPPED (R59 to R61). -/
def commitHead (r : HostRequest) (s : State) : State :=
  let c := ctxOf s r.tag
  if s.cc.path = .stopped then
    answerHead .stopped (if c.state = .faulted then setCtx r.tag Context.idle s else s)
  else if c.state = .idle then answerHead .empty s
  else if c.state = .faulted then answerHead .failedGroup (setCtx r.tag Context.idle s)
  else if ringU s / 2 < c.units then
    releaseEvent c.writes (answerHead .tooLarge (setCtx r.tag Context.idle s))
  else if Config.commitRecords ≤ s.cc.queue.length then holdHead .commitQueueFull s
  else acceptCommit r s

/-! ## The hazard set (R124) -/

/-- Logging side: QUEUED and LOGGING records (R124). -/
def loggingSide (st : RecordState) : Bool := st == .queued || st == .logging

/-- Home side: DURABLE and APPLYING records (R124). -/
def homeSide (st : RecordState) : Bool := st == .durable || st == .applying

/-- The range from `a` of length `len` shares a byte with a descriptor of the record (R124). -/
def recordMeets (ss : Staging) (a len : Nat) (rec : CommitRecord) : Bool :=
  rec.writes.any fun i =>
    match lookupDesc ss.descs i with
    | some d => rangesMeet a len d.addr.toNat d.length
    | none => false

/-- The range overlaps the records on a side of the hazard set (R124). -/
def overlapsSide (side : RecordState → Bool) (s : State) (a len : Nat) : Bool :=
  s.cc.queue.any fun rec => side rec.state && recordMeets s.ss a len rec

/-! ## The merge overlay (R128 to R131) -/

/-- First byte of the descriptor, as an offset in it, that a read from `a` covers. -/
def shareFrom (a : Nat) (d : Descriptor) : Nat := a - d.addr.toNat

/-- One past the last byte of the descriptor, as an offset in it, that a read of `len` bytes from `a` covers. -/
def shareTo (a len : Nat) (d : Descriptor) : Nat := min (d.addr.toNat + d.length) (a + len) - d.addr.toNat

/-- The words of the descriptor that hold the bytes it shares with the read (R29, R129). -/
def sharedWords (a len : Nat) (d : Descriptor) : List Nat :=
  (List.range' (shareFrom a d / 8) ((shareTo a len d - 1) / 8 + 1 - shareFrom a d / 8)).map (descWord d)

/-- Lay the shared bytes that the descriptor writes over the overlay of a read from `a` (R129, step 3). -/
def layBytes (a : Nat) (d : Descriptor) (bytes : List Byte) (overlay : List (Option Byte)) : List (Option Byte) :=
  overlay.zipIdx.map fun (old, k) =>
    let j := a + k - d.addr.toNat
    if d.addr.toNat ≤ a + k && decide (a + k < d.addr.toNat + d.length) && selects d.mask j then
      some (bytes.getD (j - 8 * (shareFrom a d / 8)) 0)
    else old

/-- The walk of R129 over a group's write list: the overlay, or none at the first uncorrectable result (R131), and the state
with every word read counted. -/
def overlayWalk (a len : Nat) : List Nat → List (Option Byte) → State → Option (List (Option Byte)) × State
  | [], ov, s => (some ov, s)
  | i :: is, ov, s =>
    let d := descAt s i
    if rangesMeet a len d.addr.toNat d.length then
      let r := readWords (sharedWords a len d) s
      if r.1 = .uncorrectable then (none, r.2.2) else overlayWalk a len is (layBytes a d r.2.1 ov) r.2.2
    else overlayWalk a len is ov s

/-! ## Pass-through requests -/

/-- The index of the first absent member. -/
def firstAbsent {α : Type} (xs : List (Option α)) : Option Nat := xs.findIdx? Option.isNone

/-- Take the lowest-numbered FREE merge slot for a read with its overlay (R129; the number is log 23). -/
def takeSlot (r : HostRequest) (overlay : List (Option Byte)) (s : State) : State :=
  match firstAbsent s.hp.slots with
  | none => s
  | some k => s.withHp { s.hp with slots := s.hp.slots.set k (some ⟨r.id, r.addr, r.length, overlay⟩) }

/-- The request record of a dispatched request, every piece READY (R138). -/
def newPassRecord (b : Nat) (r : HostRequest) (kind : MemKind) : PassRecord :=
  { id := r.id, kind := kind, addr := r.addr, length := r.length,
    pieces := (splitRanges b r.addr.toNat r.length).map fun p => ⟨p.1, p.2, .ready⟩,
    buffer := List.replicate r.length none }

/-- The memory-side kind of a pass-through request. -/
def passKind (r : HostRequest) : MemKind := if r.kind = .write then .write else .read

/-- Hand the head request to MP in the lowest-numbered FREE request record (R132, R138). -/
def sendPass (r : HostRequest) (s : State) : State :=
  match firstAbsent s.mp.records with
  | none => s
  | some k =>
    let kind := passKind r
    let rec' := newPassRecord (burst s.mg.cfg) r kind
    let s1 := s.withMp { s.mp with records := s.mp.records.set k (some rec') }
    let s2 := handRequest (Owner.pass k) kind r.addr.toNat r.length (if kind = .write then writeMask r else none)
      (if kind = .write then writeData r else []) s1
    leaveIntake (joinInflight r.id s2)

/-- The read travels with an overlay: it is a READ whose tag is OPEN (R128). -/
def needsSlot (r : HostRequest) (s : State) : Bool := r.kind == .read && (ctxOf s r.tag).state == .opened

/-- Dispatch of a tagged read whose tag is OPEN, or its answer INTEGRITY (R129, R131). -/
def overlayRead (r : HostRequest) (s : State) : State :=
  match overlayWalk r.addr.toNat r.length (ctxOf s r.tag).writes (List.replicate r.length none) s with
  | (some ov, s1) => sendPass r (takeSlot r ov s1)
  | (none, s1) => faultGroup r.tag .integrity (answerHead .integrity s1)

/-- A read or an untagged write on the read path: BLOCKED, a hold, or dispatch (R11, R125, R127, R132). -/
def passThrough (r : HostRequest) (s : State) : State :=
  let a := r.addr.toNat
  if overlapsSide homeSide s a r.length && s.cc.stopApply then answerHead .blocked s
  else if overlapsSide (fun st => loggingSide st || homeSide st) s a r.length then holdHead .hazardOverlap s
  else if needsSlot r s && (firstAbsent s.hp.slots).isNone then holdHead .noMergeSlot s
  else if (firstAbsent s.mp.records).isNone then holdHead .passListFull s
  else if needsSlot r s then overlayRead r s
  else sendPass r s

/-! ## Dispatch, evaluation, taking -/

/-- The table of R8: what becomes of a classified head request in UNCONFIGURED, RUN and STOPPED. -/
def dispatch (r : HostRequest) (s : State) : State :=
  match classify r with
  | .untaggedRead => passThrough r s
  | .taggedRead => passThrough r s
  | .untaggedWrite => passThrough r s
  | .taggedWrite => if s.cc.path = .run then taggedWrite r s else answerHead .nolog s
  | .commit => if s.cc.path = .unconfigured then answerHead .nolog s else commitHead r s
  | .abort => if s.cc.path = .unconfigured then answerHead .ok s else abortGroup r s
  | .fold =>
    if s.cc.path = .unconfigured then answerHead .nolog s
    else if s.cc.path = .stopped then answerHead .stopped s
    else foldGroups r s
  | .unknownMarker => answerHead .protocol s

/-- The events at which a request that holds the port is evaluated anew (R13, R14, R126). -/
inductive EvalEvent where
  | hazardShrank
  | causeAdded
  | durableUnderApply
  | slotFreed
  | recordFreed
  | recordRemoved
  | pathChanged
  deriving DecidableEq, Repr

/-- The event is one of those listed for the hold condition (R13); a stop cause added reaches every hold (R14). -/
def wakes : HoldCondition → EvalEvent → Bool
  | .stageWait, _ => false
  | _, .pathChanged => true
  | _, .causeAdded => true
  | .hazardOverlap, .hazardShrank => true
  | .hazardOverlap, .durableUnderApply => true
  | .noMergeSlot, .slotFreed => true
  | .passListFull, .recordFreed => true
  | .commitQueueFull, .recordRemoved => true
  | _, _ => false

/-- Evaluate anew a head request that holds the port, when the event is one of its own and HP takes requests (R13, R9). -/
def evaluate (ev : EvalEvent) (s : State) : State :=
  match s.hp.hold, s.hp.intake with
  | some h, r :: _ => if wakes h ev && pathTakes s.cc then dispatch r s else s
  | _, _ => s

/-- HP takes the head request (R4): the path allows it, nothing holds the port and a response place is free. -/
def canTake (s : State) : Bool :=
  pathTakes s.cc && s.hp.hold.isNone && decide (s.hp.responses.length + s.hp.reserved < Config.responsePlaces)

/-- The treatment of a taken request, in the order of R4. -/
def treat (r : HostRequest) (s : State) : State :=
  if s.cc.path = .draining ∨ s.cc.path = .safe then answerHead .power s
  else if protocolError s.hp.inflight r then answerHead .protocol s
  else dispatch r s

/-- HP takes the head request when it is one that the command names: it reserves a response place and treats the request
(R3, R4). Otherwise nothing happens (log 1). -/
def takeHead (named : HostRequest → Bool) (s : State) : State :=
  match s.hp.intake with
  | [] => s
  | r :: _ => if canTake s && named r then treat r (s.withHp { s.hp with reserved := s.hp.reserved + 1 }) else s

end Sys2Proof.Machine
end

