-- ==== Sys2Proof/Machine/CommitQueue.lean ====
section
/-! DEFINITION. The life of commit records: removal and the retirement notice (R71, R98), drops (R66, R69), the stop causes (R153),
the ends of logging (R64, R65, R102, R103) and the release of applied writes (R68). -/

namespace Sys2Proof.Machine

/-- The record is APPLIED or VOIDED: it leaves the queue when it reaches the head (R71). -/
def finished (st : RecordState) : Bool := st == .applied || st == .voided

/-- The units of a record's span; a record that never had one counts nothing (R98). -/
def spanUnits (rec : CommitRecord) : Nat := match rec.span with | some sp => sp.length | none => 0

/-- The number of the head record, or the next commit number when the queue is empty (R58). -/
def oldestNumber (cc : CommitControl) : CommitNumber := match cc.queue with | [] => cc.next | r :: _ => r.number

/-- The record being logged, if any: at most one is LOGGING (R63). -/
def loggingRecord (cc : CommitControl) : Option CommitRecord := cc.queue.find? fun r => r.state == .logging

/-- The oldest QUEUED record (R91). -/
def oldestQueued (cc : CommitControl) : Option CommitRecord := cc.queue.find? fun r => r.state == .queued

/-- Change the record with a number and a state. -/
def updateRecord (n : CommitNumber) (st : RecordState) (f : CommitRecord → CommitRecord) (s : State) : State :=
  s.withCc { s.cc with queue := s.cc.queue.map fun r => if r.number = n ∧ r.state = st then f r else r }

/-- LE takes the retirement notice: the removed spans become reclaimable and the reclaim point moves over them (R98). -/
def retirementNotice (removed : List CommitRecord) (s : State) : State :=
  let n := (removed.map spanUnits).sum
  s.withLe { s.le with reclaimable := s.le.reclaimable + n, reclaim := (s.le.reclaim + n) % ringU s }

/-- CC removes the APPLIED and VOIDED records at the head, gives LE the notice and evaluates a COMMIT that holds on a full
queue (R71). -/
def removeHeads (s : State) : State :=
  let gone := s.cc.queue.takeWhile fun r => finished r.state
  if gone.isEmpty then s else
  evaluate .recordRemoved (retirementNotice gone
    (s.withCc { s.cc with queue := s.cc.queue.dropWhile fun r => finished r.state }))

/-- A record as its void leaves it (R65, R66, R69). -/
def voidedRecord (why : FailReason) (r : CommitRecord) : CommitRecord :=
  { r with state := .voided, reason := some why, writes := [] }

/-- Void the chosen records in one event: each is answered in commit-number order, their lists are released in one release
event, and a head request on hazard overlap is evaluated anew (R65, R66, R69). -/
def dropRecords (chosen : CommitRecord → Bool) (why : FailReason) (a : Answer) (s : State) : State :=
  let dropped := s.cc.queue.filter chosen
  let s1 := s.withCc { s.cc with queue := s.cc.queue.map fun r => if chosen r then voidedRecord why r else r }
  let s2 := dropped.foldl (fun t r => respondOwed r.hostId a [] t) s1
  evaluate .hazardShrank (releaseEvent (dropped.flatMap CommitRecord.writes) s2)

/-! ## Stop causes (R153) -/

/-- The entry to STOPPED: a write in stage wait is answered NOLOG and every OPEN group faults (R27, R45, R153). -/
def enterStopped (s : State) : State :=
  faultOpenGroups (endStageWait .nolog (s.withCc { s.cc with path := .stopped }))

/-- CC adds the LOG stop cause and sets STOP_LOG, outside DRAINING and where it is absent (R153). -/
def addLogCause (s : State) : State :=
  match s.cc.path with
  | .run => setCause .stopLog (enterStopped (s.withCc { s.cc with stopLog := true }))
  | .stopped => if s.cc.stopLog then s else setCause .stopLog (s.withCc { s.cc with stopLog := true })
  | _ => s

/-- CC adds the APPLY stop cause and sets STOP_APPLY, in RUN and in STOPPED outside quiesce (R117, R153). -/
def addApplyCause (s : State) : State :=
  match s.cc.path with
  | .run => evaluate .causeAdded (setCause .stopApply (enterStopped (s.withCc { s.cc with stopApply := true })))
  | .stopped =>
    if s.cc.stopApply || s.cc.quiesce.isSome then s
    else evaluate .causeAdded (setCause .stopApply (s.withCc { s.cc with stopApply := true }))
  | _ => s

/-! ## The ends of logging -/

/-- The LOGGING record leaves LOGGING: the log head and the used units advance by its span (R96, R97, R102). -/
def advanceHead (sp : Option Span) (s : State) : State :=
  match sp with
  | none => s.withLe { s.le with job := none }
  | some sp => s.withLe { s.le with
      head := (sp.start + sp.length) % ringU s, used := s.le.used + sp.length, job := none }

/-- The OK trailer of the LOGGING record is acknowledged (R64, R96). -/
def trailerAcked (s : State) : State :=
  match loggingRecord s.cc with
  | none => s
  | some rec =>
    let s1 := updateRecord rec.number .logging (fun r => { r with state := .durable }) s
    let s2 := respondOwed rec.hostId .ok [] (advanceHead rec.span s1)
    if s.cc.stopApply then evaluate .durableUnderApply s2 else s2

/-- The VOID trailer of the LOGGING record is acknowledged (R65, R97). -/
def voidTrailerAcked (s : State) : State :=
  match loggingRecord s.cc with
  | none => s
  | some rec =>
    removeHeads (dropRecords (fun r => r.state == .logging) .integrity .voidedIntegrity (advanceHead rec.span s))

/-- A log write failure of the group or of an anchor, CC's and LE's part together (R66, R102, R103): outside DRAINING the LOG
cause is added and the QUEUED records are dropped; `giveUp` says that the LOGGING record is given up too. -/
def logStop (giveUp : Bool) (s : State) : State :=
  let s1 := addLogCause s
  let s2 := if giveUp then
      advanceHead ((loggingRecord s1.cc).bind CommitRecord.span) (withdrawRequests isGroupOwner s1)
    else s1
  let dropQueued := s.cc.path != .draining
  let s3 := dropRecords (fun r => (giveUp && r.state == .logging) || (dropQueued && r.state == .queued))
    .media .failedMedia s2
  let s4 := removeHeads s3
  if s.cc.stopLog || s.cc.path == .draining then s4 else evaluate .causeAdded s4

/-- A piece of the LOGGING group fails for good; `trailer` says that it is the trailer's (R102). -/
def groupPieceFailed (trailer : Bool) (s : State) : State :=
  match s.le.job with
  | none => s
  | some job => logStop (trailer || job.trailer.isNone) s

/-- An anchor write fails for good (R103, R153): outside DRAINING and quiesce a LOG stop follows. -/
def anchorFailed (s : State) : State :=
  let s1 := s.withLe { s.le with anchor := none }
  if s.cc.path = .draining ∨ s.cc.quiesce.isSome ∨ s.cc.stopLog then s1
  else logStop (match s.le.job with | some job => job.trailer.isNone | none => false) s1

/-- The anchor write is acknowledged (R101). -/
def anchorAcked (s : State) : State :=
  match s.le.anchor with
  | none => s
  | some a => s.withLe { s.le with
      tail := a.tail, used := s.le.used - a.released, reclaimable := s.le.reclaimable - a.released,
      slot := some a.slot, seq := s.le.seq + 1, anchor := none }

/-! ## The end of an applied write -/

/-- The record that AE applies. -/
def currentRecord (s : State) : Option CommitRecord :=
  match s.ae.current with
  | none => none
  | some n => s.cc.queue.find? fun r => r.number == n && r.state == .applying

/-- Descriptor `i`, every piece of whose home write is acknowledged, leaves the APPLYING record and is released; a head request
on hazard overlap is evaluated anew; a record whose list empties becomes APPLIED and is removed (R68, R71, R113, R118). -/
def applyRelease (i : Nat) (s : State) : State :=
  match currentRecord s with
  | none => s
  | some rec =>
    if rec.writes.contains i then
      let left := rec.writes.erase i
      let s1 := updateRecord rec.number .applying (fun r => { r with writes := left }) s
      let s2 := evaluate .hazardShrank (releaseEvent [i] s1)
      if left.isEmpty then
        let s3 := updateRecord rec.number .applying (fun r => { r with state := .applied }) s2
        removeHeads (s3.withAe { s3.ae with
          current := none, mode := if s3.ae.mode = .halted then .halted else .idle })
      else s2
    else s

end Sys2Proof.Machine
end

