-- ==== Sys2Proof/Machine/LogEngine.lean ====
section
/-! DEFINITION. The log engine (06_log_engine.md): starting a group, writing its records and its trailer, anchor writes, and what
the outcome of a LOG piece does. -/

namespace Sys2Proof.Machine

/-- The outcome of a command that the device carries out only while RESET_N is deasserted (R168). -/
def live (f : State → State) (s : State) : Host.Outcome State Fault Refusal :=
  .next (if s.pf.resetAsserted then s else f s)

/-! ## Shared operations -/

/-- The group does not fit between the log head and the ring end (R91). -/
def needsPad (u head units : Nat) : Bool := decide (u - head < units)

/-- The span of a record of `units` units at log head `head` (R91). -/
def planSpan (u head units : Nat) : Span :=
  if needsPad u head units then ⟨head, u - head + units⟩ else ⟨head, units⟩

/-- The group's first unit: the log head, or 0 after a pad (R91). -/
def firstUnit (u head units : Nat) : Nat := if needsPad u head units then 0 else head

/-- The ring has room for the record's span (R91). -/
def hasRoom (s : State) (rec : CommitRecord) : Bool :=
  decide ((planSpan (ringU s) s.le.head rec.units).length ≤ ringU s - s.le.used)

/-- LE may start a group: RUN, no quiesce, no record LOGGING (R91, R104). -/
def mayStartGroup (s : State) : Bool :=
  s.cc.path == .run && s.cc.quiesce.isNone && (loggingRecord s.cc).isNone

/-- A record waits for space (R92). -/
def waitsForSpace (s : State) : Bool :=
  mayStartGroup s && (match oldestQueued s.cc with | some rec => !hasRoom s rec | none => false)

/-- LE may go on with the LOGGING group's records and trailer (R104). -/
def mayContinueGroup (cc : CommitControl) : Bool :=
  match cc.path with
  | .run => true
  | .stopped => !cc.stopLog
  | .draining => true
  | _ => false

/-- Hand one record of the group at ring unit `p`; its pieces are awaited (R93). -/
def handGroupRecord (part : LogPart) (p : Nat) (bytes : List Byte) (s : State) : State :=
  let a := unitAddr s.mg.cfg p
  let s1 := handRequest (Owner.group part) .write a bytes.length none bytes s
  match s.le.job with
  | none => s1
  | some job => s1.withLe { s.le with job := some { job with unacked := job.unacked + handedPieces s a bytes.length } }

/-- Every piece of the record handed before has been issued (R93). -/
def groupAllIssued (s : State) : Bool := !unissued isGroupOwner s.mp.readyLog

/-- What follows data record `i` of `n`. -/
def nextAfter (i n : Nat) : LogNext := if i < n then .dat (i + 1) else .done

/-- Logging of `rec` starts: its span and layout are fixed, it becomes LOGGING, and the first record, the PAD or the HDR, is
handed (R91, R93). -/
def startLogging (rec : CommitRecord) (s : State) : State :=
  let u := ringU s
  let h := s.le.head
  let pad := needsPad u h rec.units
  let first := firstUnit u h rec.units
  let s1 := updateRecord rec.number .queued (fun r => { r with span := some (planSpan u h rec.units), state := .logging }) s
  let job : LogJob := { first := first, next := if pad then .hdr else nextAfter 0 rec.count, unit := first + 1, unacked := 0,
                        void := false, trailer := none }
  let s2 := s1.withLe { s.le with job := some job }
  if pad then handGroupRecord .pad h (padRecord s.le.epoch rec.number (u - h)) s2
  else handGroupRecord .hdr first (hdrRecord s.le.epoch rec.number rec.count rec.units) s2

/-- LE reads the descriptor of data record `i` and hands the record, or finds it uncorrectable and hands no further data record
(R93, R94, R97). -/
def handDataRecord (job : LogJob) (rec : CommitRecord) (i : Nat) (s : State) : State :=
  let d := rec.writes.getD (i - 1) 0
  let desc := descAt s d
  let r := readDescriptor desc s
  if r.1 = .uncorrectable then
    r.2.2.withLe { r.2.2.le with job := some { job with void := true } }
  else
    let s1 := r.2.2.withLe { r.2.2.le with job := some { job with
      next := nextAfter i rec.count, unit := job.unit + dataUnits desc.length desc.mask.isSome } }
    handGroupRecord (.dat i d job.unit) job.unit
      (datRecord s.le.epoch rec.number i ⟨desc.addr, desc.length, desc.mask, r.2.1⟩) s1

/-- LE hands the trailer at the group's last unit (R83, R95, R97). -/
def handTrailer (void : Bool) (job : LogJob) (rec : CommitRecord) (s : State) : State :=
  handGroupRecord (.trl void) (job.first + rec.units - 1) (trlRecord s.le.epoch rec.number (rec.count + 1) void)
    (s.withLe { s.le with job := some { job with trailer := some void } })

/-- The slot that does not hold the current anchor (R100). With no current slot, which no run from reset reaches in RUN or STOPPED, it is
slot 0: DESIGN CHOICE, the rule is silent (log 33). -/
def otherSlot : Option Nat → Nat
  | some 0 => 1
  | _ => 0

/-- The conditions of an anchor write request (R99). -/
def wantsAnchor (s : State) : Bool :=
  s.le.anchor.isNone && (s.cc.path == .run || (s.cc.path == .stopped && !s.cc.stopLog)) && s.cc.quiesce.isNone &&
  (decide (quantumUnits s.mg.cfg ≤ s.le.reclaimable) || (waitsForSpace s && decide (0 < s.le.reclaimable)))

/-- LE fills the anchor in flight and hands the anchor write (R100). -/
def requestAnchor (s : State) : State :=
  let a : AnchorInFlight := ⟨otherSlot s.le.slot, s.le.reclaim, oldestNumber s.cc, s.le.reclaimable⟩
  let bytes := anchorRecord (s.le.seq + 1) s.le.epoch s.mg.cfg.sizeExp a.tail a.commit
  handRequest (fun _ => .anchor) .write (slotAddr s.mg.cfg a.slot) 64 none bytes (s.withLe { s.le with anchor := some a })

/-- A piece of the group is acknowledged (R95 to R97). -/
def groupPieceAcked (part : LogPart) (s : State) : State :=
  match s.le.job with
  | none => s
  | some job =>
    match part with
    | .trl true => voidTrailerAcked s
    | .trl false => trailerAcked s
    | _ => s.withLe { s.le with job := some { job with unacked := job.unacked - 1 } }

/-- The part is a trailer. -/
def isTrailer : LogPart → Bool
  | .trl _ => true
  | _ => false

/-! ## The commands -/

/-- LOGGING_START (R91): the oldest QUEUED record starts, if the conditions of R91 hold. -/
def execLoggingStart (s : State) : Host.Outcome State Fault Refusal :=
  live (fun s => match oldestQueued s.cc with
    | some rec => if mayStartGroup s && hasRoom s rec then startLogging rec s else s
    | none => s) s

/-- LOG_RECORD_HAND (R93, R94): the next HDR or data record, once every piece of the previous record is issued. -/
def execLogRecordHand (us : List Upset) (s : State) : Host.Outcome State Fault Refusal :=
  live (fun s0 =>
    let s := applyUpsets us s0
    match s.le.job, loggingRecord s.cc with
    | some job, some rec =>
      if mayContinueGroup s.cc && groupAllIssued s && !job.void then
        match job.next with
        | .hdr => handGroupRecord .hdr job.first (hdrRecord s.le.epoch rec.number rec.count rec.units)
            (s.withLe { s.le with job := some { job with next := nextAfter 0 rec.count } })
        | .dat i => handDataRecord job rec i s
        | .done => s
      else s
    | _, _ => s) s

/-- TRAILER_HAND (R95): the OK trailer, once every piece of the group is acknowledged. -/
def execTrailerHand (s : State) : Host.Outcome State Fault Refusal :=
  live (fun s => match s.le.job, loggingRecord s.cc with
    | some job, some rec =>
      if mayContinueGroup s.cc && !job.void && job.next == .done && job.unacked == 0 && job.trailer.isNone then
        handTrailer false job rec s
      else s
    | _, _ => s) s

/-- VOID_TRAILER_HAND (R97): the VOID trailer after an uncorrectable read-out, once every handed piece is acknowledged. -/
def execVoidTrailerHand (s : State) : Host.Outcome State Fault Refusal :=
  live (fun s => match s.le.job, loggingRecord s.cc with
    | some job, some rec =>
      if mayContinueGroup s.cc && job.void && job.unacked == 0 && job.trailer.isNone then handTrailer true job rec s else s
    | _, _ => s) s

/-- ANCHOR_WRITE_REQUEST (R99, R100): an anchor write to the slot that is not current. -/
def execAnchorWriteRequest (s : State) : Host.Outcome State Fault Refusal :=
  live (fun s => if wantsAnchor s then requestAnchor s else s) s

end Sys2Proof.Machine
end

