-- ==== Sys2Proof/Machine/HostPort.lean ====
section
/-! DEFINITION. The commands of the host side: acceptance, the taking of a request by its kind (R4), delivery of responses (R3) and the
expiry of a stage wait (R26). -/

namespace Sys2Proof.Machine

/-- The request is a READ. -/
def isRead (r : HostRequest) : Bool := r.kind == .read

/-- The request is a WRITE. -/
def isWrite (r : HostRequest) : Bool := r.kind == .write

/-- The request is a MARKER with code `c`. -/
def isMarker (c : MarkerCode) (r : HostRequest) : Bool := r.kind == .marker && r.code == c

/-- The host places a request on the request channel. -/
def placeRequest (r : HostRequest) (s : State) : State := s.withHp { s.hp with channel := s.hp.channel ++ [r] }

/-- The host's channel accepts the response at the head of the response queue (R3). -/
def deliver (s : State) : State := s.withHp { s.hp with responses := s.hp.responses.tail }

/-- HOST_REQUEST_ACCEPT (R1): the request is placed on the channel and accepted when a place is free. While RESET_N is asserted
the channel accepts nothing and the request stays on it (R18, R168). -/
def execHostRequestAccept (r : HostRequest) (s : State) : Host.Outcome State Fault Refusal :=
  .next (acceptWaiting (placeRequest r s))

/-- READ (R8). The bits of the staging store that have changed come first (log 7). -/
def execRead (us : List Upset) (s : State) : Host.Outcome State Fault Refusal :=
  live (fun s => takeHead isRead (applyUpsets us s)) s

/-- WRITE (R8). -/
def execWrite (s : State) : Host.Outcome State Fault Refusal := live (takeHead isWrite) s

/-- COMMIT (R59). -/
def execCommit (s : State) : Host.Outcome State Fault Refusal := live (takeHead (isMarker .commit)) s

/-- ABORT (R48). -/
def execAbort (s : State) : Host.Outcome State Fault Refusal := live (takeHead (isMarker .abort)) s

/-- FOLD_OVER (R51). -/
def execFoldOver (s : State) : Host.Outcome State Fault Refusal := live (takeHead (isMarker .foldOver)) s

/-- FOLD_UNDER (R51). -/
def execFoldUnder (s : State) : Host.Outcome State Fault Refusal := live (takeHead (isMarker .foldUnder)) s

/-- UNKNOWN_MARKER_CODE (R5). -/
def execUnknownMarkerCode (s : State) : Host.Outcome State Fault Refusal := live (takeHead isUnknownMarker) s

/-- RESPONSE_DELIVERY (R3). -/
def execResponseDelivery (s : State) : Host.Outcome State Fault Refusal := live deliver s

/-- STAGE_WAIT_EXPIRY (R26). -/
def execStageWaitExpiry (s : State) : Host.Outcome State Fault Refusal :=
  live (fun s => match s.hp.hold, s.hp.intake with
    | some .stageWait, r :: _ => expireHead r s
    | _, _ => s) s

end Sys2Proof.Machine
end

