-- ==== Sys2Proof/Machine/ApplyEngine.lean ====
section
/-! DEFINITION. The apply engine (07_apply_engine.md): starting a record, the walk, home writes, the fallback read, and HALTED. -/

namespace Sys2Proof.Machine

/-! ## HALTED -/

/-- A mark of piece `k` of the request that `owner` names, once the pieces that wait in the ready list are withdrawn (R148); a retried
one is marked withdrawn too, not failed: DESIGN CHOICE (log 34). -/
def withdrawMark (ready : List Piece) (owner : Nat → Owner) (m : PieceMark) (k : Nat) : PieceMark :=
  if ready.any fun p => p.owner == owner k then .withdrawn else m

/-- The marks of a request whose pieces in the ready list are withdrawn. -/
def withdrawMarks (ready : List Piece) (owner : Nat → Owner) (ms : List PieceMark) : List PieceMark :=
  ms.zipIdx.map fun p => withdrawMark ready owner p.1 p.2

/-- AE enters HALTED and withdraws all of its requests; a fallback read none of whose pieces is awaited is absent (R118, log 20).
In HALTED already, nothing changes. -/
def haltApply (s : State) : State :=
  if s.ae.mode = .halted then s else
  let ready := s.mp.readyApply
  let fb := s.ae.fallback.map fun f => { f with pieces := withdrawMarks ready Owner.fallback f.pieces }
  withdrawRequests isApplyOwner (s.withAe { s.ae with
    mode := .halted
    handed := s.ae.handed.map fun h => { h with pieces := withdrawMarks ready (Owner.home h.desc) h.pieces }
    fallback := fb.filter fun f => anyPending f.pieces })

/-! ## The walk -/

/-- The record AE may start: the first record that is not VOIDED, when it is DURABLE (R110). -/
def startable (cc : CommitControl) : Option CommitRecord :=
  match cc.queue.dropWhile fun r => r.state == .voided with
  | r :: _ => if r.state = .durable then some r else none
  | [] => none

/-- The path allows apply: RUN, or STOPPED without the APPLY stop cause, and quiesce has not begun (R110, R119). -/
def mayApply (cc : CommitControl) : Bool :=
  (cc.path == .run || (cc.path == .stopped && !cc.stopApply)) && cc.quiesce.isNone

/-- The descriptor at walk position `walk`: the entries not yet handed are the last ones of the list (R108). -/
def descAtWalk (rec : CommitRecord) (walk : Nat) : Option Nat := rec.writes[rec.writes.length + walk - (rec.count + 1)]?

/-- AE starts a record (R110). -/
def startApply (rec : CommitRecord) (s : State) : State :=
  (updateRecord rec.number .durable (fun r => { r with state := .applying }) s).withAe
    { mode := .walking, current := some rec.number, walk := 1, next := rec.writes.head?, handed := [],
      fallback := none, failed := [] }

/-- The byte range of descriptor `d` meets a write in the handed set (R111). -/
def meetsHanded (handed : List HandedWrite) (d : Descriptor) : Bool :=
  handed.any fun h => rangesMeet d.addr.toNat d.length h.addr.toNat h.length

/-- The two tests of R111 for the next descriptor. -/
def walkReady (s : State) (d : Descriptor) : Bool :=
  !unissued isApplyOwner s.mp.readyApply && !meetsHanded s.ae.handed d

/-- Hand the home write of descriptor `i`; the walk moves on (R112). -/
def handHome (rec : CommitRecord) (i : Nat) (w : RecordWrite) (s : State) : State :=
  let walk := s.ae.walk + 1
  let h : HandedWrite := ⟨i, w.addr, w.length, freshMarks (handedPieces s w.addr.toNat w.length)⟩
  let s1 := handRequest (Owner.home i) .write w.addr.toNat w.length w.mask w.data s
  s1.withAe { s.ae with
    mode := if rec.count < walk then .settling else .walking
    walk := walk
    next := if rec.count < walk then none else descAtWalk rec walk
    handed := s.ae.handed ++ [h]
    fallback := none }

/-- Hand the fallback read of descriptor `i` (R114). -/
def handFallback (i : Nat) (d : Descriptor) (s : State) : State :=
  let q := d.logPos.getD 0
  let a := unitAddr s.mg.cfg q
  let n := 32 * dataUnits d.length d.mask.isSome
  let s1 := handRequest Owner.fallback .read a n none [] s
  s1.withAe { s.ae with mode := .fetching, fallback := some ⟨i, q, freshMarks (handedPieces s a n)⟩ }

/-- AE reads the next descriptor and hands its home write, or its fallback read when the read-out is uncorrectable
(R112, R114). -/
def walkStep (rec : CommitRecord) (i : Nat) (s : State) : State :=
  let d := descAt s i
  if walkReady s d then
    let r := readDescriptor d s
    if r.1 = .uncorrectable then handFallback i d r.2.2
    else handHome rec i ⟨d.addr, d.length, d.mask, r.2.1⟩ r.2.2
  else s

/-! ## Failures and outcomes -/

/-- An apply failure: the descriptor joins the failed set; unless AE is HALTED already, AE enters HALTED and reports (R116, R117). -/
def applyFailure (i : Nat) (s : State) : State :=
  let s1 := s.withAe { s.ae with failed := s.ae.failed ++ [i] }
  if s.ae.mode = .halted then s1 else addApplyCause (haltApply s1)

/-- The tests of R115 on the ring copy `bs` of descriptor `d`. -/
def ringCopyChecks (e : Epoch) (n : CommitNumber) (walk : Nat) (d : Descriptor) (bs : List Byte) : Bool :=
  let masked := d.mask.isSome
  let f := datFields bs
  headMatches 0x52 e n bs && f.masked == masked && fieldAt bs 8 2 == walk &&
  fieldAt bs 10 2 == d.length + maskLength d.length masked && f.units == dataUnits d.length masked &&
  f.addr == d.addr.toNat && f.length == d.length && codeChecks (bs.take 32) (payloadOf f (bs.drop 32))

/-- Every piece of the fallback read has returned OK: the home write is handed from the ring copy if it checks (R115, R116). -/
def fallbackReturned (f : Fallback) (bs : List Byte) (s : State) : State :=
  match currentRecord s with
  | none => s.withAe { s.ae with fallback := none }
  | some rec =>
    let s1 := s.withAe { s.ae with fallback := none }
    if ringCopyChecks s.le.epoch rec.number s.ae.walk (descAt s f.desc) bs then
      handHome rec f.desc (recordWrite (datFields bs) (bs.drop 32)) s1
    else applyFailure f.desc s1

/-- A piece of a home write is acknowledged (R113, R118). -/
def homePieceAcked (i k : Nat) (s : State) : State :=
  match s.ae.handed.find? fun h => h.desc == i with
  | none => s
  | some h =>
    let ms := markPiece k (.done []) h.pieces
    if allDone ms then
      applyRelease i (s.withAe { s.ae with handed := s.ae.handed.filter fun x => x.desc != i })
    else s.withAe { s.ae with handed := s.ae.handed.map fun x => if x.desc = i then { x with pieces := ms } else x }

/-- A piece of a home write fails for good (R117, R118). -/
def homePieceFailed (i : Nat) (s : State) : State :=
  if s.ae.handed.any fun h => h.desc == i then
    applyFailure i (s.withAe { s.ae with handed := s.ae.handed.filter fun x => x.desc != i })
  else s

/-- A piece of the fallback read has its outcome: in FETCHING the read goes on or ends; in HALTED it is absent once no piece is
awaited, and its bytes are not used (R115, R116). -/
def fallbackPiece (k : Nat) (m : PieceMark) (s : State) : State :=
  match s.ae.fallback with
  | none => s
  | some f =>
    let f' := { f with pieces := markPiece k m f.pieces }
    if s.ae.mode = .halted then
      s.withAe { s.ae with fallback := if anyPending f'.pieces then some f' else none }
    else if m = .failed then applyFailure f.desc (s.withAe { s.ae with fallback := none })
    else if allDone f'.pieces then fallbackReturned f (piecesData f'.pieces) s
    else s.withAe { s.ae with fallback := some f' }

/-! ## The commands -/

/-- APPLY_START (R110). -/
def execApplyStart (s : State) : Host.Outcome State Fault Refusal :=
  live (fun s => match startable s.cc with
    | some rec => if s.ae.mode == .idle && mayApply s.cc then startApply rec s else s
    | none => s) s

/-- HOME_WRITE_HAND (R111, R112, R114). -/
def execHomeWriteHand (us : List Upset) (s : State) : Host.Outcome State Fault Refusal :=
  live (fun s0 =>
    let s := applyUpsets us s0
    match s.ae.mode, s.ae.next, currentRecord s with
    | .walking, some i, some rec => walkStep rec i s
    | _, _, _ => s) s

end Sys2Proof.Machine
end

