-- ==== Sys2Proof/Machine/ReadPath.lean ====
section
/-! DEFINITION. Pass-through requests in the memory port: the outcome of a piece, the completion of a request record and the
response it gives (R133, R134, R138, R147), and the withdrawal at the drain (R148). -/

namespace Sys2Proof.Machine

/-- Some piece of the record is READY or ISSUED, so the record has not completed (R147). -/
def passOpen (r : PassRecord) : Bool := r.pieces.any fun p => p.state == .ready || p.state == .issued

/-- The outcome of a completed record (R147). -/
def passAnswer (r : PassRecord) : Answer :=
  if r.pieces.any fun p => p.state == .withdrawn then .power
  else if r.pieces.any fun p => p.state == .completedErr then .memError
  else .ok

/-- The overlay of the merge slot that a read holds (R128). -/
def slotOverlay (slots : List (Option MergeSlot)) (id : HostId) : Option (List (Option Byte)) :=
  slots.findSome? fun m => match m with
    | some m => if m.id = id then some m.overlay else none
    | none => none

/-- The bytes of a read answered OK: the overlay entry where it holds a value, otherwise the byte from memory (R133). -/
def readResult (r : PassRecord) (overlay : List (Option Byte)) : List Byte :=
  (List.range r.length).map fun j =>
    match overlay.getD j none with
    | some b => b
    | none => (r.buffer.getD j none).getD (Config.unsentByte j)

/-- Free the merge slot that a read holds (R133). -/
def freeSlot (id : HostId) (slots : List (Option MergeSlot)) : List (Option MergeSlot) :=
  slots.map fun m => match m with
    | some m => if m.id = id then none else some m
    | none => none

/-- The data of the response: read data for a READ answered OK, none otherwise (R3, R133, R134). -/
def passData (r : PassRecord) (slots : List (Option MergeSlot)) : List Byte :=
  if r.kind = .read ∧ passAnswer r = .ok then readResult r ((slotOverlay slots r.id).getD []) else []

/-- The completion of record `k`, when none of its pieces is READY or ISSUED: the response is produced, slot and record are
freed, the id leaves the set, and each freeing evaluates a head request that holds on it (R133, R134, R147). -/
def completePass (k : Nat) (s : State) : State :=
  match s.mp.records.getD k none with
  | none => s
  | some r =>
    if passOpen r then s else
    let data := passData r s.hp.slots
    let held := r.kind == .read && (slotOverlay s.hp.slots r.id).isSome
    let s1 := s.withMp { s.mp with records := s.mp.records.set k none }
    let s2 := s1.withHp { s1.hp with slots := if held then freeSlot r.id s1.hp.slots else s1.hp.slots }
    let s3 := respondOwed r.id (passAnswer r) data s2
    evaluate .recordFreed (if held then evaluate .slotFreed s3 else s3)

/-- Copy what a read piece returned into the record's buffer (R138, R147). -/
def fillBuffer (off : Nat) (bytes : List Byte) (buffer : List (Option Byte)) : List (Option Byte) :=
  buffer.zipIdx.map fun p => if off ≤ p.2 ∧ p.2 < off + bytes.length then bytes[p.2 - off]? else p.1

/-- Set the state of piece `i` of a record. -/
def setPassPiece (i : Nat) (st : PassPieceState) (r : PassRecord) : PassRecord :=
  { r with pieces := r.pieces.zipIdx.map fun p => if p.2 = i then { p.1 with state := st } else p.1 }

/-- A piece of a pass-through request completes at its first outcome: bytes for OK, none for ERR or a timeout (R147). -/
def passPieceDone (k i : Nat) (outcome : Option (List Byte)) (s : State) : State :=
  match s.mp.records.getD k none with
  | none => s
  | some r =>
    let r' := match outcome with
      | some bytes =>
        let off := ((r.pieces.map PassPiece.offset).getD i 0)
        let r1 := setPassPiece i .completedOk r
        if r.kind = .read then { r1 with buffer := fillBuffer off bytes r1.buffer } else r1
      | none => setPassPiece i .completedErr r
    completePass k (s.withMp { s.mp with records := s.mp.records.set k (some r') })

/-- A piece of a request record is granted an entry (R138). -/
def passPieceIssued (k i : Nat) (s : State) : State :=
  match s.mp.records.getD k none with
  | none => s
  | some r => s.withMp { s.mp with records := s.mp.records.set k (some (setPassPiece i .issued r)) }

/-- READY pieces of a record become WITHDRAWN (R148). -/
def withdrawPassPieces (r : PassRecord) : PassRecord :=
  { r with pieces := r.pieces.map fun p => if p.state = .ready then { p with state := .withdrawn } else p }

/-- At the entry to DRAINING every PASS piece not issued is withdrawn, and the records left with no ISSUED piece complete at
once, lowest-numbered first (R148, R150, log 6). -/
def withdrawPass (s : State) : State :=
  let s1 := s.withMp { s.mp with readyPass := [], records := s.mp.records.map fun r => r.map withdrawPassPieces }
  (List.range Config.passRecords).foldl (fun t k => completePass k t) s1

end Sys2Proof.Machine
end

