-- ==== Sys2Proof/Machine/Recovery.lean ====
section
/-! DEFINITION. The recovery engine (10_commit_path_states_start_up_and_recovery.md): FORMAT (R158, R159), the scan, its tests and
replay (R161 to R164), the closing anchor (R165), and failures (R166). -/

namespace Sys2Proof.Machine

/-! ## The end of a command -/

/-- The command ends with a result: status DONE, CMD_DONE set; the group counts stand beside an OK recovery (R155, R185). -/
def endCommand (res : ResultCode) (s : State) : State :=
  let counted := res == .ok && s.cc.command != some .format
  setCause .cmdDone (s.withCc { s.cc with
    status := .done, result := some res
    replayed := if counted then s.re.replayed else 0
    skipped := if counted then s.re.skipped else 0 })

/-- RE becomes IDLE with the chosen anchor, the group and the map absent or empty (R160). That the replay in-flight set is emptied too,
when a command has failed or was interrupted, is DESIGN CHOICE: R160 does not name it (log 35). The reads, the header unit, the held
record and the owed result are the model's own fields (log 19). -/
def idleRecovery (re : RecoveryEngine) : RecoveryEngine :=
  { re with mode := .idle, chosen := none, group := none, map := [], replaySet := [], reads := [], header := [],
            held := none, owed := none }

/-- The path leaves FORMATTING or RECOVERING: HP resumes at the head (R9, R14, R152). -/
def leaveStartUp (p : PathState) (s : State) : State :=
  evaluate .pathChanged (s.withCc { s.cc with path := p })

/-- LE's figures as FORMAT or recovery sets them (R106). -/
def openLog (p : Nat) (epoch : Epoch) (slot : Nat) (seq : Word32) (le : LogEngine) : LogEngine :=
  { le with head := p, tail := p, reclaim := p, used := 0, reclaimable := 0, epoch := epoch, slot := some slot,
            seq := seq, anchor := none }

/-- RE withdraws its requests and waits in ENDING for its ISSUED pieces; `owed` is the result the command then ends with (R166). -/
def failRecovery (res : ResultCode) (s : State) : State :=
  withdrawRequests isRecoveryOwner (s.withRe { s.re with mode := .ending, owed := some res })

/-! ## Requests of RE -/

/-- RE hands an APPLY read of `len` bytes (R158, R162 to R164). -/
def handRecoveryRead (what : RecoveryRequest) (addr len : Nat) (s : State) : State :=
  let s1 := handRequest (Owner.recovery what) .read addr len none [] s
  s1.withRe { s.re with reads := s.re.reads ++ [⟨what, freshMarks (handedPieces s addr len)⟩] }

/-- RE hands a read of `n` ring units at `p`. -/
def handUnitRead (what : RecoveryRequest) (p n : Nat) (s : State) : State :=
  handRecoveryRead what (unitAddr s.mg.cfg p) (32 * n) s

/-- RE hands an anchor write to a slot (R159, R165). -/
def handAnchorWrite (what : RecoveryRequest) (slot : Nat) (bytes : List Byte) (s : State) : State :=
  handRequest (Owner.recovery what) .write (slotAddr s.mg.cfg slot) 64 none bytes s

/-- At the entry to FORMATTING or RECOVERING, RE reads both anchor slots (R158, R161). That its two group counts are 0 from the entry on,
FORMAT included, is DESIGN CHOICE: R161 sets them to 0 once a current anchor is found, and no rule names them before that or in FORMAT
(log 36). -/
def readSlots (s : State) : State :=
  handRecoveryRead (.anchorRead 1) (slotAddr s.mg.cfg 1) 64
    (handRecoveryRead (.anchorRead 0) (slotAddr s.mg.cfg 0) 64
      (s.withRe { idleRecovery s.re with mode := .anchorRead, replayed := 0, skipped := 0 }))

/-! ## FORMAT -/

/-- The other of the two slots. -/
def flipSlot (k : Nat) : Nat := if k = 0 then 1 else 0

/-- Both slots have been read for FORMAT: the new epoch, and the write to the first slot (R158, R159). -/
def beginFormat (current : Option Anchor) (s : State) : State :=
  let epoch := match current with | some a => a.epoch + 1 | none => 1
  let first := match current with | some a => flipSlot a.slot | none => 0
  handAnchorWrite (.slotWrite false) first (anchorRecord 1 epoch s.mg.cfg.sizeExp 0 1)
    (s.withRe { s.re with mode := .formatWrite, newEpoch := epoch, firstSlot := first, reads := [] })

/-- The first slot's write is acknowledged: the other slot is written (R159). -/
def formatSecond (s : State) : State :=
  handAnchorWrite (.slotWrite true) (flipSlot s.re.firstSlot) (anchorRecord 2 s.re.newEpoch s.mg.cfg.sizeExp 0 1) s

/-- The second slot's write is acknowledged: the log opens empty and the path becomes RUN (R159). -/
def formatDone (s : State) : State :=
  let s1 := s.withLe (openLog 0 s.re.newEpoch (flipSlot s.re.firstSlot) 2 s.le)
  let s2 := endCommand .ok (s1.withCc { s1.cc with next := 1 })
  leaveStartUp .run (s2.withRe (idleRecovery s2.re))

/-! ## The scan -/

/-- RE tests the group start at p (R162). -/
def scanStart (s : State) : State := handUnitRead .startUnit s.re.p 1 (s.withRe { s.re with mode := .scan, reads := [] })

/-- The scan ends at p: the closing anchor (R165). -/
def closeScan (s : State) : State :=
  let (slot, seq) := match s.re.chosen with | some a => (a.slot, a.seq) | none => (1, 0)
  handAnchorWrite .closing (flipSlot slot)
    (anchorRecord (seq + 1) (s.re.e + 1) s.mg.cfg.sizeExp s.re.p s.re.c)
    (s.withRe { s.re with mode := .close, reads := [] })

/-- The closing anchor is acknowledged: the log opens at p under the next epoch and the path becomes RUN (R165). -/
def closeDone (s : State) : State :=
  let (slot, seq) := match s.re.chosen with | some a => (a.slot, a.seq) | none => (1, 0)
  let s1 := s.withLe (openLog s.re.p (s.re.e + 1) (flipSlot slot) (seq + 1) s.le)
  let s2 := endCommand .ok (s1.withCc { s1.cc with next := s.re.c })
  leaveStartUp .run (s2.withRe (idleRecovery s2.re))

/-- The offset after a group of `g` units at `p` (R87, R162). -/
def nextStart (u p g : Nat) : Nat := if p + g = u then 0 else p + g

/-- The scan moves past the group under test: the next group start, with the next commit number (R162, R164). -/
def passGroup (g : Nat) (s : State) : State :=
  scanStart (s.withRe { s.re with p := nextStart (ringU s) s.re.p g, c := s.re.c + 1, group := none, map := [] })

/-- Both slots have been read for recovery (R161). -/
def beginScan (current : Option Anchor) (s : State) : State :=
  match current with
  | none => leaveStartUp .unconfigured (let s1 := endCommand .noAnchor s; s1.withRe (idleRecovery s1.re))
  | some a => scanStart (s.withRe { s.re with
      chosen := some a, e := a.epoch, p := a.tail, c := a.commit, replayed := 0, skipped := 0 })

/-- The unit at p has been read (R162, 1 and 2). -/
def startUnitRead (bs : List Byte) (s : State) : State :=
  let u := ringU s
  if passesPad u s.re.e s.re.c s.re.p bs then scanStart (s.withRe { s.re with p := 0 })
  else match passesHdr u s.re.e s.re.c s.re.p bs with
    | none => closeScan s
    | some (n, g) =>
      let t := s.re.p + g - 1
      handUnitRead .trailerUnit t 1 (s.withRe { s.re with group := some ⟨n, g, t⟩ })

/-- RE reads the header unit of data record i, or ends the scan, or enters REPLAY (R163). -/
def verifyNext (gr : GroupUnderTest) (s : State) : State :=
  if gr.n < s.re.i then
    if s.re.q = gr.t then
      match s.re.map with
      | [] => closeScan s
      | (q1, r1) :: _ => handUnitRead .secondReading q1 r1 (s.withRe { s.re with mode := .replay, i := 1, held := none })
    else closeScan s
  else if gr.t ≤ s.re.q then closeScan s
  else handUnitRead .datHeader s.re.q 1 s

/-- The unit at the trailer's offset has been read (R162, 3). -/
def trailerUnitRead (bs : List Byte) (s : State) : State :=
  match s.re.group with
  | none => closeScan s
  | some gr =>
    match passesTrl (ringU s) s.re.e s.re.c gr.t (gr.n + 1) bs with
    | none => closeScan s
    | some true => passGroup gr.g (s.withRe { s.re with skipped := s.re.skipped + 1 })
    | some false => verifyNext gr (s.withRe { s.re with mode := .verify, map := [], i := 1, q := s.re.p + 1 })

/-- The header unit of data record i has been read (R163, 2 and 3). -/
def datHeaderRead (bs : List Byte) (s : State) : State :=
  match s.re.group with
  | none => closeScan s
  | some gr =>
    match passesDatHeader s.re.e s.re.c s.re.i s.re.q gr.t bs with
    | none => closeScan s
    | some f => handUnitRead .datRest (s.re.q + 1) (f.units - 1) (s.withRe { s.re with header := bs })

/-- The rest of data record i has been read: the check code, and the map entry (R163, 3 and 4). -/
def datRestRead (bs : List Byte) (s : State) : State :=
  match s.re.group with
  | none => closeScan s
  | some gr =>
    let f := datFields s.re.header
    if codeChecks s.re.header (payloadOf f bs) then
      verifyNext gr (s.withRe { s.re with
        map := s.re.map ++ [(s.re.q, f.units)], q := s.re.q + f.units, i := s.re.i + 1, header := [] })
    else closeScan s

/-! ## Replay -/

/-- The second reading of record i has returned (R164). -/
def secondReadingDone (bs : List Byte) (s : State) : State :=
  match s.re.group, s.re.map[s.re.i - 1]? with
  | some gr, some (qi, ri) =>
    match passesDat s.re.e s.re.c s.re.i qi gr.t bs with
    | some w => if 32 * ri = bs.length ∧ (datFields bs).units = ri then s.withRe { s.re with held := some w }
                else failRecovery .replayFailed s
    | none => failRecovery .replayFailed s
  | _, _ => failRecovery .replayFailed s

/-- The home write in hand may be handed: the previous write is issued and no write in the set shares a byte (R164). -/
def replayReady (s : State) (w : RecordWrite) : Bool :=
  !(s.mp.readyApply.any fun p => p.retry == 0 && (match p.owner with | .recovery (.replayWrite _) _ => true | _ => false)) &&
  !(s.re.replaySet.any fun x => rangesMeet w.addr.toNat w.length x.addr.toNat x.length)

/-- RE hands the home write of record i and the second reading of the next record (R164). -/
def handReplay (gr : GroupUnderTest) (w : RecordWrite) (s : State) : State :=
  let i := s.re.i
  let x : ReplayWrite := ⟨i, w.addr, w.length, freshMarks (handedPieces s w.addr.toNat w.length)⟩
  let s1 := handRequest (Owner.recovery (.replayWrite i)) .write w.addr.toNat w.length w.mask w.data s
  let s2 := s1.withRe { s.re with replaySet := s.re.replaySet ++ [x], held := none, i := i + 1 }
  if i < gr.n then
    match s.re.map[i]? with
    | some (q, r) => handUnitRead .secondReading q r s2
    | none => s2
  else s2

/-- Write n has been handed and the set is empty: the group is replayed (R164). -/
def replayGroupEnd (s : State) : State :=
  match s.re.group with
  | none => s
  | some gr =>
    if s.re.mode = .replay ∧ gr.n < s.re.i ∧ s.re.replaySet = [] then
      passGroup gr.g (s.withRe { s.re with replayed := s.re.replayed + 1 })
    else s

/-- A piece of a replay write is acknowledged (R164). -/
def replayPieceAcked (i k : Nat) (s : State) : State :=
  match s.re.replaySet.find? fun x => x.index == i with
  | none => s
  | some x =>
    let ms := markPiece k (.done []) x.pieces
    if allDone ms then
      replayGroupEnd (s.withRe { s.re with replaySet := s.re.replaySet.filter fun y => y.index != i })
    else s.withRe { s.re with
      replaySet := s.re.replaySet.map fun y => if y.index = i then { y with pieces := ms } else y }

/-! ## Outcomes -/

/-- Both anchor-slot reads have returned OK (R158, R161). -/
def slotsRead (s : State) : State :=
  let bytesOf := fun slot =>
    ((s.re.reads.find? fun r => r.what == .anchorRead slot).map fun r => piecesData r.pieces).getD []
  let k := s.mg.cfg.sizeExp
  let current := chooseAnchor (readAnchor k 0 (bytesOf 0)) (readAnchor k 1 (bytesOf 1))
  if s.cc.path = .formatting then beginFormat current s else beginScan current s

/-- A read of RE other than an anchor read has returned whole. -/
def recoveryReadDone (what : RecoveryRequest) (bs : List Byte) (s : State) : State :=
  match what with
  | .startUnit => startUnitRead bs s
  | .trailerUnit => trailerUnitRead bs s
  | .datHeader => datHeaderRead bs s
  | .datRest => datRestRead bs s
  | .secondReading => secondReadingDone bs s
  | .anchorRead _ => s
  | .replayWrite _ => s
  | .slotWrite _ => s
  | .closing => s

/-- RE uses no outcome in IDLE or ENDING (R154, R166). -/
def recoveryListens (re : RecoveryEngine) : Bool := re.mode != .idle && re.mode != .ending

/-- The request is a read of an anchor slot. -/
def isAnchorRead : RecoveryRequest → Bool
  | .anchorRead _ => true
  | _ => false

/-- A piece of a read of RE has returned its bytes (R146). -/
def recoveryPieceRead (what : RecoveryRequest) (k : Nat) (bytes : List Byte) (s : State) : State :=
  if recoveryListens s.re then
    let reads := s.re.reads.map fun r => if r.what = what then { r with pieces := markPiece k (.done bytes) r.pieces } else r
    let s1 := s.withRe { s.re with reads := reads }
    if isAnchorRead what then
      if reads.all fun r => allDone r.pieces then slotsRead s1 else s1
    else match reads.find? fun r => r.what == what with
      | none => s1
      | some r =>
        if allDone r.pieces then
          recoveryReadDone what (piecesData r.pieces) (s1.withRe { s1.re with reads := reads.filter fun x => x.what != what })
        else s1
  else s

/-- A piece of a write of RE is acknowledged (R159, R164, R165). -/
def recoveryPieceAcked (what : RecoveryRequest) (k : Nat) (s : State) : State :=
  if recoveryListens s.re then
    match what with
    | .slotWrite false => formatSecond s
    | .slotWrite true => formatDone s
    | .closing => closeDone s
    | .replayWrite i => replayPieceAcked i k s
    | _ => s
  else s

/-- The result of a final failure (R158, R159, R166). -/
def failureResult (path : PathState) : RecoveryRequest → ResultCode
  | .anchorRead _ => if path = .formatting then .formatFailed else .readFailed
  | .startUnit => .readFailed
  | .trailerUnit => .readFailed
  | .datHeader => .readFailed
  | .datRest => .readFailed
  | .secondReading => .replayFailed
  | .replayWrite _ => .replayFailed
  | .slotWrite _ => .formatFailed
  | .closing => .anchorFailed

/-- A piece of RE fails for good (R166). -/
def recoveryPieceFailed (what : RecoveryRequest) (s : State) : State :=
  if recoveryListens s.re then failRecovery (failureResult s.cc.path what) s else s

/-! ## The command REPLAY_WRITE_HAND -/

/-- REPLAY_WRITE_HAND (R164). -/
def execReplayWriteHand (s : State) : Host.Outcome State Fault Refusal :=
  live (fun s => match s.re.mode, s.re.group, s.re.held with
    | .replay, some gr, some w => if replayReady s w then handReplay gr w s else s
    | _, _, _ => s) s

end Sys2Proof.Machine
end

