-- ==== Sys2Proof/Machine/PathStates.lean ====
section
/-! DEFINITION. The commit path's changes of state: the start-up commands (R155), quiesce and its discard step (R156, R157), the end
of a failed command (R166), the power-fail drain and SAFE (R154, R170 to R173), RESET_N and power-on (R168). -/

namespace Sys2Proof.Machine

/-! ## What an event leaves due (log 2) -/

/-- No piece of RE is ISSUED in ENDING (R154, R166). -/
def endingDue (s : State) : Bool := s.re.mode == .ending && issuedCount isRecoveryOwner s.mp == 0

/-- RE leaves ENDING: a failed command ends with its result and the path becomes UNCONFIGURED; after an entry to DRAINING the
command has ended already and RE only becomes IDLE (R154, R166). -/
def endingSettle (s : State) : State :=
  if endingDue s then
    match s.re.owed with
    | some res => leaveStartUp .unconfigured (let s1 := endCommand res s; s1.withRe (idleRecovery s1.re))
    | none => s.withRe (idleRecovery s.re)
  else s

/-- The condition of the discard step (R157). -/
def discardDue (s : State) : Bool :=
  s.cc.path == .stopped && s.cc.quiesce.isSome && (loggingRecord s.cc).isNone && s.le.anchor.isNone &&
  s.mp.records.all Option.isNone && issuedCount (fun _ => true) s.mp == 0

/-- The path state that a start-up command leads to (R152). -/
def startUpPath : Command → PathState
  | .format => .formatting
  | .recover => .recovering
  | .restart => .recovering

/-- The path enters FORMATTING or RECOVERING and RE reads both anchor slots (R158, R161). -/
def enterStartUp (c : Command) (s : State) : State := readSlots (s.withCc { s.cc with path := startUpPath c })

/-- Records not yet answered, in queue order (R73). -/
def unanswered (cc : CommitControl) : List CommitRecord := cc.queue.filter fun r => r.state == .queued || r.state == .logging

/-- The discard step of quiesce for command `c` (R157). -/
def discard (c : Command) (s : State) : State :=
  let s1 := (unanswered s.cc).foldl (fun t r => respondOwed r.hostId .stopped [] t) s
  let s2 := idleContexts s1
  let s3 := s2.withSs (refillPools s2.ss)
  let s4 := s3.withHp { s3.hp with slots := s3.hp.slots.map fun _ => none }
  let s5 := s4.withAe ApplyEngine.reset
  enterStartUp c (s5.withCc { s5.cc with queue := [], stopLog := false, stopApply := false, quiesce := none })

/-- The discard step, when its condition holds (R157). -/
def quiesceSettle (s : State) : State :=
  if discardDue s then (match s.cc.quiesce with | some c => discard c s | none => s) else s

/-- The drain progress as its owners stand (R172). -/
def drainNow (s : State) : DrainProgress :=
  ⟨(loggingRecord s.cc).isSome, s.le.anchor.isSome, issuedCount (fun _ => true) s.mp⟩

/-- PF follows the drain progress in DRAINING (R172). -/
def followDrain (s : State) : State := if s.cc.path = .draining then s.withPf { s.pf with drain := some (drainNow s) } else s

/-- Every indication of the drain progress is clear (R173). -/
def drainClear (d : DrainProgress) : Bool := !d.logging && !d.anchor && d.issued == 0

/-- The path becomes SAFE, PSAFE is asserted and the SAFE cause is set (R173). -/
def enterSafe (s : State) : State :=
  setCause .safe ((s.withCc { s.cc with path := .safe }).withPf { s.pf with psafe := true, drain := some ⟨false, false, 0⟩ })

/-- The drain progress is followed, and the path becomes SAFE when it is clear (R172, R173). -/
def drainSettle (s : State) : State :=
  if s.cc.path = .draining ∧ drainClear (drainNow s) = true then enterSafe s else followDrain s

/-- What an event leaves due is done in the same event: the end of a failed command, the discard step, the entry to SAFE
(R157, R166, R173; log 2). -/
def settle (s : State) : State := drainSettle (quiesceSettle (endingSettle s))

/-! ## The entry to DRAINING -/

/-- A BUSY command ends INTERRUPTED, a quiesce without its discard step (R154). -/
def interruptCommand (s : State) : State :=
  let s1 := if s.cc.status = .busy then endCommand .interrupted s else s
  s1.withCc { s1.cc with quiesce := none }

/-- The request that holds the port is answered POWER, a write in stage wait included (R10, R27). -/
def powerHead (s : State) : State :=
  if s.hp.hold.isSome then answerHead .power (s.withSs { s.ss with timer := none }) else s

/-- Every context becomes IDLE; the OPEN lists are released in one event, tag 1 first (R56). -/
def discardGroups (s : State) : State := releaseEvent (openLists s) (idleContexts s)

/-- RE withdraws its requests and waits for its ISSUED pieces (R154). -/
def interruptRecovery (s : State) : State :=
  if s.re.mode = .idle then s
  else withdrawRequests isRecoveryOwner (s.withRe { s.re with mode := .ending, owed := none })

/-- The QUEUED records are dropped with reason POWER, and what stands finished at the head is removed (R69, R71). -/
def dropForPower (s : State) : State :=
  removeHeads (dropRecords (fun r => r.state == .queued) .power .failedPower s)

/-- The entry to DRAINING, every block's reaction in one event (R154, R171; the order is log 6). -/
def enterDraining (s : State) : State :=
  interruptRecovery (haltApply (dropForPower (discardGroups (withdrawPass (powerHead (interruptCommand
    (s.withCc { s.cc with path := .draining })))))))

/-! ## Start-up commands -/

/-- CC takes a command: status BUSY, the command recorded, the result absent (R155). -/
def takenCommand (c : Command) (s : State) : State :=
  s.withCc { s.cc with status := .busy, command := some c, result := none, replayed := 0, skipped := 0 }

/-- CC refuses a command for the state (R155, R185). -/
def refusedCommand (c : Command) (s : State) : State :=
  s.withCc { s.cc with status := .refusedState, command := some c, result := none, replayed := 0, skipped := 0 }

/-- Quiesce begins (R156). -/
def beginQuiesce (c : Command) (s : State) : State := haltApply (s.withCc { s.cc with quiesce := some c })

/-- The table of R155 for a command that reaches CC while none is BUSY. -/
def controllerTakes (c : Command) (s : State) : State :=
  match s.cc.path, c with
  | .unconfigured, .format => enterStartUp .format (takenCommand .format s)
  | .unconfigured, .recover => enterStartUp .recover (takenCommand .recover s)
  | .stopped, .format => settle (beginQuiesce .format (takenCommand .format s))
  | .stopped, .restart => settle (beginQuiesce .restart (takenCommand .restart s))
  | _, c => refusedCommand c s

/-! ## RESET_N and power-on -/

/-- Every block at its reset values (R168). The command queue, the requests that the host holds on its channel and the level of
PFW_N are not the device's and stay. -/
def resetBlocks (s : State) : State :=
  { State.reset with
    pending := s.pending
    hp := { HostPort.reset with channel := s.hp.channel }
    pf := { PowerFail.reset with pfwLow := s.pf.pfwLow } }

/-- The device starts: the intake queue accepts what waits on the channel, and a low PFW_N starts a drain at once (R1, R154, R168). -/
def startDevice (s : State) : State :=
  let s1 := acceptWaiting (resetBlocks s)
  if s1.pf.pfwLow then settle (enterDraining s1) else s1

/-! ## The commands -/

/-- QUIESCE_DISCARD (R157). -/
def execQuiesceDiscard (s : State) : Host.Outcome State Fault Refusal := live quiesceSettle s

/-- ENDING_COMPLETE (R166). -/
def execEndingComplete (s : State) : Host.Outcome State Fault Refusal := live endingSettle s

/-- SAFE (R173). -/
def execSafe (s : State) : Host.Outcome State Fault Refusal := live drainSettle s

/-- PFW_N_FALL (R170): the line goes low; while RESET_N is deasserted the qualification begins. -/
def execPfwNFall (s : State) : Host.Outcome State Fault Refusal :=
  .next (if s.pf.pfwLow then s else s.withPf { s.pf with pfwLow := true, qualifying := !s.pf.resetAsserted })

/-- PFW_N_RISE (R170): the line goes high and a qualification under way ends. -/
def execPfwNRise (s : State) : Host.Outcome State Fault Refusal :=
  .next (s.withPf { s.pf with pfwLow := false, qualifying := false })

/-- PFW_N_ASSERTION (R154, R170): the qualification has run out; outside DRAINING and SAFE the path enters DRAINING. -/
def execPfwNAssertion (s : State) : Host.Outcome State Fault Refusal :=
  live (fun s =>
    if s.pf.qualifying then
      let s1 := s.withPf { s.pf with qualifying := false }
      if s.cc.path = .draining ∨ s.cc.path = .safe then s1 else settle (enterDraining s1)
    else s) s

/-- RESET_N_ASSERT (R168, log 11). -/
def execResetNAssert (s : State) : Host.Outcome State Fault Refusal :=
  let s1 := resetBlocks s
  .next (s1.withPf { s1.pf with resetAsserted := true })

/-- RESET_N_DEASSERT (R168): the line goes high after an assertion. -/
def execResetNDeassert (s : State) : Host.Outcome State Fault Refusal :=
  .next (if s.pf.resetAsserted then startDevice s else s)

/-- POWER_ON (R168, log 12). -/
def execPowerOn (s : State) : Host.Outcome State Fault Refusal := .next (startDevice s)

end Sys2Proof.Machine
end

