-- ==== Sys2Proof/Machine/Management.lean ====
section
/-! DEFINITION. The management port (12_management_port.md): the register window, read frames and write frames, commands and the
frame status. Each frame is one command (log 16). -/

namespace Sys2Proof.Machine

/-! ## The register window (R181) -/

/-- The readings of the window, one constructor per kind of register (R181). -/
inductive Register where
  | config (index : Nat)
  | command
  | commandStatus
  | replayed
  | skipped
  | causes
  | path
  | captured (index : Nat)
  | starved (pool : Pool)
  | counter (index : Nat)
  | tagA (tag : Nat)
  | tagB (tag : Nat)
  | unlisted
  deriving DecidableEq, Repr

/-- The register at an address (R181, R182). -/
def registerAt (a : BitVec 16) : Register :=
  let n := a.toNat
  if n ≤ 0x0008 then .config n
  else if n = 0x0010 then .command
  else if n = 0x0011 then .commandStatus
  else if n = 0x0012 then .replayed
  else if n = 0x0013 then .skipped
  else if n = 0x0018 then .causes
  else if n = 0x0020 then .path
  else if 0x0021 ≤ n ∧ n ≤ 0x002A then .captured (n - 0x0020)
  else if n = 0x0030 then .starved .descriptors
  else if n = 0x0031 then .starved .segments
  else if 0x0032 ≤ n ∧ n ≤ 0x0036 then .counter (n - 0x0031)
  else if 0x0101 ≤ n ∧ n ≤ 0x013F then .tagA (n - 0x0100)
  else if 0x0141 ≤ n ∧ n ≤ 0x017F then .tagB (n - 0x0140)
  else .unlisted

/-- The value of a configuration register (R181, R183). -/
def configValue (c : Settings) : Nat → Word32
  | 0 => BitVec.ofNat 32 c.logBase.toNat
  | 1 => BitVec.ofNat 32 (c.logBase.toNat / 2 ^ 32)
  | 2 => BitVec.ofNat 32 c.sizeExp
  | 3 => BitVec.ofNat 32 c.burstCode
  | 4 => BitVec.ofNat 32 c.retryLimit
  | 5 => c.timeout.setWidth 32
  | 6 => c.stageWait.setWidth 32
  | 7 => BitVec.ofNat 32 c.quantumCode
  | 8 => c.enables.setWidth 32
  | _ => 0

/-- Write a value into a configuration register; none when it is outside the field's range (R183). -/
def setConfig (c : Settings) (index : Nat) (v : Word32) : Option Settings :=
  let n := v.toNat
  match index with
  | 0 => some { c with logBase := BitVec.ofNat 40 (c.logBase.toNat / 2 ^ 32 * 2 ^ 32 + n) }
  | 1 => if n ≤ 0xFF then some { c with logBase := BitVec.ofNat 40 (n * 2 ^ 32 + c.logBase.toNat % 2 ^ 32) } else none
  | 2 => if 16 ≤ n ∧ n ≤ 30 then some { c with sizeExp := n } else none
  | 3 => if n ≤ 2 then some { c with burstCode := n } else none
  | 4 => if n ≤ 3 then some { c with retryLimit := n } else none
  | 5 => if n ≤ 65535 then some { c with timeout := BitVec.ofNat 16 n } else none
  | 6 => if n ≤ 65535 then some { c with stageWait := BitVec.ofNat 16 n } else none
  | 7 => if n ≤ 2 then some { c with quantumCode := n } else none
  | 8 => some { c with enables := v.setWidth 7 }
  | _ => none

/-! ## Captures (R186, R187) -/

/-- Every figure of the status block from its owner (R186). -/
def captureNow (s : State) : StatusCapture :=
  { path := s.cc.path, stopLog := s.cc.stopLog, stopApply := s.cc.stopApply, quiesce := s.cc.quiesce.isSome,
    pfwLow := s.pf.pfwLow, psafe := s.pf.psafe, freeDescs := s.ss.descPool.length, freeSegs := s.ss.segPool.length,
    occupancy := s.cc.queue.length, oldest := oldestNumber s.cc, next := s.cc.next, head := s.le.head, tail := s.le.tail,
    used := s.le.used, epoch := s.le.epoch, orphaned := s.mp.orphaned }

/-- The figure of the captured block at 0020h + `index` (R186). -/
def capturedFigure (c : StatusCapture) : Nat → Word32
  | 1 => BitVec.ofNat 32 c.freeDescs
  | 2 => BitVec.ofNat 32 c.freeSegs
  | 3 => BitVec.ofNat 32 c.occupancy
  | 4 => c.oldest
  | 5 => c.next
  | 6 => BitVec.ofNat 32 c.head
  | 7 => BitVec.ofNat 32 c.tail
  | 8 => BitVec.ofNat 32 c.used
  | 9 => c.epoch.setWidth 32
  | 10 => BitVec.ofNat 32 c.orphaned
  | _ => 0

/-- The four figures of a tag's context (R55, R187). -/
def captureTag (t : Nat) (s : State) : TagCapture :=
  let c := ctxOf s (BitVec.ofNat 6 t)
  ⟨BitVec.ofNat 6 t, c.state, c.reason, c.count, c.bytes⟩

/-- The counters that a read leaves as they are (R188). -/
def counterValue (s : State) : Nat → Word32
  | 1 => s.ss.corrected
  | 2 => s.ss.uncorrectable
  | 3 => s.mp.errors
  | 4 => s.mp.timeouts
  | 5 => s.mp.strays
  | _ => 0

/-! ## Reads -/

/-- A read of word A: the tag is captured (R187). -/
def readTagA (t : Nat) (s : State) : Word32 × State :=
  let c := captureTag t s
  (tagWordA c, s.withMg { s.mg with tagCapture := some c })

/-- A read of word B: from the capture when it holds the tag, otherwise after a capture (R187). -/
def readTagB (t : Nat) (s : State) : Word32 × State :=
  match s.mg.tagCapture with
  | some c => if c.tag = BitVec.ofNat 6 t then (tagWordB c, s)
              else let c' := captureTag t s; (tagWordB c', s.withMg { s.mg with tagCapture := some c' })
  | none => let c' := captureTag t s; (tagWordB c', s.withMg { s.mg with tagCapture := some c' })

/-- A read of a starvation counter returns its value and clears it (R188). -/
def readStarved (p : Pool) (s : State) : Word32 × State :=
  match p with
  | .descriptors => (s.ss.starveDesc.setWidth 32, s.withSs { s.ss with starveDesc := 0 })
  | .segments => (s.ss.starveSeg.setWidth 32, s.withSs { s.ss with starveSeg := 0 })

/-- The value and the effect of the read of a register, one event at the end of the address field (R179, R181 to R188). -/
def readRegister (a : BitVec 16) (s : State) : Word32 × State :=
  match registerAt a with
  | .config i => (configValue s.mg.cfg i, s)
  | .command => (0, s)
  | .commandStatus => (commandStatusWord s.cc, s)
  | .replayed => (s.cc.replayed, s)
  | .skipped => (s.cc.skipped, s)
  | .causes => (s.mg.causes.setWidth 32, s)
  | .path => let c := captureNow s; (pathStatusWord c, s.withMg { s.mg with capture := c })
  | .captured i => (capturedFigure s.mg.capture i, s)
  | .starved p => readStarved p s
  | .counter i => (counterValue s i, s)
  | .tagA t => readTagA t s
  | .tagB t => readTagB t s
  | .unlisted => (0, s)

/-! ## Writes -/

/-- What the frame of a write of a known command code reports: taken, and command busy while the status is BUSY (R185). -/
def commandFrame (s : State) : FrameStatus := { FrameStatus.clear with taken := true, busy := s.cc.status == .busy }

/-- A known command reaches CC unless the status is BUSY (R155, R185). -/
def commandEvent (c : Command) (s : State) : State := if s.cc.status = .busy then s else controllerTakes c s

/-- The command of a code (R185). -/
def commandOf (v : Word32) : Option Command :=
  if v = 1 then some .format else if v = 2 then some .recover else if v = 3 then some .restart else none

/-- The indications of a write frame, fixed from the state at the write's event (R180 to R185). -/
def writeFrame (a : BitVec 16) (v : Word32) (s : State) : FrameStatus :=
  match registerAt a with
  | .config i => { FrameStatus.clear with
      taken := true, locked := s.cc.path != .unconfigured, refused := (setConfig s.mg.cfg i v).isNone }
  | .command => match commandOf v with
    | some _ => commandFrame s
    | none => { FrameStatus.clear with taken := true, refused := true }
  | .causes => { FrameStatus.clear with taken := true }
  | _ => { FrameStatus.clear with taken := true, badAddress := true }

/-- The cause register after a write of `v`: each cause whose bit is 1 is cleared (R189). -/
def clearCauses (v : Word32) (s : State) : State := s.withMg { s.mg with causes := s.mg.causes &&& ~~~ (v.setWidth 7) }

/-- The effect of a write to a configuration register (R183, R184). -/
def writeConfig (i : Nat) (v : Word32) (s : State) : State :=
  match setConfig s.mg.cfg i v with
  | some c => if s.cc.path = .unconfigured then s.withMg { s.mg with cfg := c } else s
  | none => s

/-- The effect of a write frame (R182 to R185, R189). -/
def writeRegister (a : BitVec 16) (v : Word32) (s : State) : State :=
  match registerAt a with
  | .config i => writeConfig i v s
  | .command => match commandOf v with
    | some c => commandEvent c s
    | none => s
  | .causes => clearCauses v s
  | _ => s

/-! ## Frames -/

/-- The first `sent` bits of a field of `w` bits that goes out most significant bit first; the bits that were not clocked out
read 0 (R179, log 16). -/
def firstBits {w : Nat} (sent : Nat) (v : BitVec w) : BitVec w :=
  if w ≤ sent then v else v >>> (w - sent) <<< (w - sent)

/-- The end of a frame of `bits` bits: MISO carried the status of the frame before, as far as it was clocked out, and `data`; the
frame's own status is fixed (R179, R180). -/
def endFrame (f : FrameStatus) (bits : Nat) (data : Word32) (s : State) : State :=
  s.withMg { s.mg with misoStatus := firstBits bits (frameByte s.mg.frame), misoData := data, frame := f }

/-- The status of a whole read frame (R180, R182). A read of the command register sets no indication, "taken" included: R182 says so
of this one register, against the row of R180 (log 31). -/
def readFrame (a : BitVec 16) : FrameStatus :=
  match registerAt a with
  | .command => FrameStatus.clear
  | r => { FrameStatus.clear with taken := true, badAddress := r == .unlisted }

/-- A whole read frame. -/
def readWhole (a : BitVec 16) (s : State) : State :=
  let r := readRegister a s
  endFrame (readFrame a) 56 r.1 r.2

/-- A whole write frame. -/
def writeWhole (a : BitVec 16) (v : Word32) (s : State) : State := endFrame (writeFrame a v s) 56 0 (writeRegister a v s)

/-- The address of word A of a tag (R181). -/
def tagAddrA (t : Tag) : BitVec 16 := 0x0100#16 + t.setWidth 16

/-- The address of word B of a tag (R181). -/
def tagAddrB (t : Tag) : BitVec 16 := 0x0140#16 + t.setWidth 16

/-- The address of a starvation counter (R181). -/
def starveAddr : Pool → BitVec 16
  | .descriptors => 0x0030
  | .segments => 0x0031

/-- A read frame cut short after the address field has been taken with its effects; MISO carried the first of the value's bits
(R179, log 16). Of an unlisted address the manual leaves open whether "taken" and "bad address" stand beside "incomplete": R182 gives
the two because the frame was received whole, and R179 calls a read whose address field is complete taken. The model sets all three
(log 32). -/
def cutRead (a : BitVec 16) (bits : Nat) (s : State) : State :=
  let r := readRegister a s
  endFrame { readFrame a with incomplete := true } bits (firstBits (bits - 24) r.1) r.2

/-- A frame that is not whole, or whose command byte is unknown (R179, R180). A frame of which no whole command byte was
received has no command (log 16). A whole frame of a known command is not one of these, and the command then does nothing (log 1). -/
def incompleteFrame (cmd : BitVec 8) (bits : Nat) (a : BitVec 16) (s : State) : State :=
  if 56 ≤ bits ∧ (cmd = 0xC1 ∨ cmd = 0xC2) then s
  else if cmd = 0xC1 ∧ 24 ≤ bits then cutRead a bits s
  else endFrame { FrameStatus.clear with incomplete := true } bits 0 s

/-- The effect of a frame of `bits` bits with its command byte, address and data (R179): C1h reads, C2h writes, any other command
byte and any frame cut short is incomplete, and the bits after the 56th are ignored. The law `exec_commandOfFrame` says that the
command which `commandOfFrame` reads from a frame's bits does just this. -/
def takeFrame (cmd : BitVec 8) (a : BitVec 16) (v : Word32) (bits : Nat) (s : State) : State :=
  if bits < 56 then incompleteFrame cmd bits a s
  else if cmd = 0xC1 then readWhole a s
  else if cmd = 0xC2 then writeWhole a v s
  else incompleteFrame cmd bits a s

/-! ## The commands -/

/-- STATUS_CAPTURE (R186): a read frame; at 0020h it captures the status block (log 14). -/
def execStatusCapture (a : BitVec 16) (s : State) : Host.Outcome State Fault Refusal :=
  live (takeFrame 0xC1#8 a 0 56) s

/-- PER_TAG_WORD_A (R187). -/
def execPerTagWordA (t : Tag) (s : State) : Host.Outcome State Fault Refusal :=
  live (takeFrame 0xC1#8 (tagAddrA t) 0 56) s

/-- PER_TAG_WORD_B (R187). -/
def execPerTagWordB (t : Tag) (s : State) : Host.Outcome State Fault Refusal :=
  live (takeFrame 0xC1#8 (tagAddrB t) 0 56) s

/-- STARVATION_COUNTER_READ (R188). -/
def execStarvationCounterRead (p : Pool) (s : State) : Host.Outcome State Fault Refusal :=
  live (takeFrame 0xC1#8 (starveAddr p) 0 56) s

/-- INTERRUPT_CAUSE_CLEAR (R189). -/
def execInterruptCauseClear (v : Word32) (s : State) : Host.Outcome State Fault Refusal :=
  live (takeFrame 0xC2#8 0x0018 v 56) s

/-- REGISTER_WRITE (R182 to R185). -/
def execRegisterWrite (a : BitVec 16) (v : Word32) (s : State) : Host.Outcome State Fault Refusal :=
  live (takeFrame 0xC2#8 a v 56) s

/-- FORMAT (R155): code 1 written to the command register. -/
def execFormat (s : State) : Host.Outcome State Fault Refusal :=
  live (takeFrame 0xC2#8 0x0010 1 56) s

/-- RECOVER (R155): code 2 written to the command register. -/
def execRecover (s : State) : Host.Outcome State Fault Refusal :=
  live (takeFrame 0xC2#8 0x0010 2 56) s

/-- RESTART (R155): code 3 written to the command register. -/
def execRestart (s : State) : Host.Outcome State Fault Refusal :=
  live (takeFrame 0xC2#8 0x0010 3 56) s

/-- UNKNOWN_COMMAND_CODE (R185): another code written to the command register. -/
def execUnknownCommandCode (v : Word32) (s : State) : Host.Outcome State Fault Refusal :=
  live (takeFrame 0xC2#8 0x0010 v 56) s

/-- INCOMPLETE_FRAME (R179). -/
def execIncompleteFrame (cmd : BitVec 8) (bits : Nat) (a : BitVec 16) (s : State) : Host.Outcome State Fault Refusal :=
  live (incompleteFrame cmd bits a) s

end Sys2Proof.Machine
end

