-- ==== Sys2Proof/Machine/MemoryPort.lean ====
section
/-! DEFINITION. The memory port (09_memory_port.md): the arbiter, the request channel, responses, timeouts, retries and the reports
to the owners. -/

namespace Sys2Proof.Machine

/-! ## The arbiter (R139, R140) -/

/-- The classes in cyclic order from the one the pointer names (R140). -/
def rotation : RequestClass → List RequestClass
  | .pass => [.pass, .log, .apply]
  | .log => [.log, .apply, .pass]
  | .apply => [.apply, .pass, .log]

/-- The class after another in the cyclic order (R140). -/
def classAfter : RequestClass → RequestClass
  | .pass => .log
  | .log => .apply
  | .apply => .pass

/-- ISSUED entries of a class (R139). -/
def classIssued (c : RequestClass) (mp : MemoryPort) : Nat := issuedCount (fun o => ownerClass o == c) mp

/-- The class has a ready piece and is below its cap (R140). -/
def eligible (mp : MemoryPort) (c : RequestClass) : Bool :=
  !(readyOf mp c).isEmpty && decide (classIssued c mp < classCap c)

/-- The class that the next grant goes to (R140). -/
def winner (mp : MemoryPort) : Option RequestClass := (rotation mp.pointer).find? (eligible mp)

/-- The lowest-numbered FREE entry (R140). -/
def freeEntry (mp : MemoryPort) : Option Nat := mp.entries.findIdx? isFree

/-- A piece as it stands on the memory request channel with its entry's index as id (R135). -/
def channelRequest (k : Nat) (p : Piece) : MemRequest := ⟨k, p.kind, p.addr, p.length, p.mask, p.data⟩

/-- The grant of entry `k` to the head piece of a class (R140). -/
def placePiece (c : RequestClass) (k : Nat) (p : Piece) (mp : MemoryPort) : MemoryPort :=
  { setReady c (readyOf mp c).tail mp with
    entries := mp.entries.set k (.issued p none false)
    pointer := classAfter c
    channel := mp.channel ++ [channelRequest k p] }

/-- What an owner does when a piece of its is granted an entry for the first time (R94, R138, R146). -/
def firstGrant (p : Piece) (s : State) : State :=
  match p.owner with
  | .pass k i => passPieceIssued k i s
  | .group (.dat _ d unit) 0 => if p.retry = 0 then setLogPos d unit s else s
  | _ => s

/-- One grant, when a FREE entry and an eligible class exist (R140). -/
def grantOne (s : State) : State :=
  match winner s.mp, freeEntry s.mp with
  | some c, some k =>
    match readyOf s.mp c with
    | p :: _ => followDrain (firstGrant p (s.withMp (placePiece c k p s.mp)))
    | [] => s
  | _, _ => s

/-! ## The request channel (R141) -/

/-- The timer that an entry is loaded with: none with a timeout of 0 (R141). -/
def loadedTimer (cfg : Settings) : Option (BitVec 16) := if cfg.timeout = 0 then none else some cfg.timeout

/-- The entry of an accepted piece with its timer loaded (R141). -/
def startTimer (t : Option (BitVec 16)) : Entry → Entry
  | .issued p _ w => .issued p t w
  | e => e

/-- The channel accepts the piece at its head; when a later piece on the channel has the same entry, the entry's timer waits for
that one (R141, log 17). -/
def acceptPiece (s : State) : State :=
  match s.mp.channel with
  | [] => s
  | m :: rest =>
    let entries := if rest.any fun x => x.id == m.id then s.mp.entries
      else s.mp.entries.modify m.id (startTimer (loadedTimer s.mg.cfg))
    s.withMp { s.mp with channel := rest, entries := entries }

/-! ## Outcomes (R142 to R147) -/

/-- The report of an acknowledged write piece (R146). -/
def reportAcked (o : Owner) (s : State) : State :=
  match o with
  | .pass k i => passPieceDone k i (some []) s
  | .group part _ => groupPieceAcked part s
  | .anchor => anchorAcked s
  | .home d k => homePieceAcked d k s
  | .fallback _ => s
  | .recovery what k => recoveryPieceAcked what k s

/-- The report of a read piece with its data (R146). -/
def reportRead (o : Owner) (bytes : List Byte) (s : State) : State :=
  match o with
  | .pass k i => passPieceDone k i (some bytes) s
  | .fallback k => fallbackPiece k (.done bytes) s
  | .recovery what k => recoveryPieceRead what k bytes s
  | _ => s

/-- The report of a piece that has failed for good (R146). -/
def reportFailed (o : Owner) (s : State) : State :=
  match o with
  | .pass k i => passPieceDone k i none s
  | .group part _ => groupPieceFailed (isTrailer part) s
  | .anchor => anchorFailed s
  | .home d _ => homePieceFailed d s
  | .fallback k => fallbackPiece k .failed s
  | .recovery what _ => recoveryPieceFailed what s

/-- A failed attempt is tried again (R145): not a PASS piece, below the limit, and its request not withdrawn. -/
def triesAgain (cfg : Settings) (p : Piece) (withdrawn : Bool) : Bool :=
  ownerClass p.owner != .pass && decide (p.retry < cfg.retryLimit) && !withdrawn

/-- The new piece of a retry, at the head of its class's ready list (R145). -/
def retryPiece (p : Piece) (s : State) : State :=
  let c := ownerClass p.owner
  s.withMp (setReady c ({ p with retry := p.retry + 1 } :: readyOf s.mp c) s.mp)

/-- A failed attempt goes to the retry service, or is reported (R145, R147). -/
def attemptFailed (p : Piece) (withdrawn : Bool) (s : State) : State :=
  if triesAgain s.mg.cfg p withdrawn then retryPiece p s else reportFailed p.owner s

/-- A successful attempt is reported: a write acknowledged, a read with the data as it comes (R142, R146). -/
def attemptOk (p : Piece) (data : List Byte) (s : State) : State :=
  match p.kind with
  | .write => reportAcked p.owner s
  | .read => reportRead p.owner (fixBytes p.length data) s

/-- An entry takes another state. -/
def setEntry (k : Nat) (e : Entry) (s : State) : State := s.withMp { s.mp with entries := s.mp.entries.set k e }

/-- A response to an ISSUED entry (R142). -/
def pieceResponse (k : Nat) (p : Piece) (withdrawn : Bool) (st : MemStatus) (data : List Byte) (s : State) : State :=
  let s1 := setEntry k .free s
  match st with
  | .ok => attemptOk p data s1
  | .err => attemptFailed p withdrawn (s1.withMp { s1.mp with errors := s1.mp.errors + 1 })

/-- A late response (R144). -/
def lateResponse (k : Nat) (s : State) : State :=
  let s1 := setEntry k .free s
  s1.withMp { s1.mp with orphaned := s1.mp.orphaned - 1 }

/-- A stray response (R144). -/
def strayResponse (s : State) : State := s.withMp { s.mp with strays := s.mp.strays + 1 }

/-- A memory-side response, matched to its entry by its id alone (R135, R142, R144). -/
def takeResponse (k : Nat) (st : MemStatus) (data : List Byte) (s : State) : State :=
  match s.mp.entries.getD k .free with
  | .free => strayResponse s
  | .orphaned _ => lateResponse k s
  | .issued p _ w => settle (pieceResponse k p w st data s)

/-- The entry becomes ORPHANED and the timeout is counted (R143). -/
def orphanEntry (k : Nat) (p : Piece) (s : State) : State :=
  let s1 := setEntry k (.orphaned p) s
  setCause .orphan (s1.withMp { s1.mp with timeouts := s1.mp.timeouts + 1, orphaned := s1.mp.orphaned + 1 })

/-- The timer of an entry runs out (R143). An entry with no running timer has none to run out (R141). -/
def expireEntry (k : Nat) (s : State) : State :=
  match s.mp.entries.getD k .free with
  | .issued p (some _) w => settle (attemptFailed p w (orphanEntry k p s))
  | _ => s

/-! ## The commands -/

/-- ARBITER_GRANT (R140). -/
def execArbiterGrant (s : State) : Host.Outcome State Fault Refusal :=
  live (fun s => if s.cc.path = .safe then s else grantOne s) s

/-- CHANNEL_ACCEPT (R141). -/
def execChannelAccept (s : State) : Host.Outcome State Fault Refusal := live acceptPiece s

/-- MEMORY_RESPONSE (R142, R144). -/
def execMemoryResponse (id : MemId) (st : MemStatus) (data : List Byte) (s : State) : Host.Outcome State Fault Refusal :=
  live (takeResponse id.toNat st data) s

/-- RESPONSE_TIMEOUT (R143). -/
def execResponseTimeout (entry : MemId) (s : State) : Host.Outcome State Fault Refusal := live (expireEntry entry.toNat) s

end Sys2Proof.Machine
end

