-- ==== Sys2Proof/Machine/Dispatch.lean ====
section
/-! DEFINITION. The dispatch of a command to its meaning: one arm per row of the table. -/

namespace Sys2Proof.Machine

/-- The effect of a command on everything but the command queue. -/
def exec (i : Instr) (s : State) : Host.Outcome State Fault Refusal :=
  match i with
  | .hostRequestAccept r => Sys2Proof.Machine.execHostRequestAccept r s
  | .read upsets => Sys2Proof.Machine.execRead upsets s
  | .write => Sys2Proof.Machine.execWrite s
  | .commit => Sys2Proof.Machine.execCommit s
  | .abort => Sys2Proof.Machine.execAbort s
  | .foldOver => Sys2Proof.Machine.execFoldOver s
  | .foldUnder => Sys2Proof.Machine.execFoldUnder s
  | .responseDelivery => Sys2Proof.Machine.execResponseDelivery s
  | .stageWaitExpiry => Sys2Proof.Machine.execStageWaitExpiry s
  | .loggingStart => Sys2Proof.Machine.execLoggingStart s
  | .logRecordHand upsets => Sys2Proof.Machine.execLogRecordHand upsets s
  | .trailerHand => Sys2Proof.Machine.execTrailerHand s
  | .voidTrailerHand => Sys2Proof.Machine.execVoidTrailerHand s
  | .anchorWriteRequest => Sys2Proof.Machine.execAnchorWriteRequest s
  | .applyStart => Sys2Proof.Machine.execApplyStart s
  | .homeWriteHand upsets => Sys2Proof.Machine.execHomeWriteHand upsets s
  | .arbiterGrant => Sys2Proof.Machine.execArbiterGrant s
  | .channelAccept => Sys2Proof.Machine.execChannelAccept s
  | .memoryResponse id status data => Sys2Proof.Machine.execMemoryResponse id status data s
  | .responseTimeout entry => Sys2Proof.Machine.execResponseTimeout entry s
  | .format => Sys2Proof.Machine.execFormat s
  | .recover => Sys2Proof.Machine.execRecover s
  | .restart => Sys2Proof.Machine.execRestart s
  | .unknownCommandCode code => Sys2Proof.Machine.execUnknownCommandCode code s
  | .quiesceDiscard => Sys2Proof.Machine.execQuiesceDiscard s
  | .replayWriteHand => Sys2Proof.Machine.execReplayWriteHand s
  | .endingComplete => Sys2Proof.Machine.execEndingComplete s
  | .pfwNFall => Sys2Proof.Machine.execPfwNFall s
  | .pfwNRise => Sys2Proof.Machine.execPfwNRise s
  | .pfwNAssertion => Sys2Proof.Machine.execPfwNAssertion s
  | .safe => Sys2Proof.Machine.execSafe s
  | .resetNAssert => Sys2Proof.Machine.execResetNAssert s
  | .resetNDeassert => Sys2Proof.Machine.execResetNDeassert s
  | .powerOn => Sys2Proof.Machine.execPowerOn s
  | .statusCapture addr => Sys2Proof.Machine.execStatusCapture addr s
  | .perTagWordA tag => Sys2Proof.Machine.execPerTagWordA tag s
  | .perTagWordB tag => Sys2Proof.Machine.execPerTagWordB tag s
  | .starvationCounterRead pool => Sys2Proof.Machine.execStarvationCounterRead pool s
  | .interruptCauseClear value => Sys2Proof.Machine.execInterruptCauseClear value s
  | .registerWrite addr value => Sys2Proof.Machine.execRegisterWrite addr value s
  | .incompleteFrame cmd bits addr => Sys2Proof.Machine.execIncompleteFrame cmd bits addr s
  | .unknownMarkerCode => Sys2Proof.Machine.execUnknownMarkerCode s

end Sys2Proof.Machine
end

