-- ==== Sys2Proof/Safety.lean ====
section
/-! DEFINITION. The terms in which claims are made: what a command that takes a request needs, how the host port stands when a head request
has left it, what a failed attempt at a piece, a release, an evaluation anew, a stop and the end of a start-up command leave, and what a
sound state is: the order of the commit queue, the request that holds the port, the holders of descriptors, the responses owed, the
outstanding table, the ring's figures, and that nothing is left due. -/

namespace Sys2Proof.Machine

/-! ## Commands that take a request -/

/-- The command names requests like `r` (R7). -/
def namesRequest : Instr → HostRequest → Bool
  | .read _, r => isRead r
  | .write, r => isWrite r
  | .commit, r => isMarker .commit r
  | .abort, r => isMarker .abort r
  | .foldOver, r => isMarker .foldOver r
  | .foldUnder, r => isMarker .foldUnder r
  | .unknownMarkerCode, r => isUnknownMarker r
  | _, _ => false

/-- The changed bits that come in with a command (log 7). -/
def upsetsOf : Instr → List Upset
  | .read us => us
  | .logRecordHand us => us
  | .homeWriteHand us => us
  | _ => []

/-- RESET_N is deasserted. -/
abbrev Live (s : State) : Prop := s.pf.resetAsserted = false

/-- Command `c` takes the head request `r` (R4). -/
abbrev Takes (c : Instr) (s : State) (r : HostRequest) : Prop :=
  Live s ∧ s.hp.intake.head? = some r ∧ canTake s = true ∧ namesRequest c r = true

/-- `Takes`, and the request passes the protocol checks outside DRAINING and SAFE (R4, R5). -/
abbrev TakesSound (c : Instr) (s : State) (r : HostRequest) : Prop :=
  Takes c s r ∧ s.cc.path ≠ .draining ∧ s.cc.path ≠ .safe ∧ protocolError s.hp.inflight r = false

/-- One more response place is reserved (R3). -/
def reservePlace (s : State) : State := s.withHp { s.hp with reserved := s.hp.reserved + 1 }

/-- The host port when its head request has left: a waiting request is accepted into the free place (R1, R4). -/
def headLeft (hp : HostPort) : HostPort :=
  { hp with intake := hp.intake.tail ++ hp.channel.take (16 - hp.intake.tail.length)
            channel := hp.channel.drop (16 - hp.intake.tail.length), hold := none }

/-- The host port when its head request `r` has been taken and answered at intake (R3, R4). -/
def headAnswered (hp : HostPort) (r : HostRequest) (a : Answer) : HostPort :=
  { headLeft hp with responses := hp.responses ++ [⟨r.id, a, []⟩] }

/-- The host port when its head request has been taken and dispatched: one place reserved, the id in flight (R3, R6). -/
def headDispatched (hp : HostPort) (r : HostRequest) : HostPort :=
  { headLeft hp with reserved := hp.reserved + 1, inflight := hp.inflight ++ [r.id] }

/-- The host port when its head request has been taken and holds on `c` (R11). -/
def headHolds (hp : HostPort) (c : HoldCondition) : HostPort := { hp with reserved := hp.reserved + 1, hold := some c }

/-- The host port when a request `r` that held it has been answered in the place reserved for it (R11, R12). -/
def holdAnswered (hp : HostPort) (r : HostRequest) (a : Answer) : HostPort :=
  { headAnswered hp r a with reserved := hp.reserved - 1 }

/-- The host port when a request `r` that held it has been dispatched: its place stays reserved, and its id is in flight (R6, R12). -/
def holdDispatched (hp : HostPort) (r : HostRequest) : HostPort := { headLeft hp with inflight := hp.inflight ++ [r.id] }

/-- The host port when an owed response has been produced in its reserved place, and the id has left the set (R3, R6). -/
def owedAnswered (hp : HostPort) (x : Response) : HostPort :=
  { hp with responses := hp.responses ++ [x], reserved := hp.reserved - 1, inflight := hp.inflight.filter fun y => y != x.id }

/-- A READ, or an untagged WRITE: the requests of the read path (R8). -/
def onReadPath (r : HostRequest) : Bool := isRead r || (isWrite r && r.tag == 0)

/-- The request is of a class that can hold on the condition (R11). -/
def holdsRightly : HoldCondition → HostRequest → Bool
  | .hazardOverlap, r => onReadPath r
  | .noMergeSlot, r => isRead r
  | .passListFull, r => onReadPath r
  | .commitQueueFull, r => isMarker .commit r
  | .stageWait, r => isWrite r && r.tag != 0

/-! ## What a command hands or ends -/

/-- The memory port with more pieces at the tail of the LOG ready list (R136). -/
def logHanded (mp : MemoryPort) (ps : List Piece) : MemoryPort := { mp with readyLog := mp.readyLog ++ ps }

/-- The memory port with more pieces at the tail of the APPLY ready list (R136). -/
def applyHanded (mp : MemoryPort) (ps : List Piece) : MemoryPort := { mp with readyApply := mp.readyApply ++ ps }

/-- The memory port when request `r` has been dispatched into request record `m` (R136 to R138). -/
def passSent (cfg : Settings) (mp : MemoryPort) (m : Nat) (r : HostRequest) : MemoryPort :=
  { mp with
    records := mp.records.set m (some (newPassRecord (burst cfg) r (passKind r)))
    readyPass := mp.readyPass ++ cutRequest (burst cfg) (Owner.pass m) (passKind r) r.addr.toNat r.length
      (if r.kind = .write then writeMask r else none) (if r.kind = .write then writeData r else []) }

/-- The memory port when an entry has become FREE (R142). -/
def entryFreed (mp : MemoryPort) (id : MemId) : MemoryPort := { mp with entries := mp.entries.set id.toNat .free }

/-- No failed command waits for its end, and no quiesce and no drain is under way, so that an event leaves nothing else due
(R157, R166, R172). -/
abbrev Settled (s : State) : Prop := s.re.mode ≠ .ending ∧ s.cc.quiesce = none ∧ s.cc.path ≠ .draining

/-- No failed command is overdue and no quiesce is under way, so that an event leaves nothing due but the drain (R154, R157, R166). -/
abbrev Quiet (s : State) : Prop := (s.re.mode = .ending → issuedCount isRecoveryOwner s.mp ≠ 0) ∧ s.cc.quiesce = none

/-- What DRAINING makes of an event that leaves `u` otherwise: the drain progress is followed, and the path becomes SAFE when nothing
is LOGGING, in flight or ISSUED. In the other path states the event leaves `u` (R172, R173). -/
def afterDrain (u : State) : State :=
  let now : DrainProgress := ⟨(loggingRecord u.cc).isSome, u.le.anchor.isSome, issuedCount (fun _ => true) u.mp⟩
  if u.cc.path = .draining then
    if now = ⟨false, false, 0⟩ then
      ((u.withCc { u.cc with path := .safe }).withPf { u.pf with psafe := true, drain := some now }).withMg
        { u.mg with causes := u.mg.causes ||| 64#7 }
    else u.withPf { u.pf with drain := some now }
  else u

/-- Quiesce is under way in STOPPED, and no failed command waits (R156). -/
abbrev Quiescing (s : State) : Prop := s.cc.path = .stopped ∧ s.cc.quiesce ≠ none ∧ s.re.mode ≠ .ending

/-- What an event that leaves `u` otherwise comes to: during quiesce the discard step is taken when it is due, as QUIESCE_DISCARD takes
it, and with no quiesce the drain is followed (R157, R172, R173). -/
def afterEvent (u : State) : State := if u.cc.quiesce = none then afterDrain u else quiesceSettle u

/-! ## Failed attempts (R142, R143, R145) -/

/-- The event ends the attempt in entry `id` as a failure: an ERR response, or the expiry of the running timer (R142, R143). -/
def AttemptFails (c : Instr) (id : MemId) (timer : Option (BitVec 16)) : Prop :=
  (∃ data, c = .memoryResponse id .err data) ∨ (c = .responseTimeout id ∧ timer ≠ none)

/-- The memory port after a failed attempt of piece `p`: after an ERR the entry is FREE and the error counted; after a timeout the
entry is ORPHANED and both figures have risen (R142, R143, R149). -/
def failureMp (c : Instr) (id : MemId) (p : Piece) (mp : MemoryPort) : MemoryPort :=
  if c = .responseTimeout id then
    { mp with entries := mp.entries.set id.toNat (.orphaned p), timeouts := mp.timeouts + 1, orphaned := mp.orphaned + 1 }
  else { entryFreed mp id with errors := mp.errors + 1 }

/-- The management port after a failed attempt: a timeout has set ORPHAN (R143). -/
def failureMg (c : Instr) (id : MemId) (mg : Management) : Management :=
  if c = .responseTimeout id then { mg with causes := mg.causes ||| 32#7 } else mg

/-- The state after a failed attempt, before the retry or the report. -/
def afterFailure (c : Instr) (id : MemId) (p : Piece) (s : State) : State :=
  (s.withMp (failureMp c id p s.mp)).withMg (failureMg c id s.mg)

/-- The event fails piece `p` of a LOG or APPLY request in entry `id` for good: its retry count has reached the limit, or its request
has been withdrawn (R145, R148). -/
def FailsForGood (c : Instr) (id : MemId) (s : State) (p : Piece) : Prop :=
  ∃ timer w, s.mp.entries.getD id.toNat .free = .issued p timer w ∧ AttemptFails c id timer ∧
    (s.mg.cfg.retryLimit ≤ p.retry ∨ w = true)

/-- The memory port when the requests of an owner have been withdrawn: their pieces have left the ready lists, and an ISSUED one is not
tried again (R148). -/
def withdrawnMp (sel : Owner → Bool) (mp : MemoryPort) : MemoryPort :=
  { mp with
    readyLog := mp.readyLog.filter fun p => !sel p.owner
    readyApply := mp.readyApply.filter fun p => !sel p.owner
    entries := mp.entries.map (markWithdrawn sel) }

/-! ## Releases, removals and evaluations -/

/-- The descriptors `ds` have gone to the pool tails in this order, their segments after one another, every field but the index has
become absent, and the stored bytes stay (R33). -/
structure Released (ds : List Nat) (s t : State) : Prop where
  descPool : t.ss.descPool = s.ss.descPool ++ ds
  segPool : ds.Nodup → t.ss.segPool = s.ss.segPool ++ ds.flatMap fun i => (descAt s i).segs
  fields : ∀ i, lookupDesc t.ss.descs i = if i ∈ ds then none else lookupDesc s.ss.descs i
  cells : t.ss.cells = s.ss.cells

/-- The log engine when the records `gone` have been removed from the queue: their spans are reclaimable and the reclaim point has
moved over them (R98). -/
def retired (u : Nat) (gone : List CommitRecord) (le : LogEngine) : LogEngine :=
  let n := (gone.map spanUnits).sum
  { le with reclaimable := le.reclaimable + n, reclaim := if gone = [] then le.reclaim else (le.reclaim + n) % u }

/-- The log engine when the LOGGING record has left LOGGING: head and used units have advanced by its span (R96, R97, R102). -/
def spanConsumed (u : Nat) (sp : Span) (le : LogEngine) : LogEngine :=
  { le with head := (sp.start + sp.length) % u, used := le.used + sp.length, job := none }

/-- A read or an untagged write `r` that held the port has been evaluated anew in the state that `t` shows, with the host port and the
memory port `hp` and `mp` before the evaluation: BLOCKED, a hold, or dispatch into the lowest-numbered FREE record
(R11, R13, R125 to R127). `own` says that it is a read whose tag was OPEN then, so that its merge slot comes between. -/
structure PassEvaluated (own : Bool) (r : HostRequest) (hp : HostPort) (mp : MemoryPort) (t : State) : Prop where
  blocked : overlapsSide homeSide t r.addr.toNat r.length = true → t.cc.stopApply = true →
    t.hp = holdAnswered hp r .blocked ∧ t.mp = mp
  holds : overlapsSide (fun st => loggingSide st || homeSide st) t r.addr.toNat r.length = true →
    (overlapsSide homeSide t r.addr.toNat r.length && t.cc.stopApply) = false →
    t.hp = { hp with hold := some .hazardOverlap } ∧ t.mp = mp
  full : overlapsSide (fun st => loggingSide st || homeSide st) t r.addr.toNat r.length = false → own = false →
    firstAbsent mp.records = none → t.hp = { hp with hold := some .passListFull } ∧ t.mp = mp
  sent : overlapsSide (fun st => loggingSide st || homeSide st) t r.addr.toNat r.length = false → own = false →
    ∀ m, firstAbsent mp.records = some m → t.hp = holdDispatched hp r ∧ t.mp = passSent t.mg.cfg mp m r

/-- A write `r` in stage wait has been tested after a release that left the store as `u`, with the host port `hp` before the test: it is
staged when its segments suffice, and else waits on (R25, R41). -/
structure StageTested (u : Staging) (hp : HostPort) (r : HostRequest) (s t : State) : Prop where
  staged : needSegs r.length ≤ u.segPool.length →
    t.hp = holdAnswered hp r .ok ∧ t.ss = { allocate r u with timer := none } ∧
    ctxOf t r.tag = ⟨.opened, (ctxOf s r.tag).writes ++ [u.descPool.headD 0], (ctxOf s r.tag).count + 1,
      (ctxOf s r.tag).bytes + r.length,
      (if (ctxOf s r.tag).state = .opened then (ctxOf s r.tag).units else 2) + dataUnits r.length (writeMask r).isSome, none⟩
  waits : u.segPool.length < needSegs r.length → t.hp = hp ∧ t.ss = u ∧ t.gt = s.gt

/-- A COMMIT `r` that held on a full queue has been evaluated anew in RUN after a removal left the records `q`, with the host port `hp`
before it: of an OPEN group that fits the ring, it is accepted (R61, R71). -/
def CommitAccepted (q : List CommitRecord) (hp : HostPort) (r : HostRequest) (s t : State) : Prop :=
  let c := ctxOf s r.tag
  c.state = .opened → c.units ≤ ringU s / 2 → q.length < 32 → q.length < s.cc.queue.length →
    t.hp = holdDispatched hp r ∧ t.cc = { s.cc with
      queue := q ++ [⟨s.cc.next, r.id, c.writes, c.count, c.units, none, .queued, none⟩], next := s.cc.next + 1 }

/-- AE when it has handed the home write `h` of record `rec` at the walk position of `s`: the write joins the handed set, the position
rises by one, and the next descriptor is the list's entry there, absent at n + 1, when AE settles. The entries not yet handed are the
last ones of the list, since a list loses only handed ones (R108, R112, R116). -/
def walkedOn (rec : CommitRecord) (s : State) (h : HandedWrite) : ApplyEngine :=
  let atEnd := rec.count < s.ae.walk + 1
  { s.ae with
    mode := if atEnd then .settling else .walking
    walk := s.ae.walk + 1
    next := if atEnd then none else rec.writes[rec.writes.length + s.ae.walk - rec.count]?
    handed := s.ae.handed ++ [h]
    fallback := none }

/-- An apply failure of descriptor `i` in RUN, or in STOPPED without the APPLY stop cause, has stopped the path: the cause is added, AE
is HALTED with `i` in the failed set and its unissued pieces withdrawn, from RUN every OPEN group has faulted, and the request that
holds the port has been evaluated anew or answered NOLOG out of stage wait (R14, R27, R45, R117, R118, R148, R153). `mp` is the
memory port that the event leaves but for this. -/
structure ApplyStopped (i : Nat) (mp : MemoryPort) (s t : State) : Prop where
  path : t.cc = { s.cc with path := .stopped, stopApply := true }
  cause : causeIn .stopApply t.mg.causes = true
  engine : t.ae.mode = .halted ∧ t.ae.failed = s.ae.failed ++ [i] ∧ t.ae.current = s.ae.current ∧ t.ae.walk = s.ae.walk
  withdrawn : t.mp.readyApply = mp.readyApply.filter fun p => !isApplyOwner p.owner
  issued : t.mp.entries.map issuedPiece = mp.entries.map issuedPiece
  fromRun : s.cc.path = .run → Released (openLists s) s t ∧ (∀ c ∈ t.gt.ctxs, c.state ≠ .opened)
  fromStopped : s.cc.path = .stopped → (∀ c ∈ s.gt.ctxs, c.state ≠ .opened) → t.ss = s.ss
  log : t.le = s.le
  noHold : s.hp.hold = none → t.hp = s.hp
  stageWait : ∀ r, s.cc.path = .run → s.hp.hold = some .stageWait → s.hp.intake.head? = some r →
    t.hp = holdAnswered s.hp r .nolog ∧ t.ss.timer = none
  readPath : ∀ h r, s.hp.hold = some h → h ≠ .stageWait → s.hp.intake.head? = some r → onReadPath r = true →
    PassEvaluated (s.cc.path == .stopped && needsSlot r s) r s.hp (withdrawRequests isApplyOwner (s.withMp mp)).mp t
  commit : ∀ r, s.hp.hold = some .commitQueueFull → s.hp.intake.head? = some r → t.hp = holdAnswered s.hp r .stopped

/-! ## The log stop -/

/-- The host port when the records `gone` have been answered in this order (R3, R6, R70). -/
def recordsAnswered (hp : HostPort) (gone : List CommitRecord) (a : Answer) : HostPort :=
  { hp with
    responses := hp.responses ++ gone.map fun r => ⟨r.hostId, a, []⟩
    reserved := hp.reserved - gone.length
    inflight := hp.inflight.filter fun x => !(gone.map CommitRecord.hostId).contains x }

/-- The queue when the chosen records have become VOIDED and lost their lists (R65, R66, R69). -/
def recordsVoided (queue : List CommitRecord) (chosen : CommitRecord → Bool) (why : FailReason) : List CommitRecord :=
  queue.map fun r => if chosen r then { r with state := .voided, reason := some why, writes := [] } else r

/-- A log write failure in RUN or STOPPED has stopped the path, and the chosen records are VOIDED with reason MEDIA, answered
FAILED_MEDIA in queue order and released; what then stood finished at the head has been removed. From RUN the OPEN groups have faulted
and their lists go to the pools first. A write in stage wait is answered NOLOG before the records, a COMMIT on a full queue STOPPED
after them; that order is the model's (log 6). `le` and `mp` are the log engine and the memory port that the event leaves but for this
(R13, R14, R27, R45, R66, R71, R98, R102, R103, R153). -/
structure LogStopped (chosen : CommitRecord → Bool) (le : LogEngine) (mp : MemoryPort) (s t : State) : Prop where
  control : t.cc = { s.cc with
    queue := (recordsVoided s.cc.queue chosen .media).dropWhile fun r => finished r.state, path := .stopped, stopLog := true }
  cause : s.cc.stopLog = false → causeIn .stopLog t.mg.causes = true
  log : t.le = retired (ringU s) ((recordsVoided s.cc.queue chosen .media).takeWhile fun r => finished r.state) le
  engines : t.ae = s.ae ∧ t.re = s.re ∧ t.pf = s.pf
  port : t.mp.readyLog = mp.readyLog ∧ t.mp.readyApply = mp.readyApply ∧ t.mp.entries = mp.entries ∧ t.mp.errors = mp.errors ∧
    t.mp.orphaned = mp.orphaned
  fromRun : s.cc.path = .run → (∀ c ∈ t.gt.ctxs, c.state ≠ .opened) ∧
    Released (openLists s ++ (s.cc.queue.filter chosen).flatMap CommitRecord.writes) s t
  fromStopped : s.cc.path = .stopped → s.hp.hold ≠ some .stageWait → (∀ c ∈ s.gt.ctxs, c.state ≠ .opened) →
    Released ((s.cc.queue.filter chosen).flatMap CommitRecord.writes) s t
  noHold : s.hp.hold = none → t.hp = recordsAnswered s.hp (s.cc.queue.filter chosen) .failedMedia ∧ t.mp = mp
  stageWait : ∀ r, s.cc.path = .run → s.hp.hold = some .stageWait → s.hp.intake.head? = some r →
    t.hp = recordsAnswered (holdAnswered s.hp r .nolog) (s.cc.queue.filter chosen) .failedMedia ∧ t.mp = mp ∧ t.ss.timer = none
  commit : ∀ r, s.cc.path = .run → s.cc.stopLog = false → s.hp.hold = some .commitQueueFull → s.hp.intake.head? = some r →
    t.hp = holdAnswered (recordsAnswered s.hp (s.cc.queue.filter chosen) .failedMedia) r .stopped ∧
      (ctxOf t r.tag).state = .idle ∧ t.mp = mp
  readPath : ∀ h r, s.hp.hold = some h → s.hp.intake.head? = some r → onReadPath r = true →
    s.cc.path = .run ∨ (∀ c ∈ s.gt.ctxs, c.state ≠ .opened) → s.cc.stopLog = false ∨ h = .hazardOverlap →
    PassEvaluated false r (recordsAnswered s.hp (s.cc.queue.filter chosen) .failedMedia) mp t

/-! ## Start-up and recovery -/

/-- Response `id` with `data` gives the last outcome that RE's read `what` awaits, and the read's bytes are `bs` (R137, R146). -/
def ReadReturns (id : MemId) (data : List Byte) (s : State) (what : RecoveryRequest) (bs : List Byte) : Prop :=
  ∃ p t0 w k ms, s.mp.entries.getD id.toNat .free = .issued p t0 w ∧ p.owner = .recovery what k ∧ p.kind = .read ∧
    p.length = data.length ∧ s.re.reads.find? (fun x => x.what == what) = some ⟨what, ms⟩ ∧
    allDone (ms.set k (.done data)) = true ∧ piecesData (ms.set k (.done data)) = bs

/-- Entry `id` awaits piece `k` of RE's write `what` (R139). -/
def AwaitsWrite (id : MemId) (s : State) (what : RecoveryRequest) (k : Nat) : Prop :=
  ∃ p t0 w, s.mp.entries.getD id.toNat .free = .issued p t0 w ∧ p.owner = .recovery what k ∧ p.kind = .write

/-- The pieces of a read of `n` ring units at unit `p` that RE hands (R162 to R164). -/
def unitPieces (cfg : Settings) (what : RecoveryRequest) (p n : Nat) : List Piece :=
  cutRequest (burst cfg) (Owner.recovery what) .read (unitAddr cfg p) (32 * n) none []

/-- Such a read as RE awaits it. -/
def unitAwaited (cfg : Settings) (what : RecoveryRequest) (p n : Nat) : RecoveryRead :=
  ⟨what, List.replicate (pieceCount (burst cfg) (unitAddr cfg p) (32 * n)) .pending⟩

/-- The pieces of an anchor write that RE hands to a slot (R159, R165). -/
def slotPieces (cfg : Settings) (what : RecoveryRequest) (slot : Nat) (bytes : List Byte) : List Piece :=
  cutRequest (burst cfg) (Owner.recovery what) .write (slotAddr cfg slot) 64 none bytes

/-- A failure has ended a start-up command: RE's unissued pieces are withdrawn and RE waits in ENDING; with none of its pieces ISSUED
the command ends at once with the result, and the path is UNCONFIGURED. The log engine's figures and the next commit number stay
(R158, R166). `mp` is the memory port that the event leaves but for this. -/
structure CommandFails (res : ResultCode) (mp : MemoryPort) (s t : State) : Prop where
  withdrawn : t.mp.readyApply = mp.readyApply.filter fun p => !isRecoveryOwner p.owner
  waits : issuedCount isRecoveryOwner mp ≠ 0 → t.re.mode = .ending ∧ t.re.owed = some res ∧ t.cc = s.cc ∧ t.hp = s.hp
  ends : issuedCount isRecoveryOwner mp = 0 → t.re.mode = .idle ∧ t.cc.status = .done ∧ t.cc.result = some res ∧
    t.cc.path = .unconfigured ∧ causeIn .cmdDone t.mg.causes = true
  kept : t.le = s.le ∧ t.cc.next = s.cc.next ∧ t.cc.command = s.cc.command

/-- FORMAT or recovery has ended OK: the log opens at unit `p` under epoch `e` with the anchor of sequence `seq` in `slot` current, the
next commit number is `n`, the path is RUN, and a request that holds the port has been evaluated anew (R9, R14, R106, R159, R165). -/
structure LogOpens (p : Nat) (e : Epoch) (slot : Nat) (seq : Word32) (n : CommitNumber) (mp : MemoryPort) (s t : State) :
    Prop where
  log : t.le = { s.le with head := p, tail := p, reclaim := p, used := 0, reclaimable := 0, epoch := e, slot := some slot,
                           seq := seq, anchor := none }
  ended : t.cc.path = .run ∧ t.cc.status = .done ∧ t.cc.result = some .ok ∧ t.cc.command = s.cc.command ∧
    causeIn .cmdDone t.mg.causes = true
  counts : t.cc.replayed = (if s.cc.command = some .format then 0 else s.re.replayed) ∧
    t.cc.skipped = (if s.cc.command = some .format then 0 else s.re.skipped)
  idle : t.re.mode = .idle ∧ t.re.chosen = none ∧ t.re.group = none ∧ t.re.map = []
  number : s.hp.hold ≠ some .commitQueueFull → t.cc.next = n ∧ t.cc.queue = s.cc.queue
  noHold : s.hp.hold = none → t.hp = s.hp ∧ t.mp = mp
  readPath : ∀ h r, s.hp.hold = some h → h ≠ .stageWait → s.hp.intake.head? = some r → onReadPath r = true →
    PassEvaluated (needsSlot r s) r s.hp mp t
  commit : ∀ r, s.hp.hold = some .commitQueueFull → s.hp.intake.head? = some r → (ctxOf s r.tag).state = .idle →
    t.hp = holdAnswered s.hp r .empty ∧ t.cc.next = n

/-! ## Management frames -/

/-- The frame status with the indication taken alone (R180). -/
def takenOnly : FrameStatus := ⟨true, false, false, false, false, false⟩

/-- The management port when a whole frame has ended: its own status is fixed, and MISO carried the status of the frame before and the
value returned, which the model holds in two fields (R179, R180; log 15). -/
def frameEnded (f : FrameStatus) (v : Word32) (mg : Management) : Management :=
  { mg with misoStatus := frameByte mg.frame, misoData := v, frame := f }

/-- The management port when a frame has ended after `bits` bits: as `frameEnded`, with the bits that were not clocked out read as 0
(R179; log 16). -/
def frameCut (bits : Nat) (f : FrameStatus) (v : Word32) (mg : Management) : Management :=
  { frameEnded f (firstBits (bits - 24) v) mg with misoStatus := firstBits bits (frameByte mg.frame) }

/-! ## Frames -/

/-- The parts of the state: the command queue and the ten blocks. -/
inductive Block where
  | queue
  | hp
  | ss
  | gt
  | cc
  | le
  | ae
  | mp
  | re
  | pf
  | mg
  deriving DecidableEq, Repr

/-- A part of the state is the same in two states. -/
def sameBlock : Block → State → State → Prop
  | .queue, s, t => t.pending = s.pending
  | .hp, s, t => t.hp = s.hp
  | .ss, s, t => t.ss = s.ss
  | .gt, s, t => t.gt = s.gt
  | .cc, s, t => t.cc = s.cc
  | .le, s, t => t.le = s.le
  | .ae, s, t => t.ae = s.ae
  | .mp, s, t => t.mp = s.mp
  | .re, s, t => t.re = s.re
  | .pf, s, t => t.pf = s.pf
  | .mg, s, t => t.mg = s.mg

/-- From `s` to `t` nothing changes outside the parts listed. -/
def OnlyIn (changed : List Block) (s t : State) : Prop := ∀ b, b ∉ changed → sameBlock b s t

/-! ## Bytes of staged writes -/

/-- The byte that word-wise reading gives for byte `j` of a descriptor (R20, R29). -/
def stagedByte (s : State) (d : Descriptor) (j : Nat) : Byte := (checkWord s.ss (descWord d (j / 8))).bytes.getD (j % 8) 0

/-- The byte that descriptor `i` writes at home address `x`, when it writes that address (R129). -/
def writerByte (s : State) (x i : Nat) : Option Byte :=
  let d := descAt s i
  if d.addr.toNat ≤ x ∧ x < d.addr.toNat + d.length ∧ selects d.mask (x - d.addr.toNat) = true then
    some (stagedByte s d (x - d.addr.toNat))
  else none

/-- The byte that the last descriptor of a list to write address `x` writes there (R129). -/
def lastWritten (s : State) (x : Nat) (is : List Nat) : Option Byte := is.reverse.findSome? (writerByte s x)

/-! ## The commit queue (R58, R63, R67) -/

/-- The place of a record's state in the life of R57; VOIDED and APPLIED records have none. -/
def stageRank : RecordState → Nat
  | .applying => 0
  | .durable => 1
  | .logging => 2
  | .queued => 3
  | .applied => 4
  | .voided => 4

/-- Of two records of the queue, the one ahead is further on in its life; two may stand together only DURABLE or QUEUED. A VOIDED
record stands anywhere (R63, R67). -/
def inOrder (a b : CommitRecord) : Prop :=
  a.state = .voided ∨ b.state = .voided ∨ stageRank a.state < stageRank b.state ∨
  (a.state = b.state ∧ (a.state = .durable ∨ a.state = .queued))

/-- RE works on a command that has not ended (R160, R166). -/
def recoveryWorks (re : RecoveryEngine) : Prop := re.mode ≠ .idle ∧ (re.mode = .ending → re.owed ≠ none)

/-- The path is one in which nothing has been committed: UNCONFIGURED, FORMATTING or RECOVERING. -/
def beforeRun (p : PathState) : Prop := p = .unconfigured ∨ p = .formatting ∨ p = .recovering

/-- The commit queue is sound: at most 32 records with consecutive numbers up to the next commit number (R58), in the order of
R63 and R67, none left APPLIED (R71), VOIDED ones without a list (R65, R66), and empty before RUN (R167); RE works only in
FORMATTING and RECOVERING. -/
structure QueueSound (s : State) : Prop where
  atMost32 : s.cc.queue.length ≤ 32
  numbered : ∀ i (h : i < s.cc.queue.length), s.cc.queue[i].number = s.cc.next - BitVec.ofNat 32 (s.cc.queue.length - i)
  ordered : s.cc.queue.Pairwise inOrder
  noneApplied : ∀ r ∈ s.cc.queue, r.state ≠ .applied
  voidedEmpty : ∀ r ∈ s.cc.queue, r.state = .voided → r.writes = []
  emptyBeforeRun : beforeRun s.cc.path → s.cc.queue = []
  recoveryPath : recoveryWorks s.re → s.cc.path = .formatting ∨ s.cc.path = .recovering

/-! ## The host port (R1, R6, R11, R12) -/

/-- The request that holds the port is at the head, passes the protocol checks against the ids in flight, is of a class that can hold
on its condition, and nothing holds in DRAINING and SAFE (R5, R10 to R12). -/
structure HoldSound (s : State) : Prop where
  head : ∀ h, s.hp.hold = some h → ∃ r, s.hp.intake.head? = some r ∧ protocolError s.hp.inflight r = false ∧
    holdsRightly h r = true
  noneInDrain : s.cc.path = .draining ∨ s.cc.path = .safe → s.hp.hold = none

/-! ## Holders of descriptors (R19, R38) -/

/-- The descriptors in the groups' lists. -/
def heldByGroups (gt : GroupTable) : List Nat := gt.ctxs.flatMap Context.writes

/-- The descriptors in the commit records' lists. -/
def heldByRecords (cc : CommitControl) : List Nat := cc.queue.flatMap CommitRecord.writes

/-- The held descriptors, those of the groups first. -/
def heldDescs (s : State) : List Nat := heldByGroups s.gt ++ heldByRecords s.cc

/-- Every descriptor is in exactly one of the free pool, one group's list and one record's list (R19); there are 63 contexts, and
only OPEN ones have a list (R38, R44). Every segment is in the free pool or listed by one held descriptor, and each lists as many as
its length needs (R20). -/
structure DescriptorsConserved (s : State) : Prop where
  contexts63 : s.gt.ctxs.length = 63
  onlyOpenHold : ∀ c ∈ s.gt.ctxs, c.state ≠ .opened → c.writes = []
  oneHolder : (s.ss.descPool ++ heldByGroups s.gt ++ heldByRecords s.cc).Perm (List.range Config.descriptors)
  segmentsOnce : (s.ss.segPool ++ (heldDescs s).flatMap fun i => (descAt s i).segs).Perm (List.range Config.segments)
  segmentsNeeded : ∀ i ∈ heldDescs s, (descAt s i).segs.length = needSegs (descAt s i).length

/-! ## Responses owed (R3, R6, R17) -/

/-- The host ids of the COMMITs accepted and not yet answered (R70). -/
def owedCommits (cc : CommitControl) : List HostId :=
  (cc.queue.filter fun r => r.state == .queued || r.state == .logging).map CommitRecord.hostId

/-- The host ids of the pass-through requests in the memory port (R138). -/
def owedPasses (mp : MemoryPort) : List HostId := mp.records.filterMap fun r => r.map PassRecord.id

/-- A request that holds the port owes one response (R11). -/
def owedHold (hp : HostPort) : Nat := if hp.hold.isSome then 1 else 0

/-- Every request taken and not yet answered has one reserved response place, and the ids in flight are those of the accepted
COMMITs and of the dispatched requests, without duplicates (R3, R6, R17). -/
structure ResponsesOwed (s : State) : Prop where
  placesOwed : s.hp.reserved = owedHold s.hp + (owedCommits s.cc).length + (owedPasses s.mp).length
  places272 : s.hp.responses.length + s.hp.reserved ≤ 272
  idsOwed : s.hp.inflight.Perm (owedCommits s.cc ++ owedPasses s.mp)
  idsDistinct : s.hp.inflight.Nodup

/-! ## The outstanding table (R139, R149, R174) -/

/-- The entry is ORPHANED. -/
def isOrphaned : Entry → Bool
  | .orphaned _ => true
  | _ => false

/-- The outstanding table has 32 entries, no class exceeds its cap (R139), the orphaned figure counts the ORPHANED entries (R149),
and no entry is ISSUED in SAFE (R174). -/
structure TableSound (s : State) : Prop where
  entries32 : s.mp.entries.length = 32
  withinCaps : ∀ c, classIssued c s.mp ≤ classCap c
  orphansCounted : s.mp.orphaned = (s.mp.entries.filter isOrphaned).length
  noneIssuedInSafe : s.cc.path = .safe → issuedCount (fun _ => true) s.mp = 0

/-! ## Nothing is left due (R157, R166, R172, R173) -/

/-- No failed command waits although none of RE's pieces is ISSUED, no discard step and no entry to SAFE is overdue; the drain
progress is present exactly in DRAINING and SAFE and agrees with its owners, and PSAFE is asserted exactly in SAFE. -/
structure NothingDue (s : State) : Prop where
  commandEnded : endingDue s = false
  discardTaken : discardDue s = false
  drainFollowed : s.cc.path = .draining → s.pf.drain = some (drainNow s) ∧ drainClear (drainNow s) = false
  drainAbsent : s.cc.path ≠ .draining → s.cc.path ≠ .safe → s.pf.drain = none
  drainInSafe : s.cc.path = .safe → s.pf.drain = some ⟨false, false, 0⟩
  psafeInSafe : s.pf.psafe = true ↔ s.cc.path = .safe

/-! ## The ring's figures (R89, R90) -/

/-- The units of the records that have left LOGGING and stand in the queue (R89). -/
def consumedUnits (cc : CommitControl) : Nat :=
  ((cc.queue.filter fun r => r.state != .queued && r.state != .logging).map spanUnits).sum

/-- The ring is in use: the path is RUN or STOPPED, or a commit record or an anchor in flight is left, as in a drain (R105). Before RUN,
and in a drain that left nothing, the figures may be those of an earlier log (R106). -/
def ringInUse (s : State) : Prop :=
  s.cc.path = .run ∨ s.cc.path = .stopped ∨ s.cc.queue ≠ [] ∨ s.le.anchor ≠ none

/-- While the ring is in use, the used units are the reclaimable ones and those of the records that have left LOGGING, they never
exceed U, and a LOGGING record's span has room; in every state an anchor in flight releases units that are reclaimable, and before RUN
none is in flight (R89 to R91, R105, R106). -/
structure LedgerSound (s : State) : Prop where
  usedAccounted : ringInUse s → s.le.used = s.le.reclaimable + consumedUnits s.cc
  withinRing : ringInUse s → s.le.used ≤ ringU s
  loggingFits : ∀ r ∈ s.cc.queue, r.state = .logging → s.le.used + spanUnits r ≤ ringU s
  queuedUnplaced : ∀ r ∈ s.cc.queue, r.state = .queued → r.span = none
  releasable : ∀ a, s.le.anchor = some a → a.released ≤ s.le.reclaimable
  noAnchorBeforeRun : beforeRun s.cc.path → s.le.anchor = none

/-! ## Shapes and ranges -/

/-- The configuration fields are in their ranges (R183). -/
def settingsInRange (c : Settings) : Bool :=
  decide (16 ≤ c.sizeExp ∧ c.sizeExp ≤ 30 ∧ c.burstCode ≤ 2 ∧ c.retryLimit ≤ 3 ∧ c.quantumCode ≤ 2)

/-- The staging buffer is canonical, the fixed arrays keep their sizes, the intake queue holds at most 16 requests, and the
configuration is in range (R1, R21, R128, R138, R183). -/
structure ShapeSound (s : State) : Prop where
  buffer : cellsWf s.ss.cells = true
  slots8 : s.hp.slots.length = 8
  records16 : s.mp.records.length = 16
  contexts63 : s.gt.ctxs.length = 63
  intake16 : s.hp.intake.length ≤ 16
  settings : settingsInRange s.mg.cfg = true

end Sys2Proof.Machine
end

