-- ==== Sys2Proof/Certificates/Slice0/Obligations.lean ====
section
/-! DEFINITION. The statements for the provers. Each docstring names the rules of spec/ that the statement formalises; where a clause
rests on a choice of the model, it names the log entry. -/

open Sys2Proof Sys2Proof.Machine

/-! ## The step -/

/-- The step runs the command at the front of the queue on the state with the queue's rest. -/
def Obligations.StepRunsFrontCommand : Prop :=
  ∀ (c : Instr) (rest : List Instr) (s : State), s.pending = c :: rest → step s = exec c (s.withPending rest)

/-- Every command answers a next state and leaves the command queue alone: the spec names no condition in which the device stops
answering. -/
def Obligations.EveryCommandAnswersNext : Prop :=
  ∀ (c : Instr) (s : State), ∃ t, exec c s = .next t ∧ t.pending = s.pending

/-- While RESET_N is asserted the device takes nothing and no frame (R18, R168, R179; log 11): every command but the host's placing of
a request on the channel and the events on the lines leaves the state as it is. -/
def Obligations.ResetHoldsDeviceOff : Prop :=
  ∀ (c : Instr) (s : State), s.pf.resetAsserted = true →
    (∀ r, c ≠ .hostRequestAccept r) → c ≠ .pfwNFall → c ≠ .pfwNRise → c ≠ .resetNAssert → c ≠ .resetNDeassert → c ≠ .powerOn →
    exec c s = .next s

/-! ## Reset and the lines -/

/-- Every block at its reset values (R18, R22, R37, R56, R73, R107, R123, R150, R151, R160, R183, R191). That LE has no job and that the
memory request channel is empty is the model's (log 17, log 19). -/
def Obligations.ResetValuesOfEveryBlock : Prop :=
  let s := State.reset
  (s.hp.intake = [] ∧ s.hp.hold = none ∧ s.hp.inflight = [] ∧ s.hp.responses = [] ∧ s.hp.reserved = 0 ∧
    s.hp.slots = List.replicate 8 none) ∧
  (s.ss.descPool = List.range 4096 ∧ s.ss.segPool = List.range 8192 ∧ s.ss.descs = [] ∧ s.ss.timer = none ∧ s.ss.starveDesc = 0 ∧
    s.ss.starveSeg = 0 ∧ s.ss.corrected = 0 ∧ s.ss.uncorrectable = 0) ∧
  s.gt.ctxs = List.replicate 63 ⟨.idle, [], 0, 0, 0, none⟩ ∧
  s.cc = ⟨[], 0, .unconfigured, false, false, none, .idle, none, none, 0, 0⟩ ∧
  s.le = ⟨0, 0, 0, 0, 0, 0, none, 0, none, none⟩ ∧
  s.ae = ⟨.idle, none, 1, none, [], none, []⟩ ∧
  s.mp = ⟨[], [], [], List.replicate 32 .free, List.replicate 16 none, .pass, [], 0, 0, 0, 0⟩ ∧
  (s.re.mode = .idle ∧ s.re.chosen = none ∧ s.re.e = 0 ∧ s.re.p = 0 ∧ s.re.c = 0 ∧ s.re.group = none ∧ s.re.map = [] ∧
    s.re.i = 1 ∧ s.re.q = 0 ∧ s.re.replaySet = [] ∧ s.re.replayed = 0 ∧ s.re.skipped = 0) ∧
  (s.pf.psafe = false ∧ s.pf.drain = none) ∧
  s.mg.cfg = ⟨0, 16, 1, 1, 1000, 100, 1, 0⟩ ∧
  (s.mg.causes = 0 ∧ s.mg.frame = FrameStatus.clear ∧ s.mg.tagCapture = none ∧
    s.mg.capture = ⟨.unconfigured, false, false, false, false, false, 4096, 8192, 0, 0, 0, 0, 0, 0, 0, 0⟩) ∧
  irqAsserted s = false

/-- RESET_N_ASSERT gives every block its reset values: PSAFE deasserted, IRQ_N high, the channels empty; the level of PFW_N and what the
host holds on its channel stay. RESET_N_DEASSERT and POWER_ON with PFW_N high start the device from the reset values: the intake queue
accepts at once what waits on the channel. PFW_N low as RESET_N is deasserted starts a drain that finds nothing in flight: the path
reaches SAFE in the same event (R1, R18, R154, R168, R170, R174; log 2, log 5, log 11, log 12). -/
def Obligations.ResetStopsAndStartsTheDevice : Prop :=
  ∀ s : State,
    let off : State := { State.reset with
      pending := s.pending
      hp := { HostPort.reset with channel := s.hp.channel }
      pf := { PowerFail.reset with pfwLow := s.pf.pfwLow, resetAsserted := true } }
    let on : State := { State.reset with
      pending := s.pending
      hp := { HostPort.reset with intake := s.hp.channel.take 16, channel := s.hp.channel.drop 16 } }
    (exec .resetNAssert s = .next off ∧ irqAsserted off = false) ∧
    (s.pf.pfwLow = false → exec .powerOn s = .next on ∧ (s.pf.resetAsserted = true → exec .resetNDeassert s = .next on)) ∧
    (s.pf.pfwLow = true → s.pf.resetAsserted = true →
      ∃ t, exec .resetNDeassert s = .next t ∧ t.cc.path = .safe ∧ t.pf.psafe = true ∧ causeIn .safe t.mg.causes = true ∧
        t.pf.drain = some ⟨false, false, 0⟩ ∧ t.cc.queue = [] ∧ t.hp.responses = [] ∧ t.ae.mode = .halted ∧ t.pf.pfwLow = true)

/-- PFW_N falls: the level is seen low and, with RESET_N deasserted, the qualification begins; PFW_N rises: it ends; nothing else
changes (R170). -/
def Obligations.PfwLineMoves : Prop :=
  ∀ s : State,
    (s.pf.pfwLow = false →
      exec .pfwNFall s = .next (s.withPf { s.pf with pfwLow := true, qualifying := !s.pf.resetAsserted })) ∧
    exec .pfwNRise s = .next (s.withPf { s.pf with pfwLow := false, qualifying := false })

/-- The assertion of PFW_N outside DRAINING and SAFE, in one event. A BUSY command ends INTERRUPTED, quiesce ends, the stop causes stay.
The holding request is answered POWER and leaves the queue, a stage wait with its timer. Every PASS piece not issued is withdrawn: a
request none of whose pieces is ISSUED is answered at once, POWER when it had a READY piece, and the others run on. Every context
becomes IDLE; every QUEUED record becomes VOIDED with reason POWER and is answered FAILED_POWER, in queue order, and what then stands
finished at the head is removed; the OPEN lists, then the dropped lists, go to the pools. AE is HALTED and its and RE's pieces not
issued leave the APPLY ready list; RE is IDLE or waits for its ISSUED pieces. Pieces issued run on. The path is SAFE when nothing is
LOGGING, in flight or ISSUED, and otherwise DRAINING (R10, R27, R69, R71, R148, R154, R171 to R173; the order is log 6). -/
def Obligations.PfwAssertionDrains : Prop :=
  ∀ s : State, Live s → s.pf.qualifying = true → s.cc.path ≠ .draining → s.cc.path ≠ .safe → HoldSound s → ShapeSound s →
    let dropped := s.cc.queue.filter fun r => r.state == .queued
    let voided := s.cc.queue.map fun r => if r.state = .queued then { r with state := .voided, reason := some .power, writes := [] } else r
    let issuedOf := fun r : PassRecord => r.pieces.any fun p => p.state == .issued
    ∃ t ps, exec .pfwNAssertion s = .next t ∧
      (t.cc.path = .draining ∨ t.cc.path = .safe) ∧
      (t.cc.path = .safe ↔ loggingRecord s.cc = none ∧ s.le.anchor = none ∧ issuedCount (fun _ => true) s.mp = 0) ∧
      t.cc.stopLog = s.cc.stopLog ∧ t.cc.stopApply = s.cc.stopApply ∧ t.cc.quiesce = none ∧
      (s.cc.status = .busy → t.cc.status = .done ∧ t.cc.result = some .interrupted ∧ causeIn .cmdDone t.mg.causes = true) ∧
      t.hp.hold = none ∧ t.hp.intake = (if s.hp.hold.isSome then (headLeft s.hp).intake else s.hp.intake) ∧
      (s.hp.hold = some .stageWait → t.ss.timer = none) ∧
      t.hp.responses = s.hp.responses ++ (if s.hp.hold.isSome then (s.hp.intake.take 1).map fun r => ⟨r.id, .power, []⟩ else []) ++
        ps ++ dropped.map (fun r => ⟨r.hostId, .failedPower, []⟩) ∧
      ps.map (fun x => (x.id, x.answer)) = s.mp.records.filterMap (fun o => o.bind fun r =>
        if issuedOf r then none
        else some (r.id, if r.pieces.any (fun p => p.state == .ready) then .power else passAnswer r)) ∧
      (∀ x ∈ ps, x.answer = .power → x.data = []) ∧
      t.mp.records = s.mp.records.map (fun o => o.bind fun r => if issuedOf r then some (withdrawPassPieces r) else none) ∧
      t.gt.ctxs = s.gt.ctxs.map (fun _ => Context.idle) ∧ Released (openLists s ++ dropped.flatMap CommitRecord.writes) s t ∧
      t.cc.queue = voided.dropWhile (fun r => finished r.state) ∧ (∀ r ∈ t.cc.queue, r.state ≠ .queued) ∧
      t.le = retired (ringU s) (voided.takeWhile fun r => finished r.state) s.le ∧
      t.mp.readyPass = [] ∧ t.ae.mode = .halted ∧ (t.re.mode = .idle ∨ t.re.mode = .ending) ∧
      t.mp.readyApply = s.mp.readyApply.filter (fun p => !(s.ae.mode != .halted && isApplyOwner p.owner) &&
        !(s.re.mode != .idle && isRecoveryOwner p.owner)) ∧
      t.mp.entries.map issuedPiece = s.mp.entries.map issuedPiece ∧
      t.pf.drain.isSome = true ∧ t.mg.cfg = s.mg.cfg ∧ t.le.head = s.le.head ∧ t.le.anchor = s.le.anchor

/-! ## The host port -/

/-- A request placed on the request channel is appended at the tail of an intake queue of fewer than 16, and stays on the channel
while the queue holds 16 (R1). -/
def Obligations.HostRequestIsAccepted : Prop :=
  ∀ (r : HostRequest) (s : State), Live s →
    (s.hp.intake.length < 16 → s.hp.channel = [] →
      exec (.hostRequestAccept r) s = .next (s.withHp { s.hp with intake := s.hp.intake ++ [r] })) ∧
    (s.hp.intake.length = 16 →
      exec (.hostRequestAccept r) s = .next (s.withHp { s.hp with channel := s.hp.channel ++ [r] }))

/-- The response at the head of the response queue is delivered and its place becomes free; nothing else changes (R3). -/
def Obligations.ResponseIsDelivered : Prop :=
  ∀ (x : Response) (rest : List Response) (s : State), Live s → s.hp.responses = x :: rest →
    exec .responseDelivery s = .next (s.withHp { s.hp with responses := rest })

/-- Answers at intake that have no other effect: POWER to every request taken in DRAINING and SAFE, PROTOCOL to a request that fails a
check elsewhere; a MARKER with an unknown code always fails one (R4, R5, R10, R174). -/
def Obligations.PowerAndProtocolAnswers : Prop :=
  ∀ (c : Instr) (s : State) (r : HostRequest), Takes c s r →
    (s.cc.path = .draining ∨ s.cc.path = .safe →
      exec c s = .next ((applyUpsets (upsetsOf c) s).withHp (headAnswered s.hp r .power))) ∧
    (s.cc.path ≠ .draining → s.cc.path ≠ .safe → protocolError s.hp.inflight r = true ∨ c = .unknownMarkerCode →
      exec c s = .next ((applyUpsets (upsetsOf c) s).withHp (headAnswered s.hp r .protocol)))

/-- A read of a tag that is not OPEN, or an untagged write, that meets no hold condition is dispatched: it takes the lowest-numbered
FREE request record, its pieces join the PASS ready list, its id is in flight and it leaves the intake queue (R125, R132, R136, R138). -/
def Obligations.PassThroughIsDispatched : Prop :=
  ∀ (c : Instr) (s : State) (r : HostRequest) (k : Nat), TakesSound c s r →
    ((r.kind = .read ∧ (ctxOf s r.tag).state ≠ .opened) ∨ (r.kind = .write ∧ r.tag = 0)) →
    overlapsSide (fun st => loggingSide st || homeSide st) s r.addr.toNat r.length = false → firstAbsent s.mp.records = some k →
    exec c s = .next (((applyUpsets (upsetsOf c) s).withHp (headDispatched s.hp r)).withMp { s.mp with
      records := s.mp.records.set k (some (newPassRecord (burst s.mg.cfg) r (passKind r)))
      readyPass := s.mp.readyPass ++ cutRequest (burst s.mg.cfg) (Owner.pass k) (passKind r) r.addr.toNat r.length
        (if r.kind = .write then writeMask r else none) (if r.kind = .write then writeData r else []) })

/-- A read of an OPEN tag that meets no hold condition: after a walk with no uncorrectable word it takes the lowest-numbered FREE merge
slot with its overlay and the lowest-numbered FREE request record, its pieces join the PASS ready list, its id is in flight, and the
groups stay as they are; an uncorrectable word answers it INTEGRITY, faults the group with that reason and releases its whole list, and
no slot, request record or id is taken (R33, R46, R128, R129, R131, R132, R136, R138; the slot's number is log 23). -/
def Obligations.OpenTagReadTakesMergeSlot : Prop :=
  ∀ (us : List Upset) (s u : State) (r : HostRequest) (k m : Nat) (res : Option (List (Option Byte))), TakesSound (.read us) s r →
    s.gt.ctxs.length = 63 → (ctxOf s r.tag).state = .opened →
    overlapsSide (fun st => loggingSide st || homeSide st) s r.addr.toNat r.length = false →
    firstAbsent s.hp.slots = some m → firstAbsent s.mp.records = some k →
    overlayWalk r.addr.toNat r.length (ctxOf s r.tag).writes (List.replicate r.length none) (reservePlace (applyUpsets us s)) =
      (res, u) →
    ∃ t, exec (.read us) s = .next t ∧
      (∀ ov, res = some ov → t.hp = { headDispatched s.hp r with slots := s.hp.slots.set m (some ⟨r.id, r.addr, r.length, ov⟩) } ∧
        t.mp = { s.mp with
          records := s.mp.records.set k (some (newPassRecord (burst s.mg.cfg) r .read))
          readyPass := s.mp.readyPass ++
            cutRequest (burst s.mg.cfg) (Owner.pass k) .read r.addr.toNat r.length none [] } ∧
        t.gt = s.gt ∧ t.ss.descPool = s.ss.descPool ∧ t.ss.segPool = s.ss.segPool ∧ t.ss.descs = s.ss.descs) ∧
      (res = none → t.hp = headAnswered s.hp r .integrity ∧ t.mp = s.mp ∧ ctxOf t r.tag = Context.faulted .integrity ∧
        (∀ t', t' ≠ r.tag → ctxOf t t' = ctxOf s t') ∧ Released (ctxOf s r.tag).writes s t) ∧
      t.mp.entries = s.mp.entries ∧ t.ss.cells = s.ss.cells ∧ t.mg.cfg = s.mg.cfg ∧ OnlyIn [.hp, .ss, .gt, .mp, .mg] s t

/-- The overlay of R129: after a walk with no uncorrectable result, each entry holds the byte of the last descriptor in list order
that writes that byte, and is absent where no descriptor of the group writes it. -/
def Obligations.OverlayHoldsLastWriter : Prop :=
  ∀ (a len : Nat) (is : List Nat) (s t : State) (ov : List (Option Byte)),
    overlayWalk a len is (List.replicate len none) s = (some ov, t) →
    ov.length = len ∧ ∀ j, j < len → ov.getD j none = lastWritten s (a + j) is

/-- The holds of the read path, in the order of R11. A read or untagged write over the hazard set is answered BLOCKED when a home-side
record covers it and the APPLY stop cause is present, and otherwise holds the port on hazard overlap. Clear of the hazard set, a read of
an OPEN tag holds on no free merge slot while all slots are in use, and a request that needs no slot or finds one holds on the
pass-through request list while all its records are in use. Nothing else changes (R11, R125, R127, R128, R138). -/
def Obligations.HazardOverlapHoldsOrBlocks : Prop :=
  ∀ (c : Instr) (s : State) (r : HostRequest), TakesSound c s r → (r.kind = .read ∨ (r.kind = .write ∧ r.tag = 0)) →
    let covered := overlapsSide (fun st => loggingSide st || homeSide st) s r.addr.toNat r.length
    let ownGroup := r.kind = .read ∧ (ctxOf s r.tag).state = .opened
    let after := fun hp => (applyUpsets (upsetsOf c) s).withHp hp
    (covered = true → exec c s = .next (after
      (if overlapsSide homeSide s r.addr.toNat r.length && s.cc.stopApply then headAnswered s.hp r .blocked
       else headHolds s.hp .hazardOverlap))) ∧
    (covered = false → ownGroup → firstAbsent s.hp.slots = none → exec c s = .next (after (headHolds s.hp .noMergeSlot))) ∧
    (covered = false → (ownGroup → firstAbsent s.hp.slots ≠ none) → firstAbsent s.mp.records = none →
      exec c s = .next (after (headHolds s.hp .passListFull)))

/-! ## Staging and groups -/

/-- A tagged write taken in RUN for which the pools are sufficient, to a tag that is IDLE or OPEN below 1024 writes: it takes the head
descriptor and the head segments, joins its group with the figures of R39 and is answered OK (R23, R40, R41). -/
def Obligations.TaggedWriteIsStaged : Prop :=
  ∀ (s : State) (r : HostRequest), TakesSound .write s r → s.cc.path = .run → r.tag ≠ 0 → s.gt.ctxs.length = 63 →
    (ctxOf s r.tag).state ≠ .faulted → ((ctxOf s r.tag).state = .opened → (ctxOf s r.tag).count < 1024) →
    s.ss.descPool ≠ [] → needSegs r.length ≤ s.ss.segPool.length →
    let d := s.ss.descPool.headD 0
    let c := ctxOf s r.tag
    ∃ t, exec .write s = .next t ∧ t.hp = headAnswered s.hp r .ok ∧
      t.ss.descPool = s.ss.descPool.tail ∧ t.ss.segPool = s.ss.segPool.drop (needSegs r.length) ∧
      lookupDesc t.ss.descs d =
        some ⟨r.addr, r.length, writeMask r, s.ss.segPool.take (needSegs r.length), none⟩ ∧
      ctxOf t r.tag = ⟨.opened, c.writes ++ [d], c.count + 1, c.bytes + r.length,
        (if c.state = .opened then c.units else 2) + dataUnits r.length (writeMask r).isSome, none⟩ ∧
      (∀ t', t' ≠ r.tag → ctxOf t t' = ctxOf s t') ∧ (∀ i, i ≠ d → lookupDesc t.ss.descs i = lookupDesc s.ss.descs i) ∧
      t.ss.cells = (allocate r s.ss).cells ∧ t.ss.starveDesc = s.ss.starveDesc ∧ t.ss.starveSeg = s.ss.starveSeg ∧
      OnlyIn [.hp, .ss, .gt] s t

/-- The bytes of the store after an allocation: byte j of the write stands at offset j modulo 64 of the segment at position
floor(j/64) of its list, the rest of the last segment holds zeros, every byte outside the taken segments reads as before, and every
word of a taken segment checks clean. A word none of whose bits has changed checks clean, one with one changed bit corrected, both with
the stored bytes, and one with two uncorrectable; three or more leave result and bytes open. A read-out of a descriptor reads each of
its ceil(L/8) words, counts each corrected and each uncorrectable one, sets ECC_UNCORRECTABLE at an uncorrectable one, is uncorrectable
when one word was, else corrected when one was, and gives L bytes; nothing else changes (R20, R21, R29 to R31). -/
def Obligations.SegmentsHoldTheData : Prop :=
  (∀ (r : HostRequest) (ss : Staging) (x : Nat), cellsWf ss.cells = true → ss.segPool.Nodup →
    let segs := ss.segPool.take (needSegs r.length)
    (∀ i, segs[i]? = some (x / 64) → readCell (allocate r ss).cells x = (writeData r).getD (64 * i + x % 64) 0) ∧
    (x / 64 ∉ segs → readCell (allocate r ss).cells x = readCell ss.cells x) ∧
    (∀ w, w / 8 ∈ segs → (checkWord (allocate r ss) w).result = .clean)) ∧
  (∀ (ss : Staging) (w : Nat),
    let changed := (ss.flips.filter fun f => f.1 == w).length
    let stored := (List.range 8).map fun j => readCell ss.cells (8 * w + j)
    (changed = 0 → checkWord ss w = ⟨.clean, stored⟩) ∧ (changed = 1 → checkWord ss w = ⟨.corrected, stored⟩) ∧
    (changed = 2 → (checkWord ss w).result = .uncorrectable) ∧ (checkWord ss w).bytes.length = 8) ∧
  (∀ (d : Descriptor) (s : State),
    let word := fun i => 8 * d.segs.getD (i / 8) 0 + i % 8
    let found := fun x => ((List.range ((d.length + 7) / 8)).filter fun i => (checkWord s.ss (word i)).result == x).length
    let read := readDescriptor d s
    read.1 = (if 0 < found .uncorrectable then .uncorrectable else if 0 < found .corrected then .corrected else .clean) ∧
    read.2.1.length = d.length ∧
    (∀ j, j < d.length → read.2.1[j]? = (checkWord s.ss (word (j / 8))).bytes[j % 8]?) ∧
    read.2.2 = (s.withSs { s.ss with
      corrected := s.ss.corrected + BitVec.ofNat 32 (found .corrected)
      uncorrectable := s.ss.uncorrectable + BitVec.ofNat 32 (found .uncorrectable) }).withMg
        (if 0 < found .uncorrectable then { s.mg with causes := s.mg.causes ||| 16#7 } else s.mg))

/-- The tagged write that is not staged. In UNCONFIGURED and STOPPED it is answered NOLOG with no other effect. In RUN: to a FAULTED tag
it is answered GROUP_FAULTED with no other effect; to an OPEN group of 1024 writes GROUP_FULL, the group faults with that reason and its
list is released; otherwise, with a pool short, the short pools' counters rise (to at most 255), STARVE is set, and it holds the port in
stage wait with the timer at the limit, or with a limit of 0 is answered OVERFLOW and its group faults
(R8, R24, R26, R28, R33, R40, R42 to R44). -/
def Obligations.UnstagedWriteOutcomes : Prop :=
  ∀ (s : State) (r : HostRequest), TakesSound .write s r → r.tag ≠ 0 → s.gt.ctxs.length = 63 →
    let c := ctxOf s r.tag
    (s.cc.path ≠ .run → exec .write s = .next (s.withHp (headAnswered s.hp r .nolog))) ∧
    (s.cc.path = .run → c.state = .faulted → exec .write s = .next (s.withHp (headAnswered s.hp r .groupFaulted))) ∧
    (s.cc.path = .run → c.state = .opened → 1024 ≤ c.count →
      ∃ t, exec .write s = .next t ∧ t.hp = headAnswered s.hp r .groupFull ∧ ctxOf t r.tag = Context.faulted .groupFull ∧
        Released c.writes s t ∧ (∀ t', t' ≠ r.tag → ctxOf t t' = ctxOf s t') ∧ OnlyIn [.hp, .ss, .gt] s t) ∧
    (s.cc.path = .run → c.state ≠ .faulted → (c.state = .opened → c.count < 1024) →
      (s.ss.descPool = [] ∨ s.ss.segPool.length < needSegs r.length) →
      ∃ t, exec .write s = .next t ∧ causeIn .starve t.mg.causes = true ∧
        t.ss.starveDesc = (if s.ss.descPool = [] then satSucc s.ss.starveDesc else s.ss.starveDesc) ∧
        t.ss.starveSeg = (if s.ss.segPool.length < needSegs r.length then satSucc s.ss.starveSeg else s.ss.starveSeg) ∧
        t.ss.cells = s.ss.cells ∧ t.mg.cfg = s.mg.cfg ∧ OnlyIn [.hp, .ss, .gt, .mg] s t ∧
        (∀ t', t' ≠ r.tag → ctxOf t t' = ctxOf s t') ∧
        (s.mg.cfg.stageWait ≠ 0 →
          t.hp = headHolds s.hp .stageWait ∧ t.ss.timer = some s.mg.cfg.stageWait ∧ t.gt = s.gt ∧
          t.ss.descPool = s.ss.descPool ∧ t.ss.segPool = s.ss.segPool ∧ t.ss.descs = s.ss.descs) ∧
        (s.mg.cfg.stageWait = 0 →
          t.hp = headAnswered s.hp r .overflow ∧ t.ss.timer = none ∧ ctxOf t r.tag = Context.faulted .overflow ∧
          Released c.writes s t))

/-- Expiry of a stage wait: the waiting write is answered OVERFLOW in its reserved place, the timer stops, and its group, from IDLE
too, faults with reason OVERFLOW and releases its list (R26, R33, R43). -/
def Obligations.StageWaitExpires : Prop :=
  ∀ (s : State) (r : HostRequest), Live s → s.hp.hold = some .stageWait → s.hp.intake.head? = some r → r.tag ≠ 0 →
    s.gt.ctxs.length = 63 →
    ∃ t, exec .stageWaitExpiry s = .next t ∧ t.hp = { headAnswered s.hp r .overflow with reserved := s.hp.reserved - 1 } ∧
      t.ss.timer = none ∧ ctxOf t r.tag = Context.faulted .overflow ∧
      Released (ctxOf s r.tag).writes s t ∧ (∀ t', t' ≠ r.tag → ctxOf t t' = ctxOf s t') ∧
      t.ss.starveDesc = s.ss.starveDesc ∧ t.ss.starveSeg = s.ss.starveSeg ∧ OnlyIn [.hp, .ss, .gt] s t

/-- ABORT: in RUN and STOPPED the tag becomes IDLE with all figures 0, an OPEN tag's list is released in list order, and the marker is
answered OK; in UNCONFIGURED it is answered OK with no other effect, in DRAINING and SAFE it is answered POWER. No commit record, no
read in flight and no request record changes (R8, R10, R33, R48). -/
def Obligations.AbortFreesTheTag : Prop :=
  ∀ (s : State) (r : HostRequest), Takes .abort s r → s.gt.ctxs.length = 63 →
    (s.cc.path = .draining ∨ s.cc.path = .safe → exec .abort s = .next (s.withHp (headAnswered s.hp r .power))) ∧
    (s.cc.path = .unconfigured → protocolError s.hp.inflight r = false →
      exec .abort s = .next (s.withHp (headAnswered s.hp r .ok))) ∧
    (s.cc.path = .run ∨ s.cc.path = .stopped → protocolError s.hp.inflight r = false →
      ∃ t, exec .abort s = .next t ∧ t.hp = headAnswered s.hp r .ok ∧ ctxOf t r.tag = ⟨.idle, [], 0, 0, 0, none⟩ ∧
        Released (ctxOf s r.tag).writes s t ∧ (∀ t', t' ≠ r.tag → ctxOf t t' = ctxOf s t') ∧ OnlyIn [.hp, .ss, .gt] s t)

/-- FOLD_OVER and FOLD_UNDER. In UNCONFIGURED the marker is answered NOLOG, in STOPPED STOPPED, with no other effect. In RUN: an OPEN
source and a target not FAULTED with at most 1024 writes together: the source's list goes after or before the target's, the target is
OPEN with the sums of R51, the source IDLE, and nothing is released; above 1024 the marker is answered GROUP_FULL and nothing moves. An
IDLE source is answered OK and moves nothing. A FAULTED side frees the source, leaves the target FAULTED (with its own reason, or FOLD),
releases both lists and is answered FAILED_GROUP (R8, R33, R49 to R51). -/
def Obligations.FoldJoinsTwoGroups : Prop :=
  ∀ (c : Instr) (s : State) (r : HostRequest), c = .foldOver ∨ c = .foldUnder → TakesSound c s r → s.gt.ctxs.length = 63 →
    let a := ctxOf s r.tag
    let b := ctxOf s r.target
    (s.cc.path = .unconfigured → exec c s = .next (s.withHp (headAnswered s.hp r .nolog))) ∧
    (s.cc.path = .stopped → exec c s = .next (s.withHp (headAnswered s.hp r .stopped))) ∧
    (s.cc.path = .run → a.state = .opened → b.state ≠ .faulted → a.count + b.count ≤ 1024 →
      ∃ t, exec c s = .next t ∧ t.hp = headAnswered s.hp r .ok ∧ ctxOf t r.tag = Context.idle ∧
        ctxOf t r.target = ⟨.opened, if c = .foldOver then b.writes ++ a.writes else a.writes ++ b.writes, a.count + b.count,
          a.bytes + b.bytes, if b.state = .opened then a.units + b.units - 2 else a.units, none⟩ ∧
        (∀ t', t' ≠ r.tag → t' ≠ r.target → ctxOf t t' = ctxOf s t') ∧
        OnlyIn [.hp, .gt] s t) ∧
    (s.cc.path = .run → a.state = .opened → b.state ≠ .faulted → 1024 < a.count + b.count →
      exec c s = .next (s.withHp (headAnswered s.hp r .groupFull))) ∧
    (s.cc.path = .run → a.state = .idle → exec c s = .next (s.withHp (headAnswered s.hp r .ok))) ∧
    (s.cc.path = .run → a.state ≠ .idle → a.state = .faulted ∨ b.state = .faulted →
      ∃ t, exec c s = .next t ∧ t.hp = headAnswered s.hp r .failedGroup ∧ ctxOf t r.tag = Context.idle ∧
        ctxOf t r.target = (if b.state = .faulted then b else Context.faulted .fold) ∧
        (∀ t', t' ≠ r.tag → t' ≠ r.target → ctxOf t t' = ctxOf s t') ∧
        Released (a.writes ++ b.writes) s t ∧ OnlyIn [.hp, .ss, .gt] s t)

/-! ## COMMIT -/

/-- The checks of a COMMIT in their order: NOLOG in UNCONFIGURED; STOPPED in STOPPED (a FAULTED tag becomes IDLE); in RUN EMPTY,
FAILED_GROUP, TOO_LARGE (the list is released) and the hold on a queue of 32. One that passes them is accepted: the group's list moves
into a QUEUED record with the next commit number at the queue's tail, the tag becomes IDLE and the marker's id is in flight; nothing is
released and nothing is answered (R8, R33, R59 to R62). -/
def Obligations.CommitChecksInOrder : Prop :=
  ∀ (s : State) (r : HostRequest), TakesSound .commit s r → s.gt.ctxs.length = 63 →
    let c := ctxOf s r.tag
    (s.cc.path = .unconfigured → exec .commit s = .next (s.withHp (headAnswered s.hp r .nolog))) ∧
    (s.cc.path = .stopped → exec .commit s =
      .next ((if c.state = .faulted then setCtx r.tag Context.idle s else s).withHp (headAnswered s.hp r .stopped))) ∧
    (s.cc.path = .run → c.state = .idle → exec .commit s = .next (s.withHp (headAnswered s.hp r .empty))) ∧
    (s.cc.path = .run → c.state = .faulted →
      exec .commit s = .next ((setCtx r.tag Context.idle s).withHp (headAnswered s.hp r .failedGroup))) ∧
    (s.cc.path = .run → c.state = .opened → ringU s / 2 < c.units →
      ∃ t, exec .commit s = .next t ∧ t.hp = headAnswered s.hp r .tooLarge ∧ ctxOf t r.tag = Context.idle ∧
        Released c.writes s t ∧ (∀ t', t' ≠ r.tag → ctxOf t t' = ctxOf s t') ∧ OnlyIn [.hp, .ss, .gt] s t) ∧
    (s.cc.path = .run → c.state = .opened → c.units ≤ ringU s / 2 → 32 ≤ s.cc.queue.length →
      exec .commit s = .next (s.withHp (headHolds s.hp .commitQueueFull))) ∧
    (s.cc.path = .run → c.state = .opened → c.units ≤ ringU s / 2 → s.cc.queue.length < 32 →
      exec .commit s = .next (((setCtx r.tag Context.idle s).withHp (headDispatched s.hp r)).withCc { s.cc with
        queue := s.cc.queue ++ [⟨s.cc.next, r.id, c.writes, c.count, c.units, none, .queued, none⟩]
        next := s.cc.next + 1 }))

/-! ## The log engine -/

/-- LE starts the oldest QUEUED record in RUN when no record is LOGGING and its span has room: the record becomes LOGGING with the
span of R91, and the PAD (when the group does not fit before the ring end) or the HDR is handed, whose pieces are the ones awaited. The
HDR follows a PAD; after the HDR comes data record 1, in the unit after the group's first (R63, R91, R93). -/
def Obligations.LoggingStartPlacesTheSpan : Prop :=
  ∀ (s : State) (rec : CommitRecord), Live s → s.cc.path = .run → s.cc.quiesce = none → loggingRecord s.cc = none →
    oldestQueued s.cc = some rec →
    let u := ringU s
    let pad := u - s.le.head < rec.units
    let span : Span := if pad then ⟨s.le.head, u - s.le.head + rec.units⟩ else ⟨s.le.head, rec.units⟩
    let bytes := if pad then padRecord s.le.epoch rec.number (u - s.le.head)
      else hdrRecord s.le.epoch rec.number rec.count rec.units
    span.length ≤ u - s.le.used →
    ∃ t, exec .loggingStart s = .next t ∧
      t.cc = { s.cc with queue := s.cc.queue.map fun r =>
        if r.number = rec.number ∧ r.state = .queued then { r with span := some span, state := .logging } else r } ∧
      t.mp = logHanded s.mp (cutRequest (burst s.mg.cfg) (Owner.group (if pad then .pad else .hdr)) .write
        (unitAddr s.mg.cfg s.le.head) bytes.length none bytes) ∧
      (let first := if pad then 0 else s.le.head
       t.le = { s.le with job := some {
         first := first, next := if pad then .hdr else if 0 < rec.count then .dat 1 else .done, unit := first + 1,
         unacked := pieceCount (burst s.mg.cfg) (unitAddr s.mg.cfg s.le.head) bytes.length, void := false, trailer := none } }) ∧
      OnlyIn [.cc, .mp, .le] s t

/-- LE hands the next record of the LOGGING group once every piece of the one before it has been issued: the HDR, or the data record
built from a descriptor read clean or corrected. The pieces handed are awaited with those handed before, and the next data record comes
in the unit after this one's last. An uncorrectable read-out hands nothing and no further data record (R93, R94, R97). -/
def Obligations.LogRecordIsHanded : Prop :=
  ∀ (us : List Upset) (s : State) (job : LogJob) (rec : CommitRecord), Live s → s.le.job = some job →
    loggingRecord s.cc = some rec → mayContinueGroup s.cc = true → unissued isGroupOwner s.mp.readyLog = false →
    job.void = false →
    (job.next = .hdr → ∃ t, exec (.logRecordHand us) s = .next t ∧
      (let bytes := hdrRecord s.le.epoch rec.number rec.count rec.units
       let a := unitAddr s.mg.cfg job.first
       t.mp = logHanded s.mp (cutRequest (burst s.mg.cfg) (Owner.group .hdr) .write a bytes.length none bytes) ∧
       t.le = { s.le with job := some { job with
         next := if 0 < rec.count then .dat 1 else .done
         unacked := job.unacked + pieceCount (burst s.mg.cfg) a bytes.length } }) ∧
      t.ss = (applyUpsets us s).ss ∧ OnlyIn [.ss, .mp, .le] s t) ∧
    (∀ i, job.next = .dat i →
      let d := rec.writes.getD (i - 1) 0
      let desc := descAt s d
      let read := readDescriptor desc (applyUpsets us s)
      (read.1 ≠ .uncorrectable → ∃ t, exec (.logRecordHand us) s = .next t ∧
        (let bytes := datRecord s.le.epoch rec.number i ⟨desc.addr, desc.length, desc.mask, read.2.1⟩
         let a := unitAddr s.mg.cfg job.unit
         t.mp = logHanded s.mp (cutRequest (burst s.mg.cfg) (Owner.group (.dat i d job.unit)) .write a bytes.length none bytes) ∧
         t.le = { s.le with job := some { job with
           next := if i < rec.count then .dat (i + 1) else .done
           unit := job.unit + dataUnits desc.length desc.mask.isSome
           unacked := job.unacked + pieceCount (burst s.mg.cfg) a bytes.length } }) ∧
        t.ss = read.2.2.ss ∧ t.mg = read.2.2.mg ∧ OnlyIn [.ss, .mp, .le, .mg] s t) ∧
      (read.1 = .uncorrectable → ∃ t, exec (.logRecordHand us) s = .next t ∧
        t.le = { s.le with job := some { job with void := true } } ∧
        t.ss = read.2.2.ss ∧ t.mg = read.2.2.mg ∧ OnlyIn [.ss, .le, .mg] s t))

/-- LE hands the trailer at the group's last unit, with index n + 1, once every handed piece is acknowledged: the OK trailer after the
last data record, the VOID trailer after an uncorrectable read-out. The acknowledgement of a piece of the PAD, the HDR or a data record
lowers the number of pieces awaited by one and does nothing else. That of the trailer of the one LOGGING record: head and used units
advance by its span and its id leaves the set. After an OK trailer the record is DURABLE and its marker answered OK; a read or untagged
write on hazard overlap is evaluated anew when the APPLY stop cause is present. After a VOID trailer it is VOIDED with reason INTEGRITY,
its list is released, its marker is answered VOIDED_INTEGRITY, and what then stands finished at the head is removed; a read or untagged
write on hazard overlap and a COMMIT on a full queue are evaluated anew, and a write in stage wait is tested against the pools. That the
record's answer comes before that of a request that holds is the model's order (log 6). During quiesce the same holds, but only a stage
wait can end, and the discard step is taken when it is then due; in DRAINING the path is SAFE when the drain is then complete
(R13, R25, R61, R64, R65, R71, R95 to R98, R105, R106, R126, R156, R157, R172, R173). -/
def Obligations.TrailersAreHandedLast : Prop :=
  (∀ (void : Bool) (s : State) (job : LogJob) (rec : CommitRecord), Live s → s.le.job = some job →
    loggingRecord s.cc = some rec → mayContinueGroup s.cc = true → job.void = void → (void = false → job.next = .done) →
    job.unacked = 0 → job.trailer = none →
    let bytes := trlRecord s.le.epoch rec.number (rec.count + 1) void
    let a := unitAddr s.mg.cfg (job.first + rec.units - 1)
    let ps := cutRequest (burst s.mg.cfg) (Owner.group (.trl void)) .write a bytes.length none bytes
    let job' : LogJob := { job with trailer := some void, unacked := pieceCount (burst s.mg.cfg) a bytes.length }
    exec (if void then .voidTrailerHand else .trailerHand) s =
      .next ((s.withMp (logHanded s.mp ps)).withLe { s.le with job := some job' })) ∧
  (∀ (part : LogPart) (id : MemId) (data : List Byte) (s : State) (p : Piece) (t0 : Option (BitVec 16)) (w : Bool) (k : Nat)
    (job : LogJob), Live s → Quiet s ∨ Quiescing s → s.mp.entries.getD id.toNat .free = .issued p t0 w →
    p.owner = .group part k → isTrailer part = false → p.kind = .write → s.le.job = some job →
    exec (.memoryResponse id .ok data) s = .next (afterEvent ((s.withMp (entryFreed s.mp id)).withLe { s.le with
      job := some { job with unacked := job.unacked - 1 } }))) ∧
  (∀ (void : Bool) (id : MemId) (data : List Byte) (s : State) (p : Piece) (t0 : Option (BitVec 16)) (w : Bool) (k : Nat)
    (job : LogJob) (rec : CommitRecord) (sp : Span), Live s → Quiet s ∨ Quiescing s → HoldSound s →
    s.mp.entries.getD id.toNat .free = .issued p t0 w → p.owner = .group (.trl void) k → p.kind = .write → s.le.job = some job →
    (s.cc.queue.filter fun r => r.state == .logging) = [rec] → rec.span = some sp →
    let mp := entryFreed s.mp id
    let hp := fun a => owedAnswered s.hp ⟨rec.hostId, a, []⟩
    let durable := s.cc.queue.map fun r => if r.state = .logging then { r with state := .durable } else r
    let voided := s.cc.queue.map fun r =>
      if r.state = .logging then { r with state := .voided, reason := some .integrity, writes := [] } else r
    let left := voided.dropWhile fun r => finished r.state
    (void = false → ∃ t, exec (.memoryResponse id .ok data) s = .next (afterEvent t) ∧ t.cc = { s.cc with queue := durable } ∧
      t.le = spanConsumed (ringU s) sp s.le ∧
      (s.hp.hold = none ∨ s.cc.stopApply = false ∨ s.cc.quiesce ≠ none →
        t.hp = hp .ok ∧ t.mp = mp ∧ OnlyIn [.hp, .cc, .le, .mp] s t) ∧
      (∀ r, s.cc.path = .stopped → s.cc.quiesce = none → s.cc.stopApply = true → s.hp.hold = some .hazardOverlap →
        s.hp.intake.head? = some r → onReadPath r = true → PassEvaluated (needsSlot r s) r (hp .ok) mp t)) ∧
    (void = true → ∃ t, exec (.memoryResponse id .ok data) s = .next (afterEvent t) ∧
      t.le = retired (ringU s) (voided.takeWhile fun r => finished r.state) (spanConsumed (ringU s) sp s.le) ∧
      (s.hp.hold ≠ some .commitQueueFull ∨ s.cc.quiesce ≠ none → t.cc = { s.cc with queue := left }) ∧
      (s.hp.hold = none ∨ s.hp.hold = some .noMergeSlot ∨ s.hp.hold = some .passListFull ∨
          (s.cc.quiesce ≠ none ∧ s.hp.hold ≠ some .stageWait) →
        t.hp = hp .voidedIntegrity ∧ t.mp = mp ∧ Released rec.writes s t ∧ OnlyIn [.hp, .ss, .cc, .le, .mp] s t) ∧
      (∀ r, s.hp.intake.head? = some r →
        (s.hp.hold = some .hazardOverlap → s.cc.quiesce = none → s.cc.path = .run ∨ s.cc.path = .stopped →
          PassEvaluated (needsSlot r s) r (hp .voidedIntegrity) mp t ∧ (needsSlot r s = false → Released rec.writes s t)) ∧
        (s.hp.hold = some .stageWait → s.gt.ctxs.length = 63 → rec.writes ≠ [] →
          StageTested (rec.writes.foldl releaseOne s.ss) (hp .voidedIntegrity) r s t) ∧
        (s.hp.hold = some .commitQueueFull → s.cc.path = .run → CommitAccepted left (hp .voidedIntegrity) r s t))))

/-- An anchor write: LE fills the anchor in flight with the reclaim point, the oldest commit number and the reclaimable units, and
hands 64 bytes to the slot that does not hold the current anchor, with the next sequence; with no current slot, which no run reaches in
RUN or STOPPED, it is slot 0, the model's choice (R99, R100; log 33). -/
def Obligations.AnchorWriteIsRequested : Prop :=
  ∀ s : State, Live s → s.le.anchor = none → (s.cc.path = .run ∨ (s.cc.path = .stopped ∧ s.cc.stopLog = false)) →
    s.cc.quiesce = none →
    (quantumUnits s.mg.cfg ≤ s.le.reclaimable ∨ (waitsForSpace s = true ∧ 0 < s.le.reclaimable)) →
    let slot := if s.le.slot = some 0 then 1 else 0
    let bytes := anchorRecord (s.le.seq + 1) s.le.epoch s.mg.cfg.sizeExp s.le.reclaim (oldestNumber s.cc)
    let ps := cutRequest (burst s.mg.cfg) (fun _ => .anchor) .write (slotAddr s.mg.cfg slot) 64 none bytes
    let a : AnchorInFlight := ⟨slot, s.le.reclaim, oldestNumber s.cc, s.le.reclaimable⟩
    exec .anchorWriteRequest s = .next ((s.withLe { s.le with anchor := some a }).withMp (logHanded s.mp ps))

/-- The acknowledgement of an anchor write, in every path state and during quiesce: the persisted tail becomes the anchor's tail
offset, used and reclaimable units fall by the units released, the written slot is current with the sequence written, and the anchor
in flight is absent; outside quiesce nothing else changes but for the drain. An anchor write that fails for good in DRAINING, during
quiesce or with the LOG cause present leaves the anchor in flight absent and every figure as it was, and adds no stop cause; during
quiesce the discard step may follow (R101, R103, R105, R153, R157, R172, R173; the failure in RUN and STOPPED is a log stop). -/
def Obligations.AnchorAcknowledgementMovesTail : Prop :=
  (∀ (id : MemId) (data : List Byte) (s : State) (p : Piece) (t0 : Option (BitVec 16)) (w : Bool) (a : AnchorInFlight), Live s →
    s.mp.entries.getD id.toNat .free = .issued p t0 w → p.owner = .anchor → p.kind = .write → s.le.anchor = some a →
    let le := { s.le with
        tail := a.tail, used := s.le.used - a.released, reclaimable := s.le.reclaimable - a.released,
        slot := some a.slot, seq := s.le.seq + 1, anchor := none }
    (∃ t, exec (.memoryResponse id .ok data) s = .next t ∧ t.le = le ∧ t.mp.entries = s.mp.entries.set id.toNat .free) ∧
    (Quiet s → exec (.memoryResponse id .ok data) s = .next (afterDrain ((s.withLe le).withMp (entryFreed s.mp id))))) ∧
  (∀ (c : Instr) (id : MemId) (s : State) (p : Piece), Live s → FailsForGood c id s p → p.owner = .anchor →
    let u := (afterFailure c id p s).withLe { s.le with anchor := none }
    (Quiet s → s.cc.path = .draining ∨ s.cc.stopLog = true → exec c s = .next (afterDrain u)) ∧
    (∀ cmd, s.cc.path = .stopped → s.cc.quiesce = some cmd → s.re.mode ≠ .ending →
      ∃ t, exec c s = .next t ∧ t.le = u.le ∧ t.hp.intake = s.hp.intake ∧ t.hp.hold = s.hp.hold ∧
        (loggingRecord s.cc ≠ none ∨ s.mp.records.all Option.isNone = false ∨ issuedCount (fun _ => true) u.mp ≠ 0 → t = u)))

/-- A log write failure, by ERR or by timeout. A piece of the LOGGING group fails for good before its trailer is handed, or the trailer
itself fails: in RUN and STOPPED the path is STOPPED with the LOG cause and STOP_LOG, the LOGGING record and every QUEUED record are
VOIDED with reason MEDIA and answered FAILED_MEDIA in queue order, and what then stands finished at the head is removed; head and used
units advance by the LOGGING record's span, its pieces not issued are withdrawn, and LE gives the group up. From RUN every OPEN group
faults. A request that holds is answered or evaluated anew. That the OPEN lists go to the pools before the dropped lists, that a write in
stage wait is answered NOLOG before the records and that a COMMIT on a full queue is answered STOPPED after them is the model's order
(log 6). During quiesce the same is dropped and answered, and the discard step may follow. In DRAINING the LOGGING record alone ends so
and no cause is added. An anchor write that fails for good in RUN or STOPPED without the LOG cause leaves the anchor in flight absent
with its figures kept, and the same stop follows; the LOGGING record ends too, unless its trailer has been handed
(R13, R14, R27, R45, R66, R71, R98, R102, R103, R105, R143, R148, R153, R157, R172, R173). -/
def Obligations.LogFailureStopsThePath : Prop :=
  let logging := fun r : CommitRecord => r.state == .logging
  let unanswered := fun r : CommitRecord => r.state == .logging || r.state == .queued
  (∀ (c : Instr) (id : MemId) (s : State) (p : Piece) (part : LogPart) (k : Nat) (job : LogJob) (rec : CommitRecord) (sp : Span),
    Live s → HoldSound s → FailsForGood c id s p → p.owner = .group part k → s.le.job = some job →
    job.trailer = none ∨ isTrailer part = true → s.cc.queue.filter logging = [rec] → rec.span = some sp →
    let le := spanConsumed (ringU s) sp s.le
    let mp := withdrawnMp isGroupOwner (failureMp c id p s.mp)
    (s.cc.path = .run ∨ s.cc.path = .stopped → s.cc.quiesce = none → s.re.mode ≠ .ending →
      ∃ t, exec c s = .next t ∧ LogStopped unanswered le mp s t ∧ (∀ r ∈ t.cc.queue, r.state ≠ .queued ∧ r.state ≠ .logging) ∧
        (c = .responseTimeout id → causeIn .orphan t.mg.causes = true)) ∧
    (∀ cmd, s.cc.path = .stopped → s.cc.quiesce = some cmd → s.re.mode ≠ .ending → s.hp.hold ≠ some .stageWait →
      ∃ t, exec c s = .next t ∧ causeIn .stopLog t.mg.causes = (causeIn .stopLog s.mg.causes || !s.cc.stopLog) ∧
        t.le = retired (ringU s) ((recordsVoided s.cc.queue unanswered .media).takeWhile fun r => finished r.state) le ∧
        t.hp.responses = (recordsAnswered s.hp (s.cc.queue.filter unanswered) .failedMedia).responses ∧
        t.hp.intake = s.hp.intake ∧ t.hp.hold = s.hp.hold ∧
        (s.le.anchor ≠ none ∨ s.mp.records.all Option.isNone = false ∨ issuedCount (fun _ => true) mp ≠ 0 →
          t.cc = { s.cc with
            queue := (recordsVoided s.cc.queue unanswered .media).dropWhile fun r => finished r.state, stopLog := true } ∧
          t.mp = mp)) ∧
    (s.cc.path = .draining → Quiet s → ∃ u, exec c s = .next (afterDrain u) ∧
      u.cc = { s.cc with queue := (recordsVoided s.cc.queue logging .media).dropWhile fun r => finished r.state } ∧
      u.le = retired (ringU s) ((recordsVoided s.cc.queue logging .media).takeWhile fun r => finished r.state) le ∧
      u.hp = recordsAnswered s.hp [rec] .failedMedia ∧ u.mp = mp ∧ u.mg = failureMg c id s.mg ∧ Released rec.writes s u ∧
      OnlyIn [.hp, .ss, .cc, .le, .mp, .mg] s u)) ∧
  (∀ (c : Instr) (id : MemId) (s : State) (p : Piece), Live s → HoldSound s → FailsForGood c id s p → p.owner = .anchor →
    s.cc.path = .run ∨ s.cc.path = .stopped → s.cc.quiesce = none → s.re.mode ≠ .ending → s.cc.stopLog = false →
    let le := { s.le with anchor := none }
    let mp := failureMp c id p s.mp
    let goesOn := ∀ job, s.le.job = some job → job.trailer ≠ none
    (goesOn → ∃ t, exec c s = .next t ∧ LogStopped (fun r => r.state == .queued) le mp s t ∧
      (c = .responseTimeout id → causeIn .orphan t.mg.causes = true)) ∧
    (∀ rec sp, ¬ goesOn → s.cc.queue.filter logging = [rec] → rec.span = some sp →
      ∃ t, exec c s = .next t ∧ LogStopped unanswered (spanConsumed (ringU s) sp le) (withdrawnMp isGroupOwner mp) s t ∧
        (c = .responseTimeout id → causeIn .orphan t.mg.causes = true)))

/-! ## The apply engine -/

/-- AE starts the first record that is not VOIDED when it is DURABLE, in RUN or in STOPPED without the APPLY cause and outside quiesce;
otherwise APPLY_START changes nothing (R67, R110). -/
def Obligations.ApplyStartsInOrder : Prop :=
  ∀ s : State, Live s →
    (∀ rec, startable s.cc = some rec → s.ae.mode = .idle → s.cc.quiesce = none →
      (s.cc.path = .run ∨ (s.cc.path = .stopped ∧ s.cc.stopApply = false)) →
      exec .applyStart s = .next ((s.withCc { s.cc with queue := s.cc.queue.map fun r =>
          if r.number = rec.number ∧ r.state = .durable then { r with state := .applying } else r }).withAe
        ⟨.walking, some rec.number, 1, rec.writes.head?, [], none, []⟩)) ∧
    ((startable s.cc = none ∨ s.ae.mode ≠ .idle ∨ s.cc.quiesce ≠ none ∨
      (s.cc.path ≠ .run ∧ (s.cc.path ≠ .stopped ∨ s.cc.stopApply = true))) → exec .applyStart s = .next s)

/-- AE hands the home write of the next descriptor when the previous write is issued and no write in the handed set shares a byte: address,
length, mask and bytes as read, every piece awaited; an uncorrectable read-out hands the fallback read of the descriptor's data record
instead and the walk does not move. When the last piece of the fallback read returns OK and the ring copy passes every test, the home write
is handed from the copy and the walk moves on; when the copy fails a test, or a piece of the read fails for good by ERR or by timeout, it
is an apply failure and the fallback read is absent, stated outside DRAINING and quiesce with the APPLY stop cause absent; that a withdrawn
retry of another home write puts nothing into the failed set is the model's choice (log 34). In HALTED, DRAINING and quiesce included, its
bytes are not used and nothing is reported; it is absent once no piece is awaited, and the discard step of quiesce is taken when it is then
due. The next descriptor is the list's entry at the new position: those not yet handed are its last ones (R108, R111, R112, R114 to R118,
R121, R122, R143, R157; log 20). -/
def Obligations.HomeWriteIsHanded : Prop :=
  (∀ (us : List Upset) (s : State) (i : Nat) (rec : CommitRecord), Live s → s.ae.mode = .walking → s.ae.next = some i →
    currentRecord s = some rec → walkReady s (descAt s i) = true →
    let d := descAt s i
    let read := readDescriptor d (applyUpsets us s)
    (read.1 ≠ .uncorrectable → ∃ t, exec (.homeWriteHand us) s = .next t ∧
      t.mp = applyHanded s.mp (cutRequest (burst s.mg.cfg) (Owner.home i) .write d.addr.toNat d.length d.mask read.2.1) ∧
      t.ae = walkedOn rec s ⟨i, d.addr, d.length,
        List.replicate (pieceCount (burst s.mg.cfg) d.addr.toNat d.length) .pending⟩ ∧
      t.ss = read.2.2.ss ∧ t.mg = read.2.2.mg ∧ OnlyIn [.ss, .ae, .mp, .mg] s t) ∧
    (read.1 = .uncorrectable → ∃ t, exec (.homeWriteHand us) s = .next t ∧ t.ae.mode = .fetching ∧ t.ae.walk = s.ae.walk ∧
      (∀ q, d.logPos = some q → t.mp = applyHanded s.mp (cutRequest (burst s.mg.cfg) Owner.fallback .read
        (unitAddr s.mg.cfg q) (32 * dataUnits d.length d.mask.isSome) none []) ∧
        t.ae = { s.ae with mode := .fetching, fallback := some ⟨i, q, List.replicate
          (pieceCount (burst s.mg.cfg) (unitAddr s.mg.cfg q) (32 * dataUnits d.length d.mask.isSome)) .pending⟩ }) ∧
      t.ae.handed = s.ae.handed ∧ t.ae.failed = s.ae.failed ∧ t.ss = read.2.2.ss ∧ t.mg = read.2.2.mg ∧
      OnlyIn [.ss, .ae, .mp, .mg] s t)) ∧
  (∀ (id : MemId) (data : List Byte) (s : State) (p : Piece) (t0 : Option (BitVec 16)) (w : Bool) (k : Nat) (f : Fallback)
    (rec : CommitRecord), Live s → Settled s → HoldSound s → s.ae.mode = .fetching →
    s.mp.entries.getD id.toNat .free = .issued p t0 w → p.owner = .fallback k → p.kind = .read → p.length = data.length →
    s.ae.fallback = some f → currentRecord s = some rec → s.cc.stopApply = false →
    s.cc.path = .run ∨ s.cc.path = .stopped →
    let ms := f.pieces.set k (.done data)
    let bs := piecesData ms
    let d := descAt s f.desc
    let copy := recordWrite (datFields bs) (bs.drop 32)
    let mp := entryFreed s.mp id
    (allDone ms = false → exec (.memoryResponse id .ok data) s =
      .next ((s.withMp mp).withAe { s.ae with fallback := some { f with pieces := ms } })) ∧
    (allDone ms = true → ringCopyChecks s.le.epoch rec.number s.ae.walk d bs = true →
      ∃ t, exec (.memoryResponse id .ok data) s = .next t ∧
        t.mp = applyHanded mp (cutRequest (burst s.mg.cfg) (Owner.home f.desc) .write copy.addr.toNat copy.length copy.mask
          copy.data) ∧
        t.ae = walkedOn rec s ⟨f.desc, copy.addr, copy.length,
          List.replicate (pieceCount (burst s.mg.cfg) copy.addr.toNat copy.length) .pending⟩ ∧ OnlyIn [.ae, .mp] s t) ∧
    (allDone ms = true → ringCopyChecks s.le.epoch rec.number s.ae.walk d bs = false →
      ∃ t, exec (.memoryResponse id .ok data) s = .next t ∧ ApplyStopped f.desc mp s t ∧ t.ae.fallback = none ∧
        t.cc.queue = s.cc.queue) ∧
    (∀ c, FailsForGood c id s p → ∃ t, exec c s = .next t ∧ ApplyStopped f.desc (failureMp c id p s.mp) s t ∧
      t.ae.fallback = none ∧ (c = .responseTimeout id → causeIn .orphan t.mg.causes = true))) ∧
  (∀ (c : Instr) (id : MemId) (s u : State) (p : Piece) (t0 : Option (BitVec 16)) (w : Bool) (k : Nat) (f : Fallback)
    (m : PieceMark), Live s → Quiet s ∨ Quiescing s → s.ae.mode = .halted → s.mp.entries.getD id.toNat .free = .issued p t0 w →
    p.owner = .fallback k → s.ae.fallback = some f →
    (∃ data, c = .memoryResponse id .ok data ∧ p.kind = .read ∧ p.length = data.length ∧ m = .done data ∧
      u = s.withMp (entryFreed s.mp id)) ∨ (FailsForGood c id s p ∧ m = .failed ∧ u = afterFailure c id p s) →
    let ms := f.pieces.set k m
    exec c s = .next (afterEvent (u.withAe { s.ae with
      fallback := if anyPending ms then some { f with pieces := ms } else none })))

/-- The acknowledgement of a piece of a home write marks it; that of the last one takes the descriptor out of the handed set and of the
record's list and releases it; when the list is then empty the record is APPLIED, what stands finished at the head is removed with its
spans reclaimable, and AE has no current record. A read or untagged write on hazard overlap is evaluated anew, a write in stage wait is
staged when the pools now suffice and else waits on, and a COMMIT on a full queue is accepted in RUN when the removal makes room. A piece
that fails for good, by ERR or by timeout, takes the descriptor out of the handed set; outside DRAINING, quiesce and HALTED, with the APPLY
cause absent, it is an apply failure, and in HALTED the descriptor joins the failed set and nothing is reported; that a withdrawn retry of
another home write stays in the handed set, not failed, is the model's choice (log 34). In DRAINING the acknowledgements do the same as
elsewhere and the path is SAFE when the drain is then complete; during quiesce a request that holds, a stage wait apart, is left as it is,
and the discard step is taken when it is then due (R13, R25, R33, R61, R68, R71, R98, R113, R117, R118, R121, R122, R126, R143, R156, R157,
R172, R173). -/
def Obligations.HomeWriteAckReleasesDescriptor : Prop :=
  ∀ (id : MemId) (data : List Byte) (s : State) (p : Piece) (t0 : Option (BitVec 16)) (w : Bool) (i k : Nat) (h : HandedWrite)
    (rec : CommitRecord), Live s → Quiet s ∨ Quiescing s → HoldSound s →
    s.cc.path = .run ∨ s.cc.path = .stopped ∨ s.cc.path = .draining →
    s.mp.entries.getD id.toNat .free = .issued p t0 w → p.owner = .home i k → p.kind = .write →
    s.ae.handed.find? (fun h => h.desc == i) = some h → currentRecord s = some rec → i ∈ rec.writes →
    let ms := h.pieces.set k (.done [])
    let left := s.ae.handed.filter fun x => x.desc != i
    let mp := entryFreed s.mp id
    let others := rec.writes.erase i
    let shrunk := fun st => s.cc.queue.map fun r =>
      if r.number = rec.number ∧ r.state = .applying then { r with writes := others, state := st } else r
    (allDone ms = false → exec (.memoryResponse id .ok data) s = .next (afterEvent ((s.withMp mp).withAe { s.ae with
      handed := s.ae.handed.map fun x => if x.desc = i then { x with pieces := ms } else x }))) ∧
    (allDone ms = true → ∃ t, exec (.memoryResponse id .ok data) s = .next (afterEvent t) ∧
      t.ae.handed = left ∧ t.ae.failed = s.ae.failed ∧ t.ae.walk = s.ae.walk ∧
      (others ≠ [] → t.cc = { s.cc with queue := shrunk .applying } ∧ t.ae = { s.ae with handed := left } ∧ t.le = s.le) ∧
      (others = [] → t.ae.current = none ∧ t.ae.mode = (if s.ae.mode = .halted then .halted else .idle) ∧
        t.le = retired (ringU s) ((shrunk .applied).takeWhile fun r => finished r.state) s.le ∧
        (s.hp.hold ≠ some .commitQueueFull ∨ s.cc.quiesce ≠ none →
          t.cc = { s.cc with queue := (shrunk .applied).dropWhile fun r => finished r.state })) ∧
      (s.hp.hold = none ∨ (s.cc.quiesce ≠ none ∧ s.hp.hold ≠ some .stageWait) →
        Released [i] s t ∧ t.hp = s.hp ∧ t.mp = mp ∧ OnlyIn [.ss, .cc, .le, .ae, .mp] s t) ∧
      (∀ r, s.hp.intake.head? = some r →
        (s.hp.hold = some .hazardOverlap → s.cc.quiesce = none →
          PassEvaluated (needsSlot r s) r s.hp mp t ∧ (needsSlot r s = false → Released [i] s t)) ∧
        (s.hp.hold = some .stageWait → s.gt.ctxs.length = 63 → StageTested (releaseOne s.ss i) s.hp r s t) ∧
        (s.hp.hold = some .commitQueueFull → s.cc.path = .run → others = [] →
          CommitAccepted ((shrunk .applied).dropWhile fun r => finished r.state) s.hp r s t))) ∧
    (∀ c, FailsForGood c id s p →
      (s.cc.path ≠ .draining → s.cc.quiesce = none → s.re.mode ≠ .ending → s.cc.stopApply = false → s.ae.mode ≠ .halted →
        ∃ t, exec c s = .next t ∧ ApplyStopped i (failureMp c id p s.mp) s t ∧
          t.ae.handed.map HandedWrite.desc = left.map HandedWrite.desc ∧
          (c = .responseTimeout id → causeIn .orphan t.mg.causes = true)) ∧
      (s.ae.mode = .halted → exec c s =
        .next (afterEvent ((afterFailure c id p s).withAe { s.ae with handed := left, failed := s.ae.failed ++ [i] }))))

/-! ## The memory port -/

/-- The pieces of a request tile it: each lies within one window of the burst boundary, they follow one another from the request's
first byte to its last; a request of up to 256 bytes gives 1 to 5 pieces, one of up to 320 bytes at a unit boundary 1 to 6 (R137). -/
def Obligations.PiecesTileTheRequest : Prop :=
  ∀ b addr len : Nat, 0 < b → 0 < len →
    let ps := splitRanges b addr len
    (∀ p ∈ ps, 0 < p.2 ∧ p.1 + p.2 ≤ len ∧ (addr + p.1) / b = (addr + p.1 + p.2 - 1) / b) ∧
    (ps.map Prod.snd).sum = len ∧
    (∀ i (h : i < ps.length), ps[i].1 = ((ps.take i).map Prod.snd).sum) ∧
    (64 ≤ b → len ≤ 256 → 1 ≤ ps.length ∧ ps.length ≤ 5) ∧
    (64 ≤ b → b % 32 = 0 → addr % 32 = 0 → len ≤ 320 → ps.length ≤ 6)

/-- One grant: the first eligible class from the rotation pointer on gives its head piece the lowest-numbered FREE entry, the piece is
placed on the channel with the entry's index as id, and the pointer moves to the class after the winner. A PASS piece is ISSUED in its
request record; the first piece of a data record, at its first grant, sets the log position of its descriptor. Nothing else changes but
the drain progress in DRAINING, where one more entry is ISSUED; in SAFE nothing is granted (R94, R135, R138 to R140, R172, R174). -/
def Obligations.ArbiterGrantsInRotation : Prop :=
  ∀ (s : State) (c : RequestClass) (k : Nat) (p : Piece) (rest : List Piece), Live s →
    (rotation s.mp.pointer).find? (fun c => !(readyOf s.mp c).isEmpty && decide (classIssued c s.mp < classCap c)) = some c →
    s.mp.entries.findIdx? isFree = some k → readyOf s.mp c = p :: rest →
    (s.cc.path ≠ .safe → ∃ t, exec .arbiterGrant s = .next t ∧
      t.mp.entries = s.mp.entries.set k (.issued p none false) ∧
      t.mp.pointer = (match c with | .pass => .log | .log => .apply | .apply => .pass) ∧
      t.mp.channel = s.mp.channel ++ [⟨k, p.kind, p.addr, p.length, p.mask, p.data⟩] ∧ readyOf t.mp c = rest ∧
      (∀ c', c' ≠ c → readyOf t.mp c' = readyOf s.mp c') ∧
      (t.mp.errors = s.mp.errors ∧ t.mp.timeouts = s.mp.timeouts ∧ t.mp.strays = s.mp.strays ∧ t.mp.orphaned = s.mp.orphaned) ∧
      ((∀ m i, p.owner ≠ .pass m i) → t.mp.records = s.mp.records) ∧
      (∀ m i, p.owner = .pass m i → (∀ m', m' ≠ m → t.mp.records[m']? = s.mp.records[m']?) ∧
        (∀ r, s.mp.records[m]? = some (some r) → ∃ r', t.mp.records[m]? = some (some r') ∧ r' = { r with pieces := r'.pieces } ∧
          r'.pieces.length = r.pieces.length ∧
          ∀ j, r'.pieces[j]? = (r.pieces[j]?).map fun x => if j = i then { x with state := .issued } else x)) ∧
      (t.ss = { s.ss with descs := t.ss.descs } ∧ ∀ d, lookupDesc t.ss.descs d = (lookupDesc s.ss.descs d).map fun x =>
        match p.owner with
        | .group (.dat _ d' u) 0 => if d = d' ∧ p.retry = 0 then { x with logPos := some u } else x
        | _ => x) ∧
      (s.cc.path ≠ .draining → t.pf = s.pf) ∧
      (s.cc.path = .draining → t.pf = { s.pf with drain := some ⟨(loggingRecord s.cc).isSome, s.le.anchor.isSome,
        issuedCount (fun _ => true) s.mp + 1⟩ }) ∧
      OnlyIn [.ss, .mp, .pf] s t) ∧
    (s.cc.path = .safe → exec .arbiterGrant s = .next s)

/-- The channel accepts the piece at its head: its entry's timer is loaded with the configured timeout, or there is none with a
timeout of 0 (R141). -/
def Obligations.ChannelAcceptLoadsTimer : Prop :=
  ∀ (s : State) (m : MemRequest) (rest : List MemRequest) (p : Piece) (t0 : Option (BitVec 16)) (w : Bool), Live s →
    s.mp.channel = m :: rest → s.mp.entries[m.id]? = some (.issued p t0 w) → (∀ x ∈ rest, x.id ≠ m.id) →
    exec .channelAccept s = .next (s.withMp { s.mp with
      channel := rest
      entries := s.mp.entries.set m.id (.issued p (if s.mg.cfg.timeout = 0 then none else some s.mg.cfg.timeout) w) })

/-- A late response frees its ORPHANED entry, lowers the orphaned figure by one and reports nothing; a stray response leaves its FREE
entry FREE and is counted; no other state changes. Of a response and the expiry of the timer of one ISSUED entry either may come first:
after the response the expiry changes nothing, and after the expiry the entry is ORPHANED, so that the response is late (R144). -/
def Obligations.LateAndStrayResponses : Prop :=
  ∀ (id : MemId) (st : MemStatus) (data : List Byte) (s : State), Live s →
    (∀ p, s.mp.entries[id.toNat]? = some (.orphaned p) → exec (.memoryResponse id st data) s = .next (s.withMp { s.mp with
      entries := s.mp.entries.set id.toNat .free, orphaned := s.mp.orphaned - 1 })) ∧
    (s.mp.entries[id.toNat]? = some .free →
      exec (.memoryResponse id st data) s = .next (s.withMp { s.mp with strays := s.mp.strays + 1 })) ∧
    (∀ p t0 w, s.mp.entries[id.toNat]? = some (.issued p t0 w) → ∃ t, exec (.memoryResponse id st data) s = .next t ∧
      t.mp.entries[id.toNat]? = some .free ∧ exec (.responseTimeout id) t = .next t) ∧
    (∀ p timer w, s.mp.entries[id.toNat]? = some (.issued p (some timer) w) → ∃ t, exec (.responseTimeout id) s = .next t ∧
      t.mp.entries[id.toNat]? = some (.orphaned p))

/-- A failed attempt of a LOG or APPLY piece, of LE, AE or RE, below the retry limit whose request has not been withdrawn: after an ERR,
with a timer or without one, the entry is FREE and the error counted; after the expiry of its timer the entry is ORPHANED, the timeout
counted and ORPHAN set. In both cases the piece with its retry count raised goes to the head of its class's ready list, nothing is
reported, and nothing else changes but for the drain and, during quiesce, the discard step when it is then due: in every path state
(R142, R143, R145, R149, R156, R157, R172, R175). -/
def Obligations.FailedAttemptIsRetried : Prop :=
  ∀ (c : Instr) (id : MemId) (s : State) (p : Piece) (timer : Option (BitVec 16)), Live s →
    Quiescing s ∨ (s.cc.quiesce = none ∧
      (s.re.mode = .ending → isRecoveryOwner p.owner = false ∧ issuedCount isRecoveryOwner s.mp ≠ 0)) →
    ownerClass p.owner ≠ .pass → p.retry < s.mg.cfg.retryLimit → s.mp.entries[id.toNat]? = some (.issued p timer false) →
    AttemptFails c id timer →
    let mp := failureMp c id p s.mp
    let again := { p with retry := p.retry + 1 }
    exec c s = .next (afterEvent ((afterFailure c id p s).withMp (if ownerClass p.owner = .log
      then { mp with readyLog := again :: mp.readyLog } else { mp with readyApply := again :: mp.readyApply })))

/-- The outcome of a piece of a pass-through request, a read or a write: OK frees the entry and gives a read its bytes, ERR frees it and is
counted, a timeout makes it ORPHANED, is counted and sets ORPHAN. While another piece is READY or ISSUED only the request record changes.
With the last outcome the record is freed and the request answered: POWER when a piece was withdrawn, MEM_ERROR when one failed, else OK; a
read answered OK carries its bytes, each the overlay's where the read's merge slot holds one and otherwise memory's; its slot is freed and
its id leaves the set. A request that holds on the full list is evaluated anew; a read that holds on no free merge slot takes the freed
one. In DRAINING the same holds and the path is SAFE when the drain is then complete; during quiesce a request that holds is left as it is,
and the discard step is taken when it is then due (R13, R133, R134, R138, R142, R143, R147, R156, R157, R172, R173, R175). -/
def Obligations.PassReadCompletes : Prop :=
  ∀ (c : Instr) (id : MemId) (data : List Byte) (s : State) (p : Piece) (t0 : Option (BitVec 16)) (w : Bool) (k i : Nat)
    (r : PassRecord) (pc : PassPiece), Live s → Quiet s ∨ Quiescing s → HoldSound s →
    s.mp.entries.getD id.toNat .free = .issued p t0 w → p.owner = .pass k i → s.mp.records[k]? = some (some r) →
    p.kind = r.kind → r.pieces[i]? = some pc → p.length = pc.length →
    c = .memoryResponse id .ok data ∨ c = .memoryResponse id .err data ∨ (c = .responseTimeout id ∧ t0 ≠ none) →
    (c = .memoryResponse id .ok data → r.kind = .read → data.length = pc.length) →
    let good := decide (c = .memoryResponse id .ok data)
    let late := decide (c = .responseTimeout id)
    let mp := { s.mp with
      entries := s.mp.entries.set id.toNat (if late then .orphaned p else .free)
      errors := if good || late then s.mp.errors else s.mp.errors + 1
      timeouts := if late then s.mp.timeouts + 1 else s.mp.timeouts
      orphaned := if late then s.mp.orphaned + 1 else s.mp.orphaned }
    let marked := r.pieces.set i { pc with state := if good then .completedOk else .completedErr }
    let isOpen := marked.any fun x => x.state == .ready || x.state == .issued
    let answer := if marked.any (fun x => x.state == .withdrawn) then .power
      else if marked.any (fun x => x.state == .completedErr) then .memError else .ok
    let slotHeld := r.kind == .read && (slotOverlay s.hp.slots r.id).isSome
    ∃ t, exec c s = .next (afterEvent t) ∧ (late = true → causeIn .orphan t.mg.causes = true) ∧
      (s.hp.hold = none ∨ s.cc.quiesce ≠ none → t.mg = if late then { s.mg with causes := s.mg.causes ||| 32#7 } else s.mg) ∧
      (isOpen = true → t.hp = s.hp ∧ ∃ r', t.mp = { mp with records := s.mp.records.set k (some r') } ∧
        r' = { r with pieces := marked, buffer := r'.buffer } ∧
        (good = false ∨ r.kind ≠ .read → r'.buffer = r.buffer) ∧
        (good = true → r.kind = .read → ∀ j, j < r.buffer.length → r'.buffer[j]? =
          (if pc.offset ≤ j ∧ j < pc.offset + pc.length then some (data[j - pc.offset]?) else r.buffer[j]?)) ∧
        OnlyIn [.mp, .mg] s t) ∧
      (isOpen = false → ∃ bytes, let x : Response := ⟨r.id, answer, bytes⟩
        let hp := { owedAnswered s.hp x with slots := s.hp.slots.map fun m =>
          if slotHeld && (m.map MergeSlot.id == some r.id) then none else m }
        let freed := { mp with records := s.mp.records.set k none }
        (answer ≠ .ok ∨ r.kind ≠ .read → bytes = []) ∧
        (answer = .ok → r.kind = .read → r.length ≤ r.buffer.length → bytes.length = r.length ∧ ∀ j, j < r.length →
          bytes.getD j 0 = (((slotOverlay s.hp.slots r.id).getD []).getD j none).getD
            (if pc.offset ≤ j ∧ j < pc.offset + pc.length then data.getD (j - pc.offset) 0
             else (r.buffer.getD j none).getD (Config.unsentByte j))) ∧
        (s.hp.hold = none ∨ s.cc.quiesce ≠ none → t.hp = hp ∧ t.mp = freed ∧ OnlyIn [.hp, .mp, .mg] s t) ∧
        (∀ q, s.hp.hold = some .passListFull → s.hp.intake.head? = some q → s.cc.quiesce = none →
          s.cc.path = .run ∨ s.cc.path = .stopped →
          PassEvaluated (needsSlot q s) q hp freed t) ∧
        (∀ q n ov v, s.hp.hold = some .noMergeSlot → s.hp.intake.head? = some q → s.cc.path = .run → slotHeld = true →
          (ctxOf s q.tag).state = .opened → firstAbsent hp.slots = some n →
          overlapsSide (fun st => loggingSide st || homeSide st) s q.addr.toNat q.length = false →
          overlayWalk q.addr.toNat q.length (ctxOf s q.tag).writes (List.replicate q.length none) s = (some ov, v) →
          ∃ m, firstAbsent freed.records = some m ∧ t.mp = passSent s.mg.cfg freed m q ∧
            t.hp = { holdDispatched hp q with slots := hp.slots.set n (some ⟨q.id, q.addr, q.length, ov⟩) }))

/-! ## Start-up, quiesce and recovery -/

/-- FORMAT and RECOVER taken in UNCONFIGURED: status BUSY with the command and no result, the path FORMATTING or RECOVERING, and RE
hands a read of 64 bytes of each anchor slot; the frame is reported taken. When both reads have returned, in FORMATTING RE writes the slot
that does not hold the current anchor, or slot 0 when neither is valid, with sequence 1 under the epoch after the current one, or 1; in
RECOVERING it scans from the current anchor's tail, or ends with NO_ANCHOR when neither slot is valid. When FORMAT's first write is
acknowledged RE writes the other slot with sequence 2, and when that is acknowledged the log opens empty at unit 0 under the new epoch,
with next commit number 1 (R106, R152, R155, R158, R159, R161, R185). -/
def Obligations.StartUpCommandIsTaken : Prop :=
  (∀ (c : Instr) (s : State), c = .format ∨ c = .recover → Live s → s.cc.path = .unconfigured → s.cc.status ≠ .busy →
    let cmd : Command := if c = .format then .format else .recover
    let slotRead := fun k =>
      cutRequest (burst s.mg.cfg) (Owner.recovery (.anchorRead k)) .read (slotAddr s.mg.cfg k) 64 none []
    ∃ t, exec c s = .next t ∧
      t.cc = { s.cc with
        path := if c = .format then .formatting else .recovering
        status := .busy, command := some cmd, result := none, replayed := 0, skipped := 0 } ∧
      t.re.mode = .anchorRead ∧ t.mp = applyHanded s.mp (slotRead 0 ++ slotRead 1) ∧
      t.mg = frameEnded takenOnly 0 s.mg ∧ OnlyIn [.cc, .re, .mp, .mg] s t) ∧
  (∀ (id : MemId) (data : List Byte) (s : State) (p : Piece) (t0 : Option (BitVec 16)) (w : Bool) (x k : Nat)
    (m0 m1 : List PieceMark), Live s → Settled s → recoveryListens s.re = true →
    s.mp.entries.getD id.toNat .free = .issued p t0 w → p.owner = .recovery (.anchorRead x) k → p.kind = .read →
    p.length = data.length →
    (s.re.reads.map fun r => if r.what = .anchorRead x then { r with pieces := r.pieces.set k (.done data) } else r) =
      [⟨.anchorRead 0, m0⟩, ⟨.anchorRead 1, m1⟩] →
    let cfg := s.mg.cfg
    let mp := entryFreed s.mp id
    let current := chooseAnchor (readAnchor cfg.sizeExp 0 (piecesData m0)) (readAnchor cfg.sizeExp 1 (piecesData m1))
    let epoch : Epoch := match current with | some a => a.epoch + 1 | none => 1
    let slot := match current with | some a => (if a.slot = 0 then 1 else 0) | none => 0
    (allDone m0 = false ∨ allDone m1 = false → exec (.memoryResponse id .ok data) s =
      .next ((s.withMp mp).withRe { s.re with reads := [⟨.anchorRead 0, m0⟩, ⟨.anchorRead 1, m1⟩] })) ∧
    (allDone m0 = true → allDone m1 = true → s.cc.path = .formatting → exec (.memoryResponse id .ok data) s =
      .next ((s.withMp (applyHanded mp (slotPieces cfg (.slotWrite false) slot (anchorRecord 1 epoch cfg.sizeExp 0 1)))).withRe
        { s.re with mode := .formatWrite, newEpoch := epoch, firstSlot := slot, reads := [] })) ∧
    (∀ a, allDone m0 = true → allDone m1 = true → s.cc.path ≠ .formatting → current = some a →
      exec (.memoryResponse id .ok data) s =
        .next ((s.withMp (applyHanded mp (unitPieces cfg .startUnit a.tail 1))).withRe { s.re with
          mode := .scan, chosen := some a, e := a.epoch, p := a.tail, c := a.commit, replayed := 0, skipped := 0,
          reads := [unitAwaited cfg .startUnit a.tail 1] })) ∧
    (allDone m0 = true → allDone m1 = true → s.cc.path ≠ .formatting → current = none →
      ∃ t, exec (.memoryResponse id .ok data) s = .next t ∧ t.cc.status = .done ∧ t.cc.result = some .noAnchor ∧
        t.cc.path = .unconfigured ∧ causeIn .cmdDone t.mg.causes = true ∧ t.re.mode = .idle ∧ t.le = s.le ∧
        t.cc.next = s.cc.next ∧ t.mp.readyApply = s.mp.readyApply)) ∧
  (∀ (id : MemId) (data : List Byte) (s : State) (second : Bool) (k : Nat), Live s → Settled s → HoldSound s →
    recoveryListens s.re = true → AwaitsWrite id s (.slotWrite second) k →
    let other := if s.re.firstSlot = 0 then 1 else 0
    let mp := entryFreed s.mp id
    (second = false → exec (.memoryResponse id .ok data) s = .next (s.withMp (applyHanded mp
      (slotPieces s.mg.cfg (.slotWrite true) other (anchorRecord 2 s.re.newEpoch s.mg.cfg.sizeExp 0 1))))) ∧
    (second = true → ∃ t, exec (.memoryResponse id .ok data) s = .next t ∧ LogOpens 0 s.re.newEpoch other 2 1 mp s t))

/-- RESTART and FORMAT taken in STOPPED: status BUSY and quiesce begins with AE HALTED; when nothing is LOGGING, in flight or ISSUED the
discard step follows in the same event and the path is RECOVERING or FORMATTING with an empty queue, and otherwise the path stays
STOPPED with quiesce present (R155 to R157; log 2). -/
def Obligations.RestartBeginsQuiesce : Prop :=
  ∀ (c : Instr) (s : State), c = .restart ∨ c = .format → Live s → s.cc.path = .stopped → s.cc.status ≠ .busy →
    s.re.mode = .idle →
    let cmd : Command := if c = .format then .format else .restart
    let rest := (loggingRecord s.cc).isNone && s.le.anchor.isNone && s.mp.records.all Option.isNone &&
      issuedCount (fun _ => true) s.mp == 0
    ∃ t, exec c s = .next t ∧ t.cc.status = .busy ∧ t.cc.command = some cmd ∧ t.cc.result = none ∧ t.cc.next = s.cc.next ∧
      (rest = true → t.cc.path = (if c = .format then .formatting else .recovering) ∧ t.cc.queue = [] ∧ t.cc.quiesce = none ∧
        t.ae.mode = .idle ∧ t.re.mode = .anchorRead) ∧
      (rest = false → t.cc.path = .stopped ∧ t.cc.quiesce = some cmd ∧ t.cc.queue = s.cc.queue ∧ t.ae.mode = .halted) ∧
      t.le = s.le ∧ t.hp.intake = s.hp.intake ∧ t.hp.hold = s.hp.hold

/-- A command that the table of R155 does not take in the path state is refused with REFUSED_STATE and no result; while the status is
BUSY it is not taken and the frame reports command busy; nothing else changes (R155, R185). -/
def Obligations.CommandsAreRefusedForTheState : Prop :=
  ∀ (c : Instr) (cmd : Command) (s : State), Live s →
    ((c = .format ∧ cmd = .format) ∨ (c = .recover ∧ cmd = .recover) ∨ (c = .restart ∧ cmd = .restart)) →
    (s.cc.status = .busy → exec c s = .next (s.withMg (frameEnded ⟨true, false, false, true, false, false⟩ 0 s.mg))) ∧
    (s.cc.status ≠ .busy → s.cc.path ≠ .unconfigured ∨ cmd = .restart → s.cc.path ≠ .stopped ∨ cmd = .recover →
      exec c s = .next ((s.withCc { s.cc with
        status := .refusedState, command := some cmd, result := none, replayed := 0, skipped := 0 }).withMg (frameEnded takenOnly 0 s.mg)))

/-- The discard step of quiesce: the records not yet answered are answered STOPPED in order, the queue and the stop causes are empty,
every context is IDLE, the pools are full in index order, the merge slots FREE, AE has its reset values, the path is FORMATTING or
RECOVERING and RE reads the anchor slots; the log engine, the intake queue and the outstanding table stay. QUIESCE_DISCARD, the step as
a command of the model, takes it when it is still due; the model takes it in the event that makes it due, so no run leaves it due
(R73, R157; log 2). -/
def Obligations.QuiesceDiscardsVolatileState : Prop :=
  ∀ (s : State) (c : Command), Live s → s.cc.path = .stopped → s.cc.quiesce = some c → loggingRecord s.cc = none →
    s.le.anchor = none → s.mp.records.all Option.isNone = true → issuedCount (fun _ => true) s.mp = 0 →
    ∃ t, exec .quiesceDiscard s = .next t ∧
      t.cc = { s.cc with queue := [], stopLog := false, stopApply := false, quiesce := none,
                         path := if c = .format then .formatting else .recovering } ∧
      t.hp.responses = s.hp.responses ++
        (s.cc.queue.filter fun r => r.state == .queued).map (fun r => ⟨r.hostId, .stopped, []⟩) ∧
      t.hp.intake = s.hp.intake ∧ t.hp.hold = s.hp.hold ∧ t.hp.slots = s.hp.slots.map (fun _ => none) ∧
      t.gt.ctxs = s.gt.ctxs.map (fun _ => Context.idle) ∧
      t.ss = { s.ss with descPool := List.range 4096, segPool := List.range 8192, descs := [] } ∧
      t.ae = ApplyEngine.reset ∧ t.re.mode = .anchorRead ∧ t.mp.entries = s.mp.entries ∧
      OnlyIn [.hp, .ss, .gt, .cc, .ae, .re, .mp] s t

/-- A piece of RE that fails for good, by ERR or by timeout, ends its command: RE's requests are withdrawn, and once none of its pieces is
ISSUED the command is DONE with FORMAT_FAILED, READ_FAILED, REPLAY_FAILED or ANCHOR_FAILED as the tables give, CMD_DONE is set, the path is
UNCONFIGURED and RE IDLE; the log engine's figures and the next commit number keep their values. While it waits, the outcomes of its pieces
are discarded, and the last of them ends the command; after an entry to DRAINING, which has ended the command, the last one leaves RE IDLE,
its replay in-flight set empty by the model's choice (log 35). ENDING_COMPLETE, the same end as a command of the model, takes it when it is
still due; the model takes it in the event that makes it due, so no run leaves it due (R143, R154, R155, R158 to R160, R166, R172, R175;
log 2). -/
def Obligations.FailedCommandEnds : Prop :=
  (∀ (s : State) (res : ResultCode), Live s → s.re.mode = .ending → s.re.owed = some res → res ≠ .ok →
    issuedCount isRecoveryOwner s.mp = 0 →
    ∃ t, exec .endingComplete s = .next t ∧ t.cc.status = .done ∧ t.cc.result = some res ∧ t.cc.command = s.cc.command ∧
      t.cc.replayed = 0 ∧ t.cc.skipped = 0 ∧ t.cc.path = .unconfigured ∧ causeIn .cmdDone t.mg.causes = true ∧
      t.re.mode = .idle ∧ t.re.chosen = none ∧ t.re.group = none ∧ t.re.map = [] ∧ t.cc.next = s.cc.next ∧ t.le = s.le) ∧
  (∀ (c : Instr) (id : MemId) (s : State) (p : Piece) (what : RecoveryRequest) (k : Nat), Live s → Settled s →
    recoveryListens s.re = true → FailsForGood c id s p → p.owner = .recovery what k →
    let res : ResultCode := match what with
      | .anchorRead _ => if s.cc.path = .formatting then .formatFailed else .readFailed
      | .startUnit => .readFailed
      | .trailerUnit => .readFailed
      | .datHeader => .readFailed
      | .datRest => .readFailed
      | .secondReading => .replayFailed
      | .replayWrite _ => .replayFailed
      | .slotWrite _ => .formatFailed
      | .closing => .anchorFailed
    ∃ t, exec c s = .next t ∧ CommandFails res (failureMp c id p s.mp) s t ∧
      (c = .responseTimeout id → causeIn .orphan t.mg.causes = true)) ∧
  (∀ (c : Instr) (id : MemId) (s u : State) (p : Piece) (timer : Option (BitVec 16)) (w : Bool) (what : RecoveryRequest) (k : Nat),
    Live s → s.cc.quiesce = none → s.re.mode = .ending → s.mp.entries.getD id.toNat .free = .issued p timer w →
    p.owner = .recovery what k →
    (∃ data, c = .memoryResponse id .ok data ∧ u = s.withMp (entryFreed s.mp id)) ∨
      (FailsForGood c id s p ∧ u = afterFailure c id p s) →
    (issuedCount isRecoveryOwner u.mp ≠ 0 → exec c s = .next (afterDrain u)) ∧
    (issuedCount isRecoveryOwner u.mp = 0 → s.re.owed = none → exec c s = .next (afterDrain (u.withRe { s.re with
      mode := .idle, chosen := none, group := none, map := [], replaySet := [], reads := [], header := [], held := none,
      owed := none }))) ∧
    (∀ res, issuedCount isRecoveryOwner u.mp = 0 → s.re.owed = some res → res ≠ .ok → ∃ t, exec c s = .next t ∧
      t.cc.status = .done ∧ t.cc.result = some res ∧ t.cc.path = .unconfigured ∧ causeIn .cmdDone t.mg.causes = true ∧
      t.re.mode = .idle ∧ t.cc.next = s.cc.next ∧ t.le = s.le))

/-- Recovery from the scan to RUN. A replay home write is handed once the previous one is issued and its range shares no byte with a write
of the in-flight set, then the second reading of the next record. The unit at p: a PAD moves p to 0, a HDR leads to the trailer's unit,
anything else ends the scan. The trailer's unit: a VOID trailer skips the group, an OK trailer enters VERIFY, anything else ends the scan.
In VERIFY a data record whose header or check code fails, or that leaves no room before the trailer, ends the scan; one that passes joins
the map; after the last one, at the trailer, REPLAY begins with the first second reading. A second reading that passes again gives the
home write, and one that does not gives REPLAY_FAILED. A write whose pieces are all acknowledged leaves the set; when the last write has
been handed and the set is empty the group is replayed and the next start is tested. The end of the scan hands the closing anchor, and
its acknowledgement opens the log at p under epoch e + 1 with next commit number c (R86, R87, R106, R162 to R166). -/
def Obligations.ReplayWriteIsHanded : Prop :=
  (∀ (s : State) (g : GroupUnderTest) (w : RecordWrite), Live s → s.re.mode = .replay → s.re.group = some g → s.re.held = some w →
    replayReady s w = true →
    let b := burst s.mg.cfg
    let home := cutRequest b (Owner.recovery (.replayWrite s.re.i)) .write w.addr.toNat w.length w.mask w.data
    let second := fun q u => cutRequest b (Owner.recovery .secondReading) .read (unitAddr s.mg.cfg q) (32 * u) none []
    ∃ t, exec .replayWriteHand s = .next t ∧ t.re.held = none ∧ t.re.i = s.re.i + 1 ∧
      t.re.replaySet = s.re.replaySet ++
        [⟨s.re.i, w.addr, w.length, List.replicate (pieceCount b w.addr.toNat w.length) .pending⟩] ∧
      (g.n ≤ s.re.i → t.mp = applyHanded s.mp home) ∧
      (∀ q u, s.re.i < g.n → s.re.map[s.re.i]? = some (q, u) → t.mp = applyHanded s.mp (home ++ second q u)) ∧
      OnlyIn [.re, .mp] s t) ∧
  (∀ (id : MemId) (data bs : List Byte) (s : State) (what : RecoveryRequest) (a : Anchor) (g : GroupUnderTest), Live s → Settled s →
    recoveryListens s.re = true → s.re.chosen = some a → ReadReturns id data s what bs →
    (what ≠ .startUnit → s.re.group = some g) →
    let cfg := s.mg.cfg
    let u := ringU s
    let re := { s.re with reads := s.re.reads.filter fun x => x.what != what }
    let mp := entryFreed s.mp id
    let done := exec (.memoryResponse id .ok data) s
    let reads := fun (re : RecoveryEngine) (what : RecoveryRequest) (p n : Nat) => (Host.Outcome.next
      ((s.withMp (applyHanded mp (unitPieces cfg what p n))).withRe { re with reads := re.reads ++ [unitAwaited cfg what p n] }) :
        Host.Outcome State Fault Refusal)
    let starts := fun (re : RecoveryEngine) (p : Nat) (c : CommitNumber) =>
      reads { re with p := p, c := c, mode := .scan, reads := [] } .startUnit p 1
    let ends := fun (re : RecoveryEngine) => (Host.Outcome.next ((s.withMp (applyHanded mp (slotPieces cfg .closing
      (if a.slot = 0 then 1 else 0) (anchorRecord (a.seq + 1) (re.e + 1) cfg.sizeExp re.p re.c)))).withRe
        { re with mode := .close, reads := [] }) : Host.Outcome State Fault Refusal)
    (what = .startUnit →
      (passesPad u re.e re.c re.p bs = true → done = starts re 0 re.c) ∧
      (passesPad u re.e re.c re.p bs = false → passesHdr u re.e re.c re.p bs = none → done = ends re) ∧
      (∀ n g, passesPad u re.e re.c re.p bs = false → passesHdr u re.e re.c re.p bs = some (n, g) →
        done = reads { re with group := some ⟨n, g, re.p + g - 1⟩ } .trailerUnit (re.p + g - 1) 1)) ∧
    (what = .trailerUnit →
      (passesTrl u re.e re.c g.t (g.n + 1) bs = none → done = ends re) ∧
      (passesTrl u re.e re.c g.t (g.n + 1) bs = some true → done =
        starts { re with skipped := re.skipped + 1, group := none, map := [] } (if re.p + g.g = u then 0 else re.p + g.g) (re.c + 1)) ∧
      (passesTrl u re.e re.c g.t (g.n + 1) bs = some false → 1 ≤ g.n → re.p + 1 < g.t →
        done = reads { re with mode := .verify, map := [], i := 1, q := re.p + 1 } .datHeader (re.p + 1) 1)) ∧
    (what = .datHeader →
      (passesDatHeader re.e re.c re.i re.q g.t bs = none → done = ends re) ∧
      (∀ f, passesDatHeader re.e re.c re.i re.q g.t bs = some f →
        done = reads { re with header := bs } .datRest (re.q + 1) (f.units - 1))) ∧
    (what = .datRest →
      let f := datFields re.header
      let next := { re with map := re.map ++ [(re.q, f.units)], q := re.q + f.units, i := re.i + 1, header := [] }
      (codeChecks re.header (payloadOf f bs) = false → done = ends re) ∧
      (codeChecks re.header (payloadOf f bs) = true →
        (re.i < g.n → next.q < g.t → done = reads next .datHeader next.q 1) ∧
        (re.i < g.n → g.t ≤ next.q → done = ends next) ∧
        (g.n ≤ re.i → next.q ≠ g.t → done = ends next) ∧
        (∀ q1 r1 rest, g.n ≤ re.i → next.q = g.t → next.map = (q1, r1) :: rest →
          done = reads { next with mode := .replay, i := 1, held := none } .secondReading q1 r1))) ∧
    (∀ qi ri, what = .secondReading → re.map[re.i - 1]? = some (qi, ri) →
      (∀ w, passesDat re.e re.c re.i qi g.t bs = some w → bs.length = 32 * ri → (datFields bs).units = ri →
        done = .next ((s.withMp mp).withRe { re with held := some w })) ∧
      (passesDat re.e re.c re.i qi g.t bs = none ∨ bs.length ≠ 32 * ri ∨ (datFields bs).units ≠ ri →
        ∃ t, done = .next t ∧ CommandFails .replayFailed mp s t))) ∧
  (∀ (id : MemId) (data : List Byte) (s : State) (x k : Nat) (y : ReplayWrite) (g : GroupUnderTest), Live s → Settled s →
    s.re.mode = .replay → s.re.group = some g → AwaitsWrite id s (.replayWrite x) k →
    s.re.replaySet.find? (fun y => y.index == x) = some y →
    let cfg := s.mg.cfg
    let mp := entryFreed s.mp id
    let ms := y.pieces.set k (.done [])
    let left := s.re.replaySet.filter fun y => y.index != x
    let p := if s.re.p + g.g = ringU s then 0 else s.re.p + g.g
    (allDone ms = false → exec (.memoryResponse id .ok data) s = .next ((s.withMp mp).withRe { s.re with
      replaySet := s.re.replaySet.map fun y => if y.index = x then { y with pieces := ms } else y })) ∧
    (allDone ms = true → s.re.i ≤ g.n ∨ left ≠ [] →
      exec (.memoryResponse id .ok data) s = .next ((s.withMp mp).withRe { s.re with replaySet := left })) ∧
    (allDone ms = true → g.n < s.re.i → left = [] → exec (.memoryResponse id .ok data) s =
      .next ((s.withMp (applyHanded mp (unitPieces cfg .startUnit p 1))).withRe { s.re with
        replaySet := [], replayed := s.re.replayed + 1, p := p, c := s.re.c + 1, group := none, map := [], mode := .scan,
        reads := [unitAwaited cfg .startUnit p 1] }))) ∧
  (∀ (id : MemId) (data : List Byte) (s : State) (k : Nat) (a : Anchor), Live s → Settled s → HoldSound s →
    recoveryListens s.re = true → s.re.chosen = some a → AwaitsWrite id s .closing k →
    ∃ t, exec (.memoryResponse id .ok data) s = .next t ∧
      LogOpens s.re.p (s.re.e + 1) (if a.slot = 0 then 1 else 0) (a.seq + 1) s.re.c (entryFreed s.mp id) s t)

/-- The drain is complete: the path becomes SAFE, PSAFE is asserted, the SAFE cause is set and the drain progress is clear. SAFE, the
entry as a command of the model, takes it when it is still due; the model takes it in the event that makes it due, so no run leaves it
due (R173; log 2). -/
def Obligations.DrainCompletesToSafe : Prop :=
  ∀ s : State, Live s → s.cc.path = .draining → loggingRecord s.cc = none → s.le.anchor = none →
    issuedCount (fun _ => true) s.mp = 0 →
    exec .safe s = .next (((s.withCc { s.cc with path := .safe }).withPf
      { s.pf with psafe := true, drain := some ⟨false, false, 0⟩ }).withMg { s.mg with causes := s.mg.causes ||| 64#7 })

/-! ## The management port -/

/-- A read of 0020h captures every figure of the status block from its owner and returns the path status word, its fields at the bits of
R192; a read of 0021h to 002Ah returns the figure held in the capture and takes nothing from the owners. Every other read register but
the starvation counters and the per-tag entries returns its value and changes nothing: the configuration fields 0000h to 0008h, the
command status word of R192 with what the commit controller holds, the two group counts, the causes, and the counters 0032h to 0036h.
The status byte of a frame has its indications at the bits of R192 (R180, R181, R183, R185, R186, R188, R189, R192). -/
def Obligations.StatusReadCapturesTheBlock : Prop :=
  let bit := fun (b : Bool) (k : Nat) => if b then 2 ^ k else 0
  (∀ f : FrameStatus, frameByte f = BitVec.ofNat 8 (bit f.taken 0 + bit f.locked 1 + bit f.refused 2 + bit f.busy 3 +
    bit f.badAddress 4 + bit f.incomplete 5)) ∧
  ∀ s : State, Live s →
    let reads := fun (a : Nat) (v : Word32) (mg : Management) =>
      exec (.statusCapture (BitVec.ofNat 16 a)) s = .next (s.withMg (frameEnded takenOnly v mg))
    let figures : StatusCapture := ⟨s.cc.path, s.cc.stopLog, s.cc.stopApply, s.cc.quiesce.isSome, s.pf.pfwLow, s.pf.psafe,
      s.ss.descPool.length, s.ss.segPool.length, s.cc.queue.length, oldestNumber s.cc, s.cc.next, s.le.head, s.le.tail,
      s.le.used, s.le.epoch, s.mp.orphaned⟩
    let path := [PathState.unconfigured, .formatting, .recovering, .run, .stopped, .draining, .safe].idxOf s.cc.path
    let status := [CommandStatus.idle, .busy, .done, .refusedState].idxOf s.cc.status
    let command := [none, some Command.format, some .recover, some .restart].idxOf s.cc.command
    let result := [none, some ResultCode.ok, some .formatFailed, some .noAnchor, some .readFailed, some .replayFailed,
      some .anchorFailed, some .interrupted].idxOf s.cc.result
    let cap := s.mg.capture
    let number : Nat → Word32 := BitVec.ofNat 32
    reads 0x0020 (number (path + bit s.cc.stopLog 4 + bit s.cc.stopApply 5 + bit s.cc.quiesce.isSome 6 + bit s.pf.pfwLow 8 +
      bit s.pf.psafe 9)) { s.mg with capture := figures } ∧
    (∀ i v, [number cap.freeDescs, number cap.freeSegs, number cap.occupancy, cap.oldest, cap.next, number cap.head,
        number cap.tail, number cap.used, cap.epoch.setWidth 32, number cap.orphaned][i]? = some v →
      reads (0x0021 + i) v s.mg) ∧
    (∀ i v, [s.mg.cfg.logBase.setWidth 32, (s.mg.cfg.logBase >>> 32).setWidth 32, number s.mg.cfg.sizeExp,
        number s.mg.cfg.burstCode, number s.mg.cfg.retryLimit, s.mg.cfg.timeout.setWidth 32, s.mg.cfg.stageWait.setWidth 32,
        number s.mg.cfg.quantumCode, s.mg.cfg.enables.setWidth 32][i]? = some v → reads i v s.mg) ∧
    reads 0x0011 (number (status + 2 ^ 4 * command + 2 ^ 8 * result)) s.mg ∧
    reads 0x0012 s.cc.replayed s.mg ∧ reads 0x0013 s.cc.skipped s.mg ∧ reads 0x0018 (s.mg.causes.setWidth 32) s.mg ∧
    (∀ i v, [s.ss.corrected, s.ss.uncorrectable, s.mp.errors, s.mp.timeouts, s.mp.strays][i]? = some v →
      reads (0x0032 + i) v s.mg)

/-- The per-tag entries: word A captures the tag's four figures and returns state, reason and count at the bits of R192; word B returns
the captured byte total when the capture holds the tag, and captures the tag first when it holds none or another; no context changes.
After reset the capture holds no tag (R187, R192). What MISO carries stands in two fields of the model (log 15). -/
def Obligations.TagEntryReads : Prop :=
  State.reset.mg.tagCapture = none ∧
  ∀ (t : Tag) (s : State), t ≠ 0 → Live s →
    let c := ctxOf s t
    let now : TagCapture := ⟨t, c.state, c.reason, c.count, c.bytes⟩
    let state := [GroupState.idle, .opened, .faulted].idxOf c.state
    let reason := [none, some FaultReason.overflow, some .groupFull, some .integrity, some .stopped, some .fold].idxOf c.reason
    let after := fun (cap : TagCapture) (v : Word32) => s.withMg (frameEnded takenOnly v { s.mg with tagCapture := some cap })
    exec (.perTagWordA t) s = .next (after now (BitVec.ofNat 32 (state + 2 ^ 4 * reason + 2 ^ 16 * c.count))) ∧
    (∀ cap, s.mg.tagCapture = some cap → cap.tag = t → exec (.perTagWordB t) s = .next (after cap (BitVec.ofNat 32 cap.bytes))) ∧
    ((s.mg.tagCapture = none ∨ ∃ cap, s.mg.tagCapture = some cap ∧ cap.tag ≠ t) →
      exec (.perTagWordB t) s = .next (after now (BitVec.ofNat 32 c.bytes)))

/-- A read of a starvation counter returns its value and sets that counter to 0; the other counter and everything else stay
(R28, R188). -/
def Obligations.StarvationReadClears : Prop :=
  ∀ s : State, Live s →
    exec (.starvationCounterRead .descriptors) s =
      .next ((s.withSs { s.ss with starveDesc := 0 }).withMg (frameEnded takenOnly (s.ss.starveDesc.setWidth 32) s.mg)) ∧
    exec (.starvationCounterRead .segments) s =
      .next ((s.withSs { s.ss with starveSeg := 0 }).withMg (frameEnded takenOnly (s.ss.starveSeg.setWidth 32) s.mg))

/-- A write to the cause register clears each cause whose bit is 1 and no other, in every path state; IRQ_N is asserted after it just
when a cause is left whose enable is set (R189, R190). -/
def Obligations.CauseClearIsWriteOne : Prop :=
  ∀ (v : Word32) (s : State), Live s →
    ∃ t, exec (.interruptCauseClear v) s = .next t ∧
      (∀ c, causeIn c t.mg.causes = (causeIn c s.mg.causes && !v.getLsbD (causeBit c))) ∧
      (irqAsserted t = true ↔ ∃ c, causeIn c t.mg.causes = true ∧ causeIn c s.mg.cfg.enables = true) ∧
      t.mg.cfg = s.mg.cfg ∧ t.mg.frame = takenOnly ∧ OnlyIn [.mg] s t

/-- A write to a configuration register: in UNCONFIGURED a value in range is taken; a value out of range is refused and the field keeps
its value; outside UNCONFIGURED the write is ignored as locked, with both indications when it is also out of range (R183, R184). -/
def Obligations.ConfigurationWrites : Prop :=
  ∀ (a : BitVec 16) (v : Word32) (s : State), a.toNat ≤ 8 → Live s →
    let outside := s.cc.path ≠ .unconfigured
    let legal := match a.toNat with
      | 1 => v.toNat ≤ 255
      | 2 => 16 ≤ v.toNat ∧ v.toNat ≤ 30
      | 3 => v.toNat ≤ 2
      | 4 => v.toNat ≤ 3
      | 5 => v.toNat ≤ 65535
      | 6 => v.toNat ≤ 65535
      | 7 => v.toNat ≤ 2
      | _ => True
    ∃ t, exec (.registerWrite a v) s = .next t ∧
      (t.mg.frame.taken = true ∧ (t.mg.frame.locked = true ↔ outside) ∧ (t.mg.frame.refused = true ↔ ¬ legal)) ∧
      (outside ∨ ¬ legal → t.mg.cfg = s.mg.cfg) ∧
      (¬ outside → legal → t.mg.cfg = (match a.toNat with
        | 0 => { s.mg.cfg with logBase := (s.mg.cfg.logBase.extractLsb' 32 8) ++ v }
        | 1 => { s.mg.cfg with logBase := (v.extractLsb' 0 8) ++ (s.mg.cfg.logBase.extractLsb' 0 32) }
        | 2 => { s.mg.cfg with sizeExp := v.toNat }
        | 3 => { s.mg.cfg with burstCode := v.toNat }
        | 4 => { s.mg.cfg with retryLimit := v.toNat }
        | 5 => { s.mg.cfg with timeout := v.extractLsb' 0 16 }
        | 6 => { s.mg.cfg with stageWait := v.extractLsb' 0 16 }
        | 7 => { s.mg.cfg with quantumCode := v.toNat }
        | _ => { s.mg.cfg with enables := v.extractLsb' 0 7 })) ∧
      t.mg.causes = s.mg.causes ∧ t.mg.capture = s.mg.capture ∧ t.mg.tagCapture = s.mg.tagCapture ∧ OnlyIn [.mg] s t

/-- Accesses that change nothing: a read or a write of an address outside the window, 0100h and 0140h among them, is reported taken
and bad address, and the read returns 0; so is a write to a read-only register; a read of the command register returns 0 and sets no
indication at all (R182; log 31). A write to the command register with a code other than 1 to 3 is reported taken and refused (R185).
What MISO carries stands in two fields of the model (log 15), and a read of any address is one row of the table (log 14). -/
def Obligations.BadAccessesChangeNothing : Prop :=
  ∀ (a : BitVec 16) (v code : Word32) (s : State), Live s →
    let ended := fun (refused bad : Bool) => s.withMg (frameEnded ⟨true, false, refused, false, bad, false⟩ 0 s.mg)
    let n := a.toNat
    let listed := n ≤ 0x0008 ∨ (0x0010 ≤ n ∧ n ≤ 0x0013) ∨ n = 0x0018 ∨ (0x0020 ≤ n ∧ n ≤ 0x002A) ∨ (0x0030 ≤ n ∧ n ≤ 0x0036) ∨
      (0x0101 ≤ n ∧ n ≤ 0x013F) ∨ (0x0141 ≤ n ∧ n ≤ 0x017F)
    (¬ listed → exec (.statusCapture a) s = .next (ended false true)) ∧
    (0x0008 < n → n ≠ 0x0010 → n ≠ 0x0018 → exec (.registerWrite a v) s = .next (ended false true)) ∧
    exec (.statusCapture 0x0010) s = .next (s.withMg (frameEnded FrameStatus.clear 0 s.mg)) ∧
    (code ≠ 1 → code ≠ 2 → code ≠ 3 → exec (.unknownCommandCode code) s = .next (ended true false))

/-- A frame cut short: a write, a read before its address field is complete, and a frame with an unknown command byte take nothing and
report incomplete; a read cut short after its address field has been taken with its effects: it leaves what the whole read leaves, with
"incomplete" set and the value as far as it was clocked out, so that a starvation counter is cleared (R179, R180, R188; the bits on
MISO are log 16, the other indications of an address outside the window log 32, those of 0010h log 31). -/
def Obligations.IncompleteFrameTakesOnlyCompleteReads : Prop :=
  ∀ (cmd : BitVec 8) (bits : Nat) (a : BitVec 16) (s : State), Live s →
    (bits < 56 ∨ (cmd ≠ 0xC1 ∧ cmd ≠ 0xC2) → cmd ≠ 0xC1 ∨ bits < 24 → exec (.incompleteFrame cmd bits a) s =
      .next (s.withMg (frameCut bits ⟨false, false, false, false, false, true⟩ 0 s.mg))) ∧
    (24 ≤ bits → bits < 56 → exec (.incompleteFrame 0xC1 bits 0x0030) s = .next ((s.withSs { s.ss with starveDesc := 0 }).withMg
      (frameCut bits ⟨true, false, false, false, false, true⟩ (s.ss.starveDesc.setWidth 32) s.mg))) ∧
    (24 ≤ bits → bits < 56 → ∃ t, exec (.statusCapture a) s = .next t ∧
      exec (.incompleteFrame 0xC1 bits a) s = .next (t.withMg { t.mg with
        misoData := firstBits (bits - 24) t.mg.misoData, frame := { t.mg.frame with incomplete := true } }))

/-! ## The log region's format -/

/-- A data record passes the tests of R163, check code included, under the epoch, commit number and index it was written with, and
gives back its write: address, length, mask and data (R79 to R81, R86, R163). -/
def Obligations.DataRecordReadsBack : Prop :=
  ∀ (e : Epoch) (n : CommitNumber) (i q t : Nat) (w : RecordWrite),
    1 ≤ w.length → w.length ≤ 256 → w.data.length = w.length → (∀ m, w.mask = some m → m.length = w.length) →
    w.addr.toNat + w.length ≤ 2 ^ 40 → w.addr.toNat % 4096 + w.length ≤ 4096 → i < 2 ^ 16 →
    q + dataUnits w.length w.mask.isSome ≤ t →
    (datRecord e n i w).length = 32 * dataUnits w.length w.mask.isSome ∧
    passesDat e n i q t (datRecord e n i w) = some w

/-- Headers, trailers and pads pass the tests of R86 at the place they were written for, with their figures, and under no other commit
number. An anchor of 64 bytes is valid in its slot under its own size exponent, with its figures, and under no other one
(R78, R79, R81, R82, R86). -/
def Obligations.FramesAndAnchorsReadBack : Prop :=
  (∀ (u : Nat) (e : Epoch) (n n' : CommitNumber) (p count g index : Nat) (void : Bool),
    u < 2 ^ 32 → 1 ≤ count → count ≤ 1024 → 2 + 2 * count ≤ g → g ≤ 2 + 10 * count → g ≤ u / 2 → p + g ≤ u → index < 2 ^ 16 →
    passesHdr u e n p (hdrRecord e n count g) = some (count, g) ∧
    passesTrl u e n p index (trlRecord e n index void) = some void ∧
    (0 < p → passesPad u e n p (padRecord e n (u - p)) = true) ∧
    (n' ≠ n → passesHdr u e n' p (hdrRecord e n count g) = none ∧ passesTrl u e n' p index (trlRecord e n index void) = none ∧
      passesPad u e n' p (padRecord e n (u - p)) = false)) ∧
  (∀ (seq : Word32) (e : Epoch) (k k' slot tail : Nat) (n : CommitNumber), 16 ≤ k → k ≤ 30 → tail < ringUnits k →
    (anchorRecord seq e k tail n).length = 64 ∧
    readAnchor k slot (anchorRecord seq e k tail n) = some ⟨slot, seq, e, tail, n⟩ ∧
    (k' ≠ k → readAnchor k' slot (anchorRecord seq e k tail n) = none))

/-! ## Invariants -/

/-- The state right after reset satisfies every invariant below (R18, R37, R56, R73, R107, R150, R168, R183). -/
def Obligations.ResetStateIsSound : Prop :=
  QueueSound State.reset ∧ HoldSound State.reset ∧ DescriptorsConserved State.reset ∧ ResponsesOwed State.reset ∧
  TableSound State.reset ∧ NothingDue State.reset ∧ LedgerSound State.reset ∧ ShapeSound State.reset

/-- Every step keeps the staging buffer canonical, the arrays at their sizes, the intake queue within 16 and the configuration in
range (R1, R21, R128, R138, R183). -/
def Obligations.StepKeepsShapes : Prop :=
  ∀ s t : State, ShapeSound s → step s = .next t → ShapeSound t

/-- Every step keeps the commit queue sound: at most one record is LOGGING, at most one APPLYING, and a record is APPLYING only when
every record ahead of it is VOIDED (R58, R63, R67); and the request that holds the port sound (R5, R10 to R12). -/
def Obligations.StepKeepsQueueAndHold : Prop :=
  ∀ s t : State, step s = .next t → (QueueSound s → QueueSound t) ∧ (HoldSound s → HoldSound t)

/-- Every write descriptor is in exactly one of the free descriptor pool, one open group's write list, or one commit record's write
list, after every step; every segment is in the free segment pool or listed by one held descriptor, and a held descriptor lists as many
as its length needs (R19, R20). -/
def Obligations.StepConservesDescriptors : Prop :=
  ∀ s t : State, QueueSound s → HoldSound s → DescriptorsConserved s → step s = .next t → DescriptorsConserved t

/-- Every step keeps one reserved place for each request taken and not yet answered, at most 272 places in use, and the ids in flight
distinct and exactly those owed (R3, R6, R17). -/
def Obligations.StepKeepsResponsesOwed : Prop :=
  ∀ s t : State, QueueSound s → HoldSound s → ResponsesOwed s → step s = .next t → ResponsesOwed t

/-- Every step keeps the outstanding table sound: 32 entries, no class above its cap, the orphaned figure exact, nothing ISSUED in
SAFE (R139, R149, R174). -/
def Obligations.StepKeepsTableSound : Prop :=
  ∀ s t : State, TableSound s → step s = .next t → TableSound t

/-- Every step leaves nothing due: no failed command, no discard step and no entry to SAFE is overdue, the drain progress follows its
owners, and PSAFE is asserted exactly in SAFE (R157, R166, R172, R173; log 2). -/
def Obligations.StepLeavesNothingDue : Prop :=
  ∀ s t : State, QueueSound s → TableSound s → NothingDue s → step s = .next t → NothingDue t

/-- Every step keeps the ring's figures in RUN and STOPPED, and in a drain while a commit record or an anchor in flight is left: used units
are the reclaimable ones and those of the records that have left LOGGING, never exceed U, and leave room for the LOGGING record's span;
and the anchor in flight, absent before RUN, releases reclaimable units (R89 to R91, R98, R101, R105). -/
def Obligations.StepKeepsRingLedger : Prop :=
  ∀ s t : State, QueueSound s → LedgerSound s → step s = .next t → LedgerSound t
end

