-- ==== Sys2Proof/Laws/State.lean ====
section
/-! SUPPORT. One lemma per field per named update of the state, true by `rfl`, so that no proof unfolds a record update. -/

namespace Sys2Proof.Machine

variable (s : State)

@[simp] theorem State.withPending_pending (x : List Instr) : (s.withPending x).pending = x := rfl
@[simp] theorem State.withPending_hp (x : List Instr) : (s.withPending x).hp = s.hp := rfl
@[simp] theorem State.withPending_ss (x : List Instr) : (s.withPending x).ss = s.ss := rfl
@[simp] theorem State.withPending_gt (x : List Instr) : (s.withPending x).gt = s.gt := rfl
@[simp] theorem State.withPending_cc (x : List Instr) : (s.withPending x).cc = s.cc := rfl
@[simp] theorem State.withPending_le (x : List Instr) : (s.withPending x).le = s.le := rfl
@[simp] theorem State.withPending_ae (x : List Instr) : (s.withPending x).ae = s.ae := rfl
@[simp] theorem State.withPending_mp (x : List Instr) : (s.withPending x).mp = s.mp := rfl
@[simp] theorem State.withPending_re (x : List Instr) : (s.withPending x).re = s.re := rfl
@[simp] theorem State.withPending_pf (x : List Instr) : (s.withPending x).pf = s.pf := rfl
@[simp] theorem State.withPending_mg (x : List Instr) : (s.withPending x).mg = s.mg := rfl

@[simp] theorem State.withHp_pending (x : HostPort) : (s.withHp x).pending = s.pending := rfl
@[simp] theorem State.withHp_hp (x : HostPort) : (s.withHp x).hp = x := rfl
@[simp] theorem State.withHp_ss (x : HostPort) : (s.withHp x).ss = s.ss := rfl
@[simp] theorem State.withHp_gt (x : HostPort) : (s.withHp x).gt = s.gt := rfl
@[simp] theorem State.withHp_cc (x : HostPort) : (s.withHp x).cc = s.cc := rfl
@[simp] theorem State.withHp_le (x : HostPort) : (s.withHp x).le = s.le := rfl
@[simp] theorem State.withHp_ae (x : HostPort) : (s.withHp x).ae = s.ae := rfl
@[simp] theorem State.withHp_mp (x : HostPort) : (s.withHp x).mp = s.mp := rfl
@[simp] theorem State.withHp_re (x : HostPort) : (s.withHp x).re = s.re := rfl
@[simp] theorem State.withHp_pf (x : HostPort) : (s.withHp x).pf = s.pf := rfl
@[simp] theorem State.withHp_mg (x : HostPort) : (s.withHp x).mg = s.mg := rfl

@[simp] theorem State.withSs_pending (x : Staging) : (s.withSs x).pending = s.pending := rfl
@[simp] theorem State.withSs_hp (x : Staging) : (s.withSs x).hp = s.hp := rfl
@[simp] theorem State.withSs_ss (x : Staging) : (s.withSs x).ss = x := rfl
@[simp] theorem State.withSs_gt (x : Staging) : (s.withSs x).gt = s.gt := rfl
@[simp] theorem State.withSs_cc (x : Staging) : (s.withSs x).cc = s.cc := rfl
@[simp] theorem State.withSs_le (x : Staging) : (s.withSs x).le = s.le := rfl
@[simp] theorem State.withSs_ae (x : Staging) : (s.withSs x).ae = s.ae := rfl
@[simp] theorem State.withSs_mp (x : Staging) : (s.withSs x).mp = s.mp := rfl
@[simp] theorem State.withSs_re (x : Staging) : (s.withSs x).re = s.re := rfl
@[simp] theorem State.withSs_pf (x : Staging) : (s.withSs x).pf = s.pf := rfl
@[simp] theorem State.withSs_mg (x : Staging) : (s.withSs x).mg = s.mg := rfl

@[simp] theorem State.withGt_pending (x : GroupTable) : (s.withGt x).pending = s.pending := rfl
@[simp] theorem State.withGt_hp (x : GroupTable) : (s.withGt x).hp = s.hp := rfl
@[simp] theorem State.withGt_ss (x : GroupTable) : (s.withGt x).ss = s.ss := rfl
@[simp] theorem State.withGt_gt (x : GroupTable) : (s.withGt x).gt = x := rfl
@[simp] theorem State.withGt_cc (x : GroupTable) : (s.withGt x).cc = s.cc := rfl
@[simp] theorem State.withGt_le (x : GroupTable) : (s.withGt x).le = s.le := rfl
@[simp] theorem State.withGt_ae (x : GroupTable) : (s.withGt x).ae = s.ae := rfl
@[simp] theorem State.withGt_mp (x : GroupTable) : (s.withGt x).mp = s.mp := rfl
@[simp] theorem State.withGt_re (x : GroupTable) : (s.withGt x).re = s.re := rfl
@[simp] theorem State.withGt_pf (x : GroupTable) : (s.withGt x).pf = s.pf := rfl
@[simp] theorem State.withGt_mg (x : GroupTable) : (s.withGt x).mg = s.mg := rfl

@[simp] theorem State.withCc_pending (x : CommitControl) : (s.withCc x).pending = s.pending := rfl
@[simp] theorem State.withCc_hp (x : CommitControl) : (s.withCc x).hp = s.hp := rfl
@[simp] theorem State.withCc_ss (x : CommitControl) : (s.withCc x).ss = s.ss := rfl
@[simp] theorem State.withCc_gt (x : CommitControl) : (s.withCc x).gt = s.gt := rfl
@[simp] theorem State.withCc_cc (x : CommitControl) : (s.withCc x).cc = x := rfl
@[simp] theorem State.withCc_le (x : CommitControl) : (s.withCc x).le = s.le := rfl
@[simp] theorem State.withCc_ae (x : CommitControl) : (s.withCc x).ae = s.ae := rfl
@[simp] theorem State.withCc_mp (x : CommitControl) : (s.withCc x).mp = s.mp := rfl
@[simp] theorem State.withCc_re (x : CommitControl) : (s.withCc x).re = s.re := rfl
@[simp] theorem State.withCc_pf (x : CommitControl) : (s.withCc x).pf = s.pf := rfl
@[simp] theorem State.withCc_mg (x : CommitControl) : (s.withCc x).mg = s.mg := rfl

@[simp] theorem State.withLe_pending (x : LogEngine) : (s.withLe x).pending = s.pending := rfl
@[simp] theorem State.withLe_hp (x : LogEngine) : (s.withLe x).hp = s.hp := rfl
@[simp] theorem State.withLe_ss (x : LogEngine) : (s.withLe x).ss = s.ss := rfl
@[simp] theorem State.withLe_gt (x : LogEngine) : (s.withLe x).gt = s.gt := rfl
@[simp] theorem State.withLe_cc (x : LogEngine) : (s.withLe x).cc = s.cc := rfl
@[simp] theorem State.withLe_le (x : LogEngine) : (s.withLe x).le = x := rfl
@[simp] theorem State.withLe_ae (x : LogEngine) : (s.withLe x).ae = s.ae := rfl
@[simp] theorem State.withLe_mp (x : LogEngine) : (s.withLe x).mp = s.mp := rfl
@[simp] theorem State.withLe_re (x : LogEngine) : (s.withLe x).re = s.re := rfl
@[simp] theorem State.withLe_pf (x : LogEngine) : (s.withLe x).pf = s.pf := rfl
@[simp] theorem State.withLe_mg (x : LogEngine) : (s.withLe x).mg = s.mg := rfl

@[simp] theorem State.withAe_pending (x : ApplyEngine) : (s.withAe x).pending = s.pending := rfl
@[simp] theorem State.withAe_hp (x : ApplyEngine) : (s.withAe x).hp = s.hp := rfl
@[simp] theorem State.withAe_ss (x : ApplyEngine) : (s.withAe x).ss = s.ss := rfl
@[simp] theorem State.withAe_gt (x : ApplyEngine) : (s.withAe x).gt = s.gt := rfl
@[simp] theorem State.withAe_cc (x : ApplyEngine) : (s.withAe x).cc = s.cc := rfl
@[simp] theorem State.withAe_le (x : ApplyEngine) : (s.withAe x).le = s.le := rfl
@[simp] theorem State.withAe_ae (x : ApplyEngine) : (s.withAe x).ae = x := rfl
@[simp] theorem State.withAe_mp (x : ApplyEngine) : (s.withAe x).mp = s.mp := rfl
@[simp] theorem State.withAe_re (x : ApplyEngine) : (s.withAe x).re = s.re := rfl
@[simp] theorem State.withAe_pf (x : ApplyEngine) : (s.withAe x).pf = s.pf := rfl
@[simp] theorem State.withAe_mg (x : ApplyEngine) : (s.withAe x).mg = s.mg := rfl

@[simp] theorem State.withMp_pending (x : MemoryPort) : (s.withMp x).pending = s.pending := rfl
@[simp] theorem State.withMp_hp (x : MemoryPort) : (s.withMp x).hp = s.hp := rfl
@[simp] theorem State.withMp_ss (x : MemoryPort) : (s.withMp x).ss = s.ss := rfl
@[simp] theorem State.withMp_gt (x : MemoryPort) : (s.withMp x).gt = s.gt := rfl
@[simp] theorem State.withMp_cc (x : MemoryPort) : (s.withMp x).cc = s.cc := rfl
@[simp] theorem State.withMp_le (x : MemoryPort) : (s.withMp x).le = s.le := rfl
@[simp] theorem State.withMp_ae (x : MemoryPort) : (s.withMp x).ae = s.ae := rfl
@[simp] theorem State.withMp_mp (x : MemoryPort) : (s.withMp x).mp = x := rfl
@[simp] theorem State.withMp_re (x : MemoryPort) : (s.withMp x).re = s.re := rfl
@[simp] theorem State.withMp_pf (x : MemoryPort) : (s.withMp x).pf = s.pf := rfl
@[simp] theorem State.withMp_mg (x : MemoryPort) : (s.withMp x).mg = s.mg := rfl

@[simp] theorem State.withRe_pending (x : RecoveryEngine) : (s.withRe x).pending = s.pending := rfl
@[simp] theorem State.withRe_hp (x : RecoveryEngine) : (s.withRe x).hp = s.hp := rfl
@[simp] theorem State.withRe_ss (x : RecoveryEngine) : (s.withRe x).ss = s.ss := rfl
@[simp] theorem State.withRe_gt (x : RecoveryEngine) : (s.withRe x).gt = s.gt := rfl
@[simp] theorem State.withRe_cc (x : RecoveryEngine) : (s.withRe x).cc = s.cc := rfl
@[simp] theorem State.withRe_le (x : RecoveryEngine) : (s.withRe x).le = s.le := rfl
@[simp] theorem State.withRe_ae (x : RecoveryEngine) : (s.withRe x).ae = s.ae := rfl
@[simp] theorem State.withRe_mp (x : RecoveryEngine) : (s.withRe x).mp = s.mp := rfl
@[simp] theorem State.withRe_re (x : RecoveryEngine) : (s.withRe x).re = x := rfl
@[simp] theorem State.withRe_pf (x : RecoveryEngine) : (s.withRe x).pf = s.pf := rfl
@[simp] theorem State.withRe_mg (x : RecoveryEngine) : (s.withRe x).mg = s.mg := rfl

@[simp] theorem State.withPf_pending (x : PowerFail) : (s.withPf x).pending = s.pending := rfl
@[simp] theorem State.withPf_hp (x : PowerFail) : (s.withPf x).hp = s.hp := rfl
@[simp] theorem State.withPf_ss (x : PowerFail) : (s.withPf x).ss = s.ss := rfl
@[simp] theorem State.withPf_gt (x : PowerFail) : (s.withPf x).gt = s.gt := rfl
@[simp] theorem State.withPf_cc (x : PowerFail) : (s.withPf x).cc = s.cc := rfl
@[simp] theorem State.withPf_le (x : PowerFail) : (s.withPf x).le = s.le := rfl
@[simp] theorem State.withPf_ae (x : PowerFail) : (s.withPf x).ae = s.ae := rfl
@[simp] theorem State.withPf_mp (x : PowerFail) : (s.withPf x).mp = s.mp := rfl
@[simp] theorem State.withPf_re (x : PowerFail) : (s.withPf x).re = s.re := rfl
@[simp] theorem State.withPf_pf (x : PowerFail) : (s.withPf x).pf = x := rfl
@[simp] theorem State.withPf_mg (x : PowerFail) : (s.withPf x).mg = s.mg := rfl

@[simp] theorem State.withMg_pending (x : Management) : (s.withMg x).pending = s.pending := rfl
@[simp] theorem State.withMg_hp (x : Management) : (s.withMg x).hp = s.hp := rfl
@[simp] theorem State.withMg_ss (x : Management) : (s.withMg x).ss = s.ss := rfl
@[simp] theorem State.withMg_gt (x : Management) : (s.withMg x).gt = s.gt := rfl
@[simp] theorem State.withMg_cc (x : Management) : (s.withMg x).cc = s.cc := rfl
@[simp] theorem State.withMg_le (x : Management) : (s.withMg x).le = s.le := rfl
@[simp] theorem State.withMg_ae (x : Management) : (s.withMg x).ae = s.ae := rfl
@[simp] theorem State.withMg_mp (x : Management) : (s.withMg x).mp = s.mp := rfl
@[simp] theorem State.withMg_re (x : Management) : (s.withMg x).re = s.re := rfl
@[simp] theorem State.withMg_pf (x : Management) : (s.withMg x).pf = s.pf := rfl
@[simp] theorem State.withMg_mg (x : Management) : (s.withMg x).mg = x := rfl

/-! A second update of a block takes the place of the first; an update with the block as it stands changes nothing. -/

@[simp] theorem State.withPending_withPending (x y : List Instr) : (s.withPending x).withPending y = s.withPending y := rfl
@[simp] theorem State.withPending_self : s.withPending s.pending = s := rfl
@[simp] theorem State.withHp_withHp (x y : HostPort) : (s.withHp x).withHp y = s.withHp y := rfl
@[simp] theorem State.withHp_self : s.withHp s.hp = s := rfl
@[simp] theorem State.withSs_withSs (x y : Staging) : (s.withSs x).withSs y = s.withSs y := rfl
@[simp] theorem State.withSs_self : s.withSs s.ss = s := rfl
@[simp] theorem State.withGt_withGt (x y : GroupTable) : (s.withGt x).withGt y = s.withGt y := rfl
@[simp] theorem State.withGt_self : s.withGt s.gt = s := rfl
@[simp] theorem State.withCc_withCc (x y : CommitControl) : (s.withCc x).withCc y = s.withCc y := rfl
@[simp] theorem State.withCc_self : s.withCc s.cc = s := rfl
@[simp] theorem State.withLe_withLe (x y : LogEngine) : (s.withLe x).withLe y = s.withLe y := rfl
@[simp] theorem State.withLe_self : s.withLe s.le = s := rfl
@[simp] theorem State.withAe_withAe (x y : ApplyEngine) : (s.withAe x).withAe y = s.withAe y := rfl
@[simp] theorem State.withAe_self : s.withAe s.ae = s := rfl
@[simp] theorem State.withMp_withMp (x y : MemoryPort) : (s.withMp x).withMp y = s.withMp y := rfl
@[simp] theorem State.withMp_self : s.withMp s.mp = s := rfl
@[simp] theorem State.withRe_withRe (x y : RecoveryEngine) : (s.withRe x).withRe y = s.withRe y := rfl
@[simp] theorem State.withRe_self : s.withRe s.re = s := rfl
@[simp] theorem State.withPf_withPf (x y : PowerFail) : (s.withPf x).withPf y = s.withPf y := rfl
@[simp] theorem State.withPf_self : s.withPf s.pf = s := rfl
@[simp] theorem State.withMg_withMg (x y : Management) : (s.withMg x).withMg y = s.withMg y := rfl
@[simp] theorem State.withMg_self : s.withMg s.mg = s := rfl

end Sys2Proof.Machine
end

