-- ==== Sys2Proof/Laws/Frames.lean ====
section
/-! SUPPORT. What each operation leaves alone: for every operation on the state, the blocks it does not touch. A proof cites the
frame of an operation and does not unfold it. -/

namespace Sys2Proof.Machine

@[simp] theorem setCause_frame (c : Cause) (s : State) :
    (setCause c s).pending = s.pending ∧ (setCause c s).hp = s.hp ∧ (setCause c s).ss = s.ss ∧
    (setCause c s).gt = s.gt ∧ (setCause c s).cc = s.cc ∧ (setCause c s).le = s.le ∧ (setCause c s).ae = s.ae ∧
    (setCause c s).mp = s.mp ∧ (setCause c s).re = s.re ∧ (setCause c s).pf = s.pf ∧
    (setCause c s).mg.cfg = s.mg.cfg := by simp [setCause]

@[simp] theorem applyUpsets_frame (us : List Upset) (s : State) :
    (applyUpsets us s).pending = s.pending ∧ (applyUpsets us s).hp = s.hp ∧ (applyUpsets us s).gt = s.gt ∧
    (applyUpsets us s).cc = s.cc ∧ (applyUpsets us s).le = s.le ∧ (applyUpsets us s).ae = s.ae ∧
    (applyUpsets us s).mp = s.mp ∧ (applyUpsets us s).re = s.re ∧ (applyUpsets us s).pf = s.pf ∧
    (applyUpsets us s).mg = s.mg := by simp [applyUpsets]

@[simp] theorem countCheck_frame (c : WordCheck) (s : State) :
    (countCheck s c).pending = s.pending ∧ (countCheck s c).hp = s.hp ∧ (countCheck s c).gt = s.gt ∧
    (countCheck s c).cc = s.cc ∧ (countCheck s c).le = s.le ∧ (countCheck s c).ae = s.ae ∧
    (countCheck s c).mp = s.mp ∧ (countCheck s c).re = s.re ∧ (countCheck s c).pf = s.pf ∧
    (countCheck s c).mg.cfg = s.mg.cfg := by
  unfold countCheck
  split <;> simp

@[simp] theorem foldl_countCheck_frame (cs : List WordCheck) (s : State) :
    (cs.foldl countCheck s).pending = s.pending ∧
    (cs.foldl countCheck s).hp = s.hp ∧
    (cs.foldl countCheck s).gt = s.gt ∧
    (cs.foldl countCheck s).cc = s.cc ∧
    (cs.foldl countCheck s).le = s.le ∧
    (cs.foldl countCheck s).ae = s.ae ∧
    (cs.foldl countCheck s).mp = s.mp ∧
    (cs.foldl countCheck s).re = s.re ∧
    (cs.foldl countCheck s).pf = s.pf ∧
    (cs.foldl countCheck s).mg.cfg = s.mg.cfg := by
  induction cs generalizing s with
  | nil => simp
  | cons x xs ih => simp [ih]

@[simp] theorem readWords_frame (ws : List Nat) (s : State) :
    (readWords ws s).2.2.pending = s.pending ∧
    (readWords ws s).2.2.hp = s.hp ∧
    (readWords ws s).2.2.gt = s.gt ∧
    (readWords ws s).2.2.cc = s.cc ∧
    (readWords ws s).2.2.le = s.le ∧
    (readWords ws s).2.2.ae = s.ae ∧
    (readWords ws s).2.2.mp = s.mp ∧
    (readWords ws s).2.2.re = s.re ∧
    (readWords ws s).2.2.pf = s.pf ∧
    (readWords ws s).2.2.mg.cfg = s.mg.cfg := by
  simp [readWords]

@[simp] theorem readDescriptor_frame (d : Descriptor) (s : State) :
    (readDescriptor d s).2.2.pending = s.pending ∧
    (readDescriptor d s).2.2.hp = s.hp ∧
    (readDescriptor d s).2.2.gt = s.gt ∧
    (readDescriptor d s).2.2.cc = s.cc ∧
    (readDescriptor d s).2.2.le = s.le ∧
    (readDescriptor d s).2.2.ae = s.ae ∧
    (readDescriptor d s).2.2.mp = s.mp ∧
    (readDescriptor d s).2.2.re = s.re ∧
    (readDescriptor d s).2.2.pf = s.pf ∧
    (readDescriptor d s).2.2.mg.cfg = s.mg.cfg := by
  simp [readDescriptor]

@[simp] theorem setLogPos_frame (i u : Nat) (s : State) :
    (setLogPos i u s).pending = s.pending ∧ (setLogPos i u s).hp = s.hp ∧ (setLogPos i u s).gt = s.gt ∧
    (setLogPos i u s).cc = s.cc ∧ (setLogPos i u s).le = s.le ∧ (setLogPos i u s).ae = s.ae ∧
    (setLogPos i u s).mp = s.mp ∧ (setLogPos i u s).re = s.re ∧ (setLogPos i u s).pf = s.pf ∧
    (setLogPos i u s).mg = s.mg := by
  unfold setLogPos
  split <;> simp

@[simp] theorem releaseDescs_frame (ds : List Nat) (s : State) :
    (releaseDescs ds s).pending = s.pending ∧ (releaseDescs ds s).hp = s.hp ∧ (releaseDescs ds s).gt = s.gt ∧
    (releaseDescs ds s).cc = s.cc ∧ (releaseDescs ds s).le = s.le ∧ (releaseDescs ds s).ae = s.ae ∧
    (releaseDescs ds s).mp = s.mp ∧ (releaseDescs ds s).re = s.re ∧ (releaseDescs ds s).pf = s.pf ∧
    (releaseDescs ds s).mg = s.mg := by simp [releaseDescs]

@[simp] theorem setCtx_frame (t : Tag) (c : Context) (s : State) :
    (setCtx t c s).pending = s.pending ∧ (setCtx t c s).hp = s.hp ∧ (setCtx t c s).ss = s.ss ∧
    (setCtx t c s).cc = s.cc ∧ (setCtx t c s).le = s.le ∧ (setCtx t c s).ae = s.ae ∧ (setCtx t c s).mp = s.mp ∧
    (setCtx t c s).re = s.re ∧ (setCtx t c s).pf = s.pf ∧ (setCtx t c s).mg = s.mg := by
  unfold setCtx
  split_ifs <;> simp

@[simp] theorem idleContexts_frame (s : State) :
    (idleContexts s).pending = s.pending ∧ (idleContexts s).hp = s.hp ∧ (idleContexts s).ss = s.ss ∧
    (idleContexts s).cc = s.cc ∧ (idleContexts s).le = s.le ∧ (idleContexts s).ae = s.ae ∧
    (idleContexts s).mp = s.mp ∧ (idleContexts s).re = s.re ∧ (idleContexts s).pf = s.pf ∧
    (idleContexts s).mg = s.mg := by simp [idleContexts]

@[simp] theorem acceptWaiting_frame (s : State) :
    (acceptWaiting s).pending = s.pending ∧ (acceptWaiting s).ss = s.ss ∧ (acceptWaiting s).gt = s.gt ∧
    (acceptWaiting s).cc = s.cc ∧ (acceptWaiting s).le = s.le ∧ (acceptWaiting s).ae = s.ae ∧
    (acceptWaiting s).mp = s.mp ∧ (acceptWaiting s).re = s.re ∧ (acceptWaiting s).pf = s.pf ∧
    (acceptWaiting s).mg = s.mg := by
  unfold acceptWaiting
  split_ifs <;> simp

@[simp] theorem respond_frame (id : HostId) (a : Answer) (d : List Byte) (s : State) :
    (respond id a d s).pending = s.pending ∧ (respond id a d s).ss = s.ss ∧ (respond id a d s).gt = s.gt ∧
    (respond id a d s).cc = s.cc ∧ (respond id a d s).le = s.le ∧ (respond id a d s).ae = s.ae ∧
    (respond id a d s).mp = s.mp ∧ (respond id a d s).re = s.re ∧ (respond id a d s).pf = s.pf ∧
    (respond id a d s).mg = s.mg := by simp [respond]

@[simp] theorem leaveInflight_frame (id : HostId) (s : State) :
    (leaveInflight id s).pending = s.pending ∧ (leaveInflight id s).ss = s.ss ∧ (leaveInflight id s).gt = s.gt ∧
    (leaveInflight id s).cc = s.cc ∧ (leaveInflight id s).le = s.le ∧ (leaveInflight id s).ae = s.ae ∧
    (leaveInflight id s).mp = s.mp ∧ (leaveInflight id s).re = s.re ∧ (leaveInflight id s).pf = s.pf ∧
    (leaveInflight id s).mg = s.mg := by simp [leaveInflight]

@[simp] theorem joinInflight_frame (id : HostId) (s : State) :
    (joinInflight id s).pending = s.pending ∧ (joinInflight id s).ss = s.ss ∧ (joinInflight id s).gt = s.gt ∧
    (joinInflight id s).cc = s.cc ∧ (joinInflight id s).le = s.le ∧ (joinInflight id s).ae = s.ae ∧
    (joinInflight id s).mp = s.mp ∧ (joinInflight id s).re = s.re ∧ (joinInflight id s).pf = s.pf ∧
    (joinInflight id s).mg = s.mg := by simp [joinInflight]

@[simp] theorem respondOwed_frame (id : HostId) (a : Answer) (d : List Byte) (s : State) :
    (respondOwed id a d s).pending = s.pending ∧ (respondOwed id a d s).ss = s.ss ∧
    (respondOwed id a d s).gt = s.gt ∧ (respondOwed id a d s).cc = s.cc ∧ (respondOwed id a d s).le = s.le ∧
    (respondOwed id a d s).ae = s.ae ∧ (respondOwed id a d s).mp = s.mp ∧ (respondOwed id a d s).re = s.re ∧
    (respondOwed id a d s).pf = s.pf ∧ (respondOwed id a d s).mg = s.mg := by simp [respondOwed]

@[simp] theorem leaveIntake_frame (s : State) :
    (leaveIntake s).pending = s.pending ∧ (leaveIntake s).ss = s.ss ∧ (leaveIntake s).gt = s.gt ∧
    (leaveIntake s).cc = s.cc ∧ (leaveIntake s).le = s.le ∧ (leaveIntake s).ae = s.ae ∧
    (leaveIntake s).mp = s.mp ∧ (leaveIntake s).re = s.re ∧ (leaveIntake s).pf = s.pf ∧ (leaveIntake s).mg = s.mg := by simp [leaveIntake]

@[simp] theorem answerHead_frame (a : Answer) (s : State) :
    (answerHead a s).pending = s.pending ∧ (answerHead a s).ss = s.ss ∧ (answerHead a s).gt = s.gt ∧
    (answerHead a s).cc = s.cc ∧ (answerHead a s).le = s.le ∧ (answerHead a s).ae = s.ae ∧
    (answerHead a s).mp = s.mp ∧ (answerHead a s).re = s.re ∧ (answerHead a s).pf = s.pf ∧
    (answerHead a s).mg = s.mg := by
  unfold answerHead
  split <;> simp

@[simp] theorem holdHead_frame (c : HoldCondition) (s : State) :
    (holdHead c s).pending = s.pending ∧ (holdHead c s).ss = s.ss ∧ (holdHead c s).gt = s.gt ∧
    (holdHead c s).cc = s.cc ∧ (holdHead c s).le = s.le ∧ (holdHead c s).ae = s.ae ∧ (holdHead c s).mp = s.mp ∧
    (holdHead c s).re = s.re ∧ (holdHead c s).pf = s.pf ∧ (holdHead c s).mg = s.mg := by simp [holdHead]

@[simp] theorem foldl_respondOwed_frame (rs : List CommitRecord) (a : Answer) (s : State) :
    (rs.foldl (fun t r => respondOwed r.hostId a [] t) s).pending = s.pending ∧
    (rs.foldl (fun t r => respondOwed r.hostId a [] t) s).ss = s.ss ∧
    (rs.foldl (fun t r => respondOwed r.hostId a [] t) s).gt = s.gt ∧
    (rs.foldl (fun t r => respondOwed r.hostId a [] t) s).cc = s.cc ∧
    (rs.foldl (fun t r => respondOwed r.hostId a [] t) s).le = s.le ∧
    (rs.foldl (fun t r => respondOwed r.hostId a [] t) s).ae = s.ae ∧
    (rs.foldl (fun t r => respondOwed r.hostId a [] t) s).mp = s.mp ∧
    (rs.foldl (fun t r => respondOwed r.hostId a [] t) s).re = s.re ∧
    (rs.foldl (fun t r => respondOwed r.hostId a [] t) s).pf = s.pf ∧
    (rs.foldl (fun t r => respondOwed r.hostId a [] t) s).mg = s.mg := by
  induction rs generalizing s with
  | nil => simp
  | cons x xs ih => simp [ih]

@[simp] theorem handRequest_frame (o : Nat → Owner) (k : MemKind) (a n : Nat) (m : Option (List Bool)) (d : List Byte) (s : State) :
    (handRequest o k a n m d s).pending = s.pending ∧ (handRequest o k a n m d s).hp = s.hp ∧
    (handRequest o k a n m d s).ss = s.ss ∧ (handRequest o k a n m d s).gt = s.gt ∧
    (handRequest o k a n m d s).cc = s.cc ∧ (handRequest o k a n m d s).le = s.le ∧
    (handRequest o k a n m d s).ae = s.ae ∧ (handRequest o k a n m d s).re = s.re ∧
    (handRequest o k a n m d s).pf = s.pf ∧ (handRequest o k a n m d s).mg = s.mg := by simp [handRequest]

@[simp] theorem withdrawRequests_frame (sel : Owner → Bool) (s : State) :
    (withdrawRequests sel s).pending = s.pending ∧ (withdrawRequests sel s).hp = s.hp ∧
    (withdrawRequests sel s).ss = s.ss ∧ (withdrawRequests sel s).gt = s.gt ∧
    (withdrawRequests sel s).cc = s.cc ∧ (withdrawRequests sel s).le = s.le ∧
    (withdrawRequests sel s).ae = s.ae ∧ (withdrawRequests sel s).re = s.re ∧
    (withdrawRequests sel s).pf = s.pf ∧ (withdrawRequests sel s).mg = s.mg := by simp [withdrawRequests]

@[simp] theorem stageHead_frame (r : HostRequest) (s : State) :
    (stageHead r s).pending = s.pending ∧ (stageHead r s).cc = s.cc ∧ (stageHead r s).le = s.le ∧
    (stageHead r s).ae = s.ae ∧ (stageHead r s).mp = s.mp ∧ (stageHead r s).re = s.re ∧
    (stageHead r s).pf = s.pf ∧ (stageHead r s).mg = s.mg := by simp [stageHead]

@[simp] theorem stageTest_frame (s : State) :
    (stageTest s).pending = s.pending ∧ (stageTest s).cc = s.cc ∧ (stageTest s).le = s.le ∧
    (stageTest s).ae = s.ae ∧ (stageTest s).mp = s.mp ∧ (stageTest s).re = s.re ∧ (stageTest s).pf = s.pf ∧
    (stageTest s).mg = s.mg := by
  unfold stageTest
  split <;> (try split_ifs) <;> simp

@[simp] theorem releaseEvent_frame (ds : List Nat) (s : State) :
    (releaseEvent ds s).pending = s.pending ∧ (releaseEvent ds s).cc = s.cc ∧ (releaseEvent ds s).le = s.le ∧
    (releaseEvent ds s).ae = s.ae ∧ (releaseEvent ds s).mp = s.mp ∧ (releaseEvent ds s).re = s.re ∧
    (releaseEvent ds s).pf = s.pf ∧ (releaseEvent ds s).mg = s.mg := by
  unfold releaseEvent
  split_ifs <;> simp

@[simp] theorem endStageWait_frame (a : Answer) (s : State) :
    (endStageWait a s).pending = s.pending ∧ (endStageWait a s).gt = s.gt ∧ (endStageWait a s).cc = s.cc ∧
    (endStageWait a s).le = s.le ∧ (endStageWait a s).ae = s.ae ∧ (endStageWait a s).mp = s.mp ∧
    (endStageWait a s).re = s.re ∧ (endStageWait a s).pf = s.pf ∧ (endStageWait a s).mg = s.mg := by
  unfold endStageWait
  split_ifs <;> simp

@[simp] theorem faultGroup_frame (t : Tag) (w : FaultReason) (s : State) :
    (faultGroup t w s).pending = s.pending ∧ (faultGroup t w s).cc = s.cc ∧ (faultGroup t w s).le = s.le ∧
    (faultGroup t w s).ae = s.ae ∧ (faultGroup t w s).mp = s.mp ∧ (faultGroup t w s).re = s.re ∧
    (faultGroup t w s).pf = s.pf ∧ (faultGroup t w s).mg = s.mg := by simp [faultGroup]

@[simp] theorem faultOpenGroups_frame (s : State) :
    (faultOpenGroups s).pending = s.pending ∧ (faultOpenGroups s).cc = s.cc ∧ (faultOpenGroups s).le = s.le ∧
    (faultOpenGroups s).ae = s.ae ∧ (faultOpenGroups s).mp = s.mp ∧ (faultOpenGroups s).re = s.re ∧
    (faultOpenGroups s).pf = s.pf ∧ (faultOpenGroups s).mg = s.mg := by simp [faultOpenGroups]

@[simp] theorem countStarved_frame (n : Nat) (s : State) :
    (countStarved n s).pending = s.pending ∧ (countStarved n s).hp = s.hp ∧ (countStarved n s).gt = s.gt ∧
    (countStarved n s).cc = s.cc ∧ (countStarved n s).le = s.le ∧ (countStarved n s).ae = s.ae ∧
    (countStarved n s).mp = s.mp ∧ (countStarved n s).re = s.re ∧ (countStarved n s).pf = s.pf ∧
    (countStarved n s).mg.cfg = s.mg.cfg := by simp [countStarved]

@[simp] theorem expireHead_frame (r : HostRequest) (s : State) :
    (expireHead r s).pending = s.pending ∧ (expireHead r s).cc = s.cc ∧ (expireHead r s).le = s.le ∧
    (expireHead r s).ae = s.ae ∧ (expireHead r s).mp = s.mp ∧ (expireHead r s).re = s.re ∧
    (expireHead r s).pf = s.pf ∧ (expireHead r s).mg = s.mg := by simp [expireHead]

@[simp] theorem enterStageWait_frame (r : HostRequest) (s : State) :
    (enterStageWait r s).pending = s.pending ∧ (enterStageWait r s).cc = s.cc ∧ (enterStageWait r s).le = s.le ∧
    (enterStageWait r s).ae = s.ae ∧ (enterStageWait r s).mp = s.mp ∧ (enterStageWait r s).re = s.re ∧
    (enterStageWait r s).pf = s.pf ∧ (enterStageWait r s).mg.cfg = s.mg.cfg := by
  unfold enterStageWait
  split_ifs <;> simp

@[simp] theorem taggedWrite_frame (r : HostRequest) (s : State) :
    (taggedWrite r s).pending = s.pending ∧ (taggedWrite r s).cc = s.cc ∧ (taggedWrite r s).le = s.le ∧
    (taggedWrite r s).ae = s.ae ∧ (taggedWrite r s).mp = s.mp ∧ (taggedWrite r s).re = s.re ∧
    (taggedWrite r s).pf = s.pf ∧ (taggedWrite r s).mg.cfg = s.mg.cfg := by
  simp only [taggedWrite]
  split_ifs <;> simp

@[simp] theorem abortGroup_frame (r : HostRequest) (s : State) :
    (abortGroup r s).pending = s.pending ∧ (abortGroup r s).cc = s.cc ∧ (abortGroup r s).le = s.le ∧
    (abortGroup r s).ae = s.ae ∧ (abortGroup r s).mp = s.mp ∧ (abortGroup r s).re = s.re ∧
    (abortGroup r s).pf = s.pf ∧ (abortGroup r s).mg = s.mg := by simp [abortGroup]

@[simp] theorem foldGroups_frame (r : HostRequest) (s : State) :
    (foldGroups r s).pending = s.pending ∧ (foldGroups r s).cc = s.cc ∧ (foldGroups r s).le = s.le ∧
    (foldGroups r s).ae = s.ae ∧ (foldGroups r s).mp = s.mp ∧ (foldGroups r s).re = s.re ∧
    (foldGroups r s).pf = s.pf ∧ (foldGroups r s).mg = s.mg := by
  simp only [foldGroups]
  split_ifs <;> simp

@[simp] theorem acceptCommit_frame (r : HostRequest) (s : State) :
    (acceptCommit r s).pending = s.pending ∧ (acceptCommit r s).ss = s.ss ∧ (acceptCommit r s).le = s.le ∧
    (acceptCommit r s).ae = s.ae ∧ (acceptCommit r s).mp = s.mp ∧ (acceptCommit r s).re = s.re ∧
    (acceptCommit r s).pf = s.pf ∧ (acceptCommit r s).mg = s.mg := by simp [acceptCommit]

@[simp] theorem commitHead_frame (r : HostRequest) (s : State) :
    (commitHead r s).pending = s.pending ∧ (commitHead r s).le = s.le ∧ (commitHead r s).ae = s.ae ∧
    (commitHead r s).mp = s.mp ∧ (commitHead r s).re = s.re ∧ (commitHead r s).pf = s.pf ∧
    (commitHead r s).mg = s.mg := by
  simp only [commitHead]
  split_ifs <;> simp

@[simp] theorem takeSlot_frame (r : HostRequest) (ov : List (Option Byte)) (s : State) :
    (takeSlot r ov s).pending = s.pending ∧ (takeSlot r ov s).ss = s.ss ∧ (takeSlot r ov s).gt = s.gt ∧
    (takeSlot r ov s).cc = s.cc ∧ (takeSlot r ov s).le = s.le ∧ (takeSlot r ov s).ae = s.ae ∧
    (takeSlot r ov s).mp = s.mp ∧ (takeSlot r ov s).re = s.re ∧ (takeSlot r ov s).pf = s.pf ∧
    (takeSlot r ov s).mg = s.mg := by
  unfold takeSlot
  split <;> simp

@[simp] theorem sendPass_frame (r : HostRequest) (s : State) :
    (sendPass r s).pending = s.pending ∧ (sendPass r s).ss = s.ss ∧ (sendPass r s).gt = s.gt ∧
    (sendPass r s).cc = s.cc ∧ (sendPass r s).le = s.le ∧ (sendPass r s).ae = s.ae ∧ (sendPass r s).re = s.re ∧
    (sendPass r s).pf = s.pf ∧ (sendPass r s).mg = s.mg := by
  unfold sendPass
  split <;> simp

@[simp] theorem overlayWalk_frame (a n : Nat) (is : List Nat) (ov : List (Option Byte)) (s : State) :
    (overlayWalk a n is ov s).2.pending = s.pending ∧
    (overlayWalk a n is ov s).2.hp = s.hp ∧
    (overlayWalk a n is ov s).2.gt = s.gt ∧
    (overlayWalk a n is ov s).2.cc = s.cc ∧
    (overlayWalk a n is ov s).2.le = s.le ∧
    (overlayWalk a n is ov s).2.ae = s.ae ∧
    (overlayWalk a n is ov s).2.mp = s.mp ∧
    (overlayWalk a n is ov s).2.re = s.re ∧
    (overlayWalk a n is ov s).2.pf = s.pf ∧
    (overlayWalk a n is ov s).2.mg.cfg = s.mg.cfg := by
  induction is generalizing ov s with
  | nil => simp [overlayWalk]
  | cons i is ih =>
    simp only [overlayWalk]
    repeat' split
    all_goals simp [ih]

@[simp] theorem overlayRead_frame (r : HostRequest) (s : State) :
    (overlayRead r s).pending = s.pending ∧ (overlayRead r s).cc = s.cc ∧ (overlayRead r s).le = s.le ∧
    (overlayRead r s).ae = s.ae ∧ (overlayRead r s).re = s.re ∧ (overlayRead r s).pf = s.pf ∧
    (overlayRead r s).mg.cfg = s.mg.cfg := by
  have h := overlayWalk_frame r.addr.toNat r.length (ctxOf s r.tag).writes (List.replicate r.length none) s
  unfold overlayRead
  split <;> simp_all

@[simp] theorem passThrough_frame (r : HostRequest) (s : State) :
    (passThrough r s).pending = s.pending ∧ (passThrough r s).cc = s.cc ∧ (passThrough r s).le = s.le ∧
    (passThrough r s).ae = s.ae ∧ (passThrough r s).re = s.re ∧ (passThrough r s).pf = s.pf ∧
    (passThrough r s).mg.cfg = s.mg.cfg := by
  simp only [passThrough]
  split_ifs <;> simp

@[simp] theorem dispatch_frame (r : HostRequest) (s : State) :
    (dispatch r s).pending = s.pending ∧ (dispatch r s).le = s.le ∧ (dispatch r s).ae = s.ae ∧
    (dispatch r s).re = s.re ∧ (dispatch r s).pf = s.pf ∧ (dispatch r s).mg.cfg = s.mg.cfg := by
  unfold dispatch
  split <;> (try split_ifs) <;> simp

@[simp] theorem evaluate_frame (ev : EvalEvent) (s : State) :
    (evaluate ev s).pending = s.pending ∧ (evaluate ev s).le = s.le ∧ (evaluate ev s).ae = s.ae ∧
    (evaluate ev s).re = s.re ∧ (evaluate ev s).pf = s.pf ∧ (evaluate ev s).mg.cfg = s.mg.cfg := by
  unfold evaluate
  split <;> (try split_ifs) <;> simp

@[simp] theorem treat_frame (r : HostRequest) (s : State) :
    (treat r s).pending = s.pending ∧ (treat r s).le = s.le ∧ (treat r s).ae = s.ae ∧ (treat r s).re = s.re ∧
    (treat r s).pf = s.pf ∧ (treat r s).mg.cfg = s.mg.cfg := by
  unfold treat
  split_ifs <;> simp

@[simp] theorem takeHead_frame (f : HostRequest → Bool) (s : State) :
    (takeHead f s).pending = s.pending ∧ (takeHead f s).le = s.le ∧ (takeHead f s).ae = s.ae ∧
    (takeHead f s).re = s.re ∧ (takeHead f s).pf = s.pf ∧ (takeHead f s).mg.cfg = s.mg.cfg := by
  unfold takeHead
  split <;> (try split_ifs) <;> simp

@[simp] theorem updateRecord_frame (n : CommitNumber) (st : RecordState) (f : CommitRecord → CommitRecord) (s : State) :
    (updateRecord n st f s).pending = s.pending ∧ (updateRecord n st f s).hp = s.hp ∧
    (updateRecord n st f s).ss = s.ss ∧ (updateRecord n st f s).gt = s.gt ∧ (updateRecord n st f s).le = s.le ∧
    (updateRecord n st f s).ae = s.ae ∧ (updateRecord n st f s).mp = s.mp ∧ (updateRecord n st f s).re = s.re ∧
    (updateRecord n st f s).pf = s.pf ∧ (updateRecord n st f s).mg = s.mg := by simp [updateRecord]

@[simp] theorem retirementNotice_frame (rs : List CommitRecord) (s : State) :
    (retirementNotice rs s).pending = s.pending ∧ (retirementNotice rs s).hp = s.hp ∧
    (retirementNotice rs s).ss = s.ss ∧ (retirementNotice rs s).gt = s.gt ∧ (retirementNotice rs s).cc = s.cc ∧
    (retirementNotice rs s).ae = s.ae ∧ (retirementNotice rs s).mp = s.mp ∧ (retirementNotice rs s).re = s.re ∧
    (retirementNotice rs s).pf = s.pf ∧ (retirementNotice rs s).mg = s.mg := by simp [retirementNotice]

@[simp] theorem removeHeads_frame (s : State) :
    (removeHeads s).pending = s.pending ∧ (removeHeads s).ae = s.ae ∧ (removeHeads s).re = s.re ∧
    (removeHeads s).pf = s.pf ∧ (removeHeads s).mg.cfg = s.mg.cfg := by
  simp only [removeHeads]
  split_ifs <;> simp

@[simp] theorem dropRecords_frame (f : CommitRecord → Bool) (w : FailReason) (a : Answer) (s : State) :
    (dropRecords f w a s).pending = s.pending ∧ (dropRecords f w a s).le = s.le ∧
    (dropRecords f w a s).ae = s.ae ∧ (dropRecords f w a s).re = s.re ∧ (dropRecords f w a s).pf = s.pf ∧
    (dropRecords f w a s).mg.cfg = s.mg.cfg := by simp [dropRecords]

@[simp] theorem enterStopped_frame (s : State) :
    (enterStopped s).pending = s.pending ∧ (enterStopped s).le = s.le ∧ (enterStopped s).ae = s.ae ∧
    (enterStopped s).mp = s.mp ∧ (enterStopped s).re = s.re ∧ (enterStopped s).pf = s.pf ∧
    (enterStopped s).mg = s.mg := by simp [enterStopped]

@[simp] theorem addLogCause_frame (s : State) :
    (addLogCause s).pending = s.pending ∧ (addLogCause s).le = s.le ∧ (addLogCause s).ae = s.ae ∧
    (addLogCause s).mp = s.mp ∧ (addLogCause s).re = s.re ∧ (addLogCause s).pf = s.pf ∧
    (addLogCause s).mg.cfg = s.mg.cfg := by
  unfold addLogCause
  split <;> (try split_ifs) <;> simp

@[simp] theorem addApplyCause_frame (s : State) :
    (addApplyCause s).pending = s.pending ∧ (addApplyCause s).le = s.le ∧ (addApplyCause s).ae = s.ae ∧
    (addApplyCause s).re = s.re ∧ (addApplyCause s).pf = s.pf ∧ (addApplyCause s).mg.cfg = s.mg.cfg := by
  unfold addApplyCause
  split <;> (try split_ifs) <;> simp

@[simp] theorem advanceHead_frame (sp : Option Span) (s : State) :
    (advanceHead sp s).pending = s.pending ∧ (advanceHead sp s).hp = s.hp ∧ (advanceHead sp s).ss = s.ss ∧
    (advanceHead sp s).gt = s.gt ∧ (advanceHead sp s).cc = s.cc ∧ (advanceHead sp s).ae = s.ae ∧
    (advanceHead sp s).mp = s.mp ∧ (advanceHead sp s).re = s.re ∧ (advanceHead sp s).pf = s.pf ∧
    (advanceHead sp s).mg = s.mg := by
  unfold advanceHead
  split <;> simp

@[simp] theorem trailerAcked_frame (s : State) :
    (trailerAcked s).pending = s.pending ∧ (trailerAcked s).ae = s.ae ∧ (trailerAcked s).re = s.re ∧
    (trailerAcked s).pf = s.pf ∧ (trailerAcked s).mg.cfg = s.mg.cfg := by
  unfold trailerAcked
  split <;> (try split_ifs) <;> simp

@[simp] theorem voidTrailerAcked_frame (s : State) :
    (voidTrailerAcked s).pending = s.pending ∧ (voidTrailerAcked s).ae = s.ae ∧ (voidTrailerAcked s).re = s.re ∧
    (voidTrailerAcked s).pf = s.pf ∧ (voidTrailerAcked s).mg.cfg = s.mg.cfg := by
  unfold voidTrailerAcked
  split <;> simp

@[simp] theorem logStop_frame (g : Bool) (s : State) :
    (logStop g s).pending = s.pending ∧ (logStop g s).ae = s.ae ∧ (logStop g s).re = s.re ∧
    (logStop g s).pf = s.pf ∧ (logStop g s).mg.cfg = s.mg.cfg := by
  unfold logStop
  split_ifs <;> simp

@[simp] theorem groupPieceFailed_frame (t : Bool) (s : State) :
    (groupPieceFailed t s).pending = s.pending ∧ (groupPieceFailed t s).ae = s.ae ∧
    (groupPieceFailed t s).re = s.re ∧ (groupPieceFailed t s).pf = s.pf ∧
    (groupPieceFailed t s).mg.cfg = s.mg.cfg := by
  unfold groupPieceFailed
  split <;> simp

@[simp] theorem anchorFailed_frame (s : State) :
    (anchorFailed s).pending = s.pending ∧ (anchorFailed s).ae = s.ae ∧ (anchorFailed s).re = s.re ∧
    (anchorFailed s).pf = s.pf ∧ (anchorFailed s).mg.cfg = s.mg.cfg := by
  unfold anchorFailed
  split_ifs <;> simp

@[simp] theorem anchorAcked_frame (s : State) :
    (anchorAcked s).pending = s.pending ∧ (anchorAcked s).hp = s.hp ∧ (anchorAcked s).ss = s.ss ∧
    (anchorAcked s).gt = s.gt ∧ (anchorAcked s).cc = s.cc ∧ (anchorAcked s).ae = s.ae ∧
    (anchorAcked s).mp = s.mp ∧ (anchorAcked s).re = s.re ∧ (anchorAcked s).pf = s.pf ∧ (anchorAcked s).mg = s.mg := by
  unfold anchorAcked
  split <;> simp

@[simp] theorem applyRelease_frame (i : Nat) (s : State) :
    (applyRelease i s).pending = s.pending ∧ (applyRelease i s).re = s.re ∧ (applyRelease i s).pf = s.pf ∧
    (applyRelease i s).mg.cfg = s.mg.cfg := by
  simp only [applyRelease]
  (repeat' first | split_ifs | split) <;> simp

@[simp] theorem handGroupRecord_frame (p : LogPart) (u : Nat) (bs : List Byte) (s : State) :
    (handGroupRecord p u bs s).pending = s.pending ∧ (handGroupRecord p u bs s).hp = s.hp ∧
    (handGroupRecord p u bs s).ss = s.ss ∧ (handGroupRecord p u bs s).gt = s.gt ∧
    (handGroupRecord p u bs s).cc = s.cc ∧ (handGroupRecord p u bs s).ae = s.ae ∧
    (handGroupRecord p u bs s).re = s.re ∧ (handGroupRecord p u bs s).pf = s.pf ∧
    (handGroupRecord p u bs s).mg = s.mg := by
  unfold handGroupRecord
  split <;> simp

@[simp] theorem startLogging_frame (rec : CommitRecord) (s : State) :
    (startLogging rec s).pending = s.pending ∧ (startLogging rec s).hp = s.hp ∧ (startLogging rec s).ss = s.ss ∧
    (startLogging rec s).gt = s.gt ∧ (startLogging rec s).ae = s.ae ∧ (startLogging rec s).re = s.re ∧
    (startLogging rec s).pf = s.pf ∧ (startLogging rec s).mg = s.mg := by
  simp only [startLogging]
  split_ifs <;> simp

@[simp] theorem handDataRecord_frame (j : LogJob) (rec : CommitRecord) (i : Nat) (s : State) :
    (handDataRecord j rec i s).pending = s.pending ∧ (handDataRecord j rec i s).hp = s.hp ∧
    (handDataRecord j rec i s).gt = s.gt ∧ (handDataRecord j rec i s).cc = s.cc ∧
    (handDataRecord j rec i s).ae = s.ae ∧ (handDataRecord j rec i s).re = s.re ∧
    (handDataRecord j rec i s).pf = s.pf ∧ (handDataRecord j rec i s).mg.cfg = s.mg.cfg := by
  simp only [handDataRecord]
  split_ifs <;> simp

@[simp] theorem handTrailer_frame (v : Bool) (j : LogJob) (rec : CommitRecord) (s : State) :
    (handTrailer v j rec s).pending = s.pending ∧ (handTrailer v j rec s).hp = s.hp ∧
    (handTrailer v j rec s).ss = s.ss ∧ (handTrailer v j rec s).gt = s.gt ∧ (handTrailer v j rec s).cc = s.cc ∧
    (handTrailer v j rec s).ae = s.ae ∧ (handTrailer v j rec s).re = s.re ∧ (handTrailer v j rec s).pf = s.pf ∧
    (handTrailer v j rec s).mg = s.mg := by simp [handTrailer]

@[simp] theorem requestAnchor_frame (s : State) :
    (requestAnchor s).pending = s.pending ∧ (requestAnchor s).hp = s.hp ∧ (requestAnchor s).ss = s.ss ∧
    (requestAnchor s).gt = s.gt ∧ (requestAnchor s).cc = s.cc ∧ (requestAnchor s).ae = s.ae ∧
    (requestAnchor s).re = s.re ∧ (requestAnchor s).pf = s.pf ∧ (requestAnchor s).mg = s.mg := by simp [requestAnchor]

@[simp] theorem groupPieceAcked_frame (p : LogPart) (s : State) :
    (groupPieceAcked p s).pending = s.pending ∧ (groupPieceAcked p s).ae = s.ae ∧
    (groupPieceAcked p s).re = s.re ∧ (groupPieceAcked p s).pf = s.pf ∧ (groupPieceAcked p s).mg.cfg = s.mg.cfg := by
  unfold groupPieceAcked
  (repeat' first | split_ifs | split) <;> simp

@[simp] theorem haltApply_frame (s : State) :
    (haltApply s).pending = s.pending ∧ (haltApply s).hp = s.hp ∧ (haltApply s).ss = s.ss ∧
    (haltApply s).gt = s.gt ∧ (haltApply s).cc = s.cc ∧ (haltApply s).le = s.le ∧ (haltApply s).re = s.re ∧
    (haltApply s).pf = s.pf ∧ (haltApply s).mg = s.mg := by
  unfold haltApply
  split_ifs <;> simp

@[simp] theorem startApply_frame (rec : CommitRecord) (s : State) :
    (startApply rec s).pending = s.pending ∧ (startApply rec s).hp = s.hp ∧ (startApply rec s).ss = s.ss ∧
    (startApply rec s).gt = s.gt ∧ (startApply rec s).le = s.le ∧ (startApply rec s).mp = s.mp ∧
    (startApply rec s).re = s.re ∧ (startApply rec s).pf = s.pf ∧ (startApply rec s).mg = s.mg := by simp [startApply]

@[simp] theorem handHome_frame (rec : CommitRecord) (i : Nat) (w : RecordWrite) (s : State) :
    (handHome rec i w s).pending = s.pending ∧ (handHome rec i w s).hp = s.hp ∧ (handHome rec i w s).ss = s.ss ∧
    (handHome rec i w s).gt = s.gt ∧ (handHome rec i w s).cc = s.cc ∧ (handHome rec i w s).le = s.le ∧
    (handHome rec i w s).re = s.re ∧ (handHome rec i w s).pf = s.pf ∧ (handHome rec i w s).mg = s.mg := by simp [handHome]

@[simp] theorem handFallback_frame (i : Nat) (d : Descriptor) (s : State) :
    (handFallback i d s).pending = s.pending ∧ (handFallback i d s).hp = s.hp ∧ (handFallback i d s).ss = s.ss ∧
    (handFallback i d s).gt = s.gt ∧ (handFallback i d s).cc = s.cc ∧ (handFallback i d s).le = s.le ∧
    (handFallback i d s).re = s.re ∧ (handFallback i d s).pf = s.pf ∧ (handFallback i d s).mg = s.mg := by simp [handFallback]

@[simp] theorem walkStep_frame (rec : CommitRecord) (i : Nat) (s : State) :
    (walkStep rec i s).pending = s.pending ∧ (walkStep rec i s).hp = s.hp ∧ (walkStep rec i s).gt = s.gt ∧
    (walkStep rec i s).cc = s.cc ∧ (walkStep rec i s).le = s.le ∧ (walkStep rec i s).re = s.re ∧
    (walkStep rec i s).pf = s.pf ∧ (walkStep rec i s).mg.cfg = s.mg.cfg := by
  simp only [walkStep]
  split_ifs <;> simp

@[simp] theorem applyFailure_frame (i : Nat) (s : State) :
    (applyFailure i s).pending = s.pending ∧ (applyFailure i s).le = s.le ∧ (applyFailure i s).re = s.re ∧
    (applyFailure i s).pf = s.pf ∧ (applyFailure i s).mg.cfg = s.mg.cfg := by
  unfold applyFailure
  split_ifs <;> simp

@[simp] theorem fallbackReturned_frame (f : Fallback) (bs : List Byte) (s : State) :
    (fallbackReturned f bs s).pending = s.pending ∧ (fallbackReturned f bs s).le = s.le ∧
    (fallbackReturned f bs s).re = s.re ∧ (fallbackReturned f bs s).pf = s.pf ∧
    (fallbackReturned f bs s).mg.cfg = s.mg.cfg := by
  unfold fallbackReturned
  split <;> (try split_ifs) <;> simp

@[simp] theorem homePieceAcked_frame (i k : Nat) (s : State) :
    (homePieceAcked i k s).pending = s.pending ∧ (homePieceAcked i k s).re = s.re ∧
    (homePieceAcked i k s).pf = s.pf ∧ (homePieceAcked i k s).mg.cfg = s.mg.cfg := by
  simp only [homePieceAcked]
  (repeat' first | split_ifs | split) <;> simp

@[simp] theorem homePieceFailed_frame (i : Nat) (s : State) :
    (homePieceFailed i s).pending = s.pending ∧ (homePieceFailed i s).le = s.le ∧
    (homePieceFailed i s).re = s.re ∧ (homePieceFailed i s).pf = s.pf ∧ (homePieceFailed i s).mg.cfg = s.mg.cfg := by
  unfold homePieceFailed
  split_ifs <;> simp

@[simp] theorem fallbackPiece_frame (k : Nat) (m : PieceMark) (s : State) :
    (fallbackPiece k m s).pending = s.pending ∧ (fallbackPiece k m s).le = s.le ∧
    (fallbackPiece k m s).re = s.re ∧ (fallbackPiece k m s).pf = s.pf ∧ (fallbackPiece k m s).mg.cfg = s.mg.cfg := by
  simp only [fallbackPiece]
  (repeat' first | split_ifs | split) <;> simp

@[simp] theorem completePass_frame (k : Nat) (s : State) :
    (completePass k s).pending = s.pending ∧ (completePass k s).le = s.le ∧ (completePass k s).ae = s.ae ∧
    (completePass k s).re = s.re ∧ (completePass k s).pf = s.pf ∧ (completePass k s).mg.cfg = s.mg.cfg := by
  simp only [completePass]
  (repeat' first | split_ifs | split) <;> simp

@[simp] theorem passPieceDone_frame (k i : Nat) (o : Option (List Byte)) (s : State) :
    (passPieceDone k i o s).pending = s.pending ∧ (passPieceDone k i o s).le = s.le ∧
    (passPieceDone k i o s).ae = s.ae ∧ (passPieceDone k i o s).re = s.re ∧ (passPieceDone k i o s).pf = s.pf ∧
    (passPieceDone k i o s).mg.cfg = s.mg.cfg := by
  unfold passPieceDone
  split <;> simp

@[simp] theorem foldl_completePass_frame (ks : List Nat) (s : State) :
    (ks.foldl (fun t k => completePass k t) s).pending = s.pending ∧
    (ks.foldl (fun t k => completePass k t) s).le = s.le ∧
    (ks.foldl (fun t k => completePass k t) s).ae = s.ae ∧
    (ks.foldl (fun t k => completePass k t) s).re = s.re ∧
    (ks.foldl (fun t k => completePass k t) s).pf = s.pf ∧
    (ks.foldl (fun t k => completePass k t) s).mg.cfg = s.mg.cfg := by
  induction ks generalizing s with
  | nil => simp
  | cons x xs ih => simp [ih]

@[simp] theorem passPieceIssued_frame (k i : Nat) (s : State) :
    (passPieceIssued k i s).pending = s.pending ∧ (passPieceIssued k i s).hp = s.hp ∧
    (passPieceIssued k i s).ss = s.ss ∧ (passPieceIssued k i s).gt = s.gt ∧ (passPieceIssued k i s).cc = s.cc ∧
    (passPieceIssued k i s).le = s.le ∧ (passPieceIssued k i s).ae = s.ae ∧ (passPieceIssued k i s).re = s.re ∧
    (passPieceIssued k i s).pf = s.pf ∧ (passPieceIssued k i s).mg = s.mg := by
  unfold passPieceIssued
  split <;> simp

@[simp] theorem withdrawPass_frame (s : State) :
    (withdrawPass s).pending = s.pending ∧ (withdrawPass s).le = s.le ∧ (withdrawPass s).ae = s.ae ∧
    (withdrawPass s).re = s.re ∧ (withdrawPass s).pf = s.pf ∧ (withdrawPass s).mg.cfg = s.mg.cfg := by simp [withdrawPass]

@[simp] theorem endCommand_frame (res : ResultCode) (s : State) :
    (endCommand res s).pending = s.pending ∧ (endCommand res s).hp = s.hp ∧ (endCommand res s).ss = s.ss ∧
    (endCommand res s).gt = s.gt ∧ (endCommand res s).le = s.le ∧ (endCommand res s).ae = s.ae ∧
    (endCommand res s).mp = s.mp ∧ (endCommand res s).re = s.re ∧ (endCommand res s).pf = s.pf ∧
    (endCommand res s).mg.cfg = s.mg.cfg := by simp [endCommand]

@[simp] theorem leaveStartUp_frame (p : PathState) (s : State) :
    (leaveStartUp p s).pending = s.pending ∧ (leaveStartUp p s).le = s.le ∧ (leaveStartUp p s).ae = s.ae ∧
    (leaveStartUp p s).re = s.re ∧ (leaveStartUp p s).pf = s.pf ∧ (leaveStartUp p s).mg.cfg = s.mg.cfg := by simp [leaveStartUp]

@[simp] theorem failRecovery_frame (res : ResultCode) (s : State) :
    (failRecovery res s).pending = s.pending ∧ (failRecovery res s).hp = s.hp ∧ (failRecovery res s).ss = s.ss ∧
    (failRecovery res s).gt = s.gt ∧ (failRecovery res s).cc = s.cc ∧ (failRecovery res s).le = s.le ∧
    (failRecovery res s).ae = s.ae ∧ (failRecovery res s).pf = s.pf ∧ (failRecovery res s).mg = s.mg := by simp [failRecovery]

@[simp] theorem handRecoveryRead_frame (w : RecoveryRequest) (a n : Nat) (s : State) :
    (handRecoveryRead w a n s).pending = s.pending ∧ (handRecoveryRead w a n s).hp = s.hp ∧
    (handRecoveryRead w a n s).ss = s.ss ∧ (handRecoveryRead w a n s).gt = s.gt ∧
    (handRecoveryRead w a n s).cc = s.cc ∧ (handRecoveryRead w a n s).le = s.le ∧
    (handRecoveryRead w a n s).ae = s.ae ∧ (handRecoveryRead w a n s).pf = s.pf ∧
    (handRecoveryRead w a n s).mg = s.mg := by simp [handRecoveryRead]

@[simp] theorem handUnitRead_frame (w : RecoveryRequest) (p n : Nat) (s : State) :
    (handUnitRead w p n s).pending = s.pending ∧ (handUnitRead w p n s).hp = s.hp ∧
    (handUnitRead w p n s).ss = s.ss ∧ (handUnitRead w p n s).gt = s.gt ∧ (handUnitRead w p n s).cc = s.cc ∧
    (handUnitRead w p n s).le = s.le ∧ (handUnitRead w p n s).ae = s.ae ∧ (handUnitRead w p n s).pf = s.pf ∧
    (handUnitRead w p n s).mg = s.mg := by simp [handUnitRead]

@[simp] theorem handAnchorWrite_frame (w : RecoveryRequest) (k : Nat) (bs : List Byte) (s : State) :
    (handAnchorWrite w k bs s).pending = s.pending ∧ (handAnchorWrite w k bs s).hp = s.hp ∧
    (handAnchorWrite w k bs s).ss = s.ss ∧ (handAnchorWrite w k bs s).gt = s.gt ∧
    (handAnchorWrite w k bs s).cc = s.cc ∧ (handAnchorWrite w k bs s).le = s.le ∧
    (handAnchorWrite w k bs s).ae = s.ae ∧ (handAnchorWrite w k bs s).re = s.re ∧
    (handAnchorWrite w k bs s).pf = s.pf ∧ (handAnchorWrite w k bs s).mg = s.mg := by simp [handAnchorWrite]

@[simp] theorem readSlots_frame (s : State) :
    (readSlots s).pending = s.pending ∧ (readSlots s).hp = s.hp ∧ (readSlots s).ss = s.ss ∧
    (readSlots s).gt = s.gt ∧ (readSlots s).cc = s.cc ∧ (readSlots s).le = s.le ∧ (readSlots s).ae = s.ae ∧
    (readSlots s).pf = s.pf ∧ (readSlots s).mg = s.mg := by simp [readSlots]

@[simp] theorem beginFormat_frame (a : Option Anchor) (s : State) :
    (beginFormat a s).pending = s.pending ∧ (beginFormat a s).hp = s.hp ∧ (beginFormat a s).ss = s.ss ∧
    (beginFormat a s).gt = s.gt ∧ (beginFormat a s).cc = s.cc ∧ (beginFormat a s).le = s.le ∧
    (beginFormat a s).ae = s.ae ∧ (beginFormat a s).pf = s.pf ∧ (beginFormat a s).mg = s.mg := by simp [beginFormat]

@[simp] theorem formatSecond_frame (s : State) :
    (formatSecond s).pending = s.pending ∧ (formatSecond s).hp = s.hp ∧ (formatSecond s).ss = s.ss ∧
    (formatSecond s).gt = s.gt ∧ (formatSecond s).cc = s.cc ∧ (formatSecond s).le = s.le ∧
    (formatSecond s).ae = s.ae ∧ (formatSecond s).re = s.re ∧ (formatSecond s).pf = s.pf ∧
    (formatSecond s).mg = s.mg := by simp [formatSecond]

@[simp] theorem formatDone_frame (s : State) :
    (formatDone s).pending = s.pending ∧ (formatDone s).ae = s.ae ∧ (formatDone s).pf = s.pf ∧
    (formatDone s).mg.cfg = s.mg.cfg := by simp [formatDone]

@[simp] theorem scanStart_frame (s : State) :
    (scanStart s).pending = s.pending ∧ (scanStart s).hp = s.hp ∧ (scanStart s).ss = s.ss ∧
    (scanStart s).gt = s.gt ∧ (scanStart s).cc = s.cc ∧ (scanStart s).le = s.le ∧ (scanStart s).ae = s.ae ∧
    (scanStart s).pf = s.pf ∧ (scanStart s).mg = s.mg := by simp [scanStart]

@[simp] theorem closeScan_frame (s : State) :
    (closeScan s).pending = s.pending ∧ (closeScan s).hp = s.hp ∧ (closeScan s).ss = s.ss ∧
    (closeScan s).gt = s.gt ∧ (closeScan s).cc = s.cc ∧ (closeScan s).le = s.le ∧ (closeScan s).ae = s.ae ∧
    (closeScan s).pf = s.pf ∧ (closeScan s).mg = s.mg := by simp [closeScan]

@[simp] theorem closeDone_frame (s : State) :
    (closeDone s).pending = s.pending ∧ (closeDone s).ae = s.ae ∧ (closeDone s).pf = s.pf ∧
    (closeDone s).mg.cfg = s.mg.cfg := by simp [closeDone]

@[simp] theorem passGroup_frame (g : Nat) (s : State) :
    (passGroup g s).pending = s.pending ∧ (passGroup g s).hp = s.hp ∧ (passGroup g s).ss = s.ss ∧
    (passGroup g s).gt = s.gt ∧ (passGroup g s).cc = s.cc ∧ (passGroup g s).le = s.le ∧
    (passGroup g s).ae = s.ae ∧ (passGroup g s).pf = s.pf ∧ (passGroup g s).mg = s.mg := by simp [passGroup]

@[simp] theorem beginScan_frame (a : Option Anchor) (s : State) :
    (beginScan a s).pending = s.pending ∧ (beginScan a s).le = s.le ∧ (beginScan a s).ae = s.ae ∧
    (beginScan a s).pf = s.pf ∧ (beginScan a s).mg.cfg = s.mg.cfg := by
  unfold beginScan
  split <;> simp

@[simp] theorem startUnitRead_frame (bs : List Byte) (s : State) :
    (startUnitRead bs s).pending = s.pending ∧ (startUnitRead bs s).hp = s.hp ∧ (startUnitRead bs s).ss = s.ss ∧
    (startUnitRead bs s).gt = s.gt ∧ (startUnitRead bs s).cc = s.cc ∧ (startUnitRead bs s).le = s.le ∧
    (startUnitRead bs s).ae = s.ae ∧ (startUnitRead bs s).pf = s.pf ∧ (startUnitRead bs s).mg = s.mg := by
  simp only [startUnitRead]
  (repeat' first | split_ifs | split) <;> simp

@[simp] theorem verifyNext_frame (g : GroupUnderTest) (s : State) :
    (verifyNext g s).pending = s.pending ∧ (verifyNext g s).hp = s.hp ∧ (verifyNext g s).ss = s.ss ∧
    (verifyNext g s).gt = s.gt ∧ (verifyNext g s).cc = s.cc ∧ (verifyNext g s).le = s.le ∧
    (verifyNext g s).ae = s.ae ∧ (verifyNext g s).pf = s.pf ∧ (verifyNext g s).mg = s.mg := by
  unfold verifyNext
  split_ifs <;> (try split) <;> simp

@[simp] theorem trailerUnitRead_frame (bs : List Byte) (s : State) :
    (trailerUnitRead bs s).pending = s.pending ∧ (trailerUnitRead bs s).hp = s.hp ∧
    (trailerUnitRead bs s).ss = s.ss ∧ (trailerUnitRead bs s).gt = s.gt ∧ (trailerUnitRead bs s).cc = s.cc ∧
    (trailerUnitRead bs s).le = s.le ∧ (trailerUnitRead bs s).ae = s.ae ∧ (trailerUnitRead bs s).pf = s.pf ∧
    (trailerUnitRead bs s).mg = s.mg := by
  unfold trailerUnitRead
  (repeat' first | split_ifs | split) <;> simp

@[simp] theorem datHeaderRead_frame (bs : List Byte) (s : State) :
    (datHeaderRead bs s).pending = s.pending ∧ (datHeaderRead bs s).hp = s.hp ∧ (datHeaderRead bs s).ss = s.ss ∧
    (datHeaderRead bs s).gt = s.gt ∧ (datHeaderRead bs s).cc = s.cc ∧ (datHeaderRead bs s).le = s.le ∧
    (datHeaderRead bs s).ae = s.ae ∧ (datHeaderRead bs s).pf = s.pf ∧ (datHeaderRead bs s).mg = s.mg := by
  unfold datHeaderRead
  (repeat' first | split_ifs | split) <;> simp

@[simp] theorem datRestRead_frame (bs : List Byte) (s : State) :
    (datRestRead bs s).pending = s.pending ∧ (datRestRead bs s).hp = s.hp ∧ (datRestRead bs s).ss = s.ss ∧
    (datRestRead bs s).gt = s.gt ∧ (datRestRead bs s).cc = s.cc ∧ (datRestRead bs s).le = s.le ∧
    (datRestRead bs s).ae = s.ae ∧ (datRestRead bs s).pf = s.pf ∧ (datRestRead bs s).mg = s.mg := by
  simp only [datRestRead]
  (repeat' first | split_ifs | split) <;> simp

@[simp] theorem secondReadingDone_frame (bs : List Byte) (s : State) :
    (secondReadingDone bs s).pending = s.pending ∧ (secondReadingDone bs s).hp = s.hp ∧
    (secondReadingDone bs s).ss = s.ss ∧ (secondReadingDone bs s).gt = s.gt ∧
    (secondReadingDone bs s).cc = s.cc ∧ (secondReadingDone bs s).le = s.le ∧
    (secondReadingDone bs s).ae = s.ae ∧ (secondReadingDone bs s).pf = s.pf ∧ (secondReadingDone bs s).mg = s.mg := by
  unfold secondReadingDone
  (repeat' first | split_ifs | split) <;> simp

@[simp] theorem handReplay_frame (g : GroupUnderTest) (w : RecordWrite) (s : State) :
    (handReplay g w s).pending = s.pending ∧ (handReplay g w s).hp = s.hp ∧ (handReplay g w s).ss = s.ss ∧
    (handReplay g w s).gt = s.gt ∧ (handReplay g w s).cc = s.cc ∧ (handReplay g w s).le = s.le ∧
    (handReplay g w s).ae = s.ae ∧ (handReplay g w s).pf = s.pf ∧ (handReplay g w s).mg = s.mg := by
  simp only [handReplay]
  (repeat' first | split_ifs | split) <;> simp

@[simp] theorem replayGroupEnd_frame (s : State) :
    (replayGroupEnd s).pending = s.pending ∧ (replayGroupEnd s).hp = s.hp ∧ (replayGroupEnd s).ss = s.ss ∧
    (replayGroupEnd s).gt = s.gt ∧ (replayGroupEnd s).cc = s.cc ∧ (replayGroupEnd s).le = s.le ∧
    (replayGroupEnd s).ae = s.ae ∧ (replayGroupEnd s).pf = s.pf ∧ (replayGroupEnd s).mg = s.mg := by
  unfold replayGroupEnd
  split <;> (try split_ifs) <;> simp

@[simp] theorem replayPieceAcked_frame (i k : Nat) (s : State) :
    (replayPieceAcked i k s).pending = s.pending ∧ (replayPieceAcked i k s).hp = s.hp ∧
    (replayPieceAcked i k s).ss = s.ss ∧ (replayPieceAcked i k s).gt = s.gt ∧
    (replayPieceAcked i k s).cc = s.cc ∧ (replayPieceAcked i k s).le = s.le ∧
    (replayPieceAcked i k s).ae = s.ae ∧ (replayPieceAcked i k s).pf = s.pf ∧ (replayPieceAcked i k s).mg = s.mg := by
  simp only [replayPieceAcked]
  (repeat' first | split_ifs | split) <;> simp

@[simp] theorem slotsRead_frame (s : State) :
    (slotsRead s).pending = s.pending ∧ (slotsRead s).le = s.le ∧ (slotsRead s).ae = s.ae ∧
    (slotsRead s).pf = s.pf ∧ (slotsRead s).mg.cfg = s.mg.cfg := by
  unfold slotsRead
  split_ifs <;> simp

@[simp] theorem recoveryReadDone_frame (w : RecoveryRequest) (bs : List Byte) (s : State) :
    (recoveryReadDone w bs s).pending = s.pending ∧ (recoveryReadDone w bs s).hp = s.hp ∧
    (recoveryReadDone w bs s).ss = s.ss ∧ (recoveryReadDone w bs s).gt = s.gt ∧
    (recoveryReadDone w bs s).cc = s.cc ∧ (recoveryReadDone w bs s).le = s.le ∧
    (recoveryReadDone w bs s).ae = s.ae ∧ (recoveryReadDone w bs s).pf = s.pf ∧
    (recoveryReadDone w bs s).mg = s.mg := by
  unfold recoveryReadDone
  split <;> simp

@[simp] theorem recoveryPieceRead_frame (w : RecoveryRequest) (k : Nat) (bs : List Byte) (s : State) :
    (recoveryPieceRead w k bs s).pending = s.pending ∧ (recoveryPieceRead w k bs s).le = s.le ∧
    (recoveryPieceRead w k bs s).ae = s.ae ∧ (recoveryPieceRead w k bs s).pf = s.pf ∧
    (recoveryPieceRead w k bs s).mg.cfg = s.mg.cfg := by
  simp only [recoveryPieceRead]
  (repeat' first | split_ifs | split) <;> simp

@[simp] theorem recoveryPieceAcked_frame (w : RecoveryRequest) (k : Nat) (s : State) :
    (recoveryPieceAcked w k s).pending = s.pending ∧ (recoveryPieceAcked w k s).ae = s.ae ∧
    (recoveryPieceAcked w k s).pf = s.pf ∧ (recoveryPieceAcked w k s).mg.cfg = s.mg.cfg := by
  unfold recoveryPieceAcked
  split_ifs <;> (try split) <;> simp

@[simp] theorem recoveryPieceFailed_frame (w : RecoveryRequest) (s : State) :
    (recoveryPieceFailed w s).pending = s.pending ∧ (recoveryPieceFailed w s).hp = s.hp ∧
    (recoveryPieceFailed w s).ss = s.ss ∧ (recoveryPieceFailed w s).gt = s.gt ∧
    (recoveryPieceFailed w s).cc = s.cc ∧ (recoveryPieceFailed w s).le = s.le ∧
    (recoveryPieceFailed w s).ae = s.ae ∧ (recoveryPieceFailed w s).pf = s.pf ∧
    (recoveryPieceFailed w s).mg = s.mg := by
  unfold recoveryPieceFailed
  split_ifs <;> simp

@[simp] theorem endingSettle_frame (s : State) :
    (endingSettle s).pending = s.pending ∧ (endingSettle s).le = s.le ∧ (endingSettle s).ae = s.ae ∧
    (endingSettle s).pf = s.pf ∧ (endingSettle s).mg.cfg = s.mg.cfg := by
  unfold endingSettle
  split_ifs <;> (try split) <;> simp

@[simp] theorem enterStartUp_frame (c : Command) (s : State) :
    (enterStartUp c s).pending = s.pending ∧ (enterStartUp c s).hp = s.hp ∧ (enterStartUp c s).ss = s.ss ∧
    (enterStartUp c s).gt = s.gt ∧ (enterStartUp c s).le = s.le ∧ (enterStartUp c s).ae = s.ae ∧
    (enterStartUp c s).pf = s.pf ∧ (enterStartUp c s).mg = s.mg := by simp [enterStartUp]

@[simp] theorem discard_frame (c : Command) (s : State) :
    (discard c s).pending = s.pending ∧ (discard c s).le = s.le ∧ (discard c s).pf = s.pf ∧
    (discard c s).mg = s.mg := by simp [discard]

@[simp] theorem quiesceSettle_frame (s : State) :
    (quiesceSettle s).pending = s.pending ∧ (quiesceSettle s).le = s.le ∧ (quiesceSettle s).pf = s.pf ∧
    (quiesceSettle s).mg = s.mg := by
  unfold quiesceSettle
  split_ifs <;> (try split) <;> simp

@[simp] theorem followDrain_frame (s : State) :
    (followDrain s).pending = s.pending ∧ (followDrain s).hp = s.hp ∧ (followDrain s).ss = s.ss ∧
    (followDrain s).gt = s.gt ∧ (followDrain s).cc = s.cc ∧ (followDrain s).le = s.le ∧
    (followDrain s).ae = s.ae ∧ (followDrain s).mp = s.mp ∧ (followDrain s).re = s.re ∧ (followDrain s).mg = s.mg := by
  unfold followDrain
  split_ifs <;> simp

@[simp] theorem enterSafe_frame (s : State) :
    (enterSafe s).pending = s.pending ∧ (enterSafe s).hp = s.hp ∧ (enterSafe s).ss = s.ss ∧
    (enterSafe s).gt = s.gt ∧ (enterSafe s).le = s.le ∧ (enterSafe s).ae = s.ae ∧ (enterSafe s).mp = s.mp ∧
    (enterSafe s).re = s.re ∧ (enterSafe s).mg.cfg = s.mg.cfg := by simp [enterSafe]

@[simp] theorem drainSettle_frame (s : State) :
    (drainSettle s).pending = s.pending ∧ (drainSettle s).hp = s.hp ∧ (drainSettle s).ss = s.ss ∧
    (drainSettle s).gt = s.gt ∧ (drainSettle s).le = s.le ∧ (drainSettle s).ae = s.ae ∧
    (drainSettle s).mp = s.mp ∧ (drainSettle s).re = s.re ∧ (drainSettle s).mg.cfg = s.mg.cfg := by
  unfold drainSettle
  split_ifs <;> simp

@[simp] theorem settle_frame (s : State) :
    (settle s).pending = s.pending ∧ (settle s).le = s.le ∧ (settle s).mg.cfg = s.mg.cfg := by simp [settle]

@[simp] theorem interruptCommand_frame (s : State) :
    (interruptCommand s).pending = s.pending ∧ (interruptCommand s).hp = s.hp ∧ (interruptCommand s).ss = s.ss ∧
    (interruptCommand s).gt = s.gt ∧ (interruptCommand s).le = s.le ∧ (interruptCommand s).ae = s.ae ∧
    (interruptCommand s).mp = s.mp ∧ (interruptCommand s).re = s.re ∧ (interruptCommand s).pf = s.pf ∧
    (interruptCommand s).mg.cfg = s.mg.cfg := by
  unfold interruptCommand
  split_ifs <;> simp

@[simp] theorem powerHead_frame (s : State) :
    (powerHead s).pending = s.pending ∧ (powerHead s).gt = s.gt ∧ (powerHead s).cc = s.cc ∧
    (powerHead s).le = s.le ∧ (powerHead s).ae = s.ae ∧ (powerHead s).mp = s.mp ∧ (powerHead s).re = s.re ∧
    (powerHead s).pf = s.pf ∧ (powerHead s).mg = s.mg := by
  unfold powerHead
  split_ifs <;> simp

@[simp] theorem discardGroups_frame (s : State) :
    (discardGroups s).pending = s.pending ∧ (discardGroups s).cc = s.cc ∧ (discardGroups s).le = s.le ∧
    (discardGroups s).ae = s.ae ∧ (discardGroups s).mp = s.mp ∧ (discardGroups s).re = s.re ∧
    (discardGroups s).pf = s.pf ∧ (discardGroups s).mg = s.mg := by simp [discardGroups]

@[simp] theorem interruptRecovery_frame (s : State) :
    (interruptRecovery s).pending = s.pending ∧ (interruptRecovery s).hp = s.hp ∧
    (interruptRecovery s).ss = s.ss ∧ (interruptRecovery s).gt = s.gt ∧ (interruptRecovery s).cc = s.cc ∧
    (interruptRecovery s).le = s.le ∧ (interruptRecovery s).ae = s.ae ∧ (interruptRecovery s).pf = s.pf ∧
    (interruptRecovery s).mg = s.mg := by
  unfold interruptRecovery
  split_ifs <;> simp

@[simp] theorem dropForPower_frame (s : State) :
    (dropForPower s).pending = s.pending ∧ (dropForPower s).ae = s.ae ∧ (dropForPower s).re = s.re ∧
    (dropForPower s).pf = s.pf ∧ (dropForPower s).mg.cfg = s.mg.cfg := by simp [dropForPower]

@[simp] theorem enterDraining_frame (s : State) :
    (enterDraining s).pending = s.pending ∧ (enterDraining s).pf = s.pf ∧ (enterDraining s).mg.cfg = s.mg.cfg := by simp [enterDraining]

@[simp] theorem takenCommand_frame (c : Command) (s : State) :
    (takenCommand c s).pending = s.pending ∧ (takenCommand c s).hp = s.hp ∧ (takenCommand c s).ss = s.ss ∧
    (takenCommand c s).gt = s.gt ∧ (takenCommand c s).le = s.le ∧ (takenCommand c s).ae = s.ae ∧
    (takenCommand c s).mp = s.mp ∧ (takenCommand c s).re = s.re ∧ (takenCommand c s).pf = s.pf ∧
    (takenCommand c s).mg = s.mg := by simp [takenCommand]

@[simp] theorem refusedCommand_frame (c : Command) (s : State) :
    (refusedCommand c s).pending = s.pending ∧ (refusedCommand c s).hp = s.hp ∧ (refusedCommand c s).ss = s.ss ∧
    (refusedCommand c s).gt = s.gt ∧ (refusedCommand c s).le = s.le ∧ (refusedCommand c s).ae = s.ae ∧
    (refusedCommand c s).mp = s.mp ∧ (refusedCommand c s).re = s.re ∧ (refusedCommand c s).pf = s.pf ∧
    (refusedCommand c s).mg = s.mg := by simp [refusedCommand]

@[simp] theorem beginQuiesce_frame (c : Command) (s : State) :
    (beginQuiesce c s).pending = s.pending ∧ (beginQuiesce c s).hp = s.hp ∧ (beginQuiesce c s).ss = s.ss ∧
    (beginQuiesce c s).gt = s.gt ∧ (beginQuiesce c s).le = s.le ∧ (beginQuiesce c s).re = s.re ∧
    (beginQuiesce c s).pf = s.pf ∧ (beginQuiesce c s).mg = s.mg := by simp [beginQuiesce]

@[simp] theorem controllerTakes_frame (c : Command) (s : State) :
    (controllerTakes c s).pending = s.pending ∧ (controllerTakes c s).le = s.le ∧
    (controllerTakes c s).mg.cfg = s.mg.cfg := by
  unfold controllerTakes
  split <;> simp

@[simp] theorem resetBlocks_frame (s : State) :
    (resetBlocks s).pending = s.pending := by simp [resetBlocks]

@[simp] theorem startDevice_frame (s : State) :
    (startDevice s).pending = s.pending := by
  simp only [startDevice]
  split_ifs <;> simp

@[simp] theorem firstGrant_frame (p : Piece) (s : State) :
    (firstGrant p s).pending = s.pending ∧ (firstGrant p s).hp = s.hp ∧ (firstGrant p s).gt = s.gt ∧
    (firstGrant p s).cc = s.cc ∧ (firstGrant p s).le = s.le ∧ (firstGrant p s).ae = s.ae ∧
    (firstGrant p s).re = s.re ∧ (firstGrant p s).pf = s.pf ∧ (firstGrant p s).mg = s.mg := by
  unfold firstGrant
  split <;> (try split_ifs) <;> simp

@[simp] theorem grantOne_frame (s : State) :
    (grantOne s).pending = s.pending ∧ (grantOne s).hp = s.hp ∧ (grantOne s).gt = s.gt ∧ (grantOne s).cc = s.cc ∧
    (grantOne s).le = s.le ∧ (grantOne s).ae = s.ae ∧ (grantOne s).re = s.re ∧ (grantOne s).mg = s.mg := by
  unfold grantOne
  (repeat' first | split_ifs | split) <;> simp

@[simp] theorem acceptPiece_frame (s : State) :
    (acceptPiece s).pending = s.pending ∧ (acceptPiece s).hp = s.hp ∧ (acceptPiece s).ss = s.ss ∧
    (acceptPiece s).gt = s.gt ∧ (acceptPiece s).cc = s.cc ∧ (acceptPiece s).le = s.le ∧
    (acceptPiece s).ae = s.ae ∧ (acceptPiece s).re = s.re ∧ (acceptPiece s).pf = s.pf ∧ (acceptPiece s).mg = s.mg := by
  unfold acceptPiece
  split <;> simp

@[simp] theorem reportAcked_frame (o : Owner) (s : State) :
    (reportAcked o s).pending = s.pending ∧ (reportAcked o s).pf = s.pf ∧ (reportAcked o s).mg.cfg = s.mg.cfg := by
  unfold reportAcked
  split <;> simp

@[simp] theorem reportRead_frame (o : Owner) (bs : List Byte) (s : State) :
    (reportRead o bs s).pending = s.pending ∧ (reportRead o bs s).pf = s.pf ∧
    (reportRead o bs s).mg.cfg = s.mg.cfg := by
  unfold reportRead
  split <;> simp

@[simp] theorem reportFailed_frame (o : Owner) (s : State) :
    (reportFailed o s).pending = s.pending ∧ (reportFailed o s).pf = s.pf ∧ (reportFailed o s).mg.cfg = s.mg.cfg := by
  unfold reportFailed
  split <;> simp

@[simp] theorem retryPiece_frame (p : Piece) (s : State) :
    (retryPiece p s).pending = s.pending ∧ (retryPiece p s).hp = s.hp ∧ (retryPiece p s).ss = s.ss ∧
    (retryPiece p s).gt = s.gt ∧ (retryPiece p s).cc = s.cc ∧ (retryPiece p s).le = s.le ∧
    (retryPiece p s).ae = s.ae ∧ (retryPiece p s).re = s.re ∧ (retryPiece p s).pf = s.pf ∧
    (retryPiece p s).mg = s.mg := by simp [retryPiece]

@[simp] theorem attemptFailed_frame (p : Piece) (w : Bool) (s : State) :
    (attemptFailed p w s).pending = s.pending ∧ (attemptFailed p w s).pf = s.pf ∧
    (attemptFailed p w s).mg.cfg = s.mg.cfg := by
  unfold attemptFailed
  split_ifs <;> simp

@[simp] theorem attemptOk_frame (p : Piece) (d : List Byte) (s : State) :
    (attemptOk p d s).pending = s.pending ∧ (attemptOk p d s).pf = s.pf ∧ (attemptOk p d s).mg.cfg = s.mg.cfg := by
  unfold attemptOk
  split <;> simp

@[simp] theorem setEntry_frame (k : Nat) (e : Entry) (s : State) :
    (setEntry k e s).pending = s.pending ∧ (setEntry k e s).hp = s.hp ∧ (setEntry k e s).ss = s.ss ∧
    (setEntry k e s).gt = s.gt ∧ (setEntry k e s).cc = s.cc ∧ (setEntry k e s).le = s.le ∧
    (setEntry k e s).ae = s.ae ∧ (setEntry k e s).re = s.re ∧ (setEntry k e s).pf = s.pf ∧
    (setEntry k e s).mg = s.mg := by simp [setEntry]

@[simp] theorem pieceResponse_frame (k : Nat) (p : Piece) (w : Bool) (st : MemStatus) (d : List Byte) (s : State) :
    (pieceResponse k p w st d s).pending = s.pending ∧ (pieceResponse k p w st d s).pf = s.pf ∧
    (pieceResponse k p w st d s).mg.cfg = s.mg.cfg := by
  unfold pieceResponse
  split <;> simp

@[simp] theorem lateResponse_frame (k : Nat) (s : State) :
    (lateResponse k s).pending = s.pending ∧ (lateResponse k s).hp = s.hp ∧ (lateResponse k s).ss = s.ss ∧
    (lateResponse k s).gt = s.gt ∧ (lateResponse k s).cc = s.cc ∧ (lateResponse k s).le = s.le ∧
    (lateResponse k s).ae = s.ae ∧ (lateResponse k s).re = s.re ∧ (lateResponse k s).pf = s.pf ∧
    (lateResponse k s).mg = s.mg := by simp [lateResponse]

@[simp] theorem strayResponse_frame (s : State) :
    (strayResponse s).pending = s.pending ∧ (strayResponse s).hp = s.hp ∧ (strayResponse s).ss = s.ss ∧
    (strayResponse s).gt = s.gt ∧ (strayResponse s).cc = s.cc ∧ (strayResponse s).le = s.le ∧
    (strayResponse s).ae = s.ae ∧ (strayResponse s).re = s.re ∧ (strayResponse s).pf = s.pf ∧
    (strayResponse s).mg = s.mg := by simp [strayResponse]

@[simp] theorem takeResponse_frame (k : Nat) (st : MemStatus) (d : List Byte) (s : State) :
    (takeResponse k st d s).pending = s.pending ∧ (takeResponse k st d s).mg.cfg = s.mg.cfg := by
  unfold takeResponse
  split <;> simp

@[simp] theorem orphanEntry_frame (k : Nat) (p : Piece) (s : State) :
    (orphanEntry k p s).pending = s.pending ∧ (orphanEntry k p s).hp = s.hp ∧ (orphanEntry k p s).ss = s.ss ∧
    (orphanEntry k p s).gt = s.gt ∧ (orphanEntry k p s).cc = s.cc ∧ (orphanEntry k p s).le = s.le ∧
    (orphanEntry k p s).ae = s.ae ∧ (orphanEntry k p s).re = s.re ∧ (orphanEntry k p s).pf = s.pf ∧
    (orphanEntry k p s).mg.cfg = s.mg.cfg := by simp [orphanEntry]

@[simp] theorem expireEntry_frame (k : Nat) (s : State) :
    (expireEntry k s).pending = s.pending ∧ (expireEntry k s).mg.cfg = s.mg.cfg := by
  unfold expireEntry
  split <;> simp

@[simp] theorem placeRequest_frame (r : HostRequest) (s : State) :
    (placeRequest r s).pending = s.pending ∧ (placeRequest r s).ss = s.ss ∧ (placeRequest r s).gt = s.gt ∧
    (placeRequest r s).cc = s.cc ∧ (placeRequest r s).le = s.le ∧ (placeRequest r s).ae = s.ae ∧
    (placeRequest r s).mp = s.mp ∧ (placeRequest r s).re = s.re ∧ (placeRequest r s).pf = s.pf ∧
    (placeRequest r s).mg = s.mg := by simp [placeRequest]

@[simp] theorem deliver_frame (s : State) :
    (deliver s).pending = s.pending ∧ (deliver s).ss = s.ss ∧ (deliver s).gt = s.gt ∧ (deliver s).cc = s.cc ∧
    (deliver s).le = s.le ∧ (deliver s).ae = s.ae ∧ (deliver s).mp = s.mp ∧ (deliver s).re = s.re ∧
    (deliver s).pf = s.pf ∧ (deliver s).mg = s.mg := by simp [deliver]

@[simp] theorem readRegister_frame (a : BitVec 16) (s : State) :
    (readRegister a s).2.pending = s.pending ∧
    (readRegister a s).2.hp = s.hp ∧
    (readRegister a s).2.gt = s.gt ∧
    (readRegister a s).2.cc = s.cc ∧
    (readRegister a s).2.le = s.le ∧
    (readRegister a s).2.ae = s.ae ∧
    (readRegister a s).2.mp = s.mp ∧
    (readRegister a s).2.re = s.re ∧
    (readRegister a s).2.pf = s.pf ∧
    (readRegister a s).2.mg.cfg = s.mg.cfg := by
  simp only [readRegister, readTagA, readTagB, readStarved]
  repeat' split
  all_goals simp

@[simp] theorem commandEvent_frame (c : Command) (s : State) :
    (commandEvent c s).pending = s.pending ∧ (commandEvent c s).le = s.le ∧ (commandEvent c s).mg.cfg = s.mg.cfg := by
  unfold commandEvent
  split_ifs <;> simp

@[simp] theorem clearCauses_frame (v : Word32) (s : State) :
    (clearCauses v s).pending = s.pending ∧ (clearCauses v s).hp = s.hp ∧ (clearCauses v s).ss = s.ss ∧
    (clearCauses v s).gt = s.gt ∧ (clearCauses v s).cc = s.cc ∧ (clearCauses v s).le = s.le ∧
    (clearCauses v s).ae = s.ae ∧ (clearCauses v s).mp = s.mp ∧ (clearCauses v s).re = s.re ∧
    (clearCauses v s).pf = s.pf ∧ (clearCauses v s).mg.cfg = s.mg.cfg := by simp [clearCauses]

@[simp] theorem writeConfig_frame (i : Nat) (v : Word32) (s : State) :
    (writeConfig i v s).pending = s.pending ∧ (writeConfig i v s).hp = s.hp ∧ (writeConfig i v s).ss = s.ss ∧
    (writeConfig i v s).gt = s.gt ∧ (writeConfig i v s).cc = s.cc ∧ (writeConfig i v s).le = s.le ∧
    (writeConfig i v s).ae = s.ae ∧ (writeConfig i v s).mp = s.mp ∧ (writeConfig i v s).re = s.re ∧
    (writeConfig i v s).pf = s.pf := by
  unfold writeConfig
  split <;> (try split_ifs) <;> simp

@[simp] theorem writeRegister_frame (a : BitVec 16) (v : Word32) (s : State) :
    (writeRegister a v s).pending = s.pending ∧ (writeRegister a v s).le = s.le := by
  unfold writeRegister
  (repeat' first | split_ifs | split) <;> simp

@[simp] theorem endFrame_frame (f : FrameStatus) (n : Nat) (d : Word32) (s : State) :
    (endFrame f n d s).pending = s.pending ∧ (endFrame f n d s).hp = s.hp ∧ (endFrame f n d s).ss = s.ss ∧
    (endFrame f n d s).gt = s.gt ∧ (endFrame f n d s).cc = s.cc ∧ (endFrame f n d s).le = s.le ∧
    (endFrame f n d s).ae = s.ae ∧ (endFrame f n d s).mp = s.mp ∧ (endFrame f n d s).re = s.re ∧
    (endFrame f n d s).pf = s.pf ∧ (endFrame f n d s).mg.cfg = s.mg.cfg := by simp [endFrame]

@[simp] theorem readWhole_frame (a : BitVec 16) (s : State) :
    (readWhole a s).pending = s.pending ∧ (readWhole a s).hp = s.hp ∧ (readWhole a s).gt = s.gt ∧
    (readWhole a s).cc = s.cc ∧ (readWhole a s).le = s.le ∧ (readWhole a s).ae = s.ae ∧
    (readWhole a s).mp = s.mp ∧ (readWhole a s).re = s.re ∧ (readWhole a s).pf = s.pf ∧
    (readWhole a s).mg.cfg = s.mg.cfg := by simp [readWhole]

@[simp] theorem writeWhole_frame (a : BitVec 16) (v : Word32) (s : State) :
    (writeWhole a v s).pending = s.pending ∧ (writeWhole a v s).le = s.le := by simp [writeWhole]

@[simp] theorem cutRead_frame (a : BitVec 16) (n : Nat) (s : State) :
    (cutRead a n s).pending = s.pending ∧ (cutRead a n s).hp = s.hp ∧ (cutRead a n s).gt = s.gt ∧
    (cutRead a n s).cc = s.cc ∧ (cutRead a n s).le = s.le ∧ (cutRead a n s).ae = s.ae ∧
    (cutRead a n s).mp = s.mp ∧ (cutRead a n s).re = s.re ∧ (cutRead a n s).pf = s.pf ∧
    (cutRead a n s).mg.cfg = s.mg.cfg := by simp [cutRead]

@[simp] theorem incompleteFrame_frame (c : BitVec 8) (n : Nat) (a : BitVec 16) (s : State) :
    (incompleteFrame c n a s).pending = s.pending ∧ (incompleteFrame c n a s).hp = s.hp ∧
    (incompleteFrame c n a s).gt = s.gt ∧ (incompleteFrame c n a s).cc = s.cc ∧
    (incompleteFrame c n a s).le = s.le ∧ (incompleteFrame c n a s).ae = s.ae ∧
    (incompleteFrame c n a s).mp = s.mp ∧ (incompleteFrame c n a s).re = s.re ∧
    (incompleteFrame c n a s).pf = s.pf ∧ (incompleteFrame c n a s).mg.cfg = s.mg.cfg := by
  unfold incompleteFrame
  split_ifs <;> simp

@[simp] theorem takeFrame_read (a : BitVec 16) (v : Word32) (s : State) : takeFrame 0xC1#8 a v 56 s = readWhole a s := rfl

@[simp] theorem takeFrame_write (a : BitVec 16) (v : Word32) (s : State) : takeFrame 0xC2#8 a v 56 s = writeWhole a v s := rfl

end Sys2Proof.Machine
end

