-- ==== Sys2Proof/Laws/Store.lean ====
section
/-! SUPPORT. The staging buffer: every write keeps the canonical form, a byte written is read back, every other byte reads as
before; and the two keyed lists of the store. -/

namespace Sys2Proof.Machine

/-! ## The canonical form -/

theorem cellsAbove_cons (lo a : Nat) (b : Byte) (cs : List Host.Cell) :
    cellsAbove lo ((a, b) :: cs) = (decide (lo < a) && cellsAbove lo cs) := by simp [cellsAbove]

theorem cellsAbove_mono {lo lo' : Nat} {cs : List Host.Cell} (h : lo' ≤ lo) (hc : cellsAbove lo cs = true) :
    cellsAbove lo' cs = true := by
  simp only [cellsAbove, List.all_eq_true, decide_eq_true_eq] at *
  intro c hm
  have := hc c hm
  omega

theorem cellsAbove_writeCell {lo x : Nat} {v : Byte} {cs : List Host.Cell} (hx : lo < x) (hc : cellsAbove lo cs = true) :
    cellsAbove lo (writeCell cs x v) = true := by
  induction cs with
  | nil => unfold writeCell; split <;> simp [cellsAbove, hx]
  | cons c cs ih =>
    obtain ⟨a, b⟩ := c
    rw [cellsAbove_cons, Bool.and_eq_true] at hc
    unfold writeCell
    split_ifs <;> simp_all [cellsAbove_cons]

/-- A write of one byte keeps the canonical form. -/
theorem cellsWf_writeCell {cs : List Host.Cell} (x : Nat) (v : Byte) (h : cellsWf cs = true) :
    cellsWf (writeCell cs x v) = true := by
  induction cs with
  | nil => unfold writeCell; split <;> simp_all [cellsWf, cellsAbove]
  | cons c cs ih =>
    obtain ⟨a, b⟩ := c
    simp only [cellsWf, Bool.and_eq_true, bne_iff_ne, ne_eq] at h
    obtain ⟨⟨hb, ha⟩, hw⟩ := h
    unfold writeCell
    split_ifs with h1 h2 h3 h4
    · simp [cellsWf, ha, hw]; exact hb
    · have := cellsAbove_mono (Nat.le_of_lt h1) ha
      simp_all [cellsWf, cellsAbove_cons]
    · exact hw
    · simp_all [cellsWf]
    · have hx : a < x := by omega
      simp [cellsWf, cellsAbove_writeCell hx ha, ih hw]; exact hb

/-- A write of consecutive bytes keeps the canonical form. -/
theorem cellsWf_writeCells {cs : List Host.Cell} (x : Nat) (vs : List Byte) (h : cellsWf cs = true) :
    cellsWf (writeCells cs x vs) = true := by
  induction vs generalizing cs x with
  | nil => simpa [writeCells] using h
  | cons v vs ih => exact ih _ (cellsWf_writeCell x v h)

theorem cellsWf_foldl_writeCells {α : Type} (f : α → Nat × List Byte) (ps : List α) {cs : List Host.Cell}
    (h : cellsWf cs = true) : cellsWf (ps.foldl (fun cs p => writeCells cs (f p).1 (f p).2) cs) = true := by
  induction ps generalizing cs with
  | nil => simpa using h
  | cons p ps ih => exact ih (cellsWf_writeCells _ _ h)

/-- Writing a write's segments keeps the canonical form. -/
theorem cellsWf_writeSegments {cs : List Host.Cell} (segs : List Nat) (data : List Byte) (h : cellsWf cs = true) :
    cellsWf (writeSegments cs segs data) = true :=
  cellsWf_foldl_writeCells (fun p : Nat × Nat => (64 * p.1, segmentBytes data p.2)) segs.zipIdx h

/-- The allocation of a write keeps the canonical form. -/
theorem cellsWf_allocate {ss : Staging} (r : HostRequest) (h : cellsWf ss.cells = true) :
    cellsWf (allocate r ss).cells = true := cellsWf_writeSegments _ _ h

/-- The store's buffer has the canonical form at reset. -/
theorem cellsWf_reset : cellsWf State.reset.ss.cells = true := rfl

/-! ## Reads after writes -/

theorem readCell_of_above {cs : List Host.Cell} {lo x : Nat} (h : cellsAbove lo cs = true) (hx : x ≤ lo) :
    readCell cs x = 0 := by
  induction cs with
  | nil => rfl
  | cons c cs ih =>
    obtain ⟨a, b⟩ := c
    simp only [cellsAbove_cons, Bool.and_eq_true, decide_eq_true_eq] at h
    simp only [readCell]
    rw [if_neg (by omega), ih h.2]

/-- After a write of one byte, that byte reads as written and every other byte as before. -/
theorem readCell_writeCell {cs : List Host.Cell} (x y : Nat) (v : Byte) (h : cellsWf cs = true) :
    readCell (writeCell cs x v) y = if y = x then v else readCell cs y := by
  induction cs with
  | nil =>
    unfold writeCell
    by_cases hv : v = 0#8 <;> by_cases hy : y = x
    · simp [readCell, hv]
    · simp [readCell, hv]
    · simp [readCell, hv, hy]
    · simp [readCell, hv, hy, Ne.symm hy]
  | cons c cs ih =>
    obtain ⟨a, b⟩ := c
    simp only [cellsWf, Bool.and_eq_true, bne_iff_ne, ne_eq] at h
    obtain ⟨⟨-, ha⟩, hw⟩ := h
    have h0 : ∀ z, z ≤ a → readCell cs z = 0 := fun z hz => readCell_of_above ha hz
    have ih := ih hw
    unfold writeCell
    by_cases hxa : x < a
    · have hyx := h0 x (by omega)
      by_cases hv : v = 0#8 <;> by_cases hy : y = x
      · subst hy; simp [hxa, hv, readCell, hyx]; omega
      · simp [hxa, hv, hy]
      · simp [hxa, hv, hy, readCell]
      · simp [hxa, hv, hy, readCell, Ne.symm hy]
    · by_cases hx : x = a
      · subst hx
        by_cases hv : v = 0#8 <;> by_cases hy : y = x
        · subst hy; simp [hv, h0]
        · simp [hv, hy, readCell, Ne.symm hy]
        · simp [hv, hy, readCell]
        · simp [hv, hy, readCell, Ne.symm hy]
      · by_cases hya : y = a
        · subst hya; simp [hxa, hx, readCell, Ne.symm hx]
        · simp [hxa, hx, readCell, Ne.symm hya, ih]

/-- After a write of consecutive bytes, the bytes written read as written and every other byte as before. -/
theorem readCell_writeCells {cs : List Host.Cell} (x y : Nat) (vs : List Byte) (h : cellsWf cs = true) :
    readCell (writeCells cs x vs) y = if x ≤ y ∧ y < x + vs.length then vs.getD (y - x) 0 else readCell cs y := by
  induction vs generalizing cs x with
  | nil => simp [writeCells]
  | cons v vs ih =>
    simp only [writeCells, List.length_cons]
    rw [ih _ (cellsWf_writeCell x v h), readCell_writeCell _ _ _ h]
    by_cases hxy : y = x
    · subst hxy; simp
    · by_cases hr : x + 1 ≤ y ∧ y < x + 1 + vs.length
      · have : y - x = (y - (x + 1)) + 1 := by omega
        rw [if_pos hr, if_pos (by omega), this]
        simp
      · rw [if_neg hr, if_neg hxy, if_neg (by omega)]

/-! ## Held descriptors -/

/-- After a descriptor is held under `i`, index `i` reads it and every other index reads as before. -/
theorem lookupDesc_insertDesc (ds : List (Nat × Descriptor)) (i j : Nat) (d : Descriptor) :
    lookupDesc (insertDesc ds i d) j = if j = i then some d else lookupDesc ds j := by
  induction ds with
  | nil => simp [insertDesc, lookupDesc, eq_comm]
  | cons p ds ih =>
    obtain ⟨k, x⟩ := p
    unfold insertDesc
    by_cases h1 : i < k
    · by_cases hj : j = i
      · simp [h1, hj, lookupDesc]
      · simp [h1, hj, lookupDesc, Ne.symm hj]
    · by_cases h2 : i = k
      · subst h2
        by_cases hj : j = i
        · simp [hj, lookupDesc]
        · simp [hj, lookupDesc, Ne.symm hj]
      · by_cases hj : j = k
        · subst hj; simp [h1, h2, lookupDesc, Ne.symm h2]
        · simp [h1, h2, lookupDesc, Ne.symm hj, ih]

/-- An index released reads as free, and every other index reads as before. -/
theorem lookupDesc_eraseDesc (ds : List (Nat × Descriptor)) (i j : Nat) :
    lookupDesc (eraseDesc ds i) j = if j = i then none else lookupDesc ds j := by
  induction ds with
  | nil => simp [eraseDesc, lookupDesc]
  | cons p ds ih =>
    obtain ⟨k, x⟩ := p
    simp only [eraseDesc, List.filter_cons] at ih ⊢
    by_cases hk : k = i <;> by_cases hj : j = i <;> by_cases hkj : k = j <;> simp_all [lookupDesc]

end Sys2Proof.Machine
end

