-- ==== Sys2Proof/Laws/Intake.lean ====
section
/-! SUPPORT. What the operations at the head of the intake queue do, each said once: acceptance from the channel, an answer to the head
request, the taking of a request, the contexts of the group table, and the release of descriptors. -/

namespace Sys2Proof.Machine

/-! ## Acceptance and answers -/

/-- While RESET_N is deasserted, acceptance fills the intake queue to 16 from the channel (R1). -/
theorem acceptWaiting_live (s : State) (h : Live s) : acceptWaiting s = s.withHp { s.hp with
    intake := s.hp.intake ++ s.hp.channel.take (16 - s.hp.intake.length)
    channel := s.hp.channel.drop (16 - s.hp.intake.length) } := by
  have h : s.pf.resetAsserted = false := h
  simp [acceptWaiting, h, Config.intakePlaces]

theorem intake_of_head {s : State} {r : HostRequest} (h : s.hp.intake.head? = some r) : ∃ rest, s.hp.intake = r :: rest := by
  cases hh : s.hp.intake with
  | nil => simp [hh] at h
  | cons a b => simp only [hh, List.head?_cons, Option.some.injEq] at h; exact ⟨b, by rw [h]⟩

/-- The head request, at the head since an earlier event, is answered: it gives up its reserved place and leaves (R3, R4). -/
theorem answerHead_eq (s : State) (r : HostRequest) (a : Answer) (h : Live s) (hr : s.hp.intake.head? = some r) :
    answerHead a s = s.withHp { headAnswered s.hp r a with reserved := s.hp.reserved - 1 } := by
  obtain ⟨rest, hr⟩ := intake_of_head hr
  simp only [answerHead, hr, leaveIntake]
  rw [acceptWaiting_live]
  · simp [headAnswered, headLeft, respond, hr, State.withHp]
  · exact h

/-- The head request leaves with nothing answered (R4). -/
theorem leaveIntake_eq (s : State) (h : Live s) : leaveIntake s = s.withHp (headLeft s.hp) := by
  simp only [leaveIntake]
  rw [acceptWaiting_live]
  · simp [headLeft, State.withHp]
  · exact h

/-! ## A place reserved -/

@[simp] theorem reservePlace_pending (s : State) : (reservePlace s).pending = s.pending := rfl
@[simp] theorem reservePlace_ss (s : State) : (reservePlace s).ss = s.ss := rfl
@[simp] theorem reservePlace_gt (s : State) : (reservePlace s).gt = s.gt := rfl
@[simp] theorem reservePlace_cc (s : State) : (reservePlace s).cc = s.cc := rfl
@[simp] theorem reservePlace_le (s : State) : (reservePlace s).le = s.le := rfl
@[simp] theorem reservePlace_ae (s : State) : (reservePlace s).ae = s.ae := rfl
@[simp] theorem reservePlace_mp (s : State) : (reservePlace s).mp = s.mp := rfl
@[simp] theorem reservePlace_re (s : State) : (reservePlace s).re = s.re := rfl
@[simp] theorem reservePlace_pf (s : State) : (reservePlace s).pf = s.pf := rfl
@[simp] theorem reservePlace_mg (s : State) : (reservePlace s).mg = s.mg := rfl
@[simp] theorem ctxOf_reservePlace (s : State) (t : Tag) : ctxOf (reservePlace s) t = ctxOf s t := by simp [ctxOf]
@[simp] theorem ctxOf_applyUpsets (us : List Upset) (s : State) (t : Tag) : ctxOf (applyUpsets us s) t = ctxOf s t := by simp [ctxOf]
@[simp] theorem applyUpsets_nil (s : State) : applyUpsets [] s = s := by simp [applyUpsets, State.withSs]
@[simp] theorem overlapsSide_taken (side : RecordState → Bool) (us : List Upset) (s : State) (a len : Nat) :
    overlapsSide side (reservePlace (applyUpsets us s)) a len = overlapsSide side s a len := by
  simp [overlapsSide, recordMeets, applyUpsets]

/-- A request taken and answered at once keeps the count of reserved places (R3, R4). -/
theorem answerHead_taken (s : State) (r : HostRequest) (a : Answer) (h : Live s) (hr : s.hp.intake.head? = some r) :
    answerHead a (reservePlace s) = s.withHp (headAnswered s.hp r a) := by
  rw [answerHead_eq (reservePlace s) r a h hr]
  simp [reservePlace, headAnswered, headLeft, State.withHp]

/-- A request that is taken holds the port (R11). -/
theorem holdHead_taken (s : State) (c : HoldCondition) : holdHead c (reservePlace s) = s.withHp (headHolds s.hp c) := rfl

/-! ## Taking -/

/-- A command that takes the head request treats it, with one place reserved and the changed bits of the store in place
(R3, R4; log 7). -/
theorem exec_takes (c : Instr) (s : State) (r : HostRequest) (h : Takes c s r) :
    exec c s = .next (treat r (reservePlace (applyUpsets (upsetsOf c) s))) := by
  obtain ⟨h1, h2, h3, h4⟩ := h
  have h1 : s.pf.resetAsserted = false := h1
  obtain ⟨rest, hr⟩ := intake_of_head h2
  have hc : ∀ us, canTake (applyUpsets us s) = true := fun us => by simpa [canTake] using h3
  cases c <;> simp [namesRequest] at h4 <;>
    simp [exec, execRead, execWrite, execCommit, execAbort, execFoldOver, execFoldUnder, execUnknownMarkerCode, live, h1,
      takeHead, hr, h4, h3, hc, upsetsOf, reservePlace]

/-- A command that takes a request that passes the protocol checks outside DRAINING and SAFE dispatches it by its class (R4, R8). -/
theorem exec_takesSound (c : Instr) (s : State) (r : HostRequest) (h : TakesSound c s r) :
    exec c s = .next (dispatch r (reservePlace (applyUpsets (upsetsOf c) s))) := by
  obtain ⟨ht, hd, hs, hp⟩ := h
  rw [exec_takes c s r ht, treat, if_neg (by simp [hd, hs]), if_neg (by simp [reservePlace, hp])]

/-- Reads and untagged writes take the read path in every state that takes requests (R8). -/
theorem dispatch_passThrough (r : HostRequest) (s : State) (h : r.kind = .read ∨ (r.kind = .write ∧ r.tag = 0)) :
    dispatch r s = passThrough r s := by
  rcases h with h | ⟨h, h0⟩
  · simp only [dispatch, classify, h]
    split <;> first | rfl | split_ifs at *
  · simp [dispatch, classify, h, h0]

/-- A request that passes the protocol checks has an id that is not in flight (R5). -/
theorem notInFlight_of_sound {ids : List HostId} {r : HostRequest} (h : protocolError ids r = false) : r.id ∉ ids := by
  intro h1
  simp [protocolError, h1] at h

/-! ## Contexts -/

/-- A context that has been set reads as set, and every other tag's context as before (R38). -/
theorem ctxOf_setCtx (s : State) (t t' : Tag) (c : Context) (h : s.gt.ctxs.length = 63) (h0 : t ≠ 0) :
    ctxOf (setCtx t c s) t' = if t' = t then c else ctxOf s t' := by
  have hne : ∀ x : Tag, x ≠ 0 → x.toNat ≠ 0 := fun x hx e => hx (BitVec.eq_of_toNat_eq e)
  have h2 : t.toNat - 1 < s.gt.ctxs.length := by have := t.isLt; omega
  have h3 := hne t h0
  unfold ctxOf setCtx
  rw [if_neg h0]
  by_cases ht : t' = t
  · subst ht; rw [if_neg h0, if_pos rfl]; simp [List.getD_eq_getElem?_getD, h2]
  · rw [if_neg ht]
    by_cases ht0 : t' = 0
    · rw [if_pos ht0, if_pos ht0]
    · have h4 := hne t' ht0
      have h5 : t.toNat ≠ t'.toNat := fun e => ht (BitVec.eq_of_toNat_eq e).symm
      have : t.toNat - 1 ≠ t'.toNat - 1 := by omega
      rw [if_neg ht0, if_neg ht0]
      simp [List.getD_eq_getElem?_getD, List.getElem?_set_ne this]

/-- Setting a context keeps the table's size. -/
@[simp] theorem setCtx_length (s : State) (t : Tag) (c : Context) : (setCtx t c s).gt.ctxs.length = s.gt.ctxs.length := by
  unfold setCtx; split <;> simp

/-! ## Releases -/

/-- A release puts the descriptors at the pool's tail in list order and changes no byte of the buffer (R33). -/
theorem foldl_releaseOne (ds : List Nat) (ss : Staging) :
    (ds.foldl releaseOne ss).descPool = ss.descPool ++ ds ∧ (ds.foldl releaseOne ss).cells = ss.cells ∧
    (ds.foldl releaseOne ss).flips = ss.flips ∧ (ds.foldl releaseOne ss).timer = ss.timer ∧
    (ds.foldl releaseOne ss).starveDesc = ss.starveDesc ∧ (ds.foldl releaseOne ss).starveSeg = ss.starveSeg ∧
    (ds.foldl releaseOne ss).corrected = ss.corrected ∧ (ds.foldl releaseOne ss).uncorrectable = ss.uncorrectable := by
  induction ds generalizing ss with
  | nil => simp
  | cons i ds ih => simp [ih, releaseOne]

/-- With no request in stage wait, a release event only releases (R25, R33). -/
theorem releaseEvent_noWait (ds : List Nat) (s : State) (h : s.hp.hold ≠ some .stageWait) :
    releaseEvent ds s = releaseDescs ds s := by
  unfold releaseEvent
  split
  · rename_i hd
    cases ds <;> simp_all [releaseDescs, State.withSs]
  · unfold stageTest
    split
    · rename_i h1 h2
      exact absurd h1 (by simpa using h)
    · rfl

/-- With no request in stage wait, a fault sets the tag FAULTED and releases its list (R44). -/
theorem faultGroup_noWait (t : Tag) (why : FaultReason) (s : State) (h : s.hp.hold ≠ some .stageWait) :
    faultGroup t why s = releaseDescs (ctxOf s t).writes (setCtx t (Context.faulted why) s) := by
  unfold faultGroup
  exact releaseEvent_noWait _ _ (by simpa using h)

/-- Nothing happens to a request that holds on nothing. -/
theorem evaluate_noHold (ev : EvalEvent) (s : State) (h : s.hp.hold = none) : evaluate ev s = s := by
  simp [evaluate, h]

/-- Answering several owed COMMITs: the responses join in order, as many places are no longer reserved, and the ids leave the set. -/
theorem foldl_respondOwed (l : List CommitRecord) (a : Answer) (s : State) :
    l.foldl (fun t r => respondOwed r.hostId a [] t) s = s.withHp { s.hp with
      responses := s.hp.responses ++ l.map (fun r => ⟨r.hostId, a, []⟩)
      reserved := s.hp.reserved - l.length
      inflight := s.hp.inflight.filter fun x => !(l.map CommitRecord.hostId).contains x } := by
  induction l generalizing s with
  | nil => simp [State.withHp]
  | cons r l ih =>
    rw [List.foldl_cons, ih]
    simp only [respondOwed, leaveInflight, respond, State.withHp_hp, State.withHp_withHp, List.filter_filter, List.append_assoc,
      List.map_cons, List.length_cons, List.cons_append, List.nil_append]
    congr 2
    · apply List.filter_congr
      intro x _
      by_cases h : x = r.hostId <;> simp [h]
    · omega

end Sys2Proof.Machine
end

