-- ==== Sys2Proof/Laws/Engines.lean ====
section
/-! SUPPORT. What the operations of the memory port and of the engines do, each said once: handing a request, one record of the group,
a retry, and the settling of an event. -/

namespace Sys2Proof.Machine

/-! ## Ready lists -/

@[simp] theorem readyOf_setReady (c c' : RequestClass) (ps : List Piece) (mp : MemoryPort) :
    readyOf (setReady c ps mp) c' = if c' = c then ps else readyOf mp c' := by
  cases c <;> cases c' <;> simp [readyOf, setReady]

@[simp] theorem setReady_frame (c : RequestClass) (ps : List Piece) (mp : MemoryPort) :
    (setReady c ps mp).entries = mp.entries ∧ (setReady c ps mp).records = mp.records ∧
    (setReady c ps mp).pointer = mp.pointer ∧ (setReady c ps mp).channel = mp.channel ∧
    (setReady c ps mp).errors = mp.errors ∧ (setReady c ps mp).timeouts = mp.timeouts ∧
    (setReady c ps mp).strays = mp.strays ∧ (setReady c ps mp).orphaned = mp.orphaned := by
  cases c <;> simp [setReady]

/-- A LOG request joins the LOG ready list (R136). -/
theorem handRequest_log {owner : Nat → Owner} (h : ownerClass (owner 0) = .log) (kind : MemKind) (addr len : Nat)
    (mask : Option (List Bool)) (data : List Byte) (s : State) :
    handRequest owner kind addr len mask data s =
      s.withMp (logHanded s.mp (cutRequest (burst s.mg.cfg) owner kind addr len mask data)) := by
  simp [handRequest, h, setReady, readyOf, logHanded]

/-- An APPLY request joins the APPLY ready list (R136). -/
theorem handRequest_apply {owner : Nat → Owner} (h : ownerClass (owner 0) = .apply) (kind : MemKind) (addr len : Nat)
    (mask : Option (List Bool)) (data : List Byte) (s : State) :
    handRequest owner kind addr len mask data s =
      s.withMp (applyHanded s.mp (cutRequest (burst s.mg.cfg) owner kind addr len mask data)) := by
  simp [handRequest, h, setReady, readyOf, applyHanded]

/-- One record of the group: its pieces join the LOG ready list and are awaited (R93). -/
theorem handGroupRecord_eq (part : LogPart) (p : Nat) (bytes : List Byte) (s : State) (job : LogJob) (h : s.le.job = some job) :
    handGroupRecord part p bytes s = (s.withMp (logHanded s.mp
      (cutRequest (burst s.mg.cfg) (Owner.group part) .write (unitAddr s.mg.cfg p) bytes.length none bytes))).withLe { s.le with
        job := some { job with
          unacked := job.unacked + pieceCount (burst s.mg.cfg) (unitAddr s.mg.cfg p) bytes.length } } := by
  simp [handGroupRecord, h, handRequest_log (owner := Owner.group part) rfl, handedPieces]

/-! ## Settling -/

/-- An event that leaves nothing due settles to itself outside DRAINING (log 2). -/
theorem settle_nothingDue (s : State) (he : endingDue s = false) (hd : discardDue s = false) (hp : s.cc.path ≠ .draining) :
    settle s = s := by
  have h1 : endingSettle s = s := by simp [endingSettle, he]
  have h2 : quiesceSettle s = s := by simp [quiesceSettle, hd]
  simp [settle, h1, h2, drainSettle, followDrain, hp]

/-- In RUN an event settles to itself, unless RE ends a command. -/
theorem settle_run (s : State) (hp : s.cc.path = .run) (hr : s.re.mode ≠ .ending) : settle s = s :=
  settle_nothingDue s (by simp [endingDue, hr]) (by simp [discardDue, hp]) (by simp [hp])

/-- With no failed command waiting and no quiesce or drain under way, an event settles to itself. -/
theorem settle_settled (s : State) (h : Settled s) : settle s = s :=
  settle_nothingDue s (by simp [endingDue, h.1]) (by simp [discardDue, h.2.1]) h.2.2

/-- A drain step is what `afterDrain` says (R172, R173). -/
theorem drainSettle_eq (u : State) : drainSettle u = afterDrain u := by
  unfold drainSettle afterDrain
  by_cases hp : u.cc.path = .draining
  · by_cases hc : drainNow u = ⟨false, false, 0⟩
    · have hc' : drainClear (drainNow u) = true := by rw [hc]; rfl
      rw [if_pos ⟨hp, hc'⟩, if_pos hp]
      change _ = if drainNow u = _ then _ else _
      rw [if_pos hc]
      change _ = ((u.withCc _).withPf { u.pf with psafe := true, drain := some (drainNow u) }).withMg _
      rw [hc]
      rfl
    · have hc' : drainClear (drainNow u) ≠ true := by
        intro h
        apply hc
        cases h' : drainNow u
        rw [h'] at h
        simpa [drainClear, and_assoc] using h
      rw [if_neg fun h => hc' h.2, if_pos hp]
      change _ = if drainNow u = _ then _ else _
      rw [if_neg hc, followDrain, if_pos hp]
      rfl
  · rw [if_neg fun h => hp h.1, if_neg hp, followDrain, if_neg hp]

/-- With no failed command overdue and no discard step due, an event settles to its drain step (log 2). -/
theorem settle_afterDrain (u : State) (he : endingDue u = false) (hd : discardDue u = false) : settle u = afterDrain u := by
  have h1 : endingSettle u = u := by simp [endingSettle, he]
  have h2 : quiesceSettle u = u := by simp [quiesceSettle, hd]
  rw [settle, h1, h2, drainSettle_eq]

/-- The count looks at the issued pieces alone. -/
theorem issuedCount_eq (sel : Owner → Bool) (mp : MemoryPort) :
    issuedCount sel mp = (mp.entries.map issuedPiece).countP fun o => (o.map fun p => sel p.owner).getD false := by
  rw [issuedCount, ← List.countP_eq_length_filter, List.countP_map]
  congr 1
  funext e
  cases e <;> rfl

/-- What becomes of an entry whose piece is not counted before and after leaves the count as it is. -/
theorem issuedCount_set {sel : Owner → Bool} {mp mp' : MemoryPort} {k : Nat} {p : Piece} {t : Option (BitVec 16)} {w : Bool}
    {e : Entry} (h : mp.entries.getD k .free = .issued p t w) (hp : sel p.owner = false) (he : issuedPiece e = none)
    (hm : mp'.entries.map issuedPiece = (mp.entries.set k e).map issuedPiece) : issuedCount sel mp' = issuedCount sel mp := by
  have hk : k < mp.entries.length := by
    by_contra hn
    simp [List.getD_eq_getElem?_getD, List.getElem?_eq_none (Nat.le_of_not_lt hn)] at h
  have hg : mp.entries[k] = .issued p t w := by simpa [List.getD_eq_getElem?_getD, hk] using h
  rw [issuedCount_eq, issuedCount_eq, hm, List.map_set, List.countP_set (h := by simpa using hk)]
  rw [he, List.getElem_map, hg]
  simp [hp, issuedPiece]

/-- An event of an entry that is not RE's leaves no failed command overdue when none was (R166). -/
theorem endingDue_quiet {s u : State} {k : Nat} {p : Piece} {t : Option (BitVec 16)} {w : Bool} {e : Entry}
    (hs : s.re.mode = .ending → issuedCount isRecoveryOwner s.mp ≠ 0)
    (h : s.mp.entries.getD k .free = .issued p t w) (hp : isRecoveryOwner p.owner = false) (he : issuedPiece e = none)
    (hm : u.mp.entries.map issuedPiece = (s.mp.entries.set k e).map issuedPiece) (hr : u.re = s.re) : endingDue u = false := by
  by_cases hq : s.re.mode = .ending
  · simp [endingDue, issuedCount_set h hp he hm, hs hq]
  · simp [endingDue, hr, hq]

/-- An event of an entry that is not RE's settles to its drain step in a quiet state. -/
theorem settle_quiet {s u : State} {k : Nat} {p : Piece} {t : Option (BitVec 16)} {w : Bool} {e : Entry} (hs : Quiet s)
    (h : s.mp.entries.getD k .free = .issued p t w) (hp : isRecoveryOwner p.owner = false) (he : issuedPiece e = none)
    (hm : u.mp.entries.map issuedPiece = (s.mp.entries.set k e).map issuedPiece) (hr : u.re = s.re)
    (hq : u.cc.quiesce = s.cc.quiesce) : settle u = afterDrain u :=
  settle_afterDrain u (endingDue_quiet hs.1 h hp he hm hr) (by simp [discardDue, hq, hs.2])

/-- During quiesce in STOPPED, with no failed command waiting, an event settles to its discard step when that is due (R157). -/
theorem settle_quiescing (u : State) (h : Quiescing u) : settle u = quiesceSettle u := by
  have h1 : endingSettle u = u := by simp [endingSettle, endingDue, h.2.2]
  have h2 : (quiesceSettle u).cc.path ≠ .draining := by
    unfold quiesceSettle
    split
    · split
      · rename_i c _
        cases c <;> simp [discard, enterStartUp, startUpPath]
      · simp [h.1]
    · simp [h.1]
  rw [settle, h1, drainSettle, if_neg fun h => h2 h.1, followDrain, if_neg h2]

/-- An event of an entry that is not RE's settles as `afterEvent` says, in a quiet state and during quiesce. -/
theorem settle_afterEvent {s u : State} {k : Nat} {p : Piece} {t : Option (BitVec 16)} {w : Bool} {e : Entry}
    (hs : Quiet s ∨ Quiescing s) (h : s.mp.entries.getD k .free = .issued p t w) (hp : isRecoveryOwner p.owner = false)
    (he : issuedPiece e = none) (hm : u.mp.entries.map issuedPiece = (s.mp.entries.set k e).map issuedPiece) (hr : u.re = s.re)
    (hq : u.cc.quiesce = s.cc.quiesce) (hc : u.cc.path = s.cc.path) : settle u = afterEvent u := by
  rcases hs with hs | hs
  · rw [settle_quiet hs h hp he hm hr hq, afterEvent, if_pos (by rw [hq, hs.2])]
  · rw [settle_quiescing u ⟨by rw [hc]; exact hs.1, by rw [hq]; exact hs.2.1, by rw [hr]; exact hs.2.2⟩, afterEvent,
      if_neg (by rw [hq]; exact hs.2.1)]

/-- A drain step keeps everything but the path, the lines and the causes (R172, R173). -/
theorem drainSettle_cc (s : State) : (drainSettle s).cc.queue = s.cc.queue ∧ (drainSettle s).cc.next = s.cc.next ∧
    (drainSettle s).cc.stopLog = s.cc.stopLog ∧ (drainSettle s).cc.stopApply = s.cc.stopApply ∧
    (drainSettle s).cc.quiesce = s.cc.quiesce ∧ (drainSettle s).cc.status = s.cc.status := by
  unfold drainSettle
  split
  · simp [enterSafe]
  · simp

/-! ## Outcomes (R142, R145, R146) -/

/-- A transfer that carries as many bytes as its length says is taken as it comes (log 10). -/
theorem fixBytes_self (n : Nat) (d : List Byte) (h : d.length = n) : fixBytes n d = d := by
  apply List.ext_getElem
  · simp [fixBytes, h]
  · intro i h1 h2
    simp [fixBytes, h2]

/-- An OK response to a write piece frees its entry and is reported to its owner (R142, R146). -/
theorem response_acked {id : MemId} {data : List Byte} {s : State} {p : Piece} {t0 : Option (BitVec 16)} {w : Bool} (h : Live s)
    (he : s.mp.entries.getD id.toNat .free = .issued p t0 w) (hk : p.kind = .write) :
    exec (.memoryResponse id .ok data) s = .next (settle (reportAcked p.owner (s.withMp (entryFreed s.mp id)))) := by
  have h : s.pf.resetAsserted = false := h
  simp only [exec, execMemoryResponse, live, h, takeResponse, he, pieceResponse, attemptOk, hk]
  rfl

/-- An OK response to a read piece frees its entry and is reported to its owner with the data (R142, R146). -/
theorem response_read {id : MemId} {data : List Byte} {s : State} {p : Piece} {t0 : Option (BitVec 16)} {w : Bool} (h : Live s)
    (he : s.mp.entries.getD id.toNat .free = .issued p t0 w) (hk : p.kind = .read) (hd : p.length = data.length) :
    exec (.memoryResponse id .ok data) s = .next (settle (reportRead p.owner data (s.withMp (entryFreed s.mp id)))) := by
  have h : s.pf.resetAsserted = false := h
  simp only [exec, execMemoryResponse, live, h, takeResponse, he, pieceResponse, attemptOk, hk, fixBytes_self _ _ hd.symm]
  rfl

/-- A failed attempt keeps the configuration. -/
@[simp] theorem failureMg_cfg (c : Instr) (id : MemId) (mg : Management) : (failureMg c id mg).cfg = mg.cfg := by
  unfold failureMg
  split <;> rfl

/-- A timeout has set ORPHAN (R143). -/
theorem failureMg_orphan (c : Instr) (id : MemId) (mg : Management) (h : c = .responseTimeout id) :
    causeIn .orphan (failureMg c id mg).causes = true := by
  simp [failureMg, h, causeIn, causeBit]

/-- A failed attempt clears no cause. -/
theorem failureMg_mono (c : Instr) (id : MemId) (mg : Management) (d : Cause) (h : d ≠ .orphan) :
    causeIn d (failureMg c id mg).causes = causeIn d mg.causes := by
  unfold failureMg
  split
  · cases d <;> simp_all [causeIn, causeBit]
  · rfl

/-- The entry after a failed attempt is not ISSUED, and no other entry changes. -/
theorem failureMp_entries (c : Instr) (id : MemId) (p : Piece) (mp : MemoryPort) :
    ∃ e, issuedPiece e = none ∧ (failureMp c id p mp).entries = mp.entries.set id.toNat e := by
  unfold failureMp
  split
  · exact ⟨.orphaned p, rfl, rfl⟩
  · exact ⟨.free, rfl, rfl⟩

/-- A failed attempt changes an entry and figures alone. -/
@[simp] theorem failureMp_frame (c : Instr) (id : MemId) (p : Piece) (mp : MemoryPort) :
    (failureMp c id p mp).readyPass = mp.readyPass ∧ (failureMp c id p mp).readyLog = mp.readyLog ∧
    (failureMp c id p mp).readyApply = mp.readyApply ∧ (failureMp c id p mp).records = mp.records := by
  unfold failureMp
  split <;> exact ⟨rfl, rfl, rfl, rfl⟩

/-- A failed attempt goes to the retry service or to its owner, after an ERR and after a timeout alike (R142, R143, R145). -/
theorem exec_attemptFails {c : Instr} {id : MemId} {s : State} {p : Piece} {timer : Option (BitVec 16)} {w : Bool} (h : Live s)
    (he : s.mp.entries.getD id.toNat .free = .issued p timer w) (hf : AttemptFails c id timer) :
    exec c s = .next (settle (if triesAgain s.mg.cfg p w then retryPiece p (afterFailure c id p s)
      else reportFailed p.owner (afterFailure c id p s))) := by
  have h : s.pf.resetAsserted = false := h
  rcases hf with ⟨data, rfl⟩ | ⟨rfl, ht⟩
  · simp only [exec, execMemoryResponse, live, h, takeResponse, he, pieceResponse]
    rfl
  · obtain ⟨v, rfl⟩ := Option.ne_none_iff_exists'.mp ht
    have hu : orphanEntry id.toNat p s = afterFailure (.responseTimeout id) id p s := by
      simp [orphanEntry, setEntry, setCause, causeBit, afterFailure, failureMp, failureMg, State.withMp, State.withMg]
    simp only [exec, execResponseTimeout, live, h, expireEntry, he, hu, attemptFailed]
    simp [afterFailure]

/-- A piece that fails for good is reported to its owner (R145, R146). -/
theorem exec_failsForGood {c : Instr} {id : MemId} {s : State} {p : Piece} (h : Live s) (hf : FailsForGood c id s p) :
    exec c s = .next (settle (reportFailed p.owner (afterFailure c id p s))) := by
  obtain ⟨timer, w, he, ha, hr⟩ := hf
  have ht : triesAgain s.mg.cfg p w = false := by
    rcases hr with hr | hr
    · simp [triesAgain, Nat.not_lt.mpr hr]
    · simp [triesAgain, hr]
  rw [exec_attemptFails h he ha, ht]
  rfl

end Sys2Proof.Machine
end

