-- ==== Sys2Proof/Laws/Holds.lean ====
section
/-! SUPPORT. What a release does to the pools and to the descriptors (R33), and what an evaluation of the request that holds the port
can do (R13), each said once. -/

namespace Sys2Proof.Machine

/-! ## Releases -/

/-- After a release every released index is absent and every other one is as before (R33). -/
theorem foldl_releaseOne_descs (ds : List Nat) (ss : Staging) (j : Nat) :
    lookupDesc (ds.foldl releaseOne ss).descs j = if j ∈ ds then none else lookupDesc ss.descs j := by
  induction ds generalizing ss with
  | nil => simp
  | cons i ds ih =>
    rw [List.foldl_cons, ih]
    simp only [releaseOne, lookupDesc_eraseDesc, List.mem_cons]
    by_cases h1 : j ∈ ds <;> by_cases h2 : j = i <;> simp [h1, h2]

/-- The segments of distinct released descriptors join the pool's tail, descriptor after descriptor (R33). -/
theorem foldl_releaseOne_segs (ds : List Nat) (ss : Staging) (h : ds.Nodup) :
    (ds.foldl releaseOne ss).segPool =
      ss.segPool ++ ds.flatMap fun i => ((lookupDesc ss.descs i).getD Descriptor.none).segs := by
  induction ds generalizing ss with
  | nil => simp
  | cons i ds ih =>
    obtain ⟨h1, h2⟩ := List.nodup_cons.mp h
    rw [List.foldl_cons, ih _ h2, List.flatMap_cons, ← List.append_assoc]
    simp only [releaseOne, lookupDesc_eraseDesc]
    congr 1
    apply List.flatMap_congr
    intro j hj
    rw [if_neg (by rintro rfl; exact h1 hj)]

/-- A release is what `Released` says (R33). -/
theorem released_releaseDescs (ds : List Nat) (s : State) : Released ds s (releaseDescs ds s) where
  descPool := by simp [releaseDescs, foldl_releaseOne]
  segPool h := by simp [releaseDescs, foldl_releaseOne_segs _ _ h, descAt]
  fields i := by simp [releaseDescs, foldl_releaseOne_descs]
  cells := by simp [releaseDescs, foldl_releaseOne]

/-- `Released` looks at the pools, the descriptors and the stored bytes alone. -/
theorem Released.of_same {ds : List Nat} {s t s' t' : State} (h : Released ds s t)
    (h1 : s'.ss.descPool = s.ss.descPool) (h2 : s'.ss.segPool = s.ss.segPool) (h3 : s'.ss.descs = s.ss.descs)
    (h4 : s'.ss.cells = s.ss.cells) (h5 : t'.ss.descPool = t.ss.descPool) (h6 : t'.ss.segPool = t.ss.segPool)
    (h7 : t'.ss.descs = t.ss.descs) (h8 : t'.ss.cells = t.ss.cells) : Released ds s' t' where
  descPool := by rw [h5, h1, h.descPool]
  segPool hn := by rw [h6, h2, h.segPool hn]; simp only [descAt, h3]
  fields i := by rw [h7, h3, h.fields]
  cells := by rw [h8, h4, h.cells]

/-- Nothing released leaves the store as it is. -/
theorem released_nil (s : State) : Released [] s s where
  descPool := by simp
  segPool _ := by simp
  fields i := by simp
  cells := rfl

/-- Two releases after one another release the two lists after one another. -/
theorem Released.trans {ds es : List Nat} {s u t : State} (h1 : Released ds s u) (h2 : Released es u t) :
    Released (ds ++ es) s t where
  descPool := by rw [h2.descPool, h1.descPool, List.append_assoc]
  segPool hn := by
    obtain ⟨n1, n2, n3⟩ := List.nodup_append.mp hn
    rw [h2.segPool n2, h1.segPool n1, List.append_assoc, List.flatMap_append]
    congr 2
    apply List.flatMap_congr
    intro j hj
    simp only [descAt, h1.fields]
    rw [if_neg fun e : j ∈ ds => n3 j e j hj rfl]
  fields i := by
    rw [h2.fields, h1.fields]
    by_cases h : i ∈ es <;> by_cases h' : i ∈ ds <;> simp [h, h']
  cells := by rw [h2.cells, h1.cells]

/-! ## Evaluation anew -/

/-- A request that stays at the head keeps its overlap when nothing but host port and memory port differ. -/
theorem overlapsSide_congr (side : RecordState → Bool) {s t : State} (hq : t.cc.queue = s.cc.queue) (hd : t.ss.descs = s.ss.descs)
    (a len : Nat) : overlapsSide side t a len = overlapsSide side s a len := by
  simp [overlapsSide, recordMeets, hq, hd]

/-- Without overlap on either side there is none on the home side. -/
theorem overlapsSide_home_of_none {s : State} {a len : Nat}
    (h : overlapsSide (fun st => loggingSide st || homeSide st) s a len = false) : overlapsSide homeSide s a len = false := by
  simp only [overlapsSide, List.any_eq_false] at *
  intro x hx
  have := h x hx
  simp at *
  grind

/-- The pieces of a dispatched request join the PASS ready list with its record (R136, R138). -/
theorem sendPass_eq (r : HostRequest) (s : State) (m : Nat) (hl : Live s) (hm : firstAbsent s.mp.records = some m)
    (hi : r.id ∉ s.hp.inflight) :
    sendPass r s = (s.withHp (holdDispatched s.hp r)).withMp (passSent s.mg.cfg s.mp m r) := by
  simp only [sendPass, hm]
  rw [leaveIntake_eq _ (by simpa [joinInflight, handRequest, Live] using hl)]
  have : passKind r = .write ↔ r.kind = .write := by unfold passKind; split <;> simp_all
  simp [handRequest, ownerClass, setReady, readyOf, joinInflight, holdDispatched, headLeft, hi, State.withHp, State.withMp, passSent,
    this]

/-- The read path for a request that needs no merge slot: what becomes of it, and that nothing but the host port and the memory port
changes (R11, R125, R127, R132). -/
theorem passThrough_evaluated (r : HostRequest) (s : State) (hl : Live s) (hr : s.hp.intake.head? = some r)
    (hi : r.id ∉ s.hp.inflight) (hn : needsSlot r s = false) :
    PassEvaluated false r s.hp s.mp (passThrough r s) ∧ OnlyIn [.hp, .mp] s (passThrough r s) := by
  have key : ∀ t : State, (∃ hp mp, t = (s.withHp hp).withMp mp) → OnlyIn [.hp, .mp] s t ∧
      (∀ side a len, overlapsSide side t a len = overlapsSide side s a len) ∧ t.cc = s.cc ∧ t.mg = s.mg := by
    rintro t ⟨hp, mp, rfl⟩
    refine ⟨fun b hb => ?_, fun _ _ _ => rfl, rfl, rfl⟩
    cases b <;> simp [sameBlock] at hb ⊢
  have same : ∀ hp, s.withHp hp = (s.withHp hp).withMp s.mp := fun _ => rfl
  unfold passThrough
  dsimp only
  rw [hn]
  by_cases h1 : overlapsSide homeSide s r.addr.toNat r.length && s.cc.stopApply
  · rw [if_pos h1, answerHead_eq s r _ hl hr]
    obtain ⟨k1, k2, k3, k4⟩ := key _ ⟨_, _, same (holdAnswered s.hp r .blocked)⟩
    refine ⟨⟨fun _ _ => ⟨rfl, rfl⟩, fun _ h => ?_, fun h => ?_, fun h => ?_⟩, k1⟩
    · change (overlapsSide homeSide s _ _ && s.cc.stopApply) = false at h
      rw [h1] at h; cases h
    · have := overlapsSide_home_of_none (h : overlapsSide _ s _ _ = false); simp [this] at h1
    · have := overlapsSide_home_of_none (h : overlapsSide _ s _ _ = false); simp [this] at h1
  · rw [if_neg h1]
    by_cases h2 : overlapsSide (fun st => loggingSide st || homeSide st) s r.addr.toNat r.length
    · rw [if_pos h2]
      obtain ⟨k1, k2, k3, k4⟩ := key (holdHead .hazardOverlap s) ⟨_, _, same _⟩
      refine ⟨⟨fun a b => ?_, fun _ _ => ⟨rfl, rfl⟩, fun h => ?_, fun h => ?_⟩, k1⟩
      · exact absurd (by rw [k2] at a; rw [k3] at b; simp [a, b]) h1
      · rw [k2] at h; simp [h] at h2
      · rw [k2] at h; simp [h] at h2
    · have h2 : overlapsSide (fun st => loggingSide st || homeSide st) s r.addr.toNat r.length = false := by simpa using h2
      rw [if_neg (by simp [h2]), if_neg (by simp)]
      cases hm : firstAbsent s.mp.records with
      | none =>
        rw [if_pos (by simp)]
        obtain ⟨k1, k2, k3, k4⟩ := key (holdHead .passListFull s) ⟨_, _, same _⟩
        refine ⟨⟨fun a => ?_, fun a => ?_, fun _ _ _ => ⟨rfl, rfl⟩, fun _ _ m h => ?_⟩, k1⟩
        · rw [k2, overlapsSide_home_of_none h2] at a; cases a
        · rw [k2, h2] at a; cases a
        · rw [hm] at h; cases h
      | some m =>
        rw [if_neg (by simp), if_neg (by simp), sendPass_eq r s m hl hm hi]
        obtain ⟨k1, k2, k3, k4⟩ := key _ ⟨_, _, rfl⟩
        refine ⟨⟨fun a => ?_, fun a => ?_, fun _ _ h => ?_, fun _ _ m' h => ?_⟩, k1⟩
        · rw [k2, overlapsSide_home_of_none h2] at a; cases a
        · rw [k2, h2] at a; cases a
        · rw [hm] at h; cases h
        · rw [hm] at h; cases h; exact ⟨rfl, rfl⟩

/-- The walk of a group's list changes no pool, no descriptor and no stored byte (R129). -/
theorem overlayWalk_store (a len : Nat) (is : List Nat) (ov : List (Option Byte)) (s : State) :
    (overlayWalk a len is ov s).2.ss.descPool = s.ss.descPool ∧ (overlayWalk a len is ov s).2.ss.segPool = s.ss.segPool ∧
    (overlayWalk a len is ov s).2.ss.descs = s.ss.descs ∧ (overlayWalk a len is ov s).2.ss.cells = s.ss.cells := by
  have one : ∀ (s : State) (c : WordCheck), (countCheck s c).ss.descPool = s.ss.descPool ∧
      (countCheck s c).ss.segPool = s.ss.segPool ∧ (countCheck s c).ss.descs = s.ss.descs ∧
      (countCheck s c).ss.cells = s.ss.cells := by
    intro s c
    unfold countCheck
    split <;> simp
  have all : ∀ (cs : List WordCheck) (s : State), (cs.foldl countCheck s).ss.descPool = s.ss.descPool ∧
      (cs.foldl countCheck s).ss.segPool = s.ss.segPool ∧ (cs.foldl countCheck s).ss.descs = s.ss.descs ∧
      (cs.foldl countCheck s).ss.cells = s.ss.cells := by
    intro cs
    induction cs with
    | nil => simp
    | cons c cs ih => simp [ih, one]
  induction is generalizing ov s with
  | nil => simp [overlayWalk]
  | cons i is ih =>
    simp only [overlayWalk]
    repeat' split
    all_goals simp [ih, readWords, all]

/-- Overlap does not grow when descriptors only become absent. -/
theorem overlapsSide_mono (side : RecordState → Bool) {s t : State} (hq : t.cc.queue = s.cc.queue)
    (hd : ∀ i d, lookupDesc t.ss.descs i = some d → lookupDesc s.ss.descs i = some d) (a len : Nat)
    (h : overlapsSide side s a len = false) : overlapsSide side t a len = false := by
  simp only [overlapsSide, hq, List.any_eq_false, Bool.and_eq_true, recordMeets, List.any_eq_true] at *
  rintro x hx ⟨h1, i, hi, h2⟩
  refine h x hx ⟨h1, i, hi, ?_⟩
  cases hl : lookupDesc t.ss.descs i with
  | none => simp [hl] at h2
  | some d => simpa [hl, hd i d hl] using h2

/-- A read of an OPEN tag that reaches the overlay leaves every overlap as it is or smaller. -/
theorem overlayRead_noOverlap (side : RecordState → Bool) (r : HostRequest) (s : State) (hr : s.hp.intake ≠ []) (a len : Nat)
    (h : overlapsSide side s a len = false) : overlapsSide side (overlayRead r s) a len = false := by
  have hw := overlayWalk_store r.addr.toNat r.length (ctxOf s r.tag).writes (List.replicate r.length none) s
  have hf := overlayWalk_frame r.addr.toNat r.length (ctxOf s r.tag).writes (List.replicate r.length none) s
  apply overlapsSide_mono side (s := s) (by simp) _ a len h
  intro i d
  unfold overlayRead
  split
  · rename_i ov s1 e
    rw [e] at hw
    dsimp only at hw
    simp [hw]
  · rename_i s1 e
    rw [e] at hw hf
    dsimp only at hw hf
    obtain ⟨x, rest, hx⟩ := List.exists_cons_of_ne_nil hr
    rw [faultGroup_noWait, ← hw.2.2.1]
    · have : (setCtx r.tag (Context.faulted .integrity) (answerHead .integrity s1)).ss = s1.ss := by simp
      simp only [releaseDescs, State.withSs_ss, foldl_releaseOne_descs, this]
      split <;> simp
    · simp only [answerHead, hf.2.1, hx, leaveIntake]
      unfold acceptWaiting
      split <;> simp

/-- The read path, whatever the request's tag: what becomes of it (R11, R125, R127, R132). -/
theorem passThrough_evaluates (r : HostRequest) (s : State) (hl : Live s) (hr : s.hp.intake.head? = some r)
    (hi : r.id ∉ s.hp.inflight) : PassEvaluated (needsSlot r s) r s.hp s.mp (passThrough r s) := by
  cases hn : needsSlot r s with
  | false => exact (passThrough_evaluated r s hl hr hi hn).1
  | true =>
    have no : ∀ t : State, overlapsSide (fun st => loggingSide st || homeSide st) t r.addr.toNat r.length = false →
        PassEvaluated true r s.hp s.mp t := fun t h =>
      ⟨fun a => by (rw [overlapsSide_home_of_none h] at a; exact nomatch a), fun a => by (rw [h] at a; exact nomatch a),
        fun _ => nofun, fun _ => nofun⟩
    have ne : s.hp.intake ≠ [] := by
      intro e
      rw [e] at hr
      cases hr
    unfold passThrough
    dsimp only
    rw [hn]
    by_cases h1 : overlapsSide homeSide s r.addr.toNat r.length && s.cc.stopApply
    · rw [if_pos h1, answerHead_eq s r _ hl hr]
      refine ⟨fun _ _ => ⟨rfl, rfl⟩, fun _ h => ?_, fun _ => nofun, fun _ => nofun⟩
      change (overlapsSide homeSide s _ _ && s.cc.stopApply) = false at h
      rw [h1] at h
      cases h
    · rw [if_neg h1]
      by_cases h2 : overlapsSide (fun st => loggingSide st || homeSide st) s r.addr.toNat r.length
      · rw [if_pos h2]
        exact ⟨fun a b => absurd (by simpa using ⟨a, b⟩ :
            (overlapsSide homeSide s r.addr.toNat r.length && s.cc.stopApply) = true) h1,
          fun _ _ => ⟨rfl, rfl⟩, fun _ => nofun, fun _ => nofun⟩
      · have h2 : overlapsSide (fun st => loggingSide st || homeSide st) s r.addr.toNat r.length = false := by simpa using h2
        rw [if_neg (by simp [h2])]
        split_ifs
        · exact no _ h2
        · exact no _ h2
        · exact no _ (overlayRead_noOverlap _ r s ne _ _ h2)
        · contradiction

/-- A request of the read path is dispatched by the read path (R8). -/
theorem dispatch_onReadPath (r : HostRequest) (s : State) (h : onReadPath r = true) : dispatch r s = passThrough r s := by
  apply dispatch_passThrough
  simpa [onReadPath, isRead, isWrite] using h

/-- A request of the read path that holds the port takes the read path again at an event of its condition (R13). -/
theorem evaluate_onReadPath {ev : EvalEvent} {s : State} {h : HoldCondition} {r : HostRequest} (hh : s.hp.hold = some h)
    (hr : s.hp.intake.head? = some r) (hp : onReadPath r = true) (hw : wakes h ev = true) (ht : pathTakes s.cc = true) :
    evaluate ev s = passThrough r s := by
  obtain ⟨rest, hi⟩ := intake_of_head hr
  simp [evaluate, hh, hi, hw, ht, dispatch_onReadPath r s hp]

/-- An event that is none of the hold's own changes nothing (R13). -/
theorem evaluate_notWoken {ev : EvalEvent} {s : State} {h : HoldCondition} (hh : s.hp.hold = some h) (hw : wakes h ev = false) :
    evaluate ev s = s := by
  unfold evaluate
  rw [hh]
  split
  · rename_i h' r _ e _
    simp only [Option.some.injEq] at e
    subst e
    simp [hw]
  · rfl

/-- A COMMIT that holds on a full queue is answered STOPPED when the path has entered STOPPED, and its FAULTED tag becomes IDLE
(R13, R60). -/
theorem evaluate_commit_stopped {ev : EvalEvent} {s : State} {r : HostRequest} (hl : Live s)
    (hh : s.hp.hold = some .commitQueueFull) (hr : s.hp.intake.head? = some r) (hc : isMarker .commit r = true)
    (hw : wakes .commitQueueFull ev = true) (hp : s.cc.path = .stopped) (hq : s.cc.quiesce = none) :
    evaluate ev s = (if (ctxOf s r.tag).state = .faulted then setCtx r.tag Context.idle s else s).withHp
      (holdAnswered s.hp r .stopped) := by
  obtain ⟨rest, hi⟩ := intake_of_head hr
  simp only [isMarker, Bool.and_eq_true, beq_iff_eq] at hc
  have hd : dispatch r s = commitHead r s := by simp [dispatch, classify, hc, hp]
  have ht : pathTakes s.cc = true := by simp [pathTakes, hp, hq]
  simp only [evaluate, hh, hi, hw, ht, hd, commitHead, hp, Bool.and_self, if_true]
  split
  · rw [answerHead_eq _ r _ (by simpa [Live] using hl) (by simpa using hr)]
    simp [holdAnswered]
  · rw [answerHead_eq _ r _ hl hr]
    rfl

/-! ## What an evaluation never changes -/

/-- The commit controller's figures but the queue and the next number, the LOG and APPLY sides of the memory port, and the causes set
are as before. -/
structure ControlKept (s t : State) : Prop where
  path : t.cc.path = s.cc.path
  causes : t.cc.stopLog = s.cc.stopLog ∧ t.cc.stopApply = s.cc.stopApply ∧ t.cc.quiesce = s.cc.quiesce
  command : t.cc.status = s.cc.status ∧ t.cc.command = s.cc.command ∧ t.cc.result = s.cc.result ∧
    t.cc.replayed = s.cc.replayed ∧ t.cc.skipped = s.cc.skipped
  ready : t.mp.readyLog = s.mp.readyLog ∧ t.mp.readyApply = s.mp.readyApply
  entries : t.mp.entries = s.mp.entries ∧ t.mp.errors = s.mp.errors ∧ t.mp.orphaned = s.mp.orphaned
  lines : ∀ c, causeIn c s.mg.causes = true → causeIn c t.mg.causes = true

/-- A step that leaves the three blocks alone keeps them. -/
theorem ControlKept.of_same {s t : State} (h1 : t.cc = s.cc) (h2 : t.mp = s.mp) (h3 : t.mg = s.mg) : ControlKept s t := by
  constructor <;> simp [h1, h2, h3]

/-- What two steps keep their sequence keeps. -/
theorem ControlKept.trans {s u t : State} (h1 : ControlKept s u) (h2 : ControlKept u t) : ControlKept s t := by
  obtain ⟨a1, ⟨a2, a3, a4⟩, ⟨a5, a6, a7, a8, a9⟩, ⟨a10, a11⟩, ⟨a12, a13, a14⟩, a15⟩ := h1
  obtain ⟨b1, ⟨b2, b3, b4⟩, ⟨b5, b6, b7, b8, b9⟩, ⟨b10, b11⟩, ⟨b12, b13, b14⟩, b15⟩ := h2
  refine ⟨by rw [b1, a1], by rw [b2, b3, b4]; exact ⟨a2, a3, a4⟩, by rw [b5, b6, b7, b8, b9]; exact ⟨a5, a6, a7, a8, a9⟩,
    by rw [b10, b11]; exact ⟨a10, a11⟩, by rw [b12, b13, b14]; exact ⟨a12, a13, a14⟩, fun c h => b15 c (a15 c h)⟩

/-- Setting a cause clears none (R189). -/
theorem causeIn_mono (c d : Cause) (w : BitVec 7) (h : causeIn c w = true) (s : State) (hs : s.mg.causes = w) :
    causeIn c (setCause d s).mg.causes = true := by
  simp [setCause, causeIn, hs] at *
  simp [h]

/-- Counting a word's result keeps all this (R30). -/
theorem countCheck_kept (s : State) (c : WordCheck) : ControlKept s (countCheck s c) := by
  unfold countCheck
  split
  · exact .of_same rfl rfl rfl
  · exact .of_same rfl rfl rfl
  · refine ⟨rfl, ⟨rfl, rfl, rfl⟩, ⟨rfl, rfl, rfl, rfl, rfl⟩, ⟨rfl, rfl⟩, ⟨rfl, rfl, rfl⟩, fun c h => causeIn_mono c _ _ h _ rfl⟩

/-- So does the walk of a group's list (R129). -/
theorem overlayWalk_kept (a len : Nat) (is : List Nat) (ov : List (Option Byte)) (s : State) :
    ControlKept s (overlayWalk a len is ov s).2 := by
  have all : ∀ (cs : List WordCheck) (s : State), ControlKept s (cs.foldl countCheck s) := by
    intro cs
    induction cs with
    | nil => exact fun _ => .of_same rfl rfl rfl
    | cons c cs ih => exact fun s => (countCheck_kept s c).trans (ih _)
  induction is generalizing ov s with
  | nil => exact .of_same rfl rfl rfl
  | cons i is ih =>
    simp only [overlayWalk]
    split
    · split
      · exact all _ _
      · exact (all _ _).trans (ih _ _)
    · exact ih _ _

/-- So does the dispatch of a pass-through request (R132). -/
theorem sendPass_kept (r : HostRequest) (s : State) : ControlKept s (sendPass r s) := by
  unfold sendPass
  split
  · exact .of_same rfl rfl rfl
  · constructor <;> simp [handRequest, ownerClass, setReady, joinInflight, leaveIntake, acceptWaiting] <;> split <;> simp

/-- So does the read path (R11, R125, R127). -/
theorem passThrough_kept (r : HostRequest) (s : State) : ControlKept s (passThrough r s) := by
  simp only [passThrough]
  split_ifs
  · exact .of_same (by simp) (by simp) (by simp)
  · exact .of_same rfl rfl rfl
  · exact .of_same rfl rfl rfl
  · exact .of_same rfl rfl rfl
  · unfold overlayRead
    have := overlayWalk_kept r.addr.toNat r.length (ctxOf s r.tag).writes (List.replicate r.length none) s
    split
    · rename_i e
      rw [e] at this
      refine this.trans (ControlKept.trans (.of_same ?_ ?_ ?_) (sendPass_kept _ _)) <;> simp
    · rename_i e
      rw [e] at this
      refine this.trans (.of_same ?_ ?_ ?_) <;> simp
  · exact sendPass_kept _ _

/-- So does the treatment of any request (R8). -/
theorem dispatch_kept (r : HostRequest) (s : State) : ControlKept s (dispatch r s) := by
  unfold dispatch
  split
  · exact passThrough_kept _ _
  · exact passThrough_kept _ _
  · exact passThrough_kept _ _
  · split_ifs
    · unfold taggedWrite
      simp only
      split_ifs
      · exact .of_same (by simp) (by simp) (by simp)
      · exact .of_same (by simp) (by simp) (by simp)
      · exact .of_same (by simp) (by simp) (by simp)
      · have : ControlKept s (countStarved r.length s) := by
          refine ⟨by simp, by simp, by simp, by simp, by simp, fun c h => ?_⟩
          exact causeIn_mono c _ _ h _ rfl
        unfold enterStageWait
        dsimp only
        split_ifs
        · refine this.trans (.of_same ?_ ?_ ?_) <;> simp [expireHead]
        · exact this.trans (.of_same rfl rfl rfl)
    · exact .of_same (by simp) (by simp) (by simp)
  · split_ifs
    · exact .of_same (by simp) (by simp) (by simp)
    · constructor <;> (simp only [commitHead, acceptCommit]; split_ifs <;> (simp [leaveIntake, acceptWaiting, joinInflight]; try (split_ifs <;> simp)))
  · split_ifs
    · exact .of_same (by simp) (by simp) (by simp)
    · exact .of_same (by simp [abortGroup]) (by simp [abortGroup]) (by simp [abortGroup])
  · split_ifs
    · exact .of_same (by simp) (by simp) (by simp)
    · exact .of_same (by simp) (by simp) (by simp)
    · simp only [foldGroups]
      split_ifs <;> exact .of_same (by simp) (by simp) (by simp)
  · exact .of_same (by simp) (by simp) (by simp)

/-- So does an evaluation anew (R13). -/
theorem evaluate_kept (ev : EvalEvent) (s : State) : ControlKept s (evaluate ev s) := by
  unfold evaluate
  split
  · split_ifs
    · exact dispatch_kept _ _
    · exact .of_same rfl rfl rfl
  · exact .of_same rfl rfl rfl
/-- The discard step takes no request and ends no hold (R157). -/
@[simp] theorem quiesceSettle_head (s : State) :
    (quiesceSettle s).hp.intake = s.hp.intake ∧ (quiesceSettle s).hp.hold = s.hp.hold := by
  unfold quiesceSettle
  split_ifs
  · split
    · simp [discard, foldl_respondOwed]
    · exact ⟨rfl, rfl⟩
  · exact ⟨rfl, rfl⟩

/-- What an event leaves due ends or empties no entry of the table. -/
@[simp] theorem settle_entries (s : State) : (settle s).mp.entries = s.mp.entries := by
  have h1 : ∀ u : State, (endingSettle u).mp.entries = u.mp.entries := by
    intro u
    unfold endingSettle
    split_ifs
    · split
      · simp only [leaveStartUp, (evaluate_kept .pathChanged _).entries.1]
        simp
      · rfl
    · rfl
  have h2 : ∀ u : State, (quiesceSettle u).mp.entries = u.mp.entries := by
    intro u
    unfold quiesceSettle
    split_ifs
    · split
      · simp [discard, enterStartUp, readSlots, handRecoveryRead, handRequest]
      · rfl
    · rfl
  simp only [settle, drainSettle_frame, h1, h2]

end Sys2Proof.Machine
end

