-- ==== Sys2Proof/Laws/Management.lean ====
section
/-! SUPPORT. Where the register window has a register (R181, R182), what a write to the log base gives (R183), and that the command
read from a frame's bits has the frame's effect (R179). -/

namespace Sys2Proof.Machine

/-- A choice differs from `r` when both sides do. -/
theorem ite_ne_of {α : Type} {c : Prop} [Decidable c] {x y r : α} (h1 : c → x ≠ r) (h2 : ¬ c → y ≠ r) :
    (if c then x else y) ≠ r := by
  by_cases h : c
  · rw [if_pos h]
    exact h1 h
  · rw [if_neg h]
    exact h2 h

/-- The nine configuration registers stand at 0000h to 0008h. -/
theorem registerAt_config {a : BitVec 16} (h : a.toNat ≤ 0x0008) : registerAt a = .config a.toNat := by
  simp [registerAt, h]

/-- No configuration register stands above 0008h. -/
theorem registerAt_ne_config {a : BitVec 16} (h : 0x0008 < a.toNat) (i : Nat) : registerAt a ≠ .config i := by
  unfold registerAt
  generalize a.toNat = n at h
  dsimp only
  repeat refine ite_ne_of (fun _ => by first | omega | nofun) (fun _ => ?_)
  nofun

/-- The command register stands at 0010h alone. -/
theorem registerAt_ne_command {a : BitVec 16} (h : a.toNat ≠ 0x0010) : registerAt a ≠ .command := by
  unfold registerAt
  generalize a.toNat = n at h
  dsimp only
  repeat refine ite_ne_of (fun _ => by first | omega | nofun) (fun _ => ?_)
  nofun

/-- The cause register stands at 0018h alone. -/
theorem registerAt_ne_causes {a : BitVec 16} (h : a.toNat ≠ 0x0018) : registerAt a ≠ .causes := by
  unfold registerAt
  generalize a.toNat = n at h
  dsimp only
  repeat refine ite_ne_of (fun _ => by first | omega | nofun) (fun _ => ?_)
  nofun

/-- An address between two ranges of the window is listed nowhere. -/
theorem registerAt_unlisted {a : BitVec 16} (h8 : 0x0008 < a.toNat) (h10 : a.toNat < 0x0010 ∨ 0x0013 < a.toNat)
    (h18 : a.toNat ≠ 0x0018) (h20 : a.toNat < 0x0020 ∨ 0x002A < a.toNat) (h30 : a.toNat < 0x0030 ∨ 0x0036 < a.toNat)
    (hA : a.toNat < 0x0101 ∨ 0x013F < a.toNat) (hB : a.toNat < 0x0141 ∨ 0x017F < a.toNat) : registerAt a = .unlisted := by
  unfold registerAt
  generalize a.toNat = n at *
  dsimp only
  repeat rw [if_neg (by omega)]

/-- Word A of tag `t` stands at 0100h + t. -/
theorem registerAt_tagAddrA : ∀ t : Tag, t ≠ 0 → registerAt (tagAddrA t) = .tagA t.toNat := by decide +kernel

/-- Word B of tag `t` stands at 0140h + t. -/
theorem registerAt_tagAddrB : ∀ t : Tag, t ≠ 0 → registerAt (tagAddrB t) = .tagB t.toNat := by decide +kernel

/-- The low word of the log base replaces the low 32 bits. -/
theorem setConfig_baseLow (c : Settings) (v : Word32) :
    setConfig c 0 v = some { c with logBase := (c.logBase.extractLsb' 32 8) ++ v } := by
  have h : BitVec.ofNat 40 (c.logBase.toNat / 2 ^ 32 * 2 ^ 32 + v.toNat) = (c.logBase.extractLsb' 32 8) ++ v := by
    apply BitVec.eq_of_toNat_eq
    have hv := v.isLt
    have hb := c.logBase.isLt
    rw [BitVec.toNat_ofNat, BitVec.toNat_append, BitVec.extractLsb'_toNat, Nat.shiftRight_eq_div_pow,
      ← Nat.shiftLeft_add_eq_or_of_lt hv, Nat.shiftLeft_eq]
    omega
  rw [← h]
  rfl

/-- The high word of the log base replaces the high 8 bits, when it is at most 255. -/
theorem setConfig_baseHigh (c : Settings) (v : Word32) (h : v.toNat ≤ 255) :
    setConfig c 1 v = some { c with logBase := (v.extractLsb' 0 8) ++ (c.logBase.extractLsb' 0 32) } := by
  have e : BitVec.ofNat 40 (v.toNat * 2 ^ 32 + c.logBase.toNat % 2 ^ 32) =
      (v.extractLsb' 0 8) ++ (c.logBase.extractLsb' 0 32) := by
    apply BitVec.eq_of_toNat_eq
    have hb := c.logBase.isLt
    have hl : (c.logBase.extractLsb' 0 32).toNat < 2 ^ 32 := BitVec.isLt _
    rw [BitVec.toNat_ofNat, BitVec.toNat_append, ← Nat.shiftLeft_add_eq_or_of_lt hl, BitVec.extractLsb'_toNat,
      BitVec.extractLsb'_toNat, Nat.shiftLeft_eq, Nat.shiftRight_zero, Nat.shiftRight_zero]
    omega
  rw [← e]
  exact if_pos h

/-! ## Frames as bits (R179) -/

/-- A frame of 56 bits or more with command byte C1h is a whole read, whatever follows the 56th bit. -/
theorem takeFrame_whole_read {n : Nat} (h : 56 ≤ n) (a : BitVec 16) (v : Word32) : takeFrame 0xC1 a v n = readWhole a := by
  funext s
  simp [takeFrame, Nat.not_lt.mpr h]

/-- A frame of 56 bits or more with command byte C2h is a whole write, whatever follows the 56th bit. -/
theorem takeFrame_whole_write {n : Nat} (h : 56 ≤ n) (a : BitVec 16) (v : Word32) : takeFrame 0xC2 a v n = writeWhole a v := by
  funext s
  simp [takeFrame, Nat.not_lt.mpr h]

/-- Word A of the tag that an address names stands at that address. -/
theorem tagAddrA_of {a : BitVec 16} (h : 0x0101 ≤ a.toNat ∧ a.toNat ≤ 0x013F) : tagAddrA (BitVec.ofNat 6 (a.toNat - 0x0100)) = a := by
  apply BitVec.eq_of_toNat_eq
  simp only [tagAddrA, BitVec.toNat_add, BitVec.toNat_setWidth, BitVec.toNat_ofNat]
  omega

/-- Word B of the tag that an address names stands at that address. -/
theorem tagAddrB_of {a : BitVec 16} (h : 0x0141 ≤ a.toNat ∧ a.toNat ≤ 0x017F) : tagAddrB (BitVec.ofNat 6 (a.toNat - 0x0140)) = a := by
  apply BitVec.eq_of_toNat_eq
  simp only [tagAddrB, BitVec.toNat_add, BitVec.toNat_setWidth, BitVec.toNat_ofNat]
  omega

/-- The row of a read frame reads the frame's register. -/
theorem exec_commandOfRead (a : BitVec 16) (s : State) : exec (commandOfRead a) s = live (readWhole a) s := by
  unfold commandOfRead
  dsimp only
  split_ifs with h1 h2 h3 h4
  · rw [show a = 0x0030 from BitVec.eq_of_toNat_eq h1]
    rfl
  · rw [show a = 0x0031 from BitVec.eq_of_toNat_eq h2]
    rfl
  · simp only [exec, execPerTagWordA, tagAddrA_of h3]
    rfl
  · simp only [exec, execPerTagWordB, tagAddrB_of h4]
    rfl
  · rfl

/-- The row of a write frame writes the frame's register. -/
theorem exec_commandOfWrite (a : BitVec 16) (v : Word32) (s : State) :
    exec (commandOfWrite a v) s = live (writeWhole a v) s := by
  unfold commandOfWrite
  split_ifs <;> subst_vars <;> rfl

/-- The command that the bits of a frame spell does what the frame's fields say (R179). -/
theorem exec_commandOfFrame (bits : List Bool) (s : State) : exec (commandOfFrame bits) s =
    live (takeFrame (frameCommand bits) (frameAddress bits) (frameData bits) bits.length) s := by
  unfold commandOfFrame
  split_ifs with h1 h2 h3
  · simp only [exec, execIncompleteFrame, live, takeFrame, h1, if_true]
  · rw [exec_commandOfRead, h2, takeFrame_whole_read (Nat.not_lt.mp h1)]
  · rw [exec_commandOfWrite, h3, takeFrame_whole_write (Nat.not_lt.mp h1)]
  · simp only [exec, execIncompleteFrame, live, takeFrame, h1, h2, h3, if_false]

end Sys2Proof.Machine
end

