-- ==== Sys2Proof/WellFormed.lean ====
section
/-! DEFINITION. Which commands the buses and the SPI port can carry: the operand ranges of R2, R135 and R179.
`exec` is total and needs none of these checks; they are premises for statements that want them. -/

namespace Sys2Proof

/-- A request whose data and mask are as long as its length field says (R2).
The length field itself is not bounded here: R5 answers a length of 0 or above 256 with PROTOCOL. -/
def HostRequest.wf (r : HostRequest) : Bool :=
  (match r.kind with
   | .write => r.data.length == r.length
   | .read => r.data.isEmpty
   | .marker => true) &&
  (match r.mask with
   | some m => r.kind == .marker || m.length == r.length
   | none => true)

/-- An upset names a word of the 8192 segments (R21). -/
def Upset.wf (u : Upset) : Bool := u.word < Config.segments * 8

/-- The operand ranges of each command. -/
def Instr.wf : Instr → Bool
  | .hostRequestAccept r => r.wf
  | .read us => us.all Upset.wf
  | .logRecordHand us => us.all Upset.wf
  | .homeWriteHand us => us.all Upset.wf
  | .memoryResponse _ _ data => data.length ≤ 256
  | .unknownCommandCode code => code != 1 && code != 2 && code != 3
  | .perTagWordA tag => tag != 0
  | .perTagWordB tag => tag != 0
  | .incompleteFrame cmd bits _ => bits < 56 || (cmd != 0xC1 && cmd != 0xC2)
  | .write => true
  | .commit => true
  | .abort => true
  | .foldOver => true
  | .foldUnder => true
  | .responseDelivery => true
  | .stageWaitExpiry => true
  | .loggingStart => true
  | .trailerHand => true
  | .voidTrailerHand => true
  | .anchorWriteRequest => true
  | .applyStart => true
  | .arbiterGrant => true
  | .channelAccept => true
  | .responseTimeout _ => true
  | .format => true
  | .recover => true
  | .restart => true
  | .quiesceDiscard => true
  | .replayWriteHand => true
  | .endingComplete => true
  | .pfwNFall => true
  | .pfwNRise => true
  | .pfwNAssertion => true
  | .safe => true
  | .resetNAssert => true
  | .resetNDeassert => true
  | .powerOn => true
  | .statusCapture _ => true
  | .starvationCounterRead _ => true
  | .interruptCauseClear _ => true
  | .registerWrite addr _ => addr != 0x0010 && addr != 0x0018
  | .unknownMarkerCode => true

end Sys2Proof
end

