-- ==== Sys2Proof/Tests/Slice0.lean ====
section
/-! SUPPORT. Tests: the smoke tests of WellFormed, values that spec/ states, one step of the commands on small states, and for every
statement with hypotheses a witness that meets them, at the boundary values of its clauses. -/

namespace Sys2Proof.Tests

open Sys2Proof.Machine

-- Each theorem below is one small kernel evaluation; without this, Lean starts a thread for each.
set_option Elab.async false

/-! ## Helpers -/

/-- A READ of tag `t`. -/
def rd (t : Tag) (a : Addr) (len : Nat) : HostRequest := ⟨.read, 7, t, a, len, none, [], .commit, 0⟩

/-- A WRITE of tag `t` without a mask, every byte 5Ah. -/
def wr (t : Tag) (a : Addr) (len : Nat) : HostRequest := ⟨.write, 7, t, a, len, none, List.replicate len 0x5A, .commit, 0⟩

/-- A MARKER. -/
def mk (code : MarkerCode) (t target : Tag) : HostRequest := ⟨.marker, 7, t, 0, 0, none, [], code, target⟩

/-- The reset state in another path state, with small pools. -/
def base (p : PathState) : State :=
  { State.reset with ss := ⟨[10, 11], [20, 21, 22], [], [], [], none, 0, 0, 0, 0⟩, cc := { CommitControl.reset with path := p } }

/-- `base` with a request at the head of the intake queue. -/
def taking (p : PathState) (r : HostRequest) : State := (base p).withHp { HostPort.reset with intake := [r] }

/-- An OPEN context. -/
def opened (ws : List Nat) (count units : Nat) : Context := ⟨.opened, ws, count, 8, units, none⟩

/-- A held descriptor of `len` bytes at `a` in segment 30. -/
def desc (a : Addr) (len : Nat) : Descriptor := ⟨a, len, none, [30], some 9⟩

/-- A commit record with one descriptor. -/
def record (n : CommitNumber) (d : Nat) (st : RecordState) : CommitRecord := ⟨n, 9, [d], 1, 4, some ⟨0, 4⟩, st, none⟩

/-- `base` with descriptor 5 (8 bytes at 1000h) in the one commit record, in state `st`. -/
def holding (p : PathState) (st : RecordState) : State :=
  let s := base p
  (s.withSs { s.ss with descs := [(5, desc 0x1000 8)] }).withCc { s.cc with queue := [record 0 5 st], next := 1 }

/-- A state with other requests at the intake queue. -/
def withIntake (s : State) (rs : List HostRequest) : State := s.withHp { s.hp with intake := rs }

/-- A piece of 8 bytes. -/
def piece (o : Owner) (k : MemKind) : Piece := ⟨o, k, 0x1000, 8, none, [], 0⟩

/-- A state with entry 3 as given. -/
def withEntry (s : State) (e : Entry) : State := s.withMp { s.mp with entries := s.mp.entries.set 3 e }

/-- A state whose port is held by `r` on `c`. -/
def held (c : HoldCondition) (r : HostRequest) (s : State) : State :=
  s.withHp { s.hp with intake := [r], hold := some c, reserved := s.hp.reserved + 1 }

/-- `HoldSound` as a check that can be evaluated. -/
def holdCheck (s : State) : Bool := match s.hp.hold with
  | none => true
  | some c => (s.hp.intake.head?.any fun r => !protocolError s.hp.inflight r && holdsRightly c r) &&
      s.cc.path != .draining && s.cc.path != .safe

theorem holdSound_of {s : State} (h : holdCheck s = true) : HoldSound s := by
  unfold holdCheck at h
  split at h
  · next e => exact ⟨fun c hc => by simp [e] at hc, fun _ => e⟩
  · next c e =>
      simp only [Bool.and_eq_true, Option.any_eq_true, bne_iff_ne, Bool.not_eq_true'] at h
      obtain ⟨⟨⟨r, hr, hp, hh⟩, hd⟩, hs⟩ := h
      exact ⟨fun c' hc => ⟨r, hr, hp, by rw [e] at hc; cases hc; exact hh⟩, fun hp => absurd hp (by simp [hd, hs])⟩

/-- An ERR and the expiry of its timer both fail the attempt in entry 3. -/
theorem attempt_fails (v : BitVec 16) :
    AttemptFails (.memoryResponse 3 .err []) 3 (some v) ∧ AttemptFails (.responseTimeout 3) 3 (some v) :=
  ⟨.inl ⟨[], rfl⟩, .inr ⟨rfl, nofun⟩⟩

/-- Both fail its piece for good at the retry limit, and when its request has been withdrawn. -/
theorem entry_fails {s : State} {p : Piece} {v : BitVec 16} {w : Bool}
    (h : s.mp.entries.getD (3 : MemId).toNat .free = .issued p (some v) w) (hr : s.mg.cfg.retryLimit ≤ p.retry ∨ w = true) :
    FailsForGood (.memoryResponse 3 .err []) 3 s p ∧ FailsForGood (.responseTimeout 3) 3 s p :=
  ⟨⟨_, w, h, (attempt_fails v).1, hr⟩, ⟨_, w, h, (attempt_fails v).2, hr⟩⟩

/-- A state in another path state. -/
def inPath (p : PathState) (s : State) : State := s.withCc { s.cc with path := p }

/-- A state under quiesce. -/
def quiescing (s : State) : State := s.withCc { s.cc with path := .stopped, quiesce := some .restart }

/-- The state after a command. -/
def after (c : Instr) (s : State) : State := match exec c s with | .next t => t | .fault _ => s | .refused _ => s

/-- What HP has answered after a command. -/
def answers (c : Instr) (s : State) : List Answer := (after c s).hp.responses.map Response.answer

/-! ## WellFormed: one ill-formed command for each check -/

theorem test_wf_data : (Instr.hostRequestAccept { wr 1 0 4 with data := [] }).wf = false := by decide
theorem test_wf_mask : (Instr.hostRequestAccept { wr 1 0 4 with mask := some [true] }).wf = false := by decide
theorem test_wf_read_data : (Instr.hostRequestAccept { rd 1 0 4 with data := [0] }).wf = false := by decide
theorem test_wf_good : (Instr.hostRequestAccept (wr 1 0 4)).wf = true := by decide
theorem test_wf_upset_read : (Instr.read [⟨65536, 0⟩]).wf = false := by decide
theorem test_wf_upset_log : (Instr.logRecordHand [⟨65536, 0⟩]).wf = false := by decide
theorem test_wf_upset_home : (Instr.homeWriteHand [⟨65536, 0⟩]).wf = false := by decide
theorem test_wf_upset_last : (Instr.read [⟨65535, 71⟩]).wf = true := by decide
theorem test_wf_response : (Instr.memoryResponse 0 .ok (List.replicate 257 0)).wf = false := by decide +kernel
theorem test_wf_code : (Instr.unknownCommandCode 3).wf = false := by decide
theorem test_wf_tag_a : (Instr.perTagWordA 0).wf = false := by decide
theorem test_wf_tag_b : (Instr.perTagWordB 0).wf = false := by decide
theorem test_wf_frame : (Instr.incompleteFrame 0xC1 56 0).wf = false := by decide
theorem test_wf_register_command : (Instr.registerWrite 0x0010 0).wf = false := by decide
theorem test_wf_register_cause : (Instr.registerWrite 0x0018 0).wf = false := by decide

/-- No row of the table has bits (log 24). -/
theorem test_decode_none : decodeTableWord 32 0x12345678 = none := rfl

/-! ## Values that the spec states -/

/-- The check value of the CRC-32 (R81): the nine characters 1 to 9 give CBF43926h. -/
theorem test_crc_check_value : crc32 [0x31, 0x32, 0x33, 0x34, 0x35, 0x36, 0x37, 0x38, 0x39] = 0xCBF43926#32 := by decide +kernel

/-- A ring of exponent 16 has 2040 units (R76). -/
theorem test_ring_units : ringUnits 16 = 2040 := by decide

/-- A masked write of 256 bytes takes 10 units, the largest data record (R84). -/
theorem test_largest_record : dataUnits 256 true = 10 := by decide

/-- 256 bytes that begin off a boundary of 64 make five pieces (R137). -/
theorem test_five_pieces : splitRanges 64 0x1001 256 = [(0, 63), (63, 64), (127, 64), (191, 64), (255, 1)] := by decide

/-! ## Witnesses: the step, reset and the lines -/

theorem witness_StepRunsFrontCommand :
    ({ base .run with pending := [.write, .safe] } : State).pending = Instr.write :: [Instr.safe] := rfl

theorem witness_ResetHoldsDeviceOff :
    let s := (base .run).withPf { PowerFail.reset with resetAsserted := true }
    let c := Instr.write
    s.pf.resetAsserted = true ∧ (∀ r, c ≠ .hostRequestAccept r) ∧ c ≠ .pfwNFall ∧ c ≠ .pfwNRise ∧ c ≠ .resetNAssert ∧
      c ≠ .resetNDeassert ∧ c ≠ .powerOn := ⟨rfl, nofun, nofun, nofun, nofun, nofun, nofun⟩

theorem witness_ResetStopsAndStartsTheDevice :
    let hi := (base .run).withPf { PowerFail.reset with resetAsserted := true }
    let lo := (base .run).withPf { PowerFail.reset with resetAsserted := true, pfwLow := true }
    (hi.pf.pfwLow = false ∧ hi.pf.resetAsserted = true) ∧ (lo.pf.pfwLow = true ∧ lo.pf.resetAsserted = true) := by decide

theorem witness_PfwLineMoves : (base .run).pf.pfwLow = false := rfl

/-- PFW_N low and under qualification. -/
def falling (s : State) : State := s.withPf { PowerFail.reset with pfwLow := true, qualifying := true }

/-- The hypotheses of PfwAssertionDrains but for ShapeSound. -/
abbrev fallsDue (s : State) : Prop :=
  Live s ∧ s.pf.qualifying = true ∧ s.cc.path ≠ .draining ∧ s.cc.path ≠ .safe ∧ holdCheck s = true

/-- Two pass-through requests, one with a READY and an ISSUED piece and one READY alone, and a write in stage wait. -/
def crowded : State :=
  let pieces : List PassPiece := [⟨0, 8, .ready⟩, ⟨8, 8, .issued⟩]
  let s := held .stageWait (wr 5 0x3000 8) (falling (holding .run .queued))
  let two : List (Option PassRecord) :=
    [some ⟨1, .write, 0x2000, 16, pieces, []⟩, some ⟨2, .write, 0x2100, 8, [⟨0, 8, .ready⟩], []⟩]
  (s.withMp { s.mp with records := two ++ s.mp.records.drop 2 }).withSs { s.ss with timer := some 100 }

theorem crowded_shapes : ShapeSound crowded where
  buffer := by decide +kernel
  slots8 := by decide +kernel
  records16 := by decide +kernel
  contexts63 := by decide +kernel
  intake16 := by decide +kernel
  settings := by decide +kernel

theorem witness_PfwAssertionDrains : fallsDue crowded ∧ HoldSound crowded ∧ ShapeSound crowded ∧
    crowded.hp.hold = some .stageWait ∧ crowded.cc.status ≠ .busy ∧ (loggingRecord crowded.cc).isNone = true :=
  ⟨by decide +kernel, holdSound_of (by decide +kernel), crowded_shapes, rfl, by decide, by decide +kernel⟩

theorem witness_PfwAssertionDrains_busy :
    let s := falling (base .formatting)
    let t := s.withCc { s.cc with status := .busy, command := some .format }
    fallsDue t ∧ HoldSound t ∧ ShapeSound t ∧ t.cc.status = .busy :=
  ⟨by decide +kernel, holdSound_of (by decide +kernel),
    ⟨by decide +kernel, by decide +kernel, by decide +kernel, by decide +kernel, by decide +kernel, by decide +kernel⟩, rfl⟩

/-! ## Witnesses: the host port -/

theorem witness_HostRequestIsAccepted :
    let s15 := withIntake (base .run) (List.replicate 15 (rd 0 0 8))
    let s16 := withIntake (base .run) (List.replicate 16 (rd 0 0 8))
    (Live s15 ∧ s15.hp.intake.length < 16 ∧ s15.hp.channel = []) ∧ (Live s16 ∧ s16.hp.intake.length = 16) := by decide

theorem witness_ResponseIsDelivered :
    let s := (base .run).withHp { HostPort.reset with responses := [⟨1, .ok, []⟩, ⟨2, .power, []⟩] }
    Live s ∧ s.hp.responses = ⟨1, .ok, []⟩ :: [⟨2, .power, []⟩] := by decide

theorem witness_PowerAndProtocolAnswers :
    Takes (.read []) (taking .draining (rd 0 0 8)) (rd 0 0 8) ∧ Takes .write (taking .safe (wr 1 0 8)) (wr 1 0 8) ∧
    (Takes (.read []) (taking .run (rd 0 0 0)) (rd 0 0 0) ∧ protocolError [] (rd 0 0 0) = true) ∧
    (Takes (.read []) (taking .run (rd 0 0 257)) (rd 0 0 257) ∧ protocolError [] (rd 0 0 257) = true) ∧
    (Takes .write (taking .stopped (wr 1 4095 2)) (wr 1 4095 2) ∧ protocolError [] (wr 1 4095 2) = true) ∧
    Takes .unknownMarkerCode (taking .unconfigured (mk (.unknown 9) 1 0)) (mk (.unknown 9) 1 0) := by decide +kernel

theorem witness_PassThroughIsDispatched :
    let cond := fun (c : Instr) (s : State) (r : HostRequest) => TakesSound c s r ∧
      ((r.kind = .read ∧ (ctxOf s r.tag).state ≠ .opened) ∨ (r.kind = .write ∧ r.tag = 0)) ∧
      overlapsSide (fun st => loggingSide st || homeSide st) s r.addr.toNat r.length = false ∧ firstAbsent s.mp.records = some 0
    cond (.read []) (taking .run (rd 0 0 256)) (rd 0 0 256) ∧ cond (.read []) (taking .unconfigured (rd 63 4095 1)) (rd 63 4095 1) ∧
    cond .write (withIntake (holding .run .queued) [wr 0 0x1008 8]) (wr 0 0x1008 8) ∧
    cond .write (withIntake (holding .stopped .voided) [wr 0 0x1000 8]) (wr 0 0x1000 8) := by decide +kernel

/-- A read of the OPEN tag 5 whose group holds descriptor 5, with the segment's word 240 as it stands or with two changed bits. -/
def overlayState (flips : List (Nat × Nat)) : State :=
  let s := setCtx 5 (opened [5] 1 4) (taking .run (rd 5 0x1004 8))
  s.withSs { s.ss with descs := [(5, desc 0x1000 8)], cells := [(1924, 0x77)], flips := flips }

theorem witness_OpenTagReadTakesMergeSlot :
    let cond := fun (s : State) (r : HostRequest) => TakesSound (.read []) s r ∧ s.gt.ctxs.length = 63 ∧
      (ctxOf s r.tag).state = .opened ∧
      overlapsSide (fun st => loggingSide st || homeSide st) s r.addr.toNat r.length = false ∧
      firstAbsent s.hp.slots = some 0 ∧ firstAbsent s.mp.records = some 0
    let walk := fun (s : State) => (overlayWalk 0x1004 8 [5] (List.replicate 8 none) (reservePlace (applyUpsets [] s))).1
    cond (overlayState []) (rd 5 0x1004 8) ∧
      walk (overlayState []) = some [some 0x77, some 0, some 0, some 0, none, none, none, none] ∧
    cond (overlayState [(240, 1), (240, 2)]) (rd 5 0x1004 8) ∧ walk (overlayState [(240, 1), (240, 2)]) = none := by decide +kernel

/-- `overlayState` with a second write of the group over bytes 1004h to 1007h, whose mask selects byte 1005h alone. -/
def twoWriters : State :=
  let s := overlayState []
  let d : Descriptor := ⟨0x1004, 4, some [false, true, false, false], [31], none⟩
  s.withSs { s.ss with descs := [(5, desc 0x1000 8), (6, d)], cells := [(1924, 0x77), (1985, 0x66)] }

theorem witness_OverlayHoldsLastWriter :
    ∃ t, overlayWalk 0x1004 8 [5, 6] (List.replicate 8 none) twoWriters =
      (some [some 0x77, some 0x66, some 0, some 0, none, none, none, none], t) :=
  have h : (overlayWalk 0x1004 8 [5, 6] (List.replicate 8 none) twoWriters).1 =
    some [some 0x77, some 0x66, some 0, some 0, none, none, none, none] := by decide +kernel
  ⟨_, Prod.ext h rfl⟩

theorem witness_HazardOverlapHoldsOrBlocks :
    let cond := fun (c : Instr) (s : State) (r : HostRequest) => TakesSound c s r ∧
      (r.kind = .read ∨ (r.kind = .write ∧ r.tag = 0)) ∧
      overlapsSide (fun st => loggingSide st || homeSide st) s r.addr.toNat r.length = true
    let blocked := withIntake (holding .stopped .durable) [rd 0 0x1007 8]
    cond (.read []) (withIntake (holding .run .queued) [rd 3 0x1000 1]) (rd 3 0x1000 1) ∧
    cond .write (withIntake (holding .run .logging) [wr 0 0x1007 1]) (wr 0 0x1007 1) ∧
    cond (.read []) (blocked.withCc { blocked.cc with stopApply := true }) (rd 0 0x1007 8) := by decide +kernel

/-- The two other holds: all merge slots or all request records in use, for requests just clear of the hazard set. -/
theorem witness_HazardOverlapHoldsOrBlocks_full :
    let cond := fun (c : Instr) (s : State) (r : HostRequest) => TakesSound c s r ∧
      overlapsSide (fun st => loggingSide st || homeSide st) s r.addr.toNat r.length = false
    let own := fun (s : State) (r : HostRequest) => r.kind = .read ∧ (ctxOf s r.tag).state = .opened
    let slots := List.replicate 8 (some (⟨1, 0, 1, []⟩ : MergeSlot))
    let s0 := setCtx 5 (opened [6] 1 4) (withIntake (holding .run .durable) [rd 5 0x1008 8])
    let noSlot := s0.withHp { s0.hp with slots := slots }
    let full := fun (r : HostRequest) => let s := withIntake s0 [r]
      s.withMp { s.mp with records := List.replicate 16 (some ⟨1, .read, 0, 1, [⟨0, 1, .issued⟩], [none]⟩) }
    (cond (.read []) noSlot (rd 5 0x1008 8) ∧ own noSlot (rd 5 0x1008 8) ∧ firstAbsent noSlot.hp.slots = none) ∧
    (cond (.read []) (full (rd 5 0x1008 8)) (rd 5 0x1008 8) ∧ own (full (rd 5 0x1008 8)) (rd 5 0x1008 8) ∧
      firstAbsent (full (rd 5 0x1008 8)).hp.slots ≠ none ∧ firstAbsent (full (rd 5 0x1008 8)).mp.records = none) ∧
    (cond .write (full (wr 0 0x0FF8 8)) (wr 0 0x0FF8 8) ∧ ¬ own (full (wr 0 0x0FF8 8)) (wr 0 0x0FF8 8) ∧
      firstAbsent (full (wr 0 0x0FF8 8)).mp.records = none) := by decide +kernel

/-! ## Witnesses: staging and groups -/

/-- A tagged write of tag 5 in RUN, with tag 5's context. -/
def staging (len : Nat) (c : Context) : State := setCtx 5 c (taking .run (wr 5 0x1000 len))

/-- `staging` with no free descriptor and a stage-wait limit. -/
def starved (limit : BitVec 16) (c : Context) : State :=
  let s := staging 8 c
  (s.withSs { s.ss with descPool := [] }).withMg { s.mg with cfg := { s.mg.cfg with stageWait := limit } }

theorem witness_TaggedWriteIsStaged :
    let cond := fun (s : State) (r : HostRequest) => TakesSound .write s r ∧ s.cc.path = .run ∧ r.tag ≠ 0 ∧
      s.gt.ctxs.length = 63 ∧ (ctxOf s r.tag).state ≠ .faulted ∧
      ((ctxOf s r.tag).state = .opened → (ctxOf s r.tag).count < 1024) ∧ s.ss.descPool ≠ [] ∧
      needSegs r.length ≤ s.ss.segPool.length
    cond (staging 192 Context.idle) (wr 5 0x1000 192) ∧ cond (staging 1 (opened [7] 1023 2048)) (wr 5 0x1000 1) := by
  decide +kernel

theorem witness_SegmentsHoldTheData :
    let ss := (staging 65 Context.idle).ss
    let segs := ss.segPool.take (needSegs (wr 5 0x1000 65).length)
    cellsWf ss.cells = true ∧ ss.segPool.Nodup ∧ segs[0]? = some ((64 * 20) / 64) ∧ segs[1]? = some ((64 * 21 + 63) / 64) ∧
      (64 * 22) / 64 ∉ segs ∧ (8 * 21 + 7) / 8 ∈ segs := by decide +kernel

/-- Words with no, one and two changed bits, and read-outs with one corrected word and with one of each. -/
theorem witness_SegmentsHoldTheData_words :
    let changed := fun (ss : Staging) (w : Nat) => (ss.flips.filter fun f => f.1 == w).length
    let s := (base .run).withSs { (base .run).ss with flips := [(240, 71), (241, 0), (241, 71)] }
    (changed s.ss 239 = 0 ∧ changed s.ss 240 = 1 ∧ changed s.ss 241 = 2) ∧
    ((readDescriptor (desc 0x1000 8) s).1 = .corrected ∧ (readDescriptor (desc 0x1000 9) s).1 = .uncorrectable) := by
  decide +kernel

/-- The hypotheses of UnstagedWriteOutcomes, in RUN. -/
abbrev taggedTaken (s : State) (r : HostRequest) : Prop :=
  TakesSound .write s r ∧ s.cc.path = .run ∧ r.tag ≠ 0 ∧ s.gt.ctxs.length = 63

/-- Outside RUN a tagged write meets the first clause. -/
theorem witness_UnstagedWriteOutcomes_nolog :
    let cond := fun (p : PathState) => let s := taking p (wr 63 0x1000 8)
      TakesSound .write s (wr 63 0x1000 8) ∧ (63 : Tag) ≠ 0 ∧ s.gt.ctxs.length = 63 ∧ s.cc.path ≠ .run
    cond .unconfigured ∧ cond .stopped := by decide +kernel

/-- The hypotheses of its last clause. -/
abbrev taggedShort (s : State) (r : HostRequest) : Prop :=
  (ctxOf s r.tag).state ≠ .faulted ∧ ((ctxOf s r.tag).state = .opened → (ctxOf s r.tag).count < 1024) ∧
    (s.ss.descPool = [] ∨ s.ss.segPool.length < needSegs r.length)

theorem witness_UnstagedWriteOutcomes :
    (taggedTaken (staging 8 (Context.faulted .fold)) (wr 5 0x1000 8) ∧
      (ctxOf (staging 8 (Context.faulted .fold)) 5).state = .faulted) ∧
    (taggedTaken (staging 8 (opened [7] 1024 2050)) (wr 5 0x1000 8) ∧ 1024 ≤ (ctxOf (staging 8 (opened [7] 1024 2050)) 5).count) ∧
    (taggedTaken (staging 193 (opened [7] 1023 2048)) (wr 5 0x1000 193) ∧ taggedShort (staging 193 (opened [7] 1023 2048)) (wr 5 0x1000 193)) ∧
    (taggedTaken (starved 100 Context.idle) (wr 5 0x1000 8) ∧ taggedShort (starved 100 Context.idle) (wr 5 0x1000 8) ∧
      (starved 100 Context.idle).mg.cfg.stageWait ≠ 0) ∧
    (taggedTaken (starved 0 Context.idle) (wr 5 0x1000 8) ∧ taggedShort (starved 0 Context.idle) (wr 5 0x1000 8) ∧
      (starved 0 Context.idle).mg.cfg.stageWait = 0) := by
  refine ⟨?_, ?_, ?_, ?_, ?_⟩ <;> decide +kernel

theorem witness_StageWaitExpires :
    let s0 := starved 100 (opened [7] 1 4)
    let s := s0.withHp { s0.hp with hold := some .stageWait, reserved := 1 }
    let r := wr 5 0x1000 8
    Live s ∧ s.hp.hold = some .stageWait ∧ s.hp.intake.head? = some r ∧ r.tag ≠ 0 ∧ s.gt.ctxs.length = 63 := by decide +kernel

theorem witness_AbortFreesTheTag :
    let r := mk .abort 63 0
    let cond := fun (p : PathState) => Takes .abort (taking p r) r ∧ (taking p r).gt.ctxs.length = 63 ∧
      (taking p r).cc.path = p ∧ protocolError (taking p r).hp.inflight r = false
    cond .draining ∧ cond .safe ∧ cond .unconfigured ∧ cond .run ∧ cond .stopped := by decide +kernel

/-- A FOLD of tag 1 into tag 63 in RUN, with the two contexts. -/
def folding (code : MarkerCode) (a b : Context) : State := setCtx 1 a (setCtx 63 b (taking .run (mk code 1 63)))

/-- The hypotheses of FoldJoinsTwoGroups, in RUN. -/
abbrev foldTaken (c : Instr) (s : State) (r : HostRequest) : Prop :=
  (c = .foldOver ∨ c = .foldUnder) ∧ TakesSound c s r ∧ s.cc.path = .run ∧ s.gt.ctxs.length = 63

/-- The source and the target of `folding` both OPEN with `n` writes together. -/
abbrev openPair (s : State) (n : Nat) : Prop :=
  (ctxOf s 1).state = .opened ∧ (ctxOf s 63).state ≠ .faulted ∧ (ctxOf s 1).count + (ctxOf s 63).count = n

theorem witness_FoldJoinsTwoGroups :
    (foldTaken .foldOver (folding .foldOver (opened [7] 1 4) (opened [8] 1023 4000)) (mk .foldOver 1 63) ∧
      openPair (folding .foldOver (opened [7] 1 4) (opened [8] 1023 4000)) 1024) ∧
    (foldTaken .foldUnder (folding .foldUnder (opened [7] 2 6) (opened [8] 1023 4000)) (mk .foldUnder 1 63) ∧
      openPair (folding .foldUnder (opened [7] 2 6) (opened [8] 1023 4000)) 1025) ∧
    (foldTaken .foldUnder (folding .foldUnder Context.idle (Context.faulted .overflow)) (mk .foldUnder 1 63) ∧
      (ctxOf (folding .foldUnder Context.idle (Context.faulted .overflow)) 1).state = .idle) ∧
    (foldTaken .foldOver (folding .foldOver (opened [7] 1 4) (Context.faulted .stopped)) (mk .foldOver 1 63) ∧
      (ctxOf (folding .foldOver (opened [7] 1 4) (Context.faulted .stopped)) 63).state = .faulted) ∧
    (foldTaken .foldUnder (folding .foldUnder (Context.faulted .integrity) (opened [8] 1 4)) (mk .foldUnder 1 63) ∧
      (ctxOf (folding .foldUnder (Context.faulted .integrity) (opened [8] 1 4)) 1).state = .faulted) := by
  refine ⟨?_, ?_, ?_, ?_, ?_⟩ <;> decide +kernel

theorem witness_FoldJoinsTwoGroups_stopped :
    let cond := fun (c : Instr) (code : MarkerCode) (p : PathState) => let s := taking p (mk code 1 63)
      (c = .foldOver ∨ c = .foldUnder) ∧ TakesSound c s (mk code 1 63) ∧ s.gt.ctxs.length = 63 ∧ s.cc.path = p
    cond .foldOver .foldOver .unconfigured ∧ cond .foldUnder .foldUnder .stopped := by decide +kernel

/-! ## Witnesses: COMMIT -/

/-- A COMMIT of tag 5 with a context, over a commit queue of `n` records. -/
def committing (p : PathState) (c : Context) (n : Nat) : State :=
  let s := setCtx 5 c (taking p (mk .commit 5 0))
  s.withCc { s.cc with queue := (List.range n).map fun i => ⟨BitVec.ofNat 32 i, 9, [], 1, 4, none, .queued, none⟩, next := BitVec.ofNat 32 n }

/-- The hypotheses of CommitChecksInOrder. -/
abbrev commitTaken (s : State) : Prop := TakesSound .commit s (mk .commit 5 0) ∧ s.gt.ctxs.length = 63

/-- The group of tag 5 has the largest number of units that R60 lets pass. -/
abbrev largest (s : State) : Prop := (ctxOf s 5).units = ringU s / 2 ∧ (ctxOf s 5).state = .opened

theorem witness_CommitChecksInOrder :
    commitTaken (committing .unconfigured Context.idle 0) ∧ commitTaken (committing .stopped (Context.faulted .stopped) 1) ∧
    commitTaken (committing .run Context.idle 0) ∧ commitTaken (committing .run (Context.faulted .overflow) 0) ∧
    (commitTaken (committing .run (opened [7] 1 1021) 0) ∧ ringU (committing .run (opened [7] 1 1021) 0) / 2 = 1020) ∧
    (commitTaken (committing .run (opened [7] 1 1020) 32) ∧ largest (committing .run (opened [7] 1 1020) 32) ∧
      (committing .run (opened [7] 1 1020) 32).cc.queue.length = 32) ∧
    (commitTaken (committing .run (opened [7] 1 1020) 31) ∧ largest (committing .run (opened [7] 1 1020) 31) ∧
      (committing .run (opened [7] 1 1020) 31).cc.queue.length = 31) := by
  refine ⟨?_, ?_, ?_, ?_, ?_, ?_, ?_⟩ <;> decide +kernel

/-! ## Witnesses: the engines -/

/-- RUN with a QUEUED record of `units` units and no span, the log head and the used units as given. -/
def queued (units head used : Nat) : State :=
  let s := holding .run .queued
  (s.withCc { s.cc with queue := [⟨0, 9, [5], 1, units, none, .queued, none⟩] }).withLe { s.le with head := head, used := used }

/-- The hypotheses of LoggingStartPlacesTheSpan. -/
abbrev mayLog (s : State) : Prop :=
  Live s ∧ s.cc.path = .run ∧ s.cc.quiesce = none ∧ loggingRecord s.cc = none ∧ (oldestQueued s.cc).isSome = true

/-- A group of 4 units at head 2036 just fits; at 2037 it takes a pad of 3 units; its span has just room. -/
theorem witness_LoggingStartPlacesTheSpan :
    (mayLog (queued 4 2036 2036) ∧ ¬ ringU (queued 4 2036 2036) - 2036 < 4 ∧ 4 = ringU (queued 4 2036 2036) - 2036) ∧
    (mayLog (queued 4 2037 2033) ∧ ringU (queued 4 2037 2033) - 2037 < 4 ∧ 3 + 4 = ringU (queued 4 2037 2033) - 2033) := by
  decide +kernel

/-- The LOGGING group of descriptor 5 with LE's progress as given, and two changed bits in the segment's first word if asked. -/
def logging (next : LogNext) (void bad : Bool) (unacked : Nat) : State :=
  let s := holding .run .logging
  (s.withLe { s.le with job := some ⟨0, next, 1, unacked, void, none⟩ }).withSs
    { s.ss with flips := if bad then [(240, 0), (240, 71)] else [] }

/-- The hypotheses of LogRecordIsHanded, but for the next record. -/
abbrev mayHand (s : State) : Prop :=
  Live s ∧ s.le.job.isSome = true ∧ (loggingRecord s.cc).isSome = true ∧ mayContinueGroup s.cc = true ∧
    unissued isGroupOwner s.mp.readyLog = false ∧ (s.le.job.map LogJob.void) = some false

theorem witness_LogRecordIsHanded :
    (mayHand (logging .hdr false false 1) ∧ (logging .hdr false false 1).le.job.map LogJob.next = some .hdr) ∧
    (mayHand (logging (.dat 1) false false 1) ∧ (logging (.dat 1) false false 1).le.job.map LogJob.next = some (.dat 1) ∧
      (readDescriptor (descAt (logging (.dat 1) false false 1) 5) (logging (.dat 1) false false 1)).1 = .clean) ∧
    (mayHand (logging (.dat 1) false true 1) ∧
      (readDescriptor (descAt (logging (.dat 1) false true 1) 5) (logging (.dat 1) false true 1)).1 = .uncorrectable) := by
  decide +kernel

theorem witness_TrailersAreHandedLast :
    let cond := fun (void : Bool) (s : State) => Live s ∧ s.le.job = some ⟨0, .done, 1, 0, void, none⟩ ∧
      (loggingRecord s.cc).isSome = true ∧ mayContinueGroup s.cc = true
    cond false (logging .done false false 0) ∧ cond true (logging .done true false 0) := by decide +kernel

/-- The trailer of the LOGGING record is in flight in entry 3. -/
def trailing (p : PathState) (void : Bool) : State :=
  let s := withEntry (logging .done void false 1) (.issued (piece (.group (.trl void) 0) .write) (some 1000) false)
  (s.withLe { s.le with job := some ⟨0, .done, 1, 1, void, some void⟩ }).withCc
    { s.cc with path := p, stopApply := decide (p = .stopped) }

/-- The hypotheses of TrailersAreHandedLast on the acknowledgement of a trailer. -/
abbrev trailerAnswered (void : Bool) (s : State) : Prop :=
  Live s ∧ (Quiet s ∨ Quiescing s) ∧ holdCheck s = true ∧
    s.mp.entries.getD (3 : MemId).toNat .free = .issued (piece (.group (.trl void) 0) .write) (some 1000) false ∧
    s.le.job.isSome = true ∧ (s.cc.queue.filter fun r => r.state == .logging) = [record 0 5 .logging]

/-- An OK trailer with no hold, one in STOPPED with the APPLY cause and a read on hazard overlap, a VOID trailer, and both trailers in
DRAINING. -/
theorem witness_TrailersAreHandedLast_acknowledged :
    let holds := held .hazardOverlap (rd 0 0x1007 8) (trailing .stopped false)
    (trailerAnswered false (trailing .run false) ∧ (trailing .run false).hp.hold = none) ∧
    (trailerAnswered false holds ∧ HoldSound holds ∧ holds.cc.path = .stopped ∧ holds.cc.stopApply = true ∧
      holds.hp.hold = some .hazardOverlap ∧ onReadPath (rd 0 0x1007 8) = true) ∧
    (trailerAnswered true (trailing .stopped true) ∧ (trailing .stopped true).hp.hold = none) ∧
    (trailerAnswered false (trailing .draining false) ∧ trailerAnswered true (trailing .draining true)) :=
  ⟨by decide +kernel, ⟨by decide +kernel, holdSound_of (by decide +kernel), by decide +kernel, by decide +kernel,
    by decide +kernel, by decide +kernel⟩, by decide +kernel, by decide +kernel⟩

/-- A VOID trailer while a COMMIT of tag 5 holds on a queue of 32 records, whose head the void finishes. -/
def voidingFull : State :=
  let s := held .commitQueueFull (mk .commit 5 0) (setCtx 5 (opened [7] 1 4) (trailing .run true))
  s.withCc { s.cc with
    queue := s.cc.queue ++ (List.range 31).map fun i => ⟨BitVec.ofNat 32 (i + 1), 8, [], 1, 4, none, .queued, none⟩
    next := 32 }

/-- A VOID trailer with a request that holds the port: a read on hazard overlap, one on no free merge slot, a write in stage wait that the
released segment just satisfies or does not, and a COMMIT that the removal lets in. -/
theorem witness_TrailersAreHandedLast_held :
    let starving := fun len =>
      let s := trailing .run true
      held .stageWait (wr 5 0x3000 len) (s.withSs { s.ss with descPool := [], segPool := [] })
    let hazard := held .hazardOverlap (rd 0 0x1000 8) (trailing .run true)
    let slotless := held .noMergeSlot (rd 5 0x1000 8) (trailing .run true)
    (trailerAnswered true hazard ∧ hazard.cc.quiesce = none ∧ needsSlot (rd 0 0x1000 8) hazard = false) ∧
    (trailerAnswered true slotless ∧ slotless.hp.hold = some .noMergeSlot) ∧
    (trailerAnswered true (starving 64) ∧ (starving 64).gt.ctxs.length = 63 ∧
      needSegs 64 ≤ ([5].foldl releaseOne (starving 64).ss).segPool.length) ∧
    (trailerAnswered true (starving 65) ∧ ([5].foldl releaseOne (starving 65).ss).segPool.length < needSegs 65) ∧
    (trailerAnswered true voidingFull ∧ (ctxOf voidingFull 5).state = .opened ∧ voidingFull.cc.queue.length = 32 ∧
      voidingFull.cc.queue.tail.length = 31) := by
  refine ⟨?_, ?_, ?_, ?_, ?_⟩ <;> decide +kernel

/-- Both trailers during quiesce, where the discard step follows, and where an anchor in flight holds it off. -/
theorem witness_TrailersAreHandedLast_quiesce :
    let anchored := fun (s : State) => s.withLe { s.le with anchor := some ⟨0, 12, 3, 4⟩ }
    (trailerAnswered false (quiescing (trailing .stopped false)) ∧ Quiescing (quiescing (trailing .stopped false)) ∧
      (after (.memoryResponse 3 .ok []) (quiescing (trailing .stopped false))).cc.path = .recovering) ∧
    (trailerAnswered true (anchored (quiescing (trailing .stopped true))) ∧
      (after (.memoryResponse 3 .ok []) (anchored (quiescing (trailing .stopped true)))).cc.path = .stopped) := by
  refine ⟨?_, ?_⟩ <;> decide +kernel

/-- A piece of the HDR in flight in entry 3, one of two awaited, in RUN, in DRAINING and during quiesce. -/
theorem witness_TrailersAreHandedLast_piece :
    let hdr := fun (s : State) => withEntry s (.issued (piece (.group .hdr 0) .write) (some 1000) false)
    let cond := fun (s : State) => Live s ∧ (Quiet s ∨ Quiescing s) ∧
      s.mp.entries.getD (3 : MemId).toNat .free = .issued (piece (.group .hdr 0) .write) (some 1000) false ∧
      s.le.job = some ⟨0, .dat 1, 1, 2, false, none⟩
    cond (hdr (logging (.dat 1) false false 2)) ∧ cond (hdr (inPath .draining (logging (.dat 1) false false 2))) ∧
    cond (hdr (quiescing (logging (.dat 1) false false 2))) := by
  refine ⟨?_, ?_, ?_⟩ <;> decide +kernel

/-- A state with `n` reclaimable units and a record QUEUED that finds the ring full. -/
def reclaiming (n : Nat) : State :=
  let s := queued 4 0 2040
  s.withLe { s.le with reclaimable := n }

theorem witness_AnchorWriteIsRequested :
    let cond := fun (s : State) => Live s ∧ s.le.anchor = none ∧ s.cc.quiesce = none ∧
      (quantumUnits s.mg.cfg ≤ s.le.reclaimable ∨ (waitsForSpace s = true ∧ 0 < s.le.reclaimable))
    let stopped := (base .stopped).withLe { LogEngine.reset with reclaimable := 255 }
    (cond (reclaiming 255) ∧ quantumUnits (reclaiming 255).mg.cfg = 255 ∧ (reclaiming 255).cc.path = .run) ∧
    (cond (reclaiming 1) ∧ (reclaiming 1).cc.path = .run) ∧
    (cond stopped ∧ stopped.cc.path = .stopped ∧ stopped.cc.stopLog = false) := by decide +kernel

/-- An anchor write in flight in entry 3, at the retry limit. -/
def anchoring (p : PathState) (stopLog : Bool) : State :=
  let s := withEntry (base p) (.issued { piece .anchor .write with retry := 1 } (some 1000) false)
  (s.withLe { s.le with anchor := some ⟨0, 12, 3, 4⟩, used := 20, reclaimable := 6 }).withCc { s.cc with stopLog := stopLog }

/-- The hypotheses of AnchorAcknowledgementMovesTail on the entry. -/
abbrev anchorInFlight (s : State) : Prop :=
  Live s ∧ s.mp.entries.getD (3 : MemId).toNat .free = .issued { piece .anchor .write with retry := 1 } (some 1000) false ∧
    s.le.anchor = some ⟨0, 12, 3, 4⟩ ∧ s.mg.cfg.retryLimit ≤ 1

/-- RUN and DRAINING for both outcomes, STOPPED with the LOG cause, and quiesce with a record LOGGING and without one. -/
theorem witness_AnchorAcknowledgementMovesTail :
    let logs := quiescing ((anchoring .stopped true).withCc (holding .stopped .logging).cc)
    (anchorInFlight (anchoring .run false) ∧ Quiet (anchoring .run false)) ∧
    (anchorInFlight (anchoring .draining false) ∧ Quiet (anchoring .draining false)) ∧
    (anchorInFlight (anchoring .stopped true) ∧ Quiet (anchoring .stopped true) ∧ (anchoring .stopped true).cc.stopLog = true) ∧
    (anchorInFlight (quiescing (anchoring .stopped false)) ∧ (quiescing (anchoring .stopped false)).re.mode ≠ .ending) ∧
    (anchorInFlight logs ∧ logs.cc.quiesce = some .restart ∧ (loggingRecord logs.cc).isSome = true) ∧
    FailsForGood (.responseTimeout 3) 3 (anchoring .draining false) { piece .anchor .write with retry := 1 } :=
  ⟨by decide +kernel, by decide +kernel, by decide +kernel, by decide +kernel, by decide +kernel, (entry_fails rfl (.inl (by decide))).2⟩

/-- The header of the LOGGING record is in flight in entry 3 at the retry limit; a second record is QUEUED. -/
def failing : State :=
  let s := withEntry (logging (.dat 1) false false 1) (.issued { piece (.group .hdr 0) .write with retry := 1 } (some 1000) false)
  s.withCc { s.cc with queue := s.cc.queue ++ [⟨1, 8, [6], 1, 4, none, .queued, none⟩] }

/-- The hypotheses of LogFailureStopsThePath on a piece of the group. -/
abbrev logFails (s : State) : Prop :=
  Live s ∧ s.re.mode ≠ .ending ∧ holdCheck s = true ∧ s.mg.cfg.retryLimit ≤ 1 ∧
    s.mp.entries.getD (3 : MemId).toNat .free = .issued { piece (.group .hdr 0) .write with retry := 1 } (some 1000) false ∧
    s.le.job = some ⟨0, .dat 1, 1, 1, false, none⟩ ∧
    (s.cc.queue.filter fun r => r.state == .logging) = [record 0 5 .logging]

/-- RUN with each hold, STOPPED with a hold on hazard overlap, quiesce with an anchor in flight, and DRAINING. -/
theorem witness_LogFailureStopsThePath :
    let read := held .hazardOverlap (rd 0 0x1000 8) failing
    (logFails failing ∧ failing.cc.path = .run ∧ failing.cc.quiesce = none ∧ failing.hp.hold = none ∧ failing.cc.stopLog = false) ∧
    logFails (held .stageWait (wr 5 0x3000 8) failing) ∧ logFails (held .commitQueueFull (mk .commit 5 0) failing) ∧ logFails read ∧
    (logFails (inPath .stopped read) ∧ (inPath .stopped read).gt.ctxs.all (fun c => c.state != .opened) = true) ∧
    logFails (quiescing failing) ∧ (logFails (inPath .draining failing) ∧ Quiet (inPath .draining failing)) ∧
    HoldSound (inPath .stopped read) ∧
    FailsForGood (.memoryResponse 3 .err []) 3 failing { piece (.group .hdr 0) .write with retry := 1 } :=
  ⟨by decide +kernel, by decide +kernel, by decide +kernel, by decide +kernel, by decide +kernel, by decide +kernel,
    by decide +kernel, holdSound_of (by decide +kernel), (entry_fails rfl (.inl (by decide))).1⟩

/-- An anchor write that fails: no group, a group whose trailer has been handed, and one that has not reached it. -/
theorem witness_LogFailureStopsThePath_anchor :
    let grouped := fun trailer =>
      let s := (anchoring .run false).withCc (holding .run .logging).cc
      s.withLe { s.le with job := some ⟨0, .done, 1, 1, false, trailer⟩ }
    let cond := fun (s : State) => anchorInFlight s ∧ holdCheck s = true ∧ s.cc.path = .run ∧ s.cc.quiesce = none ∧
      s.re.mode ≠ .ending ∧ s.cc.stopLog = false
    let goesOn := fun (s : State) => s.le.job.all (fun job => job.trailer.isSome)
    (cond (anchoring .run false) ∧ goesOn (anchoring .run false) = true) ∧
    (cond (grouped (some false)) ∧ goesOn (grouped (some false)) = true) ∧
    (cond (grouped none) ∧ goesOn (grouped none) = false ∧
      ((grouped none).cc.queue.filter fun r => r.state == .logging) = [record 0 5 .logging]) := by decide +kernel

theorem witness_ApplyStartsInOrder :
    let s := holding .run .durable
    let stopped := holding .stopped .durable
    let idle := holding .run .queued
    (Live s ∧ startable s.cc = some (record 0 5 .durable) ∧ s.ae.mode = .idle ∧ s.cc.quiesce = none ∧ s.cc.path = .run) ∧
    (Live stopped ∧ startable stopped.cc = some (record 0 5 .durable) ∧ stopped.cc.path = .stopped ∧
      stopped.cc.stopApply = false) ∧
    (Live idle ∧ startable idle.cc = none) := by decide +kernel

/-- AE walking record 0, whose next descriptor is 5; two changed bits in the segment's first word if asked. -/
def walking (bad : Bool) : State :=
  let s := holding .run .applying
  (s.withAe { ApplyEngine.reset with mode := .walking, current := some 0, next := some 5 }).withSs
    { s.ss with flips := if bad then [(240, 0), (240, 71)] else [] }

theorem witness_HomeWriteIsHanded :
    let cond := fun (s : State) => Live s ∧ s.ae.mode = .walking ∧ s.ae.next = some 5 ∧
      currentRecord s = some (record 0 5 .applying) ∧ walkReady s (descAt s 5) = true
    (cond (walking false) ∧ (readDescriptor (descAt (walking false) 5) (walking false)).1 ≠ .uncorrectable) ∧
    (cond (walking true) ∧ (readDescriptor (descAt (walking true) 5) (walking true)).1 = .uncorrectable ∧
      (descAt (walking true) 5).logPos = some 9) := by decide +kernel

/-- The ring copy of descriptor 5 under epoch 0 and commit number 0, as record 1 of its group. -/
def copyBytes : List Byte := datRecord 0 0 1 ⟨0x1000, 8, none, List.replicate 8 0x5A⟩

/-- The fallback read of descriptor 5, in flight in entry 3, with one more piece awaited if asked. -/
def fetching (retry : Nat) (more : Bool) : State :=
  let s := withEntry (walking true)
    (.issued { piece (.fallback 0) .read with length := 64, retry := retry } (some 1000) false)
  s.withAe { s.ae with mode := .fetching, fallback := some ⟨5, 9, if more then [.pending, .pending] else [.pending]⟩ }

/-- The hypotheses of HomeWriteIsHanded on the fallback read. -/
abbrev copyReturns (retry : Nat) (s : State) (data : List Byte) : Prop :=
  Live s ∧ Settled s ∧ holdCheck s = true ∧ s.ae.mode = .fetching ∧ s.mp.entries.getD (3 : MemId).toNat .free =
      .issued { piece (.fallback 0) .read with length := 64, retry := retry } (some 1000) false ∧ 64 = data.length ∧
    s.ae.fallback.isSome = true ∧ currentRecord s = some (record 0 5 .applying) ∧ s.cc.stopApply = false ∧ s.cc.path = .run

theorem witness_HomeWriteIsHanded_fallback :
    let zeros : List Byte := List.replicate 64 0
    copyReturns 0 (fetching 0 true) copyBytes ∧
    (copyReturns 0 (fetching 0 false) copyBytes ∧
      ringCopyChecks 0 0 1 (descAt (fetching 0 false) 5) (piecesData [.done copyBytes]) = true) ∧
    (copyReturns 0 (fetching 0 false) zeros ∧
      ringCopyChecks 0 0 1 (descAt (fetching 0 false) 5) (piecesData [.done zeros]) = false) ∧
    copyReturns 1 (fetching 1 false) copyBytes ∧
    FailsForGood (.responseTimeout 3) 3 (fetching 1 false) { piece (.fallback 0) .read with length := 64, retry := 1 } := by
  refine ⟨?_, ?_, ?_, ?_, (entry_fails rfl (.inl (by decide))).2⟩ <;> decide +kernel

/-- The fallback read in HALTED, in DRAINING and during quiesce: its last piece, and one with another piece awaited. -/
theorem witness_HomeWriteIsHanded_halted :
    let halted := fun more => inPath .draining ((fetching 1 more).withAe { (fetching 1 more).ae with mode := .halted })
    let cond := fun (s : State) => Live s ∧ (Quiet s ∨ Quiescing s) ∧ s.ae.mode = .halted ∧ s.ae.fallback.isSome = true ∧
      s.mp.entries.getD (3 : MemId).toNat .free =
        .issued { piece (.fallback 0) .read with length := 64, retry := 1 } (some 1000) false ∧ 64 = copyBytes.length
    cond (halted false) ∧ cond (halted true) ∧ cond (quiescing (halted false)) ∧ cond (quiescing (halted true)) ∧
    FailsForGood (.memoryResponse 3 .err []) 3 (quiescing (halted true))
      { piece (.fallback 0) .read with length := 64, retry := 1 } :=
  ⟨by decide +kernel, by decide +kernel, by decide +kernel, by decide +kernel, (entry_fails rfl (.inl (by decide))).1⟩

/-- A record APPLYING with descriptors 5 and 6, the home write of 5 in flight in entry 3. -/
def settling : State :=
  let s := walking false
  let p := piece (.home 5 0) .write
  withEntry ((s.withCc { s.cc with queue := [⟨0, 9, [5, 6], 2, 6, some ⟨0, 6⟩, .applying, none⟩] }).withAe
    { s.ae with handed := [⟨5, 0x1000, 8, [.pending]⟩], walk := 2, next := some 6 }) (.issued p (some 1000) false)

/-- `settling` with another list of the record and other marks of the write's pieces. -/
def settlingOn (ws : List Nat) (ms : List PieceMark) (retry : Nat) : State :=
  let s := withEntry settling (.issued { piece (.home 5 0) .write with retry := retry } (some 1000) false)
  (s.withCc { s.cc with queue := [⟨0, 9, ws, 2, 6, some ⟨0, 6⟩, .applying, none⟩] }).withAe
    { s.ae with handed := [⟨5, 0x1000, 8, ms⟩] }

/-- The hypotheses of HomeWriteAckReleasesDescriptor. -/
abbrev homeAnswered (s : State) (ws : List Nat) (ms : List PieceMark) (retry : Nat) : Prop :=
  Live s ∧ (Quiet s ∨ Quiescing s) ∧ holdCheck s = true ∧ (s.cc.path = .run ∨ s.cc.path = .stopped ∨ s.cc.path = .draining) ∧
    s.mp.entries.getD (3 : MemId).toNat .free = .issued { piece (.home 5 0) .write with retry := retry } (some 1000) false ∧
    s.ae.handed.find? (fun h => h.desc == 5) = some ⟨5, 0x1000, 8, ms⟩ ∧
    (currentRecord s).map CommitRecord.writes = some ws ∧ 5 ∈ ws

/-- A piece that is not the last, a write that is not the record's last, the record's last write, and a failure; the last two in
DRAINING and during quiesce too, where AE is HALTED. -/
theorem witness_HomeWriteAckReleasesDescriptor :
    homeAnswered (settlingOn [5, 6] [.pending, .pending] 0) [5, 6] [.pending, .pending] 0 ∧
    (homeAnswered (settlingOn [5, 6] [.pending] 0) [5, 6] [.pending] 0 ∧ ([5, 6] : List Nat).erase 5 ≠ []) ∧
    (homeAnswered (settlingOn [5] [.pending] 0) [5] [.pending] 0 ∧ ([5] : List Nat).erase 5 = []) ∧
    (homeAnswered (settlingOn [5] [.pending] 1) [5] [.pending] 1 ∧ settling.mg.cfg.retryLimit ≤ 1 ∧
      settling.cc.stopApply = false ∧ settling.ae.mode ≠ .halted) ∧
    (let s := inPath .draining (settlingOn [5] [.pending] 1)
     let halted := s.withAe { s.ae with mode := .halted }
     homeAnswered halted [5] [.pending] 1 ∧ halted.ae.mode = .halted ∧ halted.cc.path = .draining ∧
     homeAnswered (quiescing halted) [5] [.pending] 1 ∧ (quiescing halted).cc.quiesce ≠ none) ∧
    FailsForGood (.responseTimeout 3) 3 (settlingOn [5] [.pending] 1) { piece (.home 5 0) .write with retry := 1 } := by
  refine ⟨?_, ?_, ?_, ?_, ?_, (entry_fails rfl (.inl (by decide))).2⟩ <;> decide +kernel

/-- The last write during quiesce with nothing held and with a request on hazard overlap, in stage wait and on a full queue. -/
theorem witness_HomeWriteAckReleasesDescriptor_quiesce :
    let s := settlingOn [5] [.pending] 0
    let last := quiescing (s.withAe { s.ae with mode := .halted })
    let cond := fun (s : State) => homeAnswered s [5] [.pending] 0 ∧ s.ae.mode = .halted ∧ s.cc.quiesce ≠ none
    (cond last ∧ last.hp.hold = none) ∧ cond (held .hazardOverlap (rd 0 0x1000 8) last) ∧
    cond (held .stageWait (wr 5 0x3000 8) last) ∧ cond (held .commitQueueFull (mk .commit 5 0) last) := by
  refine ⟨?_, ?_, ?_, ?_⟩ <;> decide +kernel

/-- The last write of a queue of 32 records whose head it finishes, while a COMMIT of tag 5 holds on the full queue. -/
def fullQueue : State :=
  let s := held .commitQueueFull (mk .commit 5 0) (setCtx 5 (opened [7] 1 4) (settlingOn [5] [.pending] 0))
  s.withCc { s.cc with
    queue := s.cc.queue ++ (List.range 31).map fun i => ⟨BitVec.ofNat 32 (i + 1), 8, [], 1, 4, none, .queued, none⟩
    next := 32 }

/-- The same event with a request that holds the port: a read on hazard overlap, a write in stage wait that the released segment
just satisfies or does not, and a COMMIT that the removal lets in. -/
theorem witness_HomeWriteAckReleasesDescriptor_held :
    let starving := fun len =>
      let s := settlingOn [5] [.pending] 0
      held .stageWait (wr 5 0x3000 len) (s.withSs { s.ss with descPool := [], segPool := [] })
    let hazard := held .hazardOverlap (rd 0 0x1000 8) (settlingOn [5] [.pending] 0)
    (homeAnswered hazard [5] [.pending] 0 ∧ needsSlot (rd 0 0x1000 8) hazard = false) ∧
    (homeAnswered (starving 64) [5] [.pending] 0 ∧ needSegs 64 ≤ (releaseOne (starving 64).ss 5).segPool.length) ∧
    (homeAnswered (starving 65) [5] [.pending] 0 ∧ (releaseOne (starving 65).ss 5).segPool.length < needSegs 65) ∧
    (homeAnswered fullQueue [5] [.pending] 0 ∧ (ctxOf fullQueue 5).state = .opened ∧ fullQueue.cc.queue.length = 32 ∧
      fullQueue.cc.queue.tail.length = 31 ∧ HoldSound fullQueue) :=
  ⟨by decide +kernel, by decide +kernel, by decide +kernel,
    by decide +kernel, by decide +kernel, by decide +kernel, by decide +kernel, holdSound_of (by decide +kernel)⟩

/-! ## Witnesses: the memory port -/

theorem witness_PiecesTileTheRequest : 0 < 64 ∧ 0 < 320 ∧ 64 ≤ 64 ∧ 64 % 32 = 0 ∧ 0x1020 % 32 = 0 ∧ 256 ≤ 256 := by decide

/-- A piece waits in the LOG ready list and one in the APPLY ready list; the rotation pointer stands at `c`. -/
def granting (p : PathState) (c : RequestClass) : State :=
  let s := holding p .logging
  s.withMp { s.mp with readyLog := [piece (.group (.dat 1 5 1) 0) .write], readyApply := [piece (.home 5 0) .write], pointer := c }

theorem witness_ArbiterGrantsInRotation :
    let cond := fun (s : State) (c : RequestClass) (p : Piece) => Live s ∧
      (rotation s.mp.pointer).find? (fun c => !(readyOf s.mp c).isEmpty && decide (classIssued c s.mp < classCap c)) = some c ∧
      s.mp.entries.findIdx? isFree = some 0 ∧ readyOf s.mp c = p :: []
    cond (granting .run .pass) .log (piece (.group (.dat 1 5 1) 0) .write) ∧
    cond (granting .draining .apply) .apply (piece (.home 5 0) .write) ∧
    cond (granting .safe .log) .log (piece (.group (.dat 1 5 1) 0) .write) ∧
    (let s := granting .draining .pass
     let passing := s.withMp { s.mp with
       records := s.mp.records.set 15 (some ⟨7, .write, 0x1000, 16, [⟨0, 8, .completedOk⟩, ⟨8, 8, .ready⟩], []⟩)
       readyPass := [piece (.pass 15 1) .write] }
     cond passing .pass (piece (.pass 15 1) .write) ∧ passing.mp.records[15]?.isSome = true ∧ passing.cc.path = .draining) := by
  decide +kernel

theorem witness_ChannelAcceptLoadsTimer :
    let m : MemRequest := ⟨3, .write, 0x1000, 8, none, []⟩
    let s0 := withEntry (base .run) (.issued (piece .anchor .write) none false)
    let s := s0.withMp { s0.mp with channel := [m] }
    Live s ∧ s.mp.channel = m :: [] ∧ s.mp.entries[m.id]? = some (.issued (piece .anchor .write) none false) ∧
      (∀ x ∈ ([] : List MemRequest), x.id ≠ m.id) := by decide +kernel

theorem witness_LateAndStrayResponses :
    let p := piece .anchor .write
    let late := withEntry (base .safe) (.orphaned p)
    let race := withEntry (base .run) (.issued p (some 1000) false)
    (Live late ∧ late.mp.entries[3]? = some (.orphaned p)) ∧ (Live (base .run) ∧ (base .run).mp.entries[3]? = some .free) ∧
    (Live race ∧ race.mp.entries[3]? = some (.issued p (some 1000) false)) := by decide +kernel

/-- A piece of AE in RUN, of LE in DRAINING, of RE in FORMATTING without a timer, of AE while RE waits in ENDING, and of LE during
quiesce. -/
theorem witness_FailedAttemptIsRetried :
    let cond := fun (s : State) (p : Piece) (timer : Option (BitVec 16)) => Live s ∧
      (Quiescing s ∨ (s.cc.quiesce = none ∧
        (s.re.mode = .ending → isRecoveryOwner p.owner = false ∧ issuedCount isRecoveryOwner s.mp ≠ 0))) ∧
      ownerClass p.owner ≠ .pass ∧ p.retry < s.mg.cfg.retryLimit ∧
      s.mp.entries[(3 : MemId).toNat]? = some (.issued p timer false)
    let home := piece (.home 5 0) .write
    let slot := piece (.recovery (.slotWrite false) 0) .write
    let waits := (withEntry (walking false) (.issued home (some 1000) false)).withRe { RecoveryEngine.reset with mode := .ending }
    cond (withEntry (walking false) (.issued home (some 1000) false)) home (some 1000) ∧
    cond (withEntry (base .draining) (.issued (piece .anchor .write) (some 1) false)) (piece .anchor .write) (some 1) ∧
    cond ((withEntry (base .formatting) (.issued slot none false)).withRe { RecoveryEngine.reset with mode := .formatWrite })
      slot none ∧
    cond (waits.withMp { waits.mp with entries := waits.mp.entries.set 0 (.issued slot none true) }) home (some 1000) ∧
    (cond (quiescing (withEntry (base .stopped) (.issued (piece .anchor .write) (some 1) false))) (piece .anchor .write) (some 1) ∧
      Quiescing (quiescing (withEntry (base .stopped) (.issued (piece .anchor .write) (some 1) false)))) ∧
    AttemptFails (.memoryResponse 3 .err []) 3 none ∧ AttemptFails (.responseTimeout 3) 3 (some 1000) := by
  refine ⟨?_, ?_, ?_, ?_, ?_, .inl ⟨[], rfl⟩, (attempt_fails 1000).2⟩ <;> decide +kernel

/-- A pass-through read of 8 bytes in record 0, its one piece in entry 3, with a merge slot that overlays byte 1. -/
def reading : State :=
  let p := piece (.pass 0 0) .read
  let r : PassRecord := ⟨7, .read, 0x1000, 8, [⟨0, 8, .issued⟩], List.replicate 8 none⟩
  let s := withEntry (base .run) (.issued p (some 1000) false)
  (s.withMp { s.mp with records := s.mp.records.set 0 (some r) }).withHp { s.hp with
    slots := s.hp.slots.set 0 (some ⟨7, 0x1000, 8, none :: some 0xAA :: List.replicate 6 none⟩), inflight := [7], reserved := 1 }

/-- The hypotheses of PassReadCompletes on piece `i` of record 0 in entry 3; `data` comes with an OK response. -/
abbrev passAnswered (s : State) (p : Piece) (r : PassRecord) (pc : PassPiece) (i : Nat) (data : List Byte) : Prop :=
  Live s ∧ (Quiet s ∨ Quiescing s) ∧ holdCheck s = true ∧
    s.mp.entries.getD (3 : MemId).toNat .free = .issued p (some 1000) false ∧
    p.owner = .pass 0 i ∧ s.mp.records[0]? = some (some r) ∧ p.kind = r.kind ∧ r.pieces[i]? = some pc ∧
    p.length = pc.length ∧ (r.kind = .read → data.length = pc.length)

/-- An untagged write of 16 bytes whose second piece is in entry 3, the first in state `st`. -/
def writing (st : PassPieceState) : State :=
  let s := withEntry (base .stopped) (.issued { piece (.pass 0 1) .write with addr := 0x1008 } (some 1000) false)
  let r : PassRecord := ⟨7, .write, 0x1000, 16, [⟨0, 8, st⟩, ⟨8, 8, .issued⟩], []⟩
  s.withMp { s.mp with records := s.mp.records.set 0 (some r) }

/-- A read with a merge slot, and a write whose other piece is open, done, failed or withdrawn; an ERR carries no data; the read in
DRAINING and during quiesce too. -/
theorem witness_PassReadCompletes :
    let r : PassRecord := ⟨7, .read, 0x1000, 8, [⟨0, 8, .issued⟩], List.replicate 8 none⟩
    let w := fun st => passAnswered (writing st) { piece (.pass 0 1) .write with addr := 0x1008 }
      ⟨7, .write, 0x1000, 16, [⟨0, 8, st⟩, ⟨8, 8, .issued⟩], []⟩ ⟨8, 8, .issued⟩ 1 []
    (passAnswered reading (piece (.pass 0 0) .read) r ⟨0, 8, .issued⟩ 0 [1, 2, 3, 4, 5, 6, 7, 8] ∧ reading.hp.hold = none) ∧
    w .ready ∧ w .issued ∧ w .completedOk ∧ w .completedErr ∧ w .withdrawn ∧
    (Instr.memoryResponse 3 .err [] = .memoryResponse 3 .ok [] → r.kind = .read → ([] : List Byte).length = 8) ∧
    passAnswered (inPath .draining reading) (piece (.pass 0 0) .read) r ⟨0, 8, .issued⟩ 0 [1, 2, 3, 4, 5, 6, 7, 8] ∧
    passAnswered (quiescing reading) (piece (.pass 0 0) .read) r ⟨0, 8, .issued⟩ 0 [1, 2, 3, 4, 5, 6, 7, 8] := by
  refine ⟨?_, ?_, ?_, ?_, ?_, ?_, nofun, ?_, ?_⟩ <;> decide +kernel

/-- `reading` while a request holds on the full list. -/
def listFull : State := held .passListFull { rd 0 0x2000 8 with id := 6 } reading

/-- `reading` while a read of the OPEN tag 5 holds on the eighth merge slot. -/
def slotless : State :=
  let slots := reading.hp.slots.take 1 ++ List.replicate 7 (some ⟨1, 0, 1, []⟩)
  held .noMergeSlot { rd 5 0x1000 8 with id := 6 } (setCtx 5 (opened [] 1 4) (reading.withHp { reading.hp with slots := slots }))

/-- The last outcome of `reading` while a request holds: on the full list, during quiesce too, and on no free merge slot. -/
theorem witness_PassReadCompletes_held :
    let r : PassRecord := ⟨7, .read, 0x1000, 8, [⟨0, 8, .issued⟩], List.replicate 8 none⟩
    let cond := fun s => passAnswered s (piece (.pass 0 0) .read) r ⟨0, 8, .issued⟩ 0 [1, 2, 3, 4, 5, 6, 7, 8] ∧ s.cc.path = .run
    (passAnswered (quiescing listFull) (piece (.pass 0 0) .read) r ⟨0, 8, .issued⟩ 0 [1, 2, 3, 4, 5, 6, 7, 8] ∧
      (quiescing listFull).cc.quiesce ≠ none) ∧
    (cond listFull ∧ listFull.hp.hold = some .passListFull) ∧ (cond slotless ∧ slotless.hp.hold = some .noMergeSlot) ∧
    (firstAbsent slotless.hp.slots = none ∧ (slotOverlay slotless.hp.slots 7).isSome = true ∧ (ctxOf slotless 5).state = .opened) ∧
    overlapsSide (fun st => loggingSide st || homeSide st) slotless 0x1000 8 = false ∧
    (overlayWalk 0x1000 8 [] (List.replicate 8 none) slotless).1 = some (List.replicate 8 none) := by
  refine ⟨?_, ?_, ?_, ?_, ?_, ?_⟩ <;> decide +kernel

/-- The holding requests of the witness before are sound ones. -/
theorem witness_PassReadCompletes_holds : HoldSound listFull ∧ HoldSound slotless :=
  ⟨holdSound_of (by decide +kernel), holdSound_of (by decide +kernel)⟩

/-! ## Witnesses: start-up, quiesce and recovery -/

theorem witness_StartUpCommandIsTaken :
    Live (base .unconfigured) ∧ (base .unconfigured).cc.path = .unconfigured ∧ (base .unconfigured).cc.status ≠ .busy := by decide

/-- RE in `re` with a piece of its request in entry 3. -/
def recovering (p : PathState) (what : RecoveryRequest) (k : MemKind) (length : Nat) (re : RecoveryEngine) : State :=
  (withEntry (base p) (.issued { piece (.recovery what 0) k with length := length } (some 1000) false)).withRe re

/-- Both anchor reads, the first with one piece awaited, the second with the marks given. -/
def anchorsAwaited (p : PathState) (m1 : List PieceMark) : State :=
  recovering p (.anchorRead 0) .read 64
    { RecoveryEngine.reset with mode := .anchorRead, reads := [⟨.anchorRead 0, [.pending]⟩, ⟨.anchorRead 1, m1⟩] }

/-- An anchor of exponent 16 with sequence 5 under epoch 7, tail unit 12, commit number 3. -/
def anchorBytes : List Byte := anchorRecord 5 7 16 12 3

/-- The hypotheses of StartUpCommandIsTaken on the anchor read that returns `data`. -/
abbrev anchorReturns (s : State) (data : List Byte) (m1 : List PieceMark) : Prop :=
  Live s ∧ Settled s ∧ recoveryListens s.re = true ∧ s.mp.entries.getD (3 : MemId).toNat .free =
      .issued { piece (.recovery (.anchorRead 0) 0) .read with length := 64 } (some 1000) false ∧ 64 = data.length ∧
    (s.re.reads.map fun r => if r.what = .anchorRead 0 then { r with pieces := r.pieces.set 0 (.done data) } else r) =
      [⟨.anchorRead 0, [.done data]⟩, ⟨.anchorRead 1, m1⟩]

/-- One read still awaited; both returned in FORMATTING and RECOVERING, with a valid anchor and with none. -/
theorem witness_StartUpCommandIsTaken_anchors :
    let zeros : List Byte := List.replicate 64 0
    let read := fun slot bs => readAnchor 16 slot (piecesData [.done bs])
    anchorReturns (anchorsAwaited .formatting [.pending]) anchorBytes [.pending] ∧
    anchorReturns (anchorsAwaited .formatting [.done zeros]) anchorBytes [.done zeros] ∧
    anchorReturns (anchorsAwaited .recovering [.done zeros]) anchorBytes [.done zeros] ∧
    chooseAnchor (read 0 anchorBytes) (read 1 zeros) = some ⟨0, 5, 7, 12, 3⟩ ∧
    anchorReturns (anchorsAwaited .recovering [.done zeros]) zeros [.done zeros] ∧
    chooseAnchor (read 0 zeros) (read 1 zeros) = none := by
  refine ⟨?_, ?_, ?_, ?_, ?_, ?_⟩ <;> decide +kernel

/-- RE in `re` awaits the one piece of a write. -/
theorem recovering_awaitsWrite (p : PathState) (what : RecoveryRequest) (re : RecoveryEngine) :
    AwaitsWrite 3 (recovering p what .write 64 re) what 0 := ⟨_, _, _, rfl, rfl, rfl⟩

/-- FORMAT's first and second anchor write. -/
theorem witness_StartUpCommandIsTaken_writes :
    let s := fun second => recovering .formatting (.slotWrite second) .write 64
      { RecoveryEngine.reset with mode := .formatWrite, newEpoch := 8, firstSlot := 1 }
    ∀ second, Live (s second) ∧ Settled (s second) ∧ HoldSound (s second) ∧ recoveryListens (s second).re = true ∧
      AwaitsWrite 3 (s second) (.slotWrite second) 0 := fun second =>
  ⟨rfl, by cases second <;> decide +kernel, ⟨nofun, fun _ => rfl⟩, rfl, recovering_awaitsWrite _ _ _⟩

/-- STOPPED with the LOG cause, and an anchor write in flight if asked. -/
def stoppedState (busyMemory : Bool) : State :=
  let s := holding .stopped .durable
  let s1 := s.withCc { s.cc with stopLog := true }
  if busyMemory then
    (withEntry s1 (.issued (piece .anchor .write) none false)).withLe { s.le with anchor := some ⟨0, 0, 0, 0⟩ }
  else s1

theorem witness_RestartBeginsQuiesce :
    let cond := fun (s : State) => Live s ∧ s.cc.path = .stopped ∧ s.cc.status ≠ .busy ∧ s.re.mode = .idle
    let rest := fun (s : State) => (loggingRecord s.cc).isNone && s.le.anchor.isNone && s.mp.records.all Option.isNone &&
      issuedCount (fun _ => true) s.mp == 0
    (cond (stoppedState false) ∧ rest (stoppedState false) = true) ∧
    (cond (stoppedState true) ∧ rest (stoppedState true) = false) := by decide +kernel

theorem witness_CommandsAreRefusedForTheState :
    let busy := (base .formatting).withCc { (base .formatting).cc with status := .busy }
    (Live busy ∧ busy.cc.status = .busy) ∧
    (Live (base .run) ∧ (base .run).cc.status ≠ .busy ∧ (base .run).cc.path ≠ .unconfigured ∧ (base .run).cc.path ≠ .stopped) ∧
    (Live (base .unconfigured) ∧ (base .unconfigured).cc.status ≠ .busy ∧ (base .unconfigured).cc.path ≠ .stopped) ∧
    (Live (base .stopped) ∧ (base .stopped).cc.status ≠ .busy ∧ (base .stopped).cc.path ≠ .unconfigured) := by decide +kernel

theorem witness_QuiesceDiscardsVolatileState :
    let s := (stoppedState false).withCc { (stoppedState false).cc with quiesce := some .restart, status := .busy }
    Live s ∧ s.cc.path = .stopped ∧ s.cc.quiesce = some .restart ∧ loggingRecord s.cc = none ∧ s.le.anchor = none ∧
      s.mp.records.all Option.isNone = true ∧ issuedCount (fun _ => true) s.mp = 0 := by decide +kernel

theorem witness_FailedCommandEnds :
    let s := (base .recovering).withRe { RecoveryEngine.reset with mode := .ending, owed := some .noAnchor }
    Live s ∧ s.re.mode = .ending ∧ s.re.owed = some .noAnchor ∧ ResultCode.noAnchor ≠ .ok ∧
      issuedCount isRecoveryOwner s.mp = 0 := by decide +kernel

/-- A second reading that fails at the retry limit, and FORMAT's write whose request was withdrawn. -/
theorem witness_FailedCommandEnds_piece :
    let p : Piece := { piece (.recovery .secondReading 0) .read with retry := 1 }
    let s := (withEntry (base .recovering) (.issued p (some 1000) false)).withRe { RecoveryEngine.reset with mode := .replay }
    let q : Piece := piece (.recovery (.slotWrite true) 0) .write
    let t := (withEntry (base .formatting) (.issued q (some 1) true)).withRe { RecoveryEngine.reset with mode := .formatWrite }
    (Live s ∧ Settled s ∧ recoveryListens s.re = true ∧ issuedCount isRecoveryOwner (entryFreed s.mp 3) = 0) ∧
    (Live t ∧ Settled t ∧ recoveryListens t.re = true) ∧
    FailsForGood (.responseTimeout 3) 3 s p ∧ FailsForGood (.memoryResponse 3 .err []) 3 t q :=
  ⟨by decide +kernel, by decide +kernel, (entry_fails rfl (.inl (by decide))).2, (entry_fails rfl (.inr rfl)).1⟩

/-- RE waiting in ENDING: one of its pieces of two, the last one with its command's result owed, and the last one in DRAINING. -/
theorem witness_FailedCommandEnds_waiting :
    let q : Piece := piece (.recovery (.slotWrite true) 0) .write
    let waits := fun (p : PathState) (owed : Option ResultCode) =>
      (withEntry (base p) (.issued q (some 1) true)).withRe { RecoveryEngine.reset with mode := .ending, owed := owed }
    let two := (waits .formatting (some .formatFailed)).withMp { (waits .formatting (some .formatFailed)).mp with
      entries := (waits .formatting (some .formatFailed)).mp.entries.set 0 (.issued q none true) }
    let cond := fun (s : State) => Live s ∧ s.cc.quiesce = none ∧ s.re.mode = .ending ∧
      s.mp.entries.getD (3 : MemId).toNat .free = .issued q (some 1) true
    let left := fun (s : State) => issuedCount isRecoveryOwner (entryFreed s.mp 3)
    (cond two ∧ left two ≠ 0) ∧
    (cond (waits .formatting (some .formatFailed)) ∧ left (waits .formatting (some .formatFailed)) = 0) ∧
    (cond (waits .draining none) ∧ left (waits .draining none) = 0) ∧
    FailsForGood (.responseTimeout 3) 3 (waits .draining none) q :=
  ⟨by decide +kernel, by decide +kernel, by decide +kernel, (entry_fails rfl (.inr rfl)).2⟩

/-- RE in REPLAY at record `i` of two, with the first home write in flight. -/
def replaying (i : Nat) (a : Addr) : State :=
  (base .recovering).withRe { RecoveryEngine.reset with
    mode := .replay, group := some ⟨2, 6, 5⟩, map := [(1, 2), (3, 2)], i := i, held := some ⟨a, 8, none, List.replicate 8 0x11⟩,
    replaySet := [⟨1, 0x1000, 8, [.pending]⟩] }

theorem witness_ReplayWriteIsHanded :
    let cond := fun (i : Nat) (s : State) (w : RecordWrite) => Live s ∧ s.re.mode = .replay ∧ s.re.group = some ⟨2, 6, 5⟩ ∧
      s.re.held = some w ∧ replayReady s w = true ∧ s.re.i = i
    cond 2 (replaying 2 0x1008) ⟨0x1008, 8, none, List.replicate 8 0x11⟩ ∧
    (cond 1 (replaying 1 0x0FF8) ⟨0x0FF8, 8, none, List.replicate 8 0x11⟩ ∧ (replaying 1 0x0FF8).re.map[1]? = some (3, 2)) := by
  decide +kernel

/-- RE after the choice of an anchor of epoch 7, at unit `p` with commit number 3. -/
def chosenAt (mode : RecoveryMode) (p i q : Nat) (map : List (Nat × Nat)) (header : List Byte) : RecoveryEngine :=
  { RecoveryEngine.reset with
    mode := mode, chosen := some ⟨0, 5, 7, p, 3⟩, e := 7, p := p, c := 3, group := some ⟨2, 6, p + 5⟩, map := map, i := i, q := q,
    header := header }

/-- RE in `re` awaits the one piece of a read of `bs`. -/
def returning (what : RecoveryRequest) (bs : List Byte) (re : RecoveryEngine) : State :=
  recovering .recovering what .read bs.length { re with reads := [⟨what, [.pending]⟩] }

theorem returning_returns (what : RecoveryRequest) (bs : List Byte) (re : RecoveryEngine) :
    ReadReturns 3 bs (returning what bs re) what bs :=
  ⟨_, _, _, 0, [.pending], rfl, rfl, rfl, rfl, by
    show ([⟨what, [.pending]⟩] : List RecoveryRead).find? (fun x => x.what == what) = _
    simp, rfl, List.append_nil bs⟩

theorem witness_ReplayWriteIsHanded_reads (what : RecoveryRequest) (bs : List Byte) (p i q : Nat) (map : List (Nat × Nat))
    (header : List Byte) :
    let s := returning what bs (chosenAt .scan p i q map header)
    Live s ∧ Settled s ∧ recoveryListens s.re = true ∧ s.re.chosen = some ⟨0, 5, 7, p, 3⟩ ∧ ReadReturns 3 bs s what bs ∧
      s.re.group = some ⟨2, 6, p + 5⟩ := by
  refine ⟨rfl, ?_, rfl, rfl, returning_returns _ _ _, rfl⟩
  exact ⟨nofun, rfl, nofun⟩

/-- Data record `i` of the group with commit number 3 of epoch 7: two units. -/
def dataBytes (i : Nat) : List Byte := datRecord 7 3 i ⟨0x1000, 8, none, List.replicate 8 0x5A⟩

/-- The bytes that lead to each clause, in the order of the clauses; zeros fail every test. -/
theorem witness_ReplayWriteIsHanded_bytes :
    let zeros : List Byte := List.replicate 64 0
    (passesPad 2040 7 3 2037 (padRecord 7 3 3) = true ∧
      passesPad 2040 7 3 0 (hdrRecord 7 3 2 6) = false ∧ passesHdr 2040 7 3 0 (hdrRecord 7 3 2 6) = some (2, 6) ∧
      passesPad 2040 7 3 0 zeros = false ∧ passesHdr 2040 7 3 0 zeros = none) ∧
    (passesTrl 2040 7 3 2039 3 (trlRecord 7 3 3 true) = some true ∧ 2034 + 6 = 2040 ∧
      passesTrl 2040 7 3 5 3 (trlRecord 7 3 3 false) = some false ∧ 0 + 1 < 5 ∧ passesTrl 2040 7 3 5 3 zeros = none) ∧
    (passesDatHeader 7 3 1 1 5 ((dataBytes 1).take 32) = some (datFields (dataBytes 1)) ∧ (datFields (dataBytes 1)).units = 2 ∧
      passesDatHeader 7 3 1 1 5 zeros = none) ∧
    (codeChecks ((dataBytes 1).take 32) (payloadOf (datFields ((dataBytes 1).take 32)) ((dataBytes 1).drop 32)) = true ∧
      codeChecks ((dataBytes 1).take 32) (payloadOf (datFields ((dataBytes 1).take 32)) (List.replicate 32 0)) = false) ∧
    (([(1, 2), (3, 2)] : List (Nat × Nat))[1 - 1]? = some (1, 2) ∧ (passesDat 7 3 1 1 5 (dataBytes 1)).isSome = true ∧ (dataBytes 1).length = 32 * 2 ∧ passesDat 7 3 1 1 5 zeros = none) := by
  decide +kernel

/-- The places after a data record of two units at `q`: before, at and past the trailer at 5, with and without records to come. -/
theorem witness_ReplayWriteIsHanded_places :
    (1 + 1 ≤ 2 ∧ 1 < 2 ∧ 1 + 2 < 5) ∧ (1 < 2 ∧ 5 ≤ 3 + 2) ∧ (2 ≤ 2 ∧ 1 + 2 ≠ 5) ∧ (2 ≤ 2 ∧ 3 + 2 = 5) := by decide

/-- The one home write of the set in flight, before record `i` of two is handed. -/
theorem witness_ReplayWriteIsHanded_acknowledged :
    let y : ReplayWrite := ⟨1, 0x1000, 8, [.pending]⟩
    let s := fun i (rest : List ReplayWrite) (ms : List PieceMark) => recovering .recovering (.replayWrite 1) .write 8
      { chosenAt .replay 0 i 5 [(1, 2), (3, 2)] [] with replaySet := { y with pieces := ms } :: rest }
    let cond := fun (s : State) ms => Live s ∧ Settled s ∧ s.re.mode = .replay ∧ s.re.group = some ⟨2, 6, 5⟩ ∧
      s.re.replaySet.find? (fun y => y.index == 1) = some { y with pieces := ms }
    (cond (s 2 [] [.pending, .pending]) [.pending, .pending]) ∧ cond (s 2 [] [.pending]) [.pending] ∧
    cond (s 3 [{ y with index := 2 }] [.pending]) [.pending] ∧ cond (s 3 [] [.pending]) [.pending] ∧
    (AwaitsWrite 3 (s 3 [] [.pending]) (.replayWrite 1) 0) := by
  refine ⟨?_, ?_, ?_, ?_, ⟨_, _, _, rfl, rfl, rfl⟩⟩ <;> decide +kernel

/-- The closing anchor write, while a COMMIT holds and while nothing does. -/
theorem witness_ReplayWriteIsHanded_closing :
    let s := recovering .recovering .closing .write 64 (chosenAt .close 12 1 0 [] [])
    let h := held .commitQueueFull (mk .commit 5 0) s
    (Live s ∧ Settled s ∧ HoldSound s ∧ recoveryListens s.re = true ∧ s.re.chosen = some ⟨0, 5, 7, 12, 3⟩ ∧
      AwaitsWrite 3 s .closing 0) ∧ (HoldSound h ∧ (ctxOf h 5).state = .idle ∧ AwaitsWrite 3 h .closing 0) :=
  ⟨⟨rfl, by decide +kernel, ⟨nofun, fun _ => rfl⟩, rfl, rfl, recovering_awaitsWrite _ _ _⟩,
    holdSound_of (by decide +kernel), by decide +kernel, ⟨_, _, _, rfl, rfl, rfl⟩⟩

theorem witness_DrainCompletesToSafe :
    let s := base .draining
    Live s ∧ s.cc.path = .draining ∧ loggingRecord s.cc = none ∧ s.le.anchor = none ∧
      issuedCount (fun _ => true) s.mp = 0 := by decide +kernel

/-! ## Witnesses: the management port -/

/-- The first and last words of the captured figures, of the configuration and of the plain counters. -/
theorem witness_StatusReadCapturesTheBlock :
    let s := base .run
    let cap := s.mg.capture
    let cfg := s.mg.cfg
    let number : Nat → Word32 := BitVec.ofNat 32
    let ends := fun (l : List Word32) (k : Nat) => l[0]?.isSome = true ∧ l[k]?.isSome = true ∧ l[k + 1]? = none
    Live s ∧ ends [number cap.freeDescs, number cap.freeSegs, number cap.occupancy, cap.oldest, cap.next, number cap.head,
      number cap.tail, number cap.used, cap.epoch.setWidth 32, number cap.orphaned] 9 ∧
    ends [cfg.logBase.setWidth 32, (cfg.logBase >>> 32).setWidth 32, number cfg.sizeExp, number cfg.burstCode,
      number cfg.retryLimit, cfg.timeout.setWidth 32, cfg.stageWait.setWidth 32, number cfg.quantumCode,
      cfg.enables.setWidth 32] 8 ∧
    ends [s.ss.corrected, s.ss.uncorrectable, s.mp.errors, s.mp.timeouts, s.mp.strays] 4 := by decide

theorem witness_TagEntryReads :
    let cap : TagCapture := ⟨63, .opened, none, 1, 8⟩
    let s := (base .run).withMg { Management.reset with tagCapture := some cap }
    (63 : Tag) ≠ 0 ∧ (1 : Tag) ≠ 0 ∧ Live s ∧ s.mg.tagCapture = some cap ∧ cap.tag = 63 ∧ cap.tag ≠ 1 ∧
      (base .run).mg.tagCapture = none := by decide

theorem witness_StarvationReadClears : Live (base .run) := rfl

theorem witness_CauseClearIsWriteOne : Live (base .safe) := rfl

theorem witness_ConfigurationWrites :
    (∀ i, i ≤ 8 → (BitVec.ofNat 16 i).toNat ≤ 8) ∧ Live (base .unconfigured) ∧ ¬ (base .unconfigured).cc.path ≠ .unconfigured ∧
      Live (base .run) ∧ (base .run).cc.path ≠ .unconfigured := by decide

/-- The addresses that BadAccessesChangeNothing names as listed in the window. -/
def inWindow (n : Nat) : Bool :=
  n ≤ 0x0008 || (0x0010 ≤ n && n ≤ 0x0013) || n == 0x0018 || (0x0020 ≤ n && n ≤ 0x002A) || (0x0030 ≤ n && n ≤ 0x0036) ||
    (0x0101 ≤ n && n ≤ 0x013F) || (0x0141 ≤ n && n ≤ 0x017F)

theorem witness_BadAccessesChangeNothing :
    Live (base .run) ∧
    ([0x0009, 0x000F, 0x0014, 0x0017, 0x0019, 0x001F, 0x002B, 0x002F, 0x0037, 0x0100, 0x0140, 0x0180, 0xFFFF].all fun n =>
      !inWindow n) = true ∧
    ([0x0009, 0x0011, 0x0020, 0x0030, 0x0101].all fun n => decide (0x0008 < n) && n != 0x0010 && n != 0x0018) = true ∧
    ([0, 4].all fun c : Word32 => c != 1 && c != 2 && c != 3) = true := by
  refine ⟨rfl, ?_, ?_, ?_⟩ <;> decide +kernel

theorem witness_IncompleteFrameTakesOnlyCompleteReads :
    let cut := fun (cmd : BitVec 8) (bits : Nat) => (bits < 56 ∨ (cmd ≠ 0xC1 ∧ cmd ≠ 0xC2)) ∧ (cmd ≠ 0xC1 ∨ bits < 24)
    Live (base .run) ∧ (cut 0xC1 23 ∧ cut 0xC2 55 ∧ cut 0x00 56 ∧ ¬ cut 0xC1 24 ∧ ¬ cut 0xC2 56) ∧
      (24 ≤ 24 ∧ 24 < 56) ∧ (24 ≤ 55 ∧ 55 < 56) := by decide

/-! ## Witnesses: the log region's format -/

theorem witness_DataRecordReadsBack :
    let w : RecordWrite := ⟨0x1FFF, 1, some [false], [0x5A]⟩
    let x : RecordWrite := ⟨0xFFFFFFFF00, 256, none, List.replicate 256 0x5A⟩
    (1 ≤ w.length ∧ w.length ≤ 256 ∧ w.data.length = w.length ∧ (∀ m, w.mask = some m → m.length = w.length) ∧
      w.addr.toNat + w.length ≤ 2 ^ 40 ∧ w.addr.toNat % 4096 + w.length ≤ 4096 ∧ 1 < 2 ^ 16 ∧
      1 + dataUnits w.length w.mask.isSome ≤ 3) ∧
    (1 ≤ x.length ∧ x.length ≤ 256 ∧ x.data.length = x.length ∧ (∀ m, x.mask = some m → m.length = x.length) ∧
      x.addr.toNat + x.length ≤ 2 ^ 40 ∧ x.addr.toNat % 4096 + x.length ≤ 4096 ∧
      1 + dataUnits x.length x.mask.isSome ≤ 10) := by
  refine ⟨⟨by decide, by decide, by decide, ?_, by decide +kernel, by decide +kernel, by decide, by decide⟩,
    ⟨by decide, by decide, by decide +kernel, ?_, by decide +kernel, by decide +kernel, by decide⟩⟩
  · rintro m ⟨⟩; rfl
  · rintro m ⟨⟩

/-- The hypotheses on a frame of FramesAndAnchorsReadBack. -/
abbrev framePlace (u p count g index : Nat) : Prop :=
  u < 2 ^ 32 ∧ 1 ≤ count ∧ count ≤ 1024 ∧ 2 + 2 * count ≤ g ∧ g ≤ 2 + 10 * count ∧ g ≤ u / 2 ∧ p + g ≤ u ∧ index < 2 ^ 16

theorem witness_FramesAndAnchorsReadBack :
    (framePlace 2040 1020 509 1020 510 ∧ 0 < 1020 ∧ (1 : CommitNumber) ≠ 0) ∧ (framePlace 2040 2028 1 12 2 ∧ 0 < 2028) ∧ framePlace 2040 0 1 12 2 ∧
    (16 ≤ 16 ∧ 16 ≤ 30 ∧ 2039 < ringUnits 16 ∧ 17 ≠ 16) ∧ (16 ≤ 30 ∧ 30 ≤ 30 ∧ 33554423 < ringUnits 30) := by decide +kernel

/-! ## Witnesses: the invariants -/

/-- RUN with tag 5 OPEN on descriptor 0, a QUEUED record on descriptor 1 whose marker's id 9 is in flight, the other descriptors
free, and a COMMIT of tag 5 waiting to be taken. -/
def sound : State :=
  let s := committing .run (opened [0] 1 4) 0
  { s with
    pending := [.commit]
    hp := { s.hp with inflight := [9], reserved := 1 }
    ss := { s.ss with
      descPool := List.range' 2 4094
      segPool := List.range' 2 8190
      descs := [(0, { desc 0x1000 8 with segs := [0] }), (1, { desc 0x2000 8 with segs := [1] })]
      cells := [(0, 0x5A), (64, 0x5A)] }
    cc := { s.cc with queue := [⟨0, 9, [1], 1, 4, none, .queued, none⟩], next := 1 } }

theorem sound_queue : QueueSound sound where
  atMost32 := by decide
  numbered := by
    intro i h
    have : i = 0 := by have : i < 1 := h; omega
    subst this; rfl
  ordered := List.pairwise_singleton _ _
  noneApplied := by intro r h; obtain rfl := List.mem_singleton.mp h; decide
  voidedEmpty := by intro r h; obtain rfl := List.mem_singleton.mp h; decide
  emptyBeforeRun := by rintro (h | h | h) <;> exact absurd h (by decide)
  recoveryPath := fun h => absurd rfl h.1

theorem sound_hold : HoldSound sound := ⟨nofun, fun _ => rfl⟩

theorem sound_descriptors : DescriptorsConserved sound where
  contexts63 := by decide +kernel
  onlyOpenHold := by decide +kernel
  oneHolder := by
    have hg : heldByGroups sound.gt = [0] := by decide +kernel
    have hr : heldByRecords sound.cc = [1] := by decide +kernel
    have hp : sound.ss.descPool = List.range' 2 4094 := rfl
    rw [hg, hr, hp, List.append_assoc, show List.range Config.descriptors = [0, 1] ++ List.range' 2 4094 from by
      rw [List.range_eq_range']; rfl]
    exact List.perm_append_comm
  segmentsOnce := by
    have hs : (heldDescs sound).flatMap (fun i => (descAt sound i).segs) = [0, 1] := by decide +kernel
    have hp : sound.ss.segPool = List.range' 2 8190 := rfl
    rw [hs, hp, show List.range Config.segments = [0, 1] ++ List.range' 2 8190 from by rw [List.range_eq_range']; rfl]
    exact List.perm_append_comm
  segmentsNeeded := by decide +kernel

theorem sound_responses : ResponsesOwed sound where
  placesOwed := by decide +kernel
  places272 := by decide +kernel
  idsOwed := by decide +kernel
  idsDistinct := by decide +kernel

theorem sound_table : TableSound sound where
  entries32 := by decide +kernel
  withinCaps := by intro c; cases c <;> decide +kernel
  orphansCounted := by decide +kernel
  noneIssuedInSafe := fun h => absurd h (by decide)

theorem sound_nothingDue : NothingDue sound where
  commandEnded := by decide +kernel
  discardTaken := by decide +kernel
  drainFollowed := fun h => absurd h (by decide)
  drainAbsent := fun _ _ => rfl
  drainInSafe := fun h => absurd h (by decide)
  psafeInSafe := by decide

theorem sound_ledger : LedgerSound sound where
  usedAccounted := fun _ => by decide +kernel
  withinRing := fun _ => by decide +kernel
  loggingFits := by intro r h hl; obtain rfl := List.mem_singleton.mp h; exact absurd hl (by decide)
  queuedUnplaced := by intro r h _; obtain rfl := List.mem_singleton.mp h; rfl
  releasable := by intro a h; cases h
  noAnchorBeforeRun := fun _ => rfl

theorem sound_shapes : ShapeSound sound where
  buffer := by decide +kernel
  slots8 := by decide +kernel
  records16 := by decide +kernel
  contexts63 := by decide +kernel
  intake16 := by decide +kernel
  settings := by decide +kernel

/-- The step from `sound` takes the COMMIT. -/
theorem sound_steps : ∃ t, step sound = .next t := ⟨_, rfl⟩

theorem witness_StepKeepsShapes : ∃ s t, ShapeSound s ∧ step s = .next t :=
  sound_steps.elim fun t h => ⟨sound, t, sound_shapes, h⟩

theorem witness_StepKeepsQueueAndHold : ∃ s t, step s = .next t ∧ QueueSound s ∧ HoldSound s :=
  sound_steps.elim fun t h => ⟨sound, t, h, sound_queue, sound_hold⟩

theorem witness_StepConservesDescriptors :
    ∃ s t, QueueSound s ∧ HoldSound s ∧ DescriptorsConserved s ∧ step s = .next t :=
  sound_steps.elim fun t h => ⟨sound, t, sound_queue, sound_hold, sound_descriptors, h⟩

theorem witness_StepKeepsResponsesOwed : ∃ s t, QueueSound s ∧ HoldSound s ∧ ResponsesOwed s ∧ step s = .next t :=
  sound_steps.elim fun t h => ⟨sound, t, sound_queue, sound_hold, sound_responses, h⟩

theorem witness_StepKeepsTableSound : ∃ s t, TableSound s ∧ step s = .next t :=
  sound_steps.elim fun t h => ⟨sound, t, sound_table, h⟩

theorem witness_StepLeavesNothingDue : ∃ s t, QueueSound s ∧ TableSound s ∧ NothingDue s ∧ step s = .next t :=
  sound_steps.elim fun t h => ⟨sound, t, sound_queue, sound_table, sound_nothingDue, h⟩

theorem witness_StepKeepsRingLedger : ∃ s t, QueueSound s ∧ LedgerSound s ∧ step s = .next t :=
  sound_steps.elim fun t h => ⟨sound, t, sound_queue, sound_ledger, h⟩

/-! ## One step of each command, the expected values read from the rules named -/

/-- A request is taken even in SAFE and waits in the intake queue (R1). -/
theorem test_host_request_accept : (after (.hostRequestAccept (rd 0 0 8)) (base .safe)).hp.intake = [rd 0 0 8] := by decide +kernel

/-- A read of 128 bytes from 1040h at the default boundary of 128 makes two pieces (R137, R183). -/
theorem test_read_pieces :
    (after (.read []) (taking .run (rd 0 0x1040 128))).mp.readyPass.map (fun p => (p.addr, p.length)) =
      [(0x1040, 64), (0x1080, 64)] := by decide +kernel

/-- Two changed bits in a word of the overlay answer the read INTEGRITY (R131). -/
theorem test_read_integrity : answers (.read []) (overlayState [(240, 1), (240, 2)]) = [.integrity] := by decide +kernel

/-- A write of 65 bytes takes two segments (R20, R23). -/
theorem test_write_segments : (after .write (staging 65 Context.idle)).ss.segPool = [22] := by decide +kernel

/-- A first write of 8 bytes gives its group 4 log units: header, trailer and a data record of 2 (R39). -/
theorem test_write_units : (ctxOf (after .write (staging 8 Context.idle)) 5).units = 4 := by decide +kernel

/-- A COMMIT of an IDLE tag is answered EMPTY (R59). -/
theorem test_commit_empty : answers .commit (committing .run Context.idle 0) = [.empty] := by decide +kernel

/-- A COMMIT that finds 32 records holds the port (R61). -/
theorem test_commit_holds : (after .commit (committing .run (opened [7] 1 4) 32)).hp.hold = some .commitQueueFull := by decide +kernel

/-- An ABORT of an OPEN tag releases its list (R48). -/
theorem test_abort : (after .abort (setCtx 5 (opened [7] 1 4) (taking .run (mk .abort 5 0)))).ss.descPool = [10, 11, 7] := by
  decide +kernel

/-- FOLD_OVER puts the source's writes after the target's (R51). -/
theorem test_fold_over :
    (ctxOf (after .foldOver (folding .foldOver (opened [7] 1 4) (opened [8] 1 4))) 63).writes = [8, 7] := by decide +kernel

/-- FOLD_UNDER puts them before, and the units lose one header and trailer (R51). -/
theorem test_fold_under :
    (ctxOf (after .foldUnder (folding .foldUnder (opened [7] 1 4) (opened [8] 1 4))) 63) =
      ⟨.opened, [7, 8], 2, 16, 6, none⟩ := by decide +kernel

/-- An unknown marker code is answered PROTOCOL (R5). -/
theorem test_unknown_marker : answers .unknownMarkerCode (taking .run (mk (.unknown 9) 1 0)) = [.protocol] := by decide +kernel

/-- A delivered response frees its place (R3). -/
theorem test_response_delivery :
    (after .responseDelivery ((base .run).withHp { HostPort.reset with responses := [⟨1, .ok, []⟩] })).hp.responses = [] := by
  decide +kernel

/-- A stage wait that runs out answers OVERFLOW (R26). -/
theorem test_stage_wait_expiry :
    let s := starved 100 Context.idle
    answers .stageWaitExpiry (s.withHp { s.hp with hold := some .stageWait, reserved := 1 }) = [.overflow] := by decide +kernel

/-- A group that does not fit before the ring end starts with a pad (R91). -/
theorem test_logging_start : (after .loggingStart (queued 4 2037 0)).mp.readyLog.map Piece.owner = [.group .pad 0] := by decide +kernel

/-- The data record of an 8-byte write takes two units (R84). -/
theorem test_log_record_hand :
    (after (.logRecordHand []) (logging (.dat 1) false false 1)).mp.readyLog.map Piece.length = [64] := by decide +kernel

/-- The trailer stands in the last of the group's 4 units, at 0100h + 3 * 20h (R83). -/
theorem test_trailer_hand : (after .trailerHand (logging .done false false 0)).mp.readyLog.map Piece.addr = [0x160] := by decide +kernel

/-- The VOID trailer has flags bit 0 set (R79, R97). -/
theorem test_void_trailer_hand :
    (after .voidTrailerHand (logging .done true false 0)).mp.readyLog.map (fun p => p.data.getD 1 0) = [1] := by decide +kernel

/-- With no current anchor the write goes to slot 0 (R100). -/
theorem test_anchor_write_request :
    (after .anchorWriteRequest (reclaiming 255)).mp.readyLog.map (fun p => (p.addr, p.length)) = [(0, 64)] := by decide +kernel

/-- The record AE starts is its current record (R110). -/
theorem test_apply_start : (after .applyStart (holding .run .durable)).ae.current = some 0 := by decide +kernel

/-- The home write of the group's only descriptor ends the walk (R112). -/
theorem test_home_write_hand : (after (.homeWriteHand []) (walking false)).ae.mode = .settling := by decide +kernel

/-- An uncorrectable read-out turns to the ring copy at the log position (R114). -/
theorem test_home_write_fallback :
    (after (.homeWriteHand []) (walking true)).mp.readyApply.map (fun p => (p.kind, p.addr)) = [(.read, 0x100 + 9 * 32)] := by
  decide +kernel

/-- After a grant to LOG the pointer stands at APPLY (R140), and the data record's descriptor has its log position (R94). -/
theorem test_arbiter_grant : (after .arbiterGrant (granting .run .pass)).mp.pointer = .apply := by decide +kernel

/-- The timer is loaded when the channel accepts the piece (R141). -/
theorem test_channel_accept :
    let s := after .arbiterGrant (granting .run .pass)
    (after .channelAccept s).mp.entries.getD 0 .free =
      .issued (piece (.group (.dat 1 5 1) 0) .write) (some 1000) false := by decide +kernel

/-- A merged read returns the staged byte over what memory returned (R133). -/
theorem test_memory_response :
    (after (.memoryResponse 3 .ok [1, 2, 3, 4, 5, 6, 7, 8]) reading).hp.responses = [⟨7, .ok, [1, 0xAA, 3, 4, 5, 6, 7, 8]⟩] := by
  decide +kernel

/-- A timeout leaves the entry ORPHANED and sets ORPHAN (R143, R149). -/
theorem test_response_timeout :
    causeIn .orphan (after (.responseTimeout 3) reading).mg.causes = true := by decide +kernel

/-- FORMAT reads both anchor slots before it writes (R158). -/
theorem test_format : (after .format (base .unconfigured)).mp.readyApply.map Piece.addr = [0, 64] := by decide +kernel

/-- RECOVER is refused in RUN (R155). -/
theorem test_recover_refused : (after .recover (base .run)).cc.status = .refusedState := by decide +kernel

/-- RESTART with nothing in flight goes straight to RECOVERING (R157). -/
theorem test_restart : (after .restart (stoppedState false)).cc.path = .recovering := by decide +kernel

/-- With an anchor write in flight the discard step waits (R157). -/
theorem test_quiesce_discard :
    let s := after .restart (stoppedState true)
    s.cc.path = .stopped ∧ (after .quiesceDiscard s).cc.path = .stopped := by decide +kernel

/-- The home write is handed, then the second reading of the next record: units 3 and 4, two pieces about 180h (R137, R164). -/
theorem test_replay_write_hand :
    (after .replayWriteHand (replaying 1 0x0FF8)).mp.readyApply.map (fun p => (p.kind, p.addr)) =
      [(.write, 0x0FF8), (.read, 0x160), (.read, 0x180)] := by decide +kernel

/-- A failed RECOVER returns to UNCONFIGURED (R166). -/
theorem test_ending_complete :
    (after .endingComplete ((base .recovering).withRe { RecoveryEngine.reset with mode := .ending, owed := some .noAnchor })).cc.path =
      .unconfigured := by decide +kernel

/-- A glitch of PFW_N shorter than the qualification does nothing (R170). -/
theorem test_pfw_glitch :
    (after .pfwNAssertion (after .pfwNRise (after .pfwNFall (base .run)))).cc.path = .run := by decide +kernel

/-- An assertion with nothing in flight reaches SAFE in the same event (R173). -/
theorem test_pfw_assertion :
    let t := after .pfwNAssertion (after .pfwNFall (base .run))
    t.cc.path = .safe ∧ t.pf.psafe = true := by decide +kernel

/-- The drain goes on while a record is LOGGING (R172, R173). -/
theorem test_safe_waits : (after .safe (holding .draining .logging)).cc.path = .draining := by decide +kernel

/-- RESET_N raises IRQ_N (R190). -/
theorem test_reset_n :
    irqAsserted (after .resetNAssert ((base .run).withMg { Management.reset with causes := 127 })) = false := by decide +kernel

/-- The path status word of RUN with no stop cause is 3, and that of quiesce under PFW_N low is 144h (R192). -/
theorem test_status_capture :
    (after (.statusCapture 0x0020) (base .run)).mg.misoData = 3 ∧
    (after (.statusCapture 0x0020) ((quiescing (base .stopped)).withPf { (base .run).pf with pfwLow := true })).mg.misoData =
      0x144 := by decide +kernel

/-- Word A of an OPEN tag with 1023 writes: state 1, count in bits 16 and up (R192). -/
theorem test_per_tag_word_a :
    (after (.perTagWordA 5) (setCtx 5 (opened [7] 1023 2048) (base .run))).mg.misoData = 0x03FF0001 := by decide +kernel

/-- Word B is the byte total of the capture (R187). -/
theorem test_per_tag_word_b :
    (after (.perTagWordB 5) (setCtx 5 (opened [7] 1023 2048) (base .run))).mg.misoData = 8 := by decide +kernel

/-- A read clears the counter it returns (R188). -/
theorem test_starvation_counter_read :
    let s := (base .run).withSs { (base .run).ss with starveDesc := 255, starveSeg := 3 }
    let t := after (.starvationCounterRead .descriptors) s
    (t.mg.misoData, t.ss.starveDesc, t.ss.starveSeg) = (255, 0, 3) := by decide +kernel

/-- Only the causes whose bit is 1 are cleared (R189). -/
theorem test_interrupt_cause_clear :
    (after (.interruptCauseClear 0x41) ((base .run).withMg { Management.reset with causes := 0x7F })).mg.causes = 0x3E := by
  decide +kernel

/-- A size exponent of 15 is refused (R183, R184). -/
theorem test_register_write :
    let t := after (.registerWrite 2 15) (base .unconfigured)
    t.mg.frame.refused = true ∧ t.mg.cfg.sizeExp = 16 := by decide +kernel

/-- Command code 0 is refused and changes no command status (R185). -/
theorem test_unknown_command_code :
    let t := after (.unknownCommandCode 0) (base .unconfigured)
    t.mg.frame.refused = true ∧ t.cc.status = .idle := by decide +kernel

/-- The bits of a field, most significant first. -/
def bitsOf {w : Nat} (v : BitVec w) : List Bool := (List.range w).map fun i => v.getMsbD i

/-- The bits of a frame as R179 lays them out: command byte, address, data. -/
def frameBits (cmd : BitVec 8) (a : BitVec 16) (v : Word32) : List Bool := bitsOf cmd ++ bitsOf a ++ bitsOf v

/-- The first and last bits of the frame that reads 0030h: C1h is 1100 0001, 0030h ends in 11 0000 (R179). -/
theorem test_frame_bits : (frameBits 0xC1 0x0030 0).take 24 =
    [true, true, false, false, false, false, false, true, false, false, false, false, false, false, false, false,
     false, false, true, true, false, false, false, false] := by decide +kernel

/-- Frames 1, 4, 5, 7, 11 and 12 of the worked example of 12_management_port.md, and reads with an effect of their own (R179, R181). -/
theorem test_frame_commands :
    commandOfFrame (frameBits 0xC1 0x0020 0) = .statusCapture 0x0020 ∧
    commandOfFrame (frameBits 0xC2 0x0002 0x1F) = .registerWrite 2 31 ∧
    commandOfFrame (frameBits 0xC2 0x0002 0x14) = .registerWrite 2 20 ∧
    commandOfFrame (frameBits 0xC2 0x0010 2) = .recover ∧
    commandOfFrame (frameBits 0xC2 0x0018 4) = .interruptCauseClear 4 ∧
    commandOfFrame (frameBits 0xC2 0x0010 1) = .format ∧
    commandOfFrame (frameBits 0xC1 0x0031 0) = .starvationCounterRead .segments ∧
    commandOfFrame (frameBits 0xC1 0x017F 0) = .perTagWordB 63 := by
  refine ⟨?_, ?_, ?_, ?_, ?_, ?_, ?_, ?_⟩ <;> decide +kernel

/-- A frame of 55 bits and a frame with another command byte are incomplete; bits after the 56th are ignored (R179). -/
theorem test_frame_incomplete :
    commandOfFrame ((frameBits 0xC2 0x0008 0x47).take 55) = .incompleteFrame 0xC2 55 8 ∧
    commandOfFrame (frameBits 0xC3 0x0008 0x47) = .incompleteFrame 0xC3 56 8 ∧
    commandOfFrame (frameBits 0xC2 0x0008 0x47 ++ [true]) = .registerWrite 8 0x47 := by decide +kernel

/-- After frame 4 (31 into 0002h, out of range) the MISO byte of frame 5 is 05h (the worked example, R180). -/
theorem test_frame_status :
    let s := after (.registerWrite 2 31) (base .unconfigured)
    (after (.registerWrite 2 20) s).mg.misoStatus = 0x05 ∧
      (after (.incompleteFrame 0xC2 7 0) s).mg.misoStatus = 0x04 := by decide +kernel

/-- A read of the command register leaves no indication (R182). -/
theorem test_command_register_read :
    (after (.statusCapture 0x0010) (base .run)).mg.frame = FrameStatus.clear := by decide +kernel

/-- A read cut after its address field is taken all the same (R180). -/
theorem test_incomplete_frame :
    (after (.incompleteFrame 0xC1 24 0x0020) (base .run)).mg.capture.path = .run := by decide +kernel

end Sys2Proof.Tests
end

section
/-! PROOF. What becomes of a marker that is answered as it is taken, and ABORT (R8, R10, R33, R48). -/

namespace Sys2Proof.Machine

/-! ## Markers taken and answered -/

/-- In DRAINING and SAFE a taken request is answered POWER, before any other check (R4, R10). -/
theorem treat_power (r : HostRequest) (s : State) (hl : Live s) (hr : s.hp.intake.head? = some r)
    (hp : s.cc.path = .draining ∨ s.cc.path = .safe) :
    treat r (reservePlace s) = s.withHp (headAnswered s.hp r .power) := by
  rw [treat, if_pos (by simpa using hp), answerHead_taken s r .power hl hr]

/-- A MARKER that passes the protocol checks has a tag other than 0 (R5). -/
theorem marker_tag_ne_zero {ids : List HostId} {r : HostRequest} (hk : r.kind = .marker)
    (hp : protocolError ids r = false) : r.tag ≠ 0 := by
  intro h0
  simp [protocolError, hk, h0] at hp

theorem isMarker_iff {c : MarkerCode} {r : HostRequest} : isMarker c r = true ↔ r.kind = .marker ∧ r.code = c := by
  simp [isMarker]

/-- A marker is classified by its code; ABORT has its own class (R7). -/
theorem classify_abort {r : HostRequest} (h : isMarker .abort r = true) : classify r = .abort := by
  obtain ⟨hk, hc⟩ := isMarker_iff.mp h
  simp [classify, hk, hc]

/-- ABORT comes with no changed bits of the staging store (log 7). -/
theorem applyUpsets_abort (s : State) : applyUpsets (upsetsOf .abort) s = s := applyUpsets_nil s

/-! ## Contexts and the other blocks -/

@[simp] theorem ctxOf_withHp (s : State) (hp : HostPort) (t : Tag) : ctxOf (s.withHp hp) t = ctxOf s t := rfl

/-- A release moves descriptors, not contexts (R33). -/
@[simp] theorem ctxOf_releaseDescs (ds : List Nat) (s : State) (t : Tag) : ctxOf (releaseDescs ds s) t = ctxOf s t := rfl

/-- Setting a context and reserving a response place touch different blocks. -/
theorem setCtx_reservePlace (t : Tag) (c : Context) (s : State) :
    setCtx t c (reservePlace s) = reservePlace (setCtx t c s) := by
  unfold setCtx
  split_ifs <;> rfl

/-! ## ABORT -/

/-- What ABORT leaves of `s` when its group table takes the marker `r`: the context IDLE, the marker answered OK, and the tag's
list released (R48). -/
def aborted (r : HostRequest) (s : State) : State :=
  releaseDescs (ctxOf s r.tag).writes ((setCtx r.tag Context.idle s).withHp (headAnswered s.hp r .ok))

/-- The group table's treatment of a taken ABORT: no stage wait can be under way, so that the release stages nothing (R25, R48). -/
theorem abortGroup_taken (r : HostRequest) (s : State) (hl : Live s) (hr : s.hp.intake.head? = some r) :
    abortGroup r (reservePlace s) = aborted r s := by
  have answered : answerHead .ok (setCtx r.tag Context.idle (reservePlace s)) =
      (setCtx r.tag Context.idle s).withHp (headAnswered s.hp r .ok) := by
    rw [setCtx_reservePlace, answerHead_taken _ r .ok (by simpa [Live] using hl) (by simpa using hr)]
    simp
  simp only [abortGroup, answered, ctxOf_reservePlace, aborted]
  exact releaseEvent_noWait _ _ (by simp [headAnswered, headLeft])

theorem aborted_hp (r : HostRequest) (s : State) : (aborted r s).hp = headAnswered s.hp r .ok := rfl

/-- ABORT sets its tag IDLE and leaves every other tag's context (R48). -/
theorem ctxOf_aborted (r : HostRequest) (s : State) (t : Tag) (hn : s.gt.ctxs.length = 63) (h0 : r.tag ≠ 0) :
    ctxOf (aborted r s) t = if t = r.tag then Context.idle else ctxOf s t := by
  simp [aborted, ctxOf_setCtx s r.tag t Context.idle hn h0]

/-- ABORT releases the list of its tag in list order (R33, R48). -/
theorem aborted_released (r : HostRequest) (s : State) : Released (ctxOf s r.tag).writes s (aborted r s) :=
  (released_releaseDescs _ _).of_same (by simp) (by simp) (by simp) (by simp) rfl rfl rfl rfl

/-- ABORT changes the host port, the staging store and the group table alone: no commit record, no read in flight and no
request record (R48). -/
theorem aborted_onlyIn (r : HostRequest) (s : State) : OnlyIn [.hp, .ss, .gt] s (aborted r s) := by
  intro b hb
  cases b <;> simp [sameBlock, aborted] at hb ⊢

/-- An ABORT taken in a state that dispatches requests: OK at once in UNCONFIGURED, and else the group table's treatment (R8). -/
theorem exec_abort_sound (s : State) (r : HostRequest) (h : TakesSound .abort s r) :
    exec .abort s = .next (if s.cc.path = .unconfigured then s.withHp (headAnswered s.hp r .ok) else aborted r s) := by
  have hx := exec_takesSound .abort s r h
  obtain ⟨⟨hl, hr, _, hm⟩, _, _, _⟩ := h
  rw [hx, applyUpsets_abort, dispatch, classify_abort hm]
  simp only [reservePlace_cc, answerHead_taken s r .ok hl hr, abortGroup_taken r s hl hr]

/-- Settles O19: DRAINING and SAFE answer before the dispatch; elsewhere the marker is dispatched, and what ABORT leaves is read
off `aborted`. -/
theorem abortFreesTheTag : Obligations.AbortFreesTheTag := by
  intro s r ht hn
  have ⟨hl, hr, _, hm⟩ := ht
  refine ⟨fun hp => ?power, fun hp hs => ?unconfigured, fun hp hs => ?aborts⟩
  case power =>
    rw [exec_takes .abort s r ht, applyUpsets_abort, treat_power r s hl hr hp]
  case unconfigured =>
    rw [exec_abort_sound s r ⟨ht, by simp [hp], by simp [hp], hs⟩, if_pos hp]
  case aborts =>
    have ⟨hd, hsafe, hu⟩ : s.cc.path ≠ .draining ∧ s.cc.path ≠ .safe ∧ s.cc.path ≠ .unconfigured := by
      rcases hp with hp | hp <;> simp [hp]
    obtain ⟨kind, -⟩ := isMarker_iff.mp hm
    have context := fun t => ctxOf_aborted r s t hn (marker_tag_ne_zero kind hs)
    refine ⟨aborted r s, by rw [exec_abort_sound s r ⟨ht, hd, hsafe, hs⟩, if_neg hu], aborted_hp r s, ?_, aborted_released r s,
      fun t hne => ?_, aborted_onlyIn r s⟩
    · rw [context, if_pos rfl, Context.idle]
    · rw [context, if_neg hne]

end Sys2Proof.Machine
end

section
/-! PROOF. The table of outstanding pieces under responses and expiries (R142 to R148): the reports of an outcome leave it as it is but
for withdrawal marks, so that the entry of the outcome stays as the event set it, whichever of response and expiry comes first. -/

namespace Sys2Proof.Machine

/-! ## Reports that leave the table as it is -/

@[simp] theorem evaluate_entries (ev : EvalEvent) (s : State) : (evaluate ev s).mp.entries = s.mp.entries :=
  (evaluate_kept ev s).entries.1

/-- A request handed to MP enters a ready list; an entry it takes only when it is granted (R136, R140). -/
@[simp] theorem handRequest_entries (o : Nat → Owner) (k : MemKind) (a n : Nat) (m : Option (List Bool)) (d : List Byte)
    (s : State) : (handRequest o k a n m d s).mp.entries = s.mp.entries := by simp [handRequest]

@[simp] theorem removeHeads_entries (s : State) : (removeHeads s).mp.entries = s.mp.entries := by
  simp only [removeHeads]
  split <;> simp

@[simp] theorem dropRecords_entries (chosen : CommitRecord → Bool) (why : FailReason) (a : Answer) (s : State) :
    (dropRecords chosen why a s).mp.entries = s.mp.entries := by simp [dropRecords]

@[simp] theorem addApplyCause_entries (s : State) : (addApplyCause s).mp.entries = s.mp.entries := by
  unfold addApplyCause
  split
  · simp
  · split <;> simp
  · rfl

@[simp] theorem trailerAcked_entries (s : State) : (trailerAcked s).mp.entries = s.mp.entries := by
  simp only [trailerAcked]
  split
  · rfl
  · split <;> simp

@[simp] theorem voidTrailerAcked_entries (s : State) : (voidTrailerAcked s).mp.entries = s.mp.entries := by
  unfold voidTrailerAcked
  split <;> simp

@[simp] theorem groupPieceAcked_entries (part : LogPart) (s : State) :
    (groupPieceAcked part s).mp.entries = s.mp.entries := by
  unfold groupPieceAcked
  split
  · rfl
  · split <;> simp

@[simp] theorem applyRelease_entries (i : Nat) (s : State) : (applyRelease i s).mp.entries = s.mp.entries := by
  simp only [applyRelease]
  split
  · rfl
  · split_ifs <;> simp

@[simp] theorem homePieceAcked_entries (i k : Nat) (s : State) : (homePieceAcked i k s).mp.entries = s.mp.entries := by
  simp only [homePieceAcked]
  split
  · rfl
  · split <;> simp

@[simp] theorem completePass_entries (k : Nat) (s : State) : (completePass k s).mp.entries = s.mp.entries := by
  simp only [completePass]
  split
  · rfl
  · split_ifs <;> simp

@[simp] theorem passPieceDone_entries (k i : Nat) (outcome : Option (List Byte)) (s : State) :
    (passPieceDone k i outcome s).mp.entries = s.mp.entries := by
  unfold passPieceDone
  split <;> simp

@[simp] theorem handHome_entries (rec : CommitRecord) (i : Nat) (w : RecordWrite) (s : State) :
    (handHome rec i w s).mp.entries = s.mp.entries := by simp [handHome]

/-- The new piece of a retry waits in its ready list (R145). -/
@[simp] theorem retryPiece_entries (p : Piece) (s : State) : (retryPiece p s).mp.entries = s.mp.entries := by
  simp [retryPiece]

/-! ## Steps of recovery that leave the table as it is -/

@[simp] theorem leaveStartUp_entries (p : PathState) (s : State) : (leaveStartUp p s).mp.entries = s.mp.entries := by
  simp [leaveStartUp]

@[simp] theorem handUnitRead_entries (what : RecoveryRequest) (p n : Nat) (s : State) :
    (handUnitRead what p n s).mp.entries = s.mp.entries := by simp [handUnitRead, handRecoveryRead]

@[simp] theorem handAnchorWrite_entries (what : RecoveryRequest) (slot : Nat) (bytes : List Byte) (s : State) :
    (handAnchorWrite what slot bytes s).mp.entries = s.mp.entries := by simp [handAnchorWrite]

@[simp] theorem formatDone_entries (s : State) : (formatDone s).mp.entries = s.mp.entries := by simp [formatDone]

@[simp] theorem scanStart_entries (s : State) : (scanStart s).mp.entries = s.mp.entries := by simp [scanStart]

@[simp] theorem closeScan_entries (s : State) : (closeScan s).mp.entries = s.mp.entries := by simp [closeScan]

@[simp] theorem closeDone_entries (s : State) : (closeDone s).mp.entries = s.mp.entries := by simp [closeDone]

@[simp] theorem passGroup_entries (g : Nat) (s : State) : (passGroup g s).mp.entries = s.mp.entries := by simp [passGroup]

@[simp] theorem beginScan_entries (current : Option Anchor) (s : State) :
    (beginScan current s).mp.entries = s.mp.entries := by
  unfold beginScan
  split <;> simp

@[simp] theorem slotsRead_entries (s : State) : (slotsRead s).mp.entries = s.mp.entries := by
  simp only [slotsRead]
  split
  · simp [beginFormat]
  · simp

@[simp] theorem startUnitRead_entries (bs : List Byte) (s : State) : (startUnitRead bs s).mp.entries = s.mp.entries := by
  simp only [startUnitRead]
  split
  · simp
  · split <;> simp

@[simp] theorem verifyNext_entries (gr : GroupUnderTest) (s : State) : (verifyNext gr s).mp.entries = s.mp.entries := by
  unfold verifyNext
  split_ifs
  · split <;> simp
  all_goals simp

@[simp] theorem trailerUnitRead_entries (bs : List Byte) (s : State) :
    (trailerUnitRead bs s).mp.entries = s.mp.entries := by
  unfold trailerUnitRead
  split
  · simp
  · split <;> simp

@[simp] theorem datHeaderRead_entries (bs : List Byte) (s : State) : (datHeaderRead bs s).mp.entries = s.mp.entries := by
  unfold datHeaderRead
  split
  · simp
  · split <;> simp

@[simp] theorem datRestRead_entries (bs : List Byte) (s : State) : (datRestRead bs s).mp.entries = s.mp.entries := by
  simp only [datRestRead]
  split
  · simp
  · split <;> simp

@[simp] theorem replayGroupEnd_entries (s : State) : (replayGroupEnd s).mp.entries = s.mp.entries := by
  unfold replayGroupEnd
  split
  · rfl
  · split <;> simp

@[simp] theorem replayPieceAcked_entries (i k : Nat) (s : State) :
    (replayPieceAcked i k s).mp.entries = s.mp.entries := by
  simp only [replayPieceAcked]
  split
  · rfl
  · split <;> simp

@[simp] theorem recoveryPieceAcked_entries (what : RecoveryRequest) (k : Nat) (s : State) :
    (recoveryPieceAcked what k s).mp.entries = s.mp.entries := by
  unfold recoveryPieceAcked
  split
  · split <;> simp [formatSecond]
  · rfl

/-- A write piece acknowledged to its owner changes no entry (R146). -/
@[simp] theorem reportAcked_entries (o : Owner) (s : State) : (reportAcked o s).mp.entries = s.mp.entries := by
  unfold reportAcked
  split <;> simp

/-! ## Reports that may withdraw requests (R148) -/

/-- An entry without the mark that its request has been withdrawn: all that `markWithdrawn` leaves of an entry. -/
def unmarked : Entry → Entry
  | .issued p t _ => .issued p t false
  | e => e

@[simp] theorem unmarked_markWithdrawn (sel : Owner → Bool) : unmarked ∘ markWithdrawn sel = unmarked := by
  funext e
  cases e <;> rfl

/-- Only an ISSUED entry carries the mark. -/
theorem eq_of_unmarked_eq {e e' : Entry} (h : unmarked e' = unmarked e) (he : issuedPiece e = none) : e' = e := by
  cases e with
  | issued => cases he
  | free => cases e' <;> cases h; rfl
  | orphaned p => cases e' <;> cases h; rfl

/-- Where two tables differ in the marks alone, an entry that is not ISSUED is the same in both. -/
theorem getElem?_of_unmarked {es es' : List Entry} {k : Nat} {e : Entry} (h : es'.map unmarked = es.map unmarked)
    (hk : es[k]? = some e) (he : issuedPiece e = none) : es'[k]? = some e := by
  have hu : (es'.map unmarked)[k]? = (es.map unmarked)[k]? := by rw [h]
  simp only [List.getElem?_map, hk, Option.map_some, Option.map_eq_some_iff] at hu
  obtain ⟨e', hk', he'⟩ := hu
  rw [hk', eq_of_unmarked_eq he' he]

/-- A withdrawal marks entries and changes nothing else in the table (R148). -/
@[simp] theorem withdrawRequests_unmarked (sel : Owner → Bool) (s : State) :
    (withdrawRequests sel s).mp.entries.map unmarked = s.mp.entries.map unmarked := by simp [withdrawRequests]

@[simp] theorem logStop_unmarked (giveUp : Bool) (s : State) :
    (logStop giveUp s).mp.entries.map unmarked = s.mp.entries.map unmarked := by
  simp only [logStop]
  split_ifs <;> simp

@[simp] theorem groupPieceFailed_unmarked (trailer : Bool) (s : State) :
    (groupPieceFailed trailer s).mp.entries.map unmarked = s.mp.entries.map unmarked := by
  unfold groupPieceFailed
  split <;> simp

@[simp] theorem anchorFailed_unmarked (s : State) :
    (anchorFailed s).mp.entries.map unmarked = s.mp.entries.map unmarked := by
  simp only [anchorFailed]
  split <;> simp

@[simp] theorem haltApply_unmarked (s : State) : (haltApply s).mp.entries.map unmarked = s.mp.entries.map unmarked := by
  simp only [haltApply]
  split <;> simp

@[simp] theorem applyFailure_unmarked (i : Nat) (s : State) :
    (applyFailure i s).mp.entries.map unmarked = s.mp.entries.map unmarked := by
  simp only [applyFailure]
  split <;> simp

@[simp] theorem homePieceFailed_unmarked (i : Nat) (s : State) :
    (homePieceFailed i s).mp.entries.map unmarked = s.mp.entries.map unmarked := by
  unfold homePieceFailed
  split <;> simp

@[simp] theorem fallbackReturned_unmarked (f : Fallback) (bs : List Byte) (s : State) :
    (fallbackReturned f bs s).mp.entries.map unmarked = s.mp.entries.map unmarked := by
  simp only [fallbackReturned]
  split
  · rfl
  · split <;> simp

@[simp] theorem fallbackPiece_unmarked (k : Nat) (m : PieceMark) (s : State) :
    (fallbackPiece k m s).mp.entries.map unmarked = s.mp.entries.map unmarked := by
  simp only [fallbackPiece]
  split
  · rfl
  · split_ifs <;> simp

@[simp] theorem failRecovery_unmarked (res : ResultCode) (s : State) :
    (failRecovery res s).mp.entries.map unmarked = s.mp.entries.map unmarked := by simp [failRecovery]

@[simp] theorem secondReadingDone_unmarked (bs : List Byte) (s : State) :
    (secondReadingDone bs s).mp.entries.map unmarked = s.mp.entries.map unmarked := by
  unfold secondReadingDone
  split
  · split
    · split <;> simp
    · simp
  · simp

@[simp] theorem recoveryReadDone_unmarked (what : RecoveryRequest) (bs : List Byte) (s : State) :
    (recoveryReadDone what bs s).mp.entries.map unmarked = s.mp.entries.map unmarked := by
  unfold recoveryReadDone
  split <;> simp

@[simp] theorem recoveryPieceRead_unmarked (what : RecoveryRequest) (k : Nat) (bytes : List Byte) (s : State) :
    (recoveryPieceRead what k bytes s).mp.entries.map unmarked = s.mp.entries.map unmarked := by
  simp only [recoveryPieceRead]
  split_ifs
  · simp
  · rfl
  · split
    · rfl
    · split <;> simp
  · rfl

@[simp] theorem recoveryPieceFailed_unmarked (what : RecoveryRequest) (s : State) :
    (recoveryPieceFailed what s).mp.entries.map unmarked = s.mp.entries.map unmarked := by
  unfold recoveryPieceFailed
  split <;> simp

/-- Read data reported to its owner changes no entry but for withdrawal marks (R146, R148). -/
@[simp] theorem reportRead_unmarked (o : Owner) (bytes : List Byte) (s : State) :
    (reportRead o bytes s).mp.entries.map unmarked = s.mp.entries.map unmarked := by
  unfold reportRead
  split <;> simp

/-- A failure reported to its owner changes no entry but for withdrawal marks (R146, R148). -/
@[simp] theorem reportFailed_unmarked (o : Owner) (s : State) :
    (reportFailed o s).mp.entries.map unmarked = s.mp.entries.map unmarked := by
  unfold reportFailed
  split <;> simp

@[simp] theorem attemptFailed_unmarked (p : Piece) (w : Bool) (s : State) :
    (attemptFailed p w s).mp.entries.map unmarked = s.mp.entries.map unmarked := by
  unfold attemptFailed
  split <;> simp

@[simp] theorem attemptOk_unmarked (p : Piece) (data : List Byte) (s : State) :
    (attemptOk p data s).mp.entries.map unmarked = s.mp.entries.map unmarked := by
  unfold attemptOk
  split <;> simp

/-! ## The entry of an outcome -/

/-- The table after a response to an ISSUED entry, withdrawal marks apart: the entry is FREE (R142). -/
theorem pieceResponse_unmarked (k : Nat) (p : Piece) (w : Bool) (st : MemStatus) (data : List Byte) (s : State) :
    (pieceResponse k p w st data s).mp.entries.map unmarked = (s.mp.entries.set k .free).map unmarked := by
  cases st <;> simp [pieceResponse, setEntry]

/-- The table as an expiry sets it, before the retry or the report: the entry is ORPHANED (R143). -/
theorem orphanEntry_entries (k : Nat) (p : Piece) (s : State) :
    (orphanEntry k p s).mp.entries = s.mp.entries.set k (.orphaned p) := by simp [orphanEntry, setEntry]

/-- A response leaves its ISSUED entry FREE, whatever the report to the owner brings about (R142). -/
theorem takeResponse_frees {k : Nat} {p : Piece} {t0 : Option (BitVec 16)} {w : Bool} {s : State} (st : MemStatus)
    (data : List Byte) (h : s.mp.entries[k]? = some (.issued p t0 w)) :
    (takeResponse k st data s).mp.entries[k]? = some .free := by
  have hk : k < s.mp.entries.length := (List.getElem?_eq_some_iff.mp h).1
  simp only [takeResponse, List.getD_eq_getElem?_getD, h, Option.getD_some, settle_entries]
  exact getElem?_of_unmarked (pieceResponse_unmarked k p w st data s) (List.getElem?_set_self hk) rfl

/-- An expiry leaves its ISSUED entry ORPHANED, whatever the retry or the report brings about (R143). -/
theorem expireEntry_orphans {k : Nat} {p : Piece} {timer : BitVec 16} {w : Bool} {s : State}
    (h : s.mp.entries[k]? = some (.issued p (some timer) w)) :
    (expireEntry k s).mp.entries[k]? = some (.orphaned p) := by
  have hk : k < s.mp.entries.length := (List.getElem?_eq_some_iff.mp h).1
  simp only [expireEntry, List.getD_eq_getElem?_getD, h, Option.getD_some, settle_entries]
  refine getElem?_of_unmarked (attemptFailed_unmarked p w _) ?_ rfl
  rw [orphanEntry_entries, List.getElem?_set_self hk]

/-- A FREE entry has no timer to run out (R141, R143). -/
theorem expireEntry_free {k : Nat} {s : State} (h : s.mp.entries[k]? = some .free) : expireEntry k s = s := by
  simp [expireEntry, h]

/-! ## The commands -/

/-- With RESET_N deasserted a response is taken (R168). -/
theorem exec_memoryResponse_live (id : MemId) (st : MemStatus) (data : List Byte) {s : State} (h : Live s) :
    exec (.memoryResponse id st data) s = .next (takeResponse id.toNat st data s) := by
  have h : s.pf.resetAsserted = false := h
  simp [exec, execMemoryResponse, live, h]

/-- With RESET_N deasserted an expiry takes effect (R168). -/
theorem exec_responseTimeout_live (id : MemId) {s : State} (h : Live s) :
    exec (.responseTimeout id) s = .next (expireEntry id.toNat s) := by
  have h : s.pf.resetAsserted = false := h
  simp [exec, execResponseTimeout, live, h]

/-- The expiry of a FREE entry changes nothing, RESET_N asserted or not. -/
theorem exec_responseTimeout_free (id : MemId) {s : State} (h : s.mp.entries[id.toNat]? = some .free) :
    exec (.responseTimeout id) s = .next s := by
  simp [exec, execResponseTimeout, live, expireEntry_free h]

/-- Settles O34: a late and a stray response by the state of their entry; of a response and an expiry the first settles the entry,
and the second finds it FREE or ORPHANED. -/
theorem lateAndStrayResponses : Obligations.LateAndStrayResponses := by
  intro id st data s hl
  have response := exec_memoryResponse_live id st data hl
  refine ⟨fun p h => ?late, fun h => ?stray, fun p t0 w h => ?responseFirst, fun p timer w h => ?expiryFirst⟩
  case late => simp [response, takeResponse, h, lateResponse, setEntry, State.withMp]
  case stray => simp [response, takeResponse, h, strayResponse]
  case responseFirst =>
    have freed := takeResponse_frees st data h
    exact ⟨_, response, freed, exec_responseTimeout_free id freed⟩
  case expiryFirst => exact ⟨_, exec_responseTimeout_live id hl, expireEntry_orphans h⟩

end Sys2Proof.Machine
end

section
/-! PROOF. What each command does, as a function of the state; the step, the lines and reset (R3, R168, R170). -/

namespace Sys2Proof.Machine

/-! ## The effect of a command -/

/-- The host's placing of a request and the events on the lines, which RESET_N does not hold off (R1, R168, R170). -/
def isLineEvent : Instr → Bool
  | .hostRequestAccept _ | .pfwNFall | .pfwNRise | .resetNAssert | .resetNDeassert | .powerOn => true
  | _ => false

/-- What a command makes of the state while the device takes it; `exec_eq` ties it to `exec`. -/
def effect : Instr → State → State
  | .hostRequestAccept r, s => acceptWaiting (placeRequest r s)
  | .read us, s => takeHead isRead (applyUpsets us s)
  | .write, s => takeHead isWrite s
  | .commit, s => takeHead (isMarker .commit) s
  | .abort, s => takeHead (isMarker .abort) s
  | .foldOver, s => takeHead (isMarker .foldOver) s
  | .foldUnder, s => takeHead (isMarker .foldUnder) s
  | .unknownMarkerCode, s => takeHead isUnknownMarker s
  | .responseDelivery, s => deliver s
  | .stageWaitExpiry, s =>
    match s.hp.hold, s.hp.intake with
    | some .stageWait, r :: _ => expireHead r s
    | _, _ => s
  | .loggingStart, s =>
    match oldestQueued s.cc with
    | some rec => if mayStartGroup s && hasRoom s rec then startLogging rec s else s
    | none => s
  | .logRecordHand us, s0 =>
    let s := applyUpsets us s0
    match s.le.job, loggingRecord s.cc with
    | some job, some rec =>
      if mayContinueGroup s.cc && groupAllIssued s && !job.void then
        match job.next with
        | .hdr => handGroupRecord .hdr job.first (hdrRecord s.le.epoch rec.number rec.count rec.units)
            (s.withLe { s.le with job := some { job with next := nextAfter 0 rec.count } })
        | .dat i => handDataRecord job rec i s
        | .done => s
      else s
    | _, _ => s
  | .trailerHand, s =>
    match s.le.job, loggingRecord s.cc with
    | some job, some rec =>
      if mayContinueGroup s.cc && !job.void && job.next == .done && job.unacked == 0 && job.trailer.isNone then
        handTrailer false job rec s
      else s
    | _, _ => s
  | .voidTrailerHand, s =>
    match s.le.job, loggingRecord s.cc with
    | some job, some rec =>
      if mayContinueGroup s.cc && job.void && job.unacked == 0 && job.trailer.isNone then handTrailer true job rec s else s
    | _, _ => s
  | .anchorWriteRequest, s => if wantsAnchor s then requestAnchor s else s
  | .applyStart, s =>
    match startable s.cc with
    | some rec => if s.ae.mode == .idle && mayApply s.cc then startApply rec s else s
    | none => s
  | .homeWriteHand us, s0 =>
    let s := applyUpsets us s0
    match s.ae.mode, s.ae.next, currentRecord s with
    | .walking, some i, some rec => walkStep rec i s
    | _, _, _ => s
  | .arbiterGrant, s => if s.cc.path = .safe then s else grantOne s
  | .channelAccept, s => acceptPiece s
  | .memoryResponse id st data, s => takeResponse id.toNat st data s
  | .responseTimeout entry, s => expireEntry entry.toNat s
  | .format, s => takeFrame 0xC2#8 0x0010 1 56 s
  | .recover, s => takeFrame 0xC2#8 0x0010 2 56 s
  | .restart, s => takeFrame 0xC2#8 0x0010 3 56 s
  | .unknownCommandCode v, s => takeFrame 0xC2#8 0x0010 v 56 s
  | .quiesceDiscard, s => quiesceSettle s
  | .replayWriteHand, s =>
    match s.re.mode, s.re.group, s.re.held with
    | .replay, some gr, some w => if replayReady s w then handReplay gr w s else s
    | _, _, _ => s
  | .endingComplete, s => endingSettle s
  | .pfwNFall, s => if s.pf.pfwLow then s else s.withPf { s.pf with pfwLow := true, qualifying := !s.pf.resetAsserted }
  | .pfwNRise, s => s.withPf { s.pf with pfwLow := false, qualifying := false }
  | .pfwNAssertion, s =>
    if s.pf.qualifying then
      let s1 := s.withPf { s.pf with qualifying := false }
      if s.cc.path = .draining ∨ s.cc.path = .safe then s1 else settle (enterDraining s1)
    else s
  | .safe, s => drainSettle s
  | .resetNAssert, s =>
    let s1 := resetBlocks s
    s1.withPf { s1.pf with resetAsserted := true }
  | .resetNDeassert, s => if s.pf.resetAsserted then startDevice s else s
  | .powerOn, s => startDevice s
  | .statusCapture a, s => takeFrame 0xC1#8 a 0 56 s
  | .perTagWordA t, s => takeFrame 0xC1#8 (tagAddrA t) 0 56 s
  | .perTagWordB t, s => takeFrame 0xC1#8 (tagAddrB t) 0 56 s
  | .starvationCounterRead p, s => takeFrame 0xC1#8 (starveAddr p) 0 56 s
  | .interruptCauseClear v, s => takeFrame 0xC2#8 0x0018 v 56 s
  | .registerWrite a v, s => takeFrame 0xC2#8 a v 56 s
  | .incompleteFrame cmd bits a, s => incompleteFrame cmd bits a s

/-- A command answers its effect; while RESET_N is asserted only the host's placing of a request and the line events have one
(R18, R168). -/
theorem exec_eq (c : Instr) (s : State) :
    exec c s = .next (if s.pf.resetAsserted = true ∧ isLineEvent c = false then s else effect c s) := by
  cases c
  case hostRequestAccept | pfwNFall | pfwNRise | resetNAssert | resetNDeassert | powerOn => simp [isLineEvent]; rfl
  all_goals
    simp only [isLineEvent, and_true]
    rfl

/-- With RESET_N deasserted a command answers its effect (R168). -/
theorem exec_live (c : Instr) {s : State} (h : Live s) : exec c s = .next (effect c s) := by
  have h : s.pf.resetAsserted = false := h
  rw [exec_eq, if_neg (by simp [h])]

/-- What an invariant of the step comes to: it does not look at the command queue, and every command's effect keeps it. -/
theorem step_keeps {Inv : State → Prop} (hq : ∀ s x, Inv s → Inv (s.withPending x)) (he : ∀ c s, Inv s → Inv (effect c s))
    {s t : State} (hs : Inv s) (h : step s = .next t) : Inv t := by
  unfold step at h
  split at h
  · cases h
    exact hs
  · rw [exec_eq] at h
    cases h
    split
    · exact hq _ _ hs
    · exact he _ _ (hq _ _ hs)

/-- Settles O1: the step is the dispatch of the front command. -/
theorem stepRunsFrontCommand : Obligations.StepRunsFrontCommand := by
  intro c rest s h
  simp [step, h]

/-- A frame leaves the command queue alone (R179). -/
theorem takeFrame_pending (cmd : BitVec 8) (a : BitVec 16) (v : Word32) (n : Nat) (s : State) :
    (takeFrame cmd a v n s).pending = s.pending := by
  unfold takeFrame
  split_ifs <;> simp

/-- No command's effect reaches the command queue. -/
theorem effect_pending (c : Instr) (s : State) : (effect c s).pending = s.pending := by
  cases c
  case statusCapture | perTagWordA | perTagWordB | starvationCounterRead | interruptCauseClear | registerWrite | format |
    recover | restart | unknownCommandCode => exact takeFrame_pending ..
  all_goals
    simp only [effect]
    repeat' split
    all_goals simp

/-- Settles O2: every command answers its effect, which leaves the command queue alone. -/
theorem everyCommandAnswersNext : Obligations.EveryCommandAnswersNext := by
  intro c s
  refine ⟨_, exec_eq c s, ?_⟩
  split
  · rfl
  · exact effect_pending c s

/-- Settles O3: only the host's placing of a request and the line events have an effect while RESET_N is asserted. -/
theorem resetHoldsDeviceOff : Obligations.ResetHoldsDeviceOff := by
  intro c s h h1 h2 h3 h4 h5 h6
  have line : isLineEvent c = false := by
    cases c
    case hostRequestAccept r => exact absurd rfl (h1 r)
    case pfwNFall | pfwNRise | resetNAssert | resetNDeassert | powerOn => contradiction
    all_goals rfl
  rw [exec_eq, if_pos ⟨h, line⟩]

/-! ## Reset and the lines -/

/-- Settles O4: the reset values, field for field. -/
theorem resetValuesOfEveryBlock : Obligations.ResetValuesOfEveryBlock := by
  refine ⟨⟨rfl, rfl, rfl, rfl, rfl, rfl⟩, ⟨?_, ?_, rfl, rfl, rfl, rfl, rfl, rfl⟩, rfl, rfl, rfl, rfl, rfl,
    ⟨rfl, rfl, rfl, rfl, rfl, rfl, rfl, rfl, rfl, rfl, rfl, rfl⟩, ⟨rfl, rfl⟩, rfl, ⟨rfl, rfl, rfl, rfl⟩, rfl⟩
  · exact List.range_eq_range'.symm
  · exact List.range_eq_range'.symm

/-- Settles O6: the two line events write the line's fields alone. -/
theorem pfwLineMoves : Obligations.PfwLineMoves := by
  intro s
  exact ⟨fun h => by simp [exec, execPfwNFall, h], rfl⟩

/-- The reset blocks, with the requests that wait on the channel taken into the intake queue (R1, R18). -/
theorem acceptWaiting_resetBlocks (s : State) : acceptWaiting (resetBlocks s) = { State.reset with
    pending := s.pending
    hp := { HostPort.reset with intake := s.hp.channel.take 16, channel := s.hp.channel.drop 16 }
    pf := { PowerFail.reset with pfwLow := s.pf.pfwLow } } := rfl

/-- With PFW_N high the device starts from the reset values (R168). -/
theorem startDevice_high (s : State) (h : s.pf.pfwLow = false) : startDevice s = { State.reset with
    pending := s.pending
    hp := { HostPort.reset with intake := s.hp.channel.take 16, channel := s.hp.channel.drop 16 } } := by
  simp only [startDevice, acceptWaiting_resetBlocks, h]
  rfl

/-- With PFW_N low the device starts into a drain (R154, R168). -/
theorem startDevice_low (s : State) (h : s.pf.pfwLow = true) :
    startDevice s = settle (enterDraining (acceptWaiting (resetBlocks s))) := by
  simp only [startDevice, acceptWaiting_resetBlocks, h, if_true]

end Sys2Proof.Machine
end

section
/-! PROOF. The commands that move one thing of the host port, the memory port or an engine (R1, R3, R4, R5, R10, R99, R100, R110,
R141, R173). -/

namespace Sys2Proof.Machine

/-! ## The host port -/

/-- Settles O8: acceptance fills the places that are free. -/
theorem hostRequestIsAccepted : Obligations.HostRequestIsAccepted := by
  intro r s hl
  have accepts := acceptWaiting_live (placeRequest r s) hl
  refine ⟨fun hn hc => ?_, fun hn => ?_⟩
  · obtain ⟨m, hm⟩ : ∃ m, 16 - s.hp.intake.length = m + 1 := ⟨15 - s.hp.intake.length, by omega⟩
    rw [exec_live _ hl, effect, accepts]
    simp [placeRequest, hc, hm]
  · rw [exec_live _ hl, effect, accepts]
    simp [placeRequest, hn]

/-- Settles O9: a delivery takes the head response. -/
theorem responseIsDelivered : Obligations.ResponseIsDelivered := by
  intro x rest s hl h
  rw [exec_live _ hl, effect, deliver, h]
  rfl

/-- A MARKER with an unknown code fails a protocol check (R5). -/
theorem protocolError_unknownMarker {r : HostRequest} (ids : List HostId) (h : isUnknownMarker r = true) :
    protocolError ids r = true := by
  simp [protocolError, h]

/-- An answer to a taken request touches the host port alone, so that the changed bits may come before or after it. -/
theorem withHp_applyUpsets (us : List Upset) (s : State) : (applyUpsets us s).hp = s.hp := by simp

/-- Settles O10: both answers come before the dispatch. -/
theorem powerAndProtocolAnswers : Obligations.PowerAndProtocolAnswers := by
  intro c s r ht
  have taken := exec_takes c s r ht
  obtain ⟨hl, hr, -, hn⟩ := ht
  have hl' : Live (applyUpsets (upsetsOf c) s) := by simpa [Live] using hl
  have hr' : (applyUpsets (upsetsOf c) s).hp.intake.head? = some r := by simpa using hr
  refine ⟨fun hp => ?_, fun hd hs hp => ?_⟩
  · rw [taken, treat_power r _ hl' hr' (by simpa using hp), withHp_applyUpsets]
  · have bad : protocolError s.hp.inflight r = true := by
      rcases hp with hp | rfl
      · exact hp
      · exact protocolError_unknownMarker _ hn
    rw [taken, treat, if_neg (by simp [hd, hs]), if_pos (by simpa [reservePlace] using bad),
      answerHead_taken _ r .protocol hl' hr', withHp_applyUpsets]

/-! ## The engines and the memory port -/

/-- Settles O25: the conditions of R99 are those of `wantsAnchor`. -/
theorem anchorWriteIsRequested : Obligations.AnchorWriteIsRequested := by
  intro s hl ha hp hq hr
  have slot : otherSlot s.le.slot = if s.le.slot = some 0 then 1 else 0 := by
    unfold otherSlot
    split <;> simp_all
  have wants : wantsAnchor s = true := by
    rcases hp with hp | ⟨hp, hs⟩ <;> rcases hr with hr | ⟨hr, h0⟩ <;> simp [wantsAnchor, *]
  rw [exec_live _ hl, effect, if_pos wants, requestAnchor, handRequest_log rfl, slot]
  rfl

/-- Settles O28: AE starts under the conditions of R110, and they fail otherwise. -/
theorem applyStartsInOrder : Obligations.ApplyStartsInOrder := by
  intro s hl
  refine ⟨fun rec hrec hm hq hp => ?_, fun h => ?_⟩
  · have may : mayApply s.cc = true := by
      rcases hp with hp | ⟨hp, hs⟩ <;> simp [mayApply, *]
    simp only [exec_live _ hl, effect, hrec, hm, may]
    rfl
  · rw [exec_live _ hl, effect]
    split
    · rename_i rec hrec
      rw [if_neg]
      simp only [mayApply, Bool.and_eq_true, Bool.or_eq_true, beq_iff_eq, Bool.not_eq_true', Option.isNone_iff_eq_none]
      rintro ⟨hm, hp, hq⟩
      simp_all
    · rfl

/-- Settles O33: the accepted piece's entry takes the timer of the configuration. -/
theorem channelAcceptLoadsTimer : Obligations.ChannelAcceptLoadsTimer := by
  intro s m rest p t0 w hl hc he hx
  have last : (rest.any fun x => x.id == m.id) = false := by simpa using hx
  have loaded : s.mp.entries.modify m.id (startTimer (loadedTimer s.mg.cfg)) =
      s.mp.entries.set m.id (startTimer (loadedTimer s.mg.cfg) (.issued p t0 w)) := by
    obtain ⟨hm, hg⟩ := List.getElem?_eq_some_iff.mp he
    rw [List.modify_eq_set_getElem?, he]
    rfl
  simp only [exec_live _ hl, effect, acceptPiece, hc, last, loaded]
  rfl

/-- Settles O43: with nothing LOGGING, in flight or ISSUED the drain step enters SAFE. -/
theorem drainCompletesToSafe : Obligations.DrainCompletesToSafe := by
  intro s hl hp hlog ha hi
  rw [exec_live _ hl, effect, drainSettle_eq]
  simp only [afterDrain, hp, hlog, ha, hi]
  rfl

/-! ## Reset -/

/-- Settles O53: every list that an invariant looks at is empty or at its reset size. -/
theorem resetStateIsSound : Obligations.ResetStateIsSound := by
  refine ⟨?queue, ?hold, ?descriptors, ?responses, ?table, ?due, ?ledger, ?shape⟩
  case queue =>
    exact ⟨Nat.zero_le _, fun _ h => absurd h (Nat.not_lt_zero _), .nil, nofun, nofun, fun _ => rfl, fun h => absurd rfl h.1⟩
  case hold => exact ⟨nofun, fun _ => rfl⟩
  case descriptors =>
    refine ⟨rfl, fun c hc _ => ?_, .of_eq ?_, .of_eq ?_, nofun⟩
    · rw [List.eq_of_mem_replicate hc]
      rfl
    · change List.range' 0 4096 ++ [] ++ [] = List.range 4096
      rw [List.append_nil, List.append_nil, List.range_eq_range']
    · change List.range' 0 8192 ++ [] = List.range 8192
      rw [List.append_nil, List.range_eq_range']
  case responses => exact ⟨rfl, Nat.zero_le _, .nil, .nil⟩
  case table => exact ⟨rfl, fun c => by cases c <;> exact Nat.zero_le _, rfl, nofun⟩
  case due => exact ⟨rfl, rfl, nofun, fun _ _ => rfl, nofun, ⟨nofun, nofun⟩⟩
  case ledger => exact ⟨fun _ => rfl, fun _ => Nat.zero_le _, nofun, nofun, nofun, fun _ => rfl⟩
  case shape => exact ⟨rfl, rfl, rfl, rfl, Nat.zero_le _, rfl⟩

end Sys2Proof.Machine
end

section
/-! PROOF. The management port: read and write frames, captures, configuration, causes, and incomplete frames (R179 to R192). -/

namespace Sys2Proof.Machine

/-! ## Frames -/

/-- A whole read frame by its register: the value, the register's effect, and the frame's own status (R179 to R182). -/
theorem takeFrame_reads (a : BitVec 16) (s : State) :
    takeFrame 0xC1#8 a 0 56 s = endFrame (readFrame a) 56 (readRegister a s).1 (readRegister a s).2 := rfl

/-- A whole write frame by its register (R182 to R185). -/
theorem takeFrame_writes (a : BitVec 16) (v : Word32) (s : State) :
    takeFrame 0xC2#8 a v 56 s = endFrame (writeFrame a v s) 56 0 (writeRegister a v s) := rfl

/-- The end of a whole frame clocks out the whole status byte (R179, R180). -/
theorem endFrame_whole (f : FrameStatus) (v : Word32) (s : State) : endFrame f 56 v s = s.withMg (frameEnded f v s.mg) := by
  simp [endFrame, frameEnded, firstBits]

/-- The read of a listed register other than the command register is reported taken (R180). -/
theorem readFrame_listed {a : BitVec 16} (hc : registerAt a ≠ .command) (hu : registerAt a ≠ .unlisted) :
    readFrame a = takenOnly := by
  unfold readFrame
  split
  · contradiction
  · simp [FrameStatus.clear, takenOnly, hu]

/-- The write to an address that is neither a configuration field nor the command or the cause register is a bad address and has no
effect (R182). -/
theorem write_badAddress {a : BitVec 16} (v : Word32) (s : State) (h0 : 0x0008 < a.toNat) (h1 : a.toNat ≠ 0x0010)
    (h2 : a.toNat ≠ 0x0018) :
    writeFrame a v s = ⟨true, false, false, false, true, false⟩ ∧ writeRegister a v s = s := by
  have n0 := registerAt_ne_config h0
  have n1 := registerAt_ne_command h1
  have n2 := registerAt_ne_causes h2
  unfold writeFrame writeRegister
  cases h : registerAt a <;> simp_all [FrameStatus.clear]

/-! ## Commands -/

/-- A command code, as the command register takes it, and its frame (R185). -/
theorem takeFrame_command {v : Word32} {cmd : Command} (h : commandOf v = some cmd) (s : State) :
    takeFrame 0xC2#8 0x0010 v 56 s = endFrame (commandFrame s) 56 0 (commandEvent cmd s) := by
  simp only [takeFrame_writes, writeFrame, writeRegister, registerAt, h]
  rfl

/-- A start-up command's effect is the frame of its code (R155, R185). -/
theorem effect_command {c : Instr} {cmd : Command}
    (h : (c = .format ∧ cmd = .format) ∨ (c = .recover ∧ cmd = .recover) ∨ (c = .restart ∧ cmd = .restart)) (s : State) :
    effect c s = endFrame (commandFrame s) 56 0 (commandEvent cmd s) := by
  rcases h with ⟨rfl, rfl⟩ | ⟨rfl, rfl⟩ | ⟨rfl, rfl⟩ <;> exact takeFrame_command rfl s

/-- The commands that the table of R155 does not take in a path state are refused. -/
theorem controllerTakes_refused {cmd : Command} {s : State} (hu : s.cc.path ≠ .unconfigured ∨ cmd = .restart)
    (hs : s.cc.path ≠ .stopped ∨ cmd = .recover) : controllerTakes cmd s = refusedCommand cmd s := by
  unfold controllerTakes
  split <;> simp_all

/-- Settles O39: a frame of a known code reports busy or taken, and CC sees the command only while none is BUSY. -/
theorem commandsAreRefusedForTheState : Obligations.CommandsAreRefusedForTheState := by
  intro c cmd s hl hc
  refine ⟨fun hb => ?busy, fun hb hu hs => ?refused⟩
  case busy =>
    rw [exec_live _ hl, effect_command hc, endFrame_whole]
    simp [commandFrame, commandEvent, hb, FrameStatus.clear]
  case refused =>
    rw [exec_live _ hl, effect_command hc, endFrame_whole, commandEvent, if_neg hb, controllerTakes_refused hu hs]
    have notBusy : (s.cc.status == .busy) = false := by simpa using hb
    simp [commandFrame, notBusy, FrameStatus.clear, takenOnly, refusedCommand]

/-! ## Reads -/

/-- The status byte of a frame has its indications at the bits of R192. -/
theorem frameByte_layout (f : FrameStatus) : frameByte f = BitVec.ofNat 8 ((if f.taken then 2 ^ 0 else 0) +
    (if f.locked then 2 ^ 1 else 0) + (if f.refused then 2 ^ 2 else 0) + (if f.busy then 2 ^ 3 else 0) +
    (if f.badAddress then 2 ^ 4 else 0) + (if f.incomplete then 2 ^ 5 else 0)) := by
  simp [frameByte, bitNat]

/-- The path codes are in the order of R192. -/
theorem pathCode_eq (p : PathState) :
    pathCode p = [PathState.unconfigured, .formatting, .recovering, .run, .stopped, .draining, .safe].idxOf p := by
  cases p <;> rfl

/-- The codes of the command status word are in the order of R192. -/
theorem commandStatusWord_layout (cc : CommitControl) : commandStatusWord cc =
    BitVec.ofNat 32 ([CommandStatus.idle, .busy, .done, .refusedState].idxOf cc.status +
      2 ^ 4 * [none, some Command.format, some .recover, some .restart].idxOf cc.command +
      2 ^ 8 * [none, some ResultCode.ok, some .formatFailed, some .noAnchor, some .readFailed, some .replayFailed,
        some .anchorFailed, some .interrupted].idxOf cc.result) := by
  have status : statusCode cc.status = [CommandStatus.idle, .busy, .done, .refusedState].idxOf cc.status := by
    cases cc.status <;> rfl
  have command : commandCode cc.command =
      [none, some Command.format, some .recover, some .restart].idxOf cc.command := by
    rcases cc.command with _ | c
    · rfl
    · cases c <;> rfl
  have result : resultCode cc.result = [none, some ResultCode.ok, some .formatFailed, some .noAnchor, some .readFailed,
      some .replayFailed, some .anchorFailed, some .interrupted].idxOf cc.result := by
    rcases cc.result with _ | r
    · rfl
    · cases r <;> rfl
  rw [commandStatusWord, status, command, result]

/-- The path status word has its fields at the bits of R192. -/
theorem pathStatusWord_layout (c : StatusCapture) : pathStatusWord c =
    BitVec.ofNat 32 ([PathState.unconfigured, .formatting, .recovering, .run, .stopped, .draining, .safe].idxOf c.path +
      (if c.stopLog then 2 ^ 4 else 0) + (if c.stopApply then 2 ^ 5 else 0) + (if c.quiesce then 2 ^ 6 else 0) +
      (if c.pfwLow then 2 ^ 8 else 0) + (if c.psafe then 2 ^ 9 else 0)) := by
  simp [pathStatusWord, pathCode_eq, bitNat]

/-- The read of a register that only has a value (R182). -/
theorem exec_statusCapture_plain {a : BitVec 16} {v : Word32} {s : State} (hl : Live s) (hf : readFrame a = takenOnly)
    (h : readRegister a s = (v, s)) : exec (.statusCapture a) s = .next (s.withMg (frameEnded takenOnly v s.mg)) := by
  rw [exec_live _ hl, effect, takeFrame_reads, endFrame_whole, hf, h]

/-- The high word of the log base is its bits from 32 on. -/
theorem configValue_baseHigh (c : Settings) : configValue c 1 = (c.logBase >>> 32).setWidth 32 := by
  apply BitVec.eq_of_toNat_eq
  simp [configValue, Nat.shiftRight_eq_div_pow]

/-- Settles O44: one register at a time, its value read off and its layout as above. -/
theorem statusReadCapturesTheBlock : Obligations.StatusReadCapturesTheBlock := by
  refine ⟨frameByte_layout, fun s hl => ⟨?path, fun i v h => ?captured, fun i v h => ?config, ?command, ?replayed, ?skipped,
    ?causes, fun i v h => ?counter⟩⟩
  case path =>
    dsimp only
    rw [exec_live _ hl, effect, takeFrame_reads, endFrame_whole]
    change Host.Outcome.next ((s.withMg _).withMg (frameEnded takenOnly (pathStatusWord (captureNow s)) _)) = _
    rw [pathStatusWord_layout]
    rfl
  case captured =>
    have hi : i < 10 := (List.getElem?_eq_some_iff.mp h).1
    interval_cases i <;> cases h <;> exact exec_statusCapture_plain hl rfl rfl
  case config =>
    have hi : i < 9 := (List.getElem?_eq_some_iff.mp h).1
    interval_cases i
    · cases h
      exact exec_statusCapture_plain hl rfl rfl
    · cases h
      exact exec_statusCapture_plain hl rfl (congrArg (·, s) (configValue_baseHigh s.mg.cfg))
    all_goals
      cases h
      exact exec_statusCapture_plain hl rfl rfl
  case command => exact exec_statusCapture_plain hl rfl (congrArg (·, s) (commandStatusWord_layout s.cc))
  case replayed | skipped | causes => exact exec_statusCapture_plain hl rfl rfl
  case counter =>
    have hi : i < 5 := (List.getElem?_eq_some_iff.mp h).1
    interval_cases i <;> cases h <;> exact exec_statusCapture_plain hl rfl rfl

/-- The figures of a tag captured, as word A gives them (R187, R192). -/
theorem tagWordA_layout (t : TagCapture) : tagWordA t =
    BitVec.ofNat 32 ([GroupState.idle, .opened, .faulted].idxOf t.state + 2 ^ 4 *
      [none, some FaultReason.overflow, some .groupFull, some .integrity, some .stopped, some .fold].idxOf t.reason +
      2 ^ 16 * t.count) := by
  have state : groupCode t.state = [GroupState.idle, .opened, .faulted].idxOf t.state := by
    cases t.state <;> rfl
  have reason : reasonCode t.reason =
      [none, some FaultReason.overflow, some .groupFull, some .integrity, some .stopped, some .fold].idxOf t.reason := by
    rcases t.reason with _ | r
    · rfl
    · cases r <;> rfl
  rw [tagWordA, state, reason]

/-- A capture of a tag takes its four figures (R187). -/
theorem captureTag_eq (t : Tag) (s : State) :
    captureTag t.toNat s = ⟨t, (ctxOf s t).state, (ctxOf s t).reason, (ctxOf s t).count, (ctxOf s t).bytes⟩ := by
  simp [captureTag]

/-- Settles O45: word A captures, word B captures when the capture holds no tag or another. -/
theorem tagEntryReads : Obligations.TagEntryReads := by
  refine ⟨rfl, fun t s ht hl => ?_⟩
  have frameA : readFrame (tagAddrA t) = takenOnly := readFrame_listed (by simp [registerAt_tagAddrA t ht])
    (by simp [registerAt_tagAddrA t ht])
  have frameB : readFrame (tagAddrB t) = takenOnly := readFrame_listed (by simp [registerAt_tagAddrB t ht])
    (by simp [registerAt_tagAddrB t ht])
  have wordA : exec (.perTagWordA t) s = .next (endFrame takenOnly 56 (readTagA t.toNat s).1 (readTagA t.toNat s).2) := by
    rw [exec_live _ hl, effect, takeFrame_reads, frameA, readRegister, registerAt_tagAddrA t ht]
  have wordB : exec (.perTagWordB t) s = .next (endFrame takenOnly 56 (readTagB t.toNat s).1 (readTagB t.toNat s).2) := by
    rw [exec_live _ hl, effect, takeFrame_reads, frameB, readRegister, registerAt_tagAddrB t ht]
  refine ⟨?_, fun cap hc hcap => ?_, fun hc => ?_⟩
  · rw [wordA, endFrame_whole, readTagA, captureTag_eq, tagWordA_layout]
    rfl
  · rw [wordB, endFrame_whole]
    simp only [readTagB, hc, hcap, BitVec.ofNat_toNat, BitVec.setWidth_eq, if_true, tagWordB]
    congr 2
    simp [frameEnded, hc]
  · have captures : readTagB t.toNat s = (tagWordB (captureTag t.toNat s),
        s.withMg { s.mg with tagCapture := some (captureTag t.toNat s) }) := by
      rcases hc with hc | ⟨cap, hc, hne⟩
      · simp only [readTagB, hc]
      · simp only [readTagB, hc, BitVec.ofNat_toNat, BitVec.setWidth_eq, if_neg hne]
    rw [wordB, endFrame_whole, captures, captureTag_eq]
    rfl

/-- Settles O46: the two starvation counters have their own registers. -/
theorem starvationReadClears : Obligations.StarvationReadClears := by
  intro s hl
  constructor <;>
  · rw [exec_live _ hl, effect, takeFrame_reads, endFrame_whole]
    rfl

/-! ## Writes -/

/-- A cause register that is not 0 has a cause in it (R189). -/
theorem ne_zero_iff_causeIn (w : BitVec 7) : w ≠ 0 ↔ ∃ c, causeIn c w = true := by
  constructor
  · intro h
    by_contra none
    push Not at none
    apply h
    ext i hi
    interval_cases i
    · simpa [causeIn, causeBit] using none .stopLog
    · simpa [causeIn, causeBit] using none .stopApply
    · simpa [causeIn, causeBit] using none .cmdDone
    · simpa [causeIn, causeBit] using none .starve
    · simpa [causeIn, causeBit] using none .eccUncorrectable
    · simpa [causeIn, causeBit] using none .orphan
    · simpa [causeIn, causeBit] using none .safe
  · rintro ⟨c, hc⟩ rfl
    simp [causeIn] at hc

/-- IRQ_N is asserted just when a cause is set whose enable is set (R190). -/
theorem irqAsserted_iff {s : State} (h : Live s) :
    irqAsserted s = true ↔ ∃ c, causeIn c s.mg.causes = true ∧ causeIn c s.mg.cfg.enables = true := by
  have h : s.pf.resetAsserted = false := h
  simp only [irqAsserted, h, Bool.not_false, Bool.true_and, bne_iff_ne, ne_zero_iff_causeIn]
  simp [causeIn]

/-- Settles O47: a cause stays when its bit of the value is 0. -/
theorem causeClearIsWriteOne : Obligations.CauseClearIsWriteOne := by
  intro v s hl
  have cleared : exec (.interruptCauseClear v) s =
      .next ((clearCauses v s).withMg (frameEnded takenOnly 0 (clearCauses v s).mg)) := by
    rw [exec_live _ hl, effect, takeFrame_writes, endFrame_whole]
    rfl
  refine ⟨_, cleared, fun c => ?_, ?_, rfl, rfl, fun b hb => ?_⟩
  · cases c <;> simp [clearCauses, frameEnded, causeIn, causeBit]
  · exact irqAsserted_iff (s := (clearCauses v s).withMg _) hl
  · cases b <;> simp [sameBlock, clearCauses] at hb ⊢

/-- A configuration write changes the configuration alone, in UNCONFIGURED and with a value in range (R183, R184). -/
theorem writeConfig_eq (i : Nat) (v : Word32) (s : State) : writeConfig i v s = s.withMg { s.mg with
    cfg := if s.cc.path = .unconfigured then (setConfig s.mg.cfg i v).getD s.mg.cfg else s.mg.cfg } := by
  unfold writeConfig
  split
  · rename_i c h
    split <;> simp [h, State.withMg]
  · rename_i h
    simp [h, State.withMg]

/-- Settles O48: the range and the new field of each configuration register. -/
theorem configurationWrites : Obligations.ConfigurationWrites := by
  intro a v s ha hl
  have written : exec (.registerWrite a v) s = .next ((writeConfig a.toNat v s).withMg (frameEnded
      ⟨true, s.cc.path != .unconfigured, (setConfig s.mg.cfg a.toNat v).isNone, false, false, false⟩ 0
      (writeConfig a.toNat v s).mg)) := by
    rw [exec_live _ hl, effect, takeFrame_writes, endFrame_whole]
    simp only [writeFrame, writeRegister, registerAt_config ha, FrameStatus.clear]
  rw [writeConfig_eq] at written
  generalize a.toNat = n at *
  refine ⟨_, written, ⟨rfl, by simp [frameEnded], ?refused⟩, fun h => ?kept, fun hu hv => ?taken, rfl, rfl, rfl,
    fun b hb => by cases b <;> simp [sameBlock] at hb ⊢⟩
  case refused => interval_cases n <;> simp [frameEnded, setConfig]
  case kept =>
    simp only [frameEnded, State.withMg_mg]
    split_ifs with hp
    · replace h := h.resolve_left (not_not.mpr hp)
      interval_cases n
      · exact absurd trivial h
      on_goal 8 => exact absurd trivial h
      all_goals exact congrArg (fun o : Option Settings => o.getD s.mg.cfg) (if_neg h)
    · rfl
  case taken =>
    have hp : s.cc.path = .unconfigured := not_not.mp hu
    simp only [frameEnded, State.withMg_mg, if_pos hp]
    interval_cases n
    · simp [setConfig_baseLow]
    · simp [setConfig_baseHigh _ _ hv]
    on_goal 7 => rfl
    all_goals exact congrArg (fun o : Option Settings => o.getD s.mg.cfg) (if_pos hv)

/-- Settles O49: the addresses that no register or a read-only one has, and the codes of no command. -/
theorem badAccessesChangeNothing : Obligations.BadAccessesChangeNothing := by
  intro a v code s hl
  refine ⟨fun h => ?_, fun h0 h1 h2 => ?_, ?_, fun h1 h2 h3 => ?_⟩
  · have reg : registerAt a = .unlisted := by
      push Not at h
      exact registerAt_unlisted (by omega) (by omega) (by omega) (by omega) (by omega) (by omega) (by omega)
    rw [exec_live _ hl, effect, takeFrame_reads, endFrame_whole, readRegister, readFrame, reg]
    rfl
  · obtain ⟨frame, same⟩ := write_badAddress v s h0 h1 h2
    rw [exec_live _ hl, effect, takeFrame_writes, endFrame_whole, frame, same]
  · rw [exec_live _ hl, effect, takeFrame_reads, endFrame_whole]
    rfl
  · have unknown : commandOf code = none := by
      rw [commandOf, if_neg h1, if_neg h2, if_neg h3]
    rw [exec_live _ hl, effect, takeFrame_writes, endFrame_whole]
    simp only [writeFrame, writeRegister, registerAt, unknown]
    rfl

/-! ## Frames cut short -/

theorem firstBits_zero {w : Nat} (n : Nat) : firstBits n (0 : BitVec w) = 0 := by
  unfold firstBits
  split <;> simp

/-- A field that was clocked out whole reads as it is. -/
theorem firstBits_whole {w n : Nat} (h : w ≤ n) (v : BitVec w) : firstBits n v = v := by
  simp [firstBits, h]

/-- A read cut short after its address field is a read of that register (R179). -/
theorem incompleteFrame_read {bits : Nat} (h1 : 24 ≤ bits) (h2 : bits < 56) (a : BitVec 16) (s : State) :
    incompleteFrame 0xC1 bits a s = cutRead a bits s := by
  rw [incompleteFrame, if_neg (by omega), if_pos ⟨rfl, h1⟩]

/-- Settles O50: what takes nothing reports incomplete, and a read cut after its address field is the whole read but for the bits that
were not clocked out. -/
theorem incompleteFrameTakesOnlyCompleteReads : Obligations.IncompleteFrameTakesOnlyCompleteReads := by
  intro cmd bits a s hl
  refine ⟨fun h1 h2 => ?nothing, fun h1 h2 => ?starvation, fun h1 h2 => ?read⟩
  case nothing =>
    have notWhole : ¬ (56 ≤ bits ∧ (cmd = 0xC1 ∨ cmd = 0xC2)) := by
      rintro ⟨hb, hc⟩
      rcases h1 with h1 | ⟨h3, h4⟩
      · omega
      · exact hc.elim h3 h4
    have notRead : ¬ (cmd = 0xC1 ∧ 24 ≤ bits) := by
      rintro ⟨hc, hb⟩
      rcases h2 with h2 | h2
      · exact h2 hc
      · omega
    rw [exec_live _ hl, effect, incompleteFrame, if_neg notWhole, if_neg notRead]
    simp only [endFrame, frameCut, frameEnded, firstBits_zero]
    rfl
  case starvation =>
    rw [exec_live _ hl, effect, incompleteFrame_read h1 h2]
    rfl
  case read =>
    refine ⟨_, exec_live _ hl, ?_⟩
    rw [exec_live _ hl, effect, effect, incompleteFrame_read h1 h2, takeFrame_reads, cutRead, endFrame, endFrame,
      firstBits_whole (by omega : 8 ≤ bits), firstBits_whole (by omega : 8 ≤ 56)]
    rfl

end Sys2Proof.Machine
end

section
/-! PROOF. The elementary changes of the state and what each keeps: the commit queue, the request that holds the port, the holders of
descriptors, the responses owed and the shapes (R1, R3, R6, R11, R19, R20, R57, R58, R63, R67). -/

namespace Sys2Proof.Machine

/-! ## Moves -/

/-- `QueueSound` but for where RE works: what a change inside an event keeps even while the path is on its way (R154). -/
structure QueueCore (s : State) : Prop where
  atMost32 : s.cc.queue.length ≤ 32
  numbered : ∀ i (h : i < s.cc.queue.length), s.cc.queue[i].number = s.cc.next - BitVec.ofNat 32 (s.cc.queue.length - i)
  ordered : s.cc.queue.Pairwise inOrder
  noneApplied : ∀ r ∈ s.cc.queue, r.state ≠ .applied
  voidedEmpty : ∀ r ∈ s.cc.queue, r.state = .voided → r.writes = []
  emptyBeforeRun : beforeRun s.cc.path → s.cc.queue = []

/-- RE works only in FORMATTING and RECOVERING. -/
def RecoveryPlaced (s : State) : Prop := recoveryWorks s.re → s.cc.path = .formatting ∨ s.cc.path = .recovering

theorem queueSound_iff (s : State) : QueueSound s ↔ QueueCore s ∧ RecoveryPlaced s :=
  ⟨fun h => ⟨⟨h.atMost32, h.numbered, h.ordered, h.noneApplied, h.voidedEmpty, h.emptyBeforeRun⟩, h.recoveryPath⟩,
    fun ⟨h, hr⟩ => ⟨h.atMost32, h.numbered, h.ordered, h.noneApplied, h.voidedEmpty, h.emptyBeforeRun, hr⟩⟩

/-- A change that leaves the path and keeps every invariant of the queue, the hold, the descriptors, the responses and the shapes. -/
structure Moves (s t : State) : Prop where
  path : t.cc.path = s.cc.path
  works : recoveryWorks t.re → recoveryWorks s.re
  queue : QueueCore s → QueueCore t
  hold : HoldSound s → HoldSound t
  descs : QueueCore s → HoldSound s → DescriptorsConserved s → DescriptorsConserved t
  owed : QueueCore s → HoldSound s → ResponsesOwed s → ResponsesOwed t
  shape : ShapeSound s → ShapeSound t

theorem Moves.refl (s : State) : Moves s s := ⟨rfl, id, id, id, fun _ _ h => h, fun _ _ h => h, id⟩

theorem Moves.trans {s u t : State} (h : Moves s u) (k : Moves u t) : Moves s t where
  path := k.path.trans h.path
  works w := h.works (k.works w)
  queue q := k.queue (h.queue q)
  hold p := k.hold (h.hold p)
  descs q p d := k.descs (h.queue q) (h.hold p) (h.descs q p d)
  owed q p d := k.owed (h.queue q) (h.hold p) (h.owed q p d)
  shape d := k.shape (h.shape d)

/-- The part of the state that the invariants look at is the same. -/
structure Same (s t : State) : Prop where
  hp : t.hp = s.hp
  descPool : t.ss.descPool = s.ss.descPool := by rfl
  segPool : t.ss.segPool = s.ss.segPool := by rfl
  cells : t.ss.cells = s.ss.cells := by rfl
  segs : ∀ i, (descAt t i).segs = (descAt s i).segs := by intro; rfl
  lengths : ∀ i, (descAt t i).length = (descAt s i).length := by intro; rfl
  gt : t.gt = s.gt
  queue : t.cc.queue = s.cc.queue
  next : t.cc.next = s.cc.next
  path : t.cc.path = s.cc.path
  records : t.mp.records.map (Option.map PassRecord.id) = s.mp.records.map (Option.map PassRecord.id)
  works : recoveryWorks t.re → recoveryWorks s.re
  cfg : t.mg.cfg = s.mg.cfg

/-- The ids owed by the memory port are those of its records. -/
theorem owedPasses_of_ids {mp mp' : MemoryPort}
    (h : mp'.records.map (Option.map PassRecord.id) = mp.records.map (Option.map PassRecord.id)) : owedPasses mp' = owedPasses mp := by
  have ids : ∀ m : MemoryPort, owedPasses m = (m.records.map (Option.map PassRecord.id)).filterMap id := fun m => by
    rw [owedPasses, List.filterMap_map]
    rfl
  rw [ids, ids, h]

theorem Same.moves {s t : State} (h : Same s t) : Moves s t where
  path := h.path
  works := h.works
  queue q := by
    obtain ⟨q1, q2, q3, q4, q5, q6⟩ := q
    constructor <;> simp only [h.queue, h.next, h.path] <;> assumption
  hold p := by
    obtain ⟨p1, p2⟩ := p
    constructor <;> simp only [h.hp, h.path] <;> assumption
  descs _ _ d := by
    obtain ⟨d1, d2, d3, d4, d5⟩ := d
    have held : heldDescs t = heldDescs s := by simp only [heldDescs, heldByGroups, heldByRecords, h.gt, h.queue]
    refine ⟨by rw [h.gt]; exact d1, by rw [h.gt]; exact d2, ?_, ?_, ?_⟩
    · simpa only [heldByGroups, heldByRecords, h.gt, h.queue, h.descPool] using d3
    · simpa only [held, h.segPool, h.segs] using d4
    · simpa only [held, h.segs, h.lengths] using d5
  owed _ _ o := by
    obtain ⟨o1, o2, o3, o4⟩ := o
    have passes := owedPasses_of_ids h.records
    constructor <;> simp only [h.hp, owedCommits, h.queue, passes] <;> assumption
  shape d := by
    obtain ⟨d1, d2, d3, d4, d5, d6⟩ := d
    refine ⟨by rw [h.cells]; exact d1, by rw [h.hp]; exact d2, ?_, by rw [h.gt]; exact d4, by rw [h.hp]; exact d5,
      by rw [h.cfg]; exact d6⟩
    have := congrArg List.length h.records
    simpa using this.trans (by simpa using d3)

/-! ## The host port -/

/-- The host port when the head request has left with `xs` accepted behind it: at most 16 requests when there were. -/
def leftWith (xs ys : List HostRequest) (hp : HostPort) : HostPort :=
  { hp with intake := hp.intake.tail ++ xs, channel := ys, hold := none }

/-- Acceptance fills the intake queue up to 16, or leaves it while RESET_N is asserted (R1). -/
theorem acceptWaiting_with (s : State) : ∃ xs ys, acceptWaiting s = s.withHp { s.hp with intake := s.hp.intake ++ xs, channel := ys } ∧
    (s.hp.intake.length ≤ 16 → (s.hp.intake ++ xs).length ≤ 16) := by
  unfold acceptWaiting
  split
  · exact ⟨[], s.hp.channel, by simp [State.withHp], by simp⟩
  · refine ⟨_, _, rfl, fun h => ?_⟩
    simp [Config.intakePlaces]
    omega

/-- The head request leaves the port (R4). -/
theorem leaveIntake_with (s : State) : ∃ xs ys, leaveIntake s = s.withHp (leftWith xs ys s.hp) ∧
    (s.hp.intake.length ≤ 16 → (s.hp.intake.tail ++ xs).length ≤ 16) := by
  obtain ⟨xs, ys, h, hl⟩ := acceptWaiting_with (s.withHp { s.hp with intake := s.hp.intake.tail, hold := none })
  refine ⟨xs, ys, h, fun h16 => hl ?_⟩
  simp only [State.withHp_hp, List.length_tail]
  omega

/-- A change of the host port alone: what it has to keep. -/
theorem moves_withHp {s : State} {hp : HostPort} (hold : HoldSound s → HoldSound (s.withHp hp))
    (owed : HoldSound s → ResponsesOwed s → ResponsesOwed (s.withHp hp)) (slots : s.hp.slots.length = 8 → hp.slots.length = 8)
    (intake : s.hp.intake.length ≤ 16 → hp.intake.length ≤ 16) : Moves s (s.withHp hp) where
  path := rfl
  works := id
  queue q := ⟨q.1, q.2, q.3, q.4, q.5, q.6⟩
  hold := hold
  descs _ _ d := ⟨d.1, d.2, d.3, d.4, d.5⟩
  owed _ := owed
  shape d := ⟨d.1, slots d.2, d.3, d.4, intake d.5, d.6⟩

/-- Acceptance from the channel, and the host's placing of a request on it (R1). -/
theorem moves_accepts (s : State) (xs ys : List HostRequest) (h : s.hp.intake.length ≤ 16 → (s.hp.intake ++ xs).length ≤ 16) :
    Moves s (s.withHp { s.hp with intake := s.hp.intake ++ xs, channel := ys }) := by
  refine moves_withHp (fun p => ⟨fun c hc => ?_, p.2⟩) (fun _ o => ⟨o.1, o.2, o.3, o.4⟩) id h
  obtain ⟨r, hr, hp⟩ := p.1 c hc
  refine ⟨r, ?_, hp⟩
  obtain ⟨rest, hi⟩ := intake_of_head hr
  simp [hi]

theorem acceptWaiting_moves (s : State) : Moves s (acceptWaiting s) := by
  obtain ⟨xs, ys, h, hl⟩ := acceptWaiting_with s
  rw [h]
  exact moves_accepts s xs ys hl

/-- A response is delivered (R3). -/
theorem deliver_moves (s : State) : Moves s (deliver s) := by
  refine moves_withHp (fun p => ⟨p.1, p.2⟩) (fun _ o => ⟨o.1, ?_, o.3, o.4⟩) id id
  have := o.2
  simp only [State.withHp_hp, List.length_tail]
  omega

/-- Other merge slots, as many. -/
theorem moves_slots (s : State) (xs : List (Option MergeSlot)) (h : xs.length = s.hp.slots.length) :
    Moves s (s.withHp { s.hp with slots := xs }) :=
  moves_withHp (fun p => ⟨p.1, p.2⟩) (fun _ o => ⟨o.1, o.2, o.3, o.4⟩) (fun h8 => h.trans h8) id

/-- With no request holding nothing needs to be said of the head (R11). -/
theorem holdSound_of_none {s : State} (h : s.hp.hold = none) : HoldSound s :=
  ⟨fun c hc => (by rw [h] at hc; cases hc), fun _ => h⟩

/-! ## A place claimed -/

/-- The state in which the head request is treated: one place is reserved for it, now or since it holds the port (R3, R11). -/
def claimPlace (s : State) : State := s.withHp { s.hp with reserved := s.hp.reserved + 1 - owedHold s.hp }

/-- A response place is free for the head request, or has been reserved for it (R3, R4). -/
def HasPlace (s : State) : Prop := s.hp.hold ≠ none ∨ s.hp.responses.length + s.hp.reserved < 272

theorem claimPlace_of_none {s : State} (h : s.hp.hold = none) : claimPlace s = reservePlace s := by
  simp [claimPlace, reservePlace, owedHold, h]

theorem claimPlace_of_some {s : State} {c : HoldCondition} (h : s.hp.hold = some c) : claimPlace s = s := by
  have one : owedHold s.hp = 1 := by simp [owedHold, h]
  rw [claimPlace, one]
  rfl

/-- With a place, the places in use stay within 272 when the head request is answered or holds. -/
theorem owedHold_places {s : State} (hp : HasPlace s) (o : ResponsesOwed s) :
    s.hp.responses.length + (s.hp.reserved + 1 - owedHold s.hp) ≤ 272 ∧ owedHold s.hp ≤ s.hp.reserved := by
  have h1 := o.placesOwed
  have h2 := o.places272
  unfold owedHold at *
  rcases hp with hp | hp
  · rw [← Option.isSome_iff_ne_none] at hp
    simp only [hp, if_true] at *
    omega
  · split_ifs at * <;> omega

/-- The head request is answered and leaves (R3, R4, R12). -/
theorem answerHead_moves {r : HostRequest} (a : Answer) (s : State) (hp : HasPlace s) (hr : s.hp.intake.head? = some r) :
    Moves s (answerHead a (claimPlace s)) := by
  obtain ⟨rest, hi⟩ := intake_of_head hr
  have hi' : (claimPlace s).hp.intake = r :: rest := hi
  simp only [answerHead, hi']
  obtain ⟨xs, ys, h, hl⟩ := leaveIntake_with (respond r.id a [] (claimPlace s))
  rw [h]
  refine moves_withHp (fun _ => holdSound_of_none rfl) (fun _ o => ?_) id hl
  obtain ⟨h1, h2⟩ := owedHold_places hp o
  have h3 := o.placesOwed
  refine ⟨?_, ?_, o.3, o.4⟩
  · change s.hp.reserved + 1 - owedHold s.hp - 1 = 0 + (owedCommits s.cc).length + (owedPasses s.mp).length
    omega
  · simp only [leftWith, respond, claimPlace, State.withHp_hp, List.length_append, List.length_singleton]
    omega

/-- The head request holds the port (R11). -/
theorem holdHead_moves {r : HostRequest} {c : HoldCondition} (s : State) (hp : HasPlace s) (hr : s.hp.intake.head? = some r)
    (hg : HoldSound s → protocolError s.hp.inflight r = false ∧ s.cc.path ≠ .draining ∧ s.cc.path ≠ .safe)
    (hc : holdsRightly c r = true) : Moves s (holdHead c (claimPlace s)) := by
  refine moves_withHp (fun p => ⟨fun c' hc' => ⟨r, hr, (hg p).1, ?_⟩, fun hd => ?_⟩) (fun _ o => ?_) id id
  · cases hc'
    exact hc
  · exact (hd.elim (hg p).2.1 (hg p).2.2).elim
  · obtain ⟨h1, h2⟩ := owedHold_places hp o
    have h3 := o.placesOwed
    refine ⟨?_, h1, o.3, o.4⟩
    change s.hp.reserved + 1 - owedHold s.hp = 1 + (owedCommits s.cc).length + (owedPasses s.mp).length
    omega

/-- A freed id passes the protocol checks as before. -/
theorem protocolError_mono {ids ids' : List HostId} {r : HostRequest} (h : ∀ x ∈ ids', x ∈ ids)
    (hp : protocolError ids r = false) : protocolError ids' r = false := by
  simp only [protocolError, Bool.or_eq_false_iff, List.contains_eq_mem, decide_eq_false_iff_not] at *
  exact ⟨hp.1, fun hx => hp.2 (h _ hx)⟩

end Sys2Proof.Machine
end

section
/-! PROOF. What the moves of descriptors between the pools, the groups and the commit records keep, and the moves of a commit record
through its life (R19, R20, R33, R38, R57, R58, R63, R67, R71). -/

namespace Sys2Proof.Machine

/-! ## Descriptors -/

/-- What a release leaves of descriptors that were in lists: the pools have got what the lists have lost (R19, R20, R33). -/
theorem conserved_of_released {ds : List Nat} {s t : State} (h : DescriptorsConserved s) (hr : Released ds s t)
    (h63 : t.gt.ctxs.length = 63) (hopen : ∀ c ∈ t.gt.ctxs, c.state ≠ .opened → c.writes = [])
    (hp : (heldDescs s).Perm (ds ++ heldDescs t)) : DescriptorsConserved t := by
  have pool : (s.ss.descPool ++ heldDescs s).Perm (List.range Config.descriptors) := by
    simpa [heldDescs, List.append_assoc] using h.oneHolder
  have nodup : (ds ++ heldDescs t).Nodup :=
    hp.nodup_iff.mp (List.nodup_append.mp (pool.nodup_iff.mpr List.nodup_range)).2.1
  obtain ⟨nodupD, -, apart⟩ := List.nodup_append.mp nodup
  have kept : ∀ i ∈ heldDescs t, descAt t i = descAt s i := by
    intro i hi
    have : i ∉ ds := fun hd => apart i hd i hi rfl
    simp [descAt, hr.fields, this]
  refine ⟨h63, hopen, ?_, ?_, fun i hi => ?_⟩
  · have : (t.ss.descPool ++ heldDescs t).Perm (s.ss.descPool ++ heldDescs s) := by
      rw [hr.descPool, List.append_assoc]
      exact hp.symm.append_left _
    simpa [heldDescs, List.append_assoc] using this.trans pool
  · have same : (heldDescs t).flatMap (fun i => (descAt t i).segs) = (heldDescs t).flatMap fun i => (descAt s i).segs :=
      List.flatMap_congr fun i hi => by rw [kept i hi]
    rw [hr.segPool nodupD, same, List.append_assoc, ← List.flatMap_append]
    exact ((hp.symm.flatMap_right _).append_left _).trans h.segmentsOnce
  · rw [kept i hi]
    exact h.segmentsNeeded i (hp.symm.subset (List.mem_append_right _ hi))

/-- Groups that change their lists, with a release of what they lose. -/
theorem moves_regroups {s : State} (g : GroupTable) (ds : List Nat) (h63 : g.ctxs.length = s.gt.ctxs.length)
    (hg : HoldSound s → DescriptorsConserved s → (∀ c ∈ g.ctxs, c.state ≠ .opened → c.writes = []) ∧
      (heldByGroups s.gt).Perm (ds ++ heldByGroups g)) : Moves s (releaseDescs ds (s.withGt g)) where
  path := rfl
  works := id
  queue q := ⟨q.1, q.2, q.3, q.4, q.5, q.6⟩
  hold p := ⟨p.1, p.2⟩
  descs _ p d := by
    obtain ⟨hopen, perm⟩ := hg p d
    refine conserved_of_released (ds := ds) d ?_ (h63.trans d.contexts63) hopen ?_
    · exact (released_releaseDescs ds (s.withGt g)).of_same rfl rfl rfl rfl rfl rfl rfl rfl
    · change (heldByGroups s.gt ++ heldByRecords s.cc).Perm (ds ++ (heldByGroups g ++ heldByRecords s.cc))
      rw [← List.append_assoc]
      exact perm.append_right _
  owed _ _ o := ⟨o.1, o.2, o.3, o.4⟩
  shape d := by
    refine ⟨?_, d.2, d.3, h63.trans d.4, d.5, d.6⟩
    simpa [releaseDescs, foldl_releaseOne] using d.1

/-- A context set takes the place of the tag's old one in the table. -/
theorem held_setCtx {s : State} {t : Tag} (c : Context) (h : s.gt.ctxs.length = 63) (h0 : t ≠ 0) :
    (c.writes ++ heldByGroups s.gt).Perm ((ctxOf s t).writes ++ heldByGroups (setCtx t c s).gt) := by
  have hne : t.toNat ≠ 0 := fun e => h0 (BitVec.eq_of_toNat_eq e)
  have hk : t.toNat - 1 < s.gt.ctxs.length := by have := t.isLt; omega
  have old : ctxOf s t = s.gt.ctxs[t.toNat - 1] := by
    rw [ctxOf, if_neg h0, List.getD_eq_getElem?_getD, List.getElem?_eq_getElem hk]
    rfl
  rw [setCtx, if_neg h0, old]
  simp only [heldByGroups, State.withGt_gt]
  rw [List.set_eq_take_append_cons_drop, if_pos hk]
  nth_rw 1 [← List.take_append_drop (t.toNat - 1) s.gt.ctxs, List.drop_eq_getElem_cons hk]
  simp only [List.flatMap_append, List.flatMap_cons]
  rw [List.perm_iff_count]
  intro a
  simp only [List.count_append]
  omega

/-- Setting a context without a list keeps that only OPEN contexts have one. -/
theorem onlyOpen_setCtx {s : State} {t : Tag} {c : Context} (h : ∀ x ∈ s.gt.ctxs, x.state ≠ .opened → x.writes = [])
    (hc : c.state ≠ .opened → c.writes = []) : ∀ x ∈ (setCtx t c s).gt.ctxs, x.state ≠ .opened → x.writes = [] := by
  intro x hx
  unfold setCtx at hx
  split at hx
  · exact h x hx
  · rcases List.mem_or_eq_of_mem_set hx with hx | rfl
    · exact h x hx
    · exact hc

/-- A tag's context has a list only when it is OPEN (R38). -/
theorem ctxOf_onlyOpen {s : State} {t : Tag} (h : ∀ x ∈ s.gt.ctxs, x.state ≠ .opened → x.writes = [])
    (ho : (ctxOf s t).state ≠ .opened) : (ctxOf s t).writes = [] := by
  by_cases h0 : t = 0
  · simp [ctxOf, h0, Context.idle]
  · simp only [ctxOf, if_neg h0, List.getD_eq_getElem?_getD] at *
    cases hx : s.gt.ctxs[t.toNat - 1]? with
    | none => rfl
    | some x =>
      rw [hx] at ho
      exact h x (List.mem_of_getElem? hx) ho

/-- The setting of a context changes the group table alone. -/
theorem setCtx_eq (t : Tag) (c : Context) (s : State) : setCtx t c s = s.withGt (setCtx t c s).gt := by
  unfold setCtx
  split <;> rfl

/-- One tag gives up its list, which is released, and takes a context without one (R33, R44, R48). -/
theorem moves_groupLost {s : State} (t : Tag) (c : Context) (h0 : HoldSound s → t ≠ 0) (hc : c.writes = []) :
    Moves s (releaseDescs (ctxOf s t).writes (setCtx t c s)) := by
  rw [setCtx_eq]
  refine moves_regroups _ _ (by simp) fun p d => ⟨onlyOpen_setCtx d.onlyOpenHold fun _ => hc, ?_⟩
  simpa [hc] using held_setCtx c d.contexts63 (h0 p)

/-- A tag without a list takes another context without one. -/
theorem moves_ctx {s : State} (t : Tag) (c : Context) (h0 : HoldSound s → t ≠ 0) (ho : (ctxOf s t).state ≠ .opened)
    (hc : c.writes = []) : Moves s (setCtx t c s) := by
  rw [setCtx_eq, show s.withGt (setCtx t c s).gt = releaseDescs [] (s.withGt (setCtx t c s).gt) from rfl]
  refine moves_regroups _ _ (by simp) fun p d => ⟨onlyOpen_setCtx d.onlyOpenHold fun _ => hc, ?_⟩
  simpa [hc, ctxOf_onlyOpen d.onlyOpenHold ho] using held_setCtx c d.contexts63 (h0 p)

/-- Every OPEN context gives up its list, tag 1 first, for a context without one (R45, R56). -/
theorem moves_openLists {s : State} (f : Context → Context) (hf : ∀ c, c.state = .opened → (f c).writes = [])
    (hk : ∀ c, c.state ≠ .opened → c.writes = [] → (f c).writes = []) :
    Moves s (releaseDescs (openLists s) (s.withGt ⟨s.gt.ctxs.map f⟩)) := by
  refine moves_regroups _ _ (by simp) fun _ d => ?_
  have none : ∀ c ∈ s.gt.ctxs, (f c).writes = [] := fun c hc =>
    if h : c.state = .opened then hf c h else hk c h (d.onlyOpenHold c hc h)
  refine ⟨fun c hc _ => ?_, .of_eq ?_⟩
  · obtain ⟨c', hc', rfl⟩ := List.mem_map.mp hc
    exact none c' hc'
  · have lists : openLists s = heldByGroups s.gt := by
      refine List.flatMap_congr fun c hc => ?_
      split
      · rfl
      · rename_i h
        exact (d.onlyOpenHold c hc h).symm
    have empty : heldByGroups ⟨s.gt.ctxs.map f⟩ = [] := by
      simp only [heldByGroups, List.flatMap_map]
      exact List.flatMap_eq_nil_iff.mpr none
    rw [lists, empty, List.append_nil]

/-- A staged write's descriptor leaves the pool's head for the group's list, with the head segments (R23, R41). -/
theorem moves_stages {s : State} (r : HostRequest) (h0 : HoldSound s → r.tag ≠ 0) (hs : sufficient s.ss r.length = true) :
    Moves s (setCtx r.tag (appendWrite (ctxOf s r.tag) (s.ss.descPool.headD 0) r.length (writeMask r).isSome)
      (s.withSs { allocate r s.ss with timer := none })) where
  path := by simp
  works := by simp
  queue q := ⟨by simpa using q.1, by simpa using q.2, by simpa using q.3, by simpa using q.4, by simpa using q.5, by simpa using q.6⟩
  hold p := ⟨by simpa using p.1, by simpa using p.2⟩
  owed _ _ o := ⟨by simpa using o.1, by simpa using o.2, by simpa using o.3, by simpa using o.4⟩
  shape d := ⟨by simpa using cellsWf_allocate r d.1, by simpa using d.2, by simpa using d.3, by simpa using d.4, by simpa using d.5,
    by simpa using d.6⟩
  descs _ p d := by
    obtain ⟨i, rest, hpool⟩ : ∃ i rest, s.ss.descPool = i :: rest := by
      cases h : s.ss.descPool with
      | nil => simp [sufficient, h] at hs
      | cons i rest => exact ⟨i, rest, rfl⟩
    have enough : needSegs r.length ≤ s.ss.segPool.length := by
      simp only [sufficient, Bool.and_eq_true, decide_eq_true_eq] at hs
      exact hs.2
    generalize hc : appendWrite (ctxOf s r.tag) (s.ss.descPool.headD 0) r.length (writeMask r).isSome = c
    have hcw : c.writes = (ctxOf s r.tag).writes ++ [i] := by rw [← hc, hpool]; rfl
    have hco : c.state = .opened := by rw [← hc]; rfl
    let t := setCtx r.tag c (s.withSs { allocate r s.ss with timer := none })
    have pool : (i :: (rest ++ heldDescs s)).Perm (List.range Config.descriptors) := by
      simpa [heldDescs, List.append_assoc, hpool] using d.oneHolder
    have notHeld : i ∉ heldDescs s := fun hi =>
      (List.nodup_cons.mp (pool.nodup_iff.mpr List.nodup_range)).1 (List.mem_append_right _ hi)
    have groups : (heldByGroups t.gt).Perm (i :: heldByGroups s.gt) := by
      have := held_setCtx (s := s.withSs { allocate r s.ss with timer := none }) c d.contexts63 (h0 p)
      rw [hcw, List.append_assoc] at this
      exact ((List.perm_append_left_iff _).mp this).symm
    have held : (heldDescs t).Perm (i :: heldDescs s) := by
      have records : heldByRecords t.cc = heldByRecords s.cc := by simp [t]
      rw [heldDescs, records]
      exact groups.append_right _
    have new : descAt t i = ⟨r.addr, r.length, writeMask r, s.ss.segPool.take (needSegs r.length), none⟩ := by
      simp [t, descAt, allocate, lookupDesc_insertDesc, hpool]
    have old : ∀ j ∈ heldDescs s, descAt t j = descAt s j := by
      intro j hj
      have : j ≠ i := fun e => notHeld (e ▸ hj)
      simp [t, descAt, allocate, lookupDesc_insertDesc, hpool, this]
    have tpool : t.ss.descPool = rest := by simp [t, allocate, hpool]
    have tsegs : t.ss.segPool = s.ss.segPool.drop (needSegs r.length) := by simp [t, allocate]
    change DescriptorsConserved t
    refine ⟨by simpa [t] using d.contexts63, onlyOpen_setCtx d.onlyOpenHold fun h => absurd hco h, ?_, ?_, fun j hj => ?_⟩
    · have : (t.ss.descPool ++ heldDescs t).Perm (List.range Config.descriptors) := by
        rw [tpool]
        exact ((held.append_left _).trans List.perm_middle).trans pool
      simpa [heldDescs, List.append_assoc] using this
    · rw [tsegs]
      refine (((held.flatMap_right _).append_left _).trans ?_).trans d.segmentsOnce
      rw [List.flatMap_cons, new, List.flatMap_congr fun j hj => by rw [old j hj], ← List.append_assoc]
      refine List.Perm.append_right _ ?_
      conv_rhs => rw [← List.take_append_drop (needSegs r.length) s.ss.segPool]
      exact List.perm_append_comm
    · rcases List.mem_cons.mp (held.subset hj) with rfl | hj
      · rw [new]
        simpa using enough
      · rw [old j hj]
        exact d.segmentsNeeded j hj

end Sys2Proof.Machine
end

section
/-! PROOF. The moves of a commit record through its life, and of a request record (R57, R58, R62 to R71, R133, R138). -/

namespace Sys2Proof.Machine

/-! ## Numbers and order -/

/-- The numbers of the queue are distinct (R58). -/
theorem QueueCore.numbers_nodup {s : State} (h : QueueCore s) : (s.cc.queue.map CommitRecord.number).Nodup := by
  rw [List.nodup_iff_injective_getElem]
  rintro ⟨i, hi⟩ ⟨j, hj⟩ hij
  simp only [List.length_map] at hi hj
  simp only [List.getElem_map, h.numbered] at hij
  have h32 := h.atMost32
  have := congrArg BitVec.toNat (sub_right_injective hij)
  simp only [BitVec.toNat_ofNat] at this
  simp only [Fin.mk.injEq]
  omega

/-- A record of the queue that has a number and a state is the only one with them, so that an update changes it alone. -/
theorem updateRecord_queue {s : State} (h : QueueCore s) {l1 l2 : List CommitRecord} {rec : CommitRecord}
    (hq : s.cc.queue = l1 ++ rec :: l2) (f : CommitRecord → CommitRecord) :
    (updateRecord rec.number rec.state f s).cc.queue = l1 ++ f rec :: l2 := by
  have nodup := h.numbers_nodup
  rw [hq, List.map_append, List.map_cons] at nodup
  obtain ⟨-, nodup2, apart⟩ := List.nodup_append.mp nodup
  have left : ∀ a ∈ l1, a.number ≠ rec.number := fun a ha =>
    apart _ (List.mem_map_of_mem ha) _ List.mem_cons_self
  have right : ∀ a ∈ l2, a.number ≠ rec.number := fun a ha e =>
    (List.nodup_cons.mp nodup2).1 (e ▸ List.mem_map_of_mem ha)
  have same : ∀ l : List CommitRecord, (∀ a ∈ l, a.number ≠ rec.number) →
      l.map (fun r => if r.number = rec.number ∧ r.state = rec.state then f r else r) = l := fun l hl =>
    (List.map_congr_left fun a ha => if_neg fun e => hl a ha e.1).trans (List.map_id' l)
  simp only [updateRecord, State.withCc_cc, hq, List.map_append, List.map_cons, same l1 left, same l2 right]
  simp

theorem inOrder_congr {a a' b b' : CommitRecord} (ha : a'.state = a.state) (hb : b'.state = b.state) :
    inOrder a' b' ↔ inOrder a b := by simp [inOrder, ha, hb]

/-- One record replaced in a queue in order. -/
theorem pairwise_replaced {l1 l2 : List CommitRecord} {rec rec' : CommitRecord} (h : (l1 ++ rec :: l2).Pairwise inOrder)
    (h1 : ∀ a ∈ l1, inOrder a rec → inOrder a rec') (h2 : ∀ b ∈ l2, inOrder rec b → inOrder rec' b) :
    (l1 ++ rec' :: l2).Pairwise inOrder := by
  rw [List.pairwise_append, List.pairwise_cons] at *
  obtain ⟨p1, ⟨p2, p3⟩, p4⟩ := h
  refine ⟨p1, ⟨fun b hb => h2 b hb (p2 b hb), p3⟩, fun a ha b hb => ?_⟩
  rcases List.mem_cons.mp hb with rfl | hb
  · exact h1 a ha (p4 a ha rec List.mem_cons_self)
  · exact p4 a ha b (List.mem_cons_of_mem _ hb)

/-- A queue of as many records with the same numbers is numbered. -/
theorem numbered_of_map {q q' : List CommitRecord} {n : CommitNumber} (h : q'.map CommitRecord.number = q.map CommitRecord.number)
    (hq : ∀ i (h : i < q.length), q[i].number = n - BitVec.ofNat 32 (q.length - i)) :
    ∀ i (h : i < q'.length), q'[i].number = n - BitVec.ofNat 32 (q'.length - i) := by
  have len : q'.length = q.length := by simpa using congrArg List.length h
  intro i hi
  have : (q'.map CommitRecord.number)[i]'(by simpa using hi) = (q.map CommitRecord.number)[i]'(by simp; omega) := by simp only [h]
  rw [List.getElem_map, List.getElem_map] at this
  rw [this, hq, len]

/-- One record replaced in a sound queue by one with its number that stands in order there. -/
theorem queueCore_replaced {s t : State} {l1 l2 : List CommitRecord} {rec rec' : CommitRecord} (h : QueueCore s)
    (hq : s.cc.queue = l1 ++ rec :: l2) (hq' : t.cc.queue = l1 ++ rec' :: l2) (hn : t.cc.next = s.cc.next)
    (hp : t.cc.path = s.cc.path) (num : rec'.number = rec.number) (app : rec'.state ≠ .applied)
    (void : rec'.state = .voided → rec'.writes = []) (h1 : ∀ a ∈ l1, inOrder a rec → inOrder a rec')
    (h2 : ∀ b ∈ l2, inOrder rec b → inOrder rec' b) : QueueCore t := by
  obtain ⟨q1, q2, q3, q4, q5, q6⟩ := h
  have mem : ∀ r ∈ t.cc.queue, r = rec' ∨ r ∈ s.cc.queue := by
    intro r hr
    simp only [hq', hq, List.mem_append, List.mem_cons] at *
    tauto
  refine ⟨by simpa [hq', hq] using q1, ?_, ?_, fun r hr => ?_, fun r hr => ?_, fun hb => ?_⟩
  · rw [hn]
    exact numbered_of_map (by simp [hq', hq, num]) q2
  · rw [hq']
    exact pairwise_replaced (hq ▸ q3) h1 h2
  · rcases mem r hr with rfl | hr
    · exact app
    · exact q4 r hr
  · rcases mem r hr with rfl | hr
    · exact void
    · exact q5 r hr
  · have := q6 (hp ▸ hb)
    simp [hq] at this

/-- The records at the head of a sound queue may go. -/
theorem queueCore_suffix {s t : State} {l1 : List CommitRecord} (h : QueueCore s) (hq : s.cc.queue = l1 ++ t.cc.queue)
    (hn : t.cc.next = s.cc.next) (hp : t.cc.path = s.cc.path) : QueueCore t := by
  obtain ⟨q1, q2, q3, q4, q5, q6⟩ := h
  refine ⟨?_, fun i hi => ?_, ?_, fun r hr => q4 r (hq ▸ List.mem_append_right _ hr),
    fun r hr => q5 r (hq ▸ List.mem_append_right _ hr), fun hb => ?_⟩
  · rw [hq, List.length_append] at q1
    omega
  · have := q2 (l1.length + i) (by rw [hq, List.length_append]; omega)
    simp only [hq, List.length_append] at this
    rw [List.getElem_append_right (by omega)] at this
    simp only [Nat.add_sub_cancel_left] at this
    rw [this, hn, Nat.add_sub_add_left]
  · rw [hq] at q3
    exact (List.pairwise_append.mp q3).2.1
  · have := q6 (hp ▸ hb)
    rw [hq] at this
    exact (List.append_eq_nil_iff.mp this).2

/-! ## Moves of one record -/

/-- A change of the commit queue alone, that moves no descriptor and no owed response. -/
theorem moves_queue {s : State} (q : List CommitRecord) (core : QueueCore s → QueueCore (s.withCc { s.cc with queue := q }))
    (lists : QueueCore s → q.flatMap CommitRecord.writes = s.cc.queue.flatMap CommitRecord.writes)
    (ids : QueueCore s → owedCommits { s.cc with queue := q } = owedCommits s.cc) : Moves s (s.withCc { s.cc with queue := q }) where
  path := rfl
  works := id
  queue := core
  hold p := ⟨p.1, p.2⟩
  descs c _ d := by
    have := lists c
    obtain ⟨d1, d2, d3, d4, d5⟩ := d
    constructor <;> simp only [heldDescs, heldByRecords, State.withCc_cc, this] <;> assumption
  owed c _ o := by
    have := ids c
    obtain ⟨o1, o2, o3, o4⟩ := o
    constructor <;> simp only [State.withCc_cc, this] <;> assumption
  shape d := ⟨d.1, d.2, d.3, d.4, d.5, d.6⟩

theorem updateRecord_eq (n : CommitNumber) (st : RecordState) (f : CommitRecord → CommitRecord) (s : State) :
    updateRecord n st f s = s.withCc { s.cc with queue := (updateRecord n st f s).cc.queue } := rfl

/-- A record found first by its state stands in the queue with none of that state ahead. -/
theorem find_split {q : List CommitRecord} {st : RecordState} {rec : CommitRecord}
    (h : q.find? (fun r => r.state == st) = some rec) :
    rec.state = st ∧ ∃ l1 l2, q = l1 ++ rec :: l2 ∧ ∀ a ∈ l1, a.state ≠ st := by
  obtain ⟨hs, l1, l2, hq, hl⟩ := List.find?_eq_some_iff_append.mp h
  exact ⟨by simpa using hs, l1, l2, hq, fun a ha => by simpa using hl a ha⟩

/-- The oldest QUEUED record becomes LOGGING while none is (R63, R91). -/
theorem moves_logs {s : State} {rec : CommitRecord} (sp : Option Span) (h : oldestQueued s.cc = some rec)
    (hl : loggingRecord s.cc = none) :
    Moves s (updateRecord rec.number .queued (fun r => { r with span := sp, state := .logging }) s) := by
  obtain ⟨hs, l1, l2, hq, hl1⟩ := find_split h
  have noLogging : ∀ a ∈ s.cc.queue, a.state ≠ .logging := by
    simpa [loggingRecord] using hl
  rw [updateRecord_eq]
  have q' : QueueCore s → (updateRecord rec.number .queued (fun r => { r with span := sp, state := .logging }) s).cc.queue =
      l1 ++ { rec with span := sp, state := .logging } :: l2 := fun c => hs ▸ updateRecord_queue c hq _
  refine moves_queue _ (fun c => queueCore_replaced c hq (q' c) rfl rfl rfl nofun nofun (fun a ha h => ?_) (fun b _ h => ?_))
    (fun c => ?_) (fun c => ?_)
  · have h1 := hl1 a ha
    have h2 := noLogging a (hq ▸ List.mem_append_left _ ha)
    cases ha : a.state <;> simp_all [inOrder, stageRank]
  · cases hb : b.state <;> simp_all [inOrder, stageRank]
  · rw [q' c, hq]
    simp
  · rw [owedCommits, owedCommits, q' c, hq]
    simp [List.filter_append, hs]

/-- The first record that is not VOIDED becomes APPLYING out of DURABLE (R67, R110). -/
theorem moves_applies {s : State} {rec : CommitRecord} (h : startable s.cc = some rec) :
    Moves s (updateRecord rec.number .durable (fun r => { r with state := .applying }) s) := by
  obtain ⟨hs, l1, l2, hq, hl1⟩ : rec.state = .durable ∧ ∃ l1 l2, s.cc.queue = l1 ++ rec :: l2 ∧ ∀ a ∈ l1, a.state = .voided := by
    unfold startable at h
    split at h
    · rename_i r rest hd
      split_ifs at h with hr
      cases h
      refine ⟨hr, s.cc.queue.takeWhile fun r => r.state == .voided, rest, ?_, fun a ha => ?_⟩
      · rw [← hd, List.takeWhile_append_dropWhile]
      · simpa using List.mem_takeWhile_imp ha
    · cases h
  rw [updateRecord_eq]
  have q' : QueueCore s → (updateRecord rec.number .durable (fun r => { r with state := .applying }) s).cc.queue =
      l1 ++ { rec with state := .applying } :: l2 := fun c => hs ▸ updateRecord_queue c hq _
  refine moves_queue _ (fun c => queueCore_replaced c hq (q' c) rfl rfl rfl nofun nofun (fun a ha _ => .inl (hl1 a ha))
    (fun b _ h => ?_)) (fun c => ?_) (fun c => ?_)
  · cases hb : b.state <;> simp_all [inOrder, stageRank]
  · rw [q' c, hq]
    simp
  · rw [owedCommits, owedCommits, q' c, hq]
    simp [List.filter_append, hs]

/-- The finished records at the head leave the queue (R71). -/
theorem moves_retires (s : State) : Moves s (s.withCc { s.cc with queue := s.cc.queue.dropWhile fun r => finished r.state }) := by
  have split := List.takeWhile_append_dropWhile (p := fun r : CommitRecord => finished r.state) (l := s.cc.queue)
  have gone : ∀ r ∈ s.cc.queue.takeWhile fun r => finished r.state, r ∈ s.cc.queue ∧ (r.state = .applied ∨ r.state = .voided) :=
    fun r hr => ⟨(List.takeWhile_sublist _).subset hr, by simpa [finished] using List.mem_takeWhile_imp hr⟩
  refine moves_queue _ (fun c => queueCore_suffix c split.symm rfl rfl) (fun c => ?_) (fun c => ?_)
  · have none : (s.cc.queue.takeWhile fun r => finished r.state).flatMap CommitRecord.writes = [] := by
      refine List.flatMap_eq_nil_iff.mpr fun r hr => ?_
      obtain ⟨hm, h⟩ := gone r hr
      exact h.elim (fun h => absurd h (c.noneApplied r hm)) (c.voidedEmpty r hm)
    conv_rhs => rw [← split, List.flatMap_append, none, List.nil_append]
  · have none : (s.cc.queue.takeWhile fun r => finished r.state).filter (fun r => r.state == .queued || r.state == .logging) = [] := by
      refine List.filter_eq_nil_iff.mpr fun r hr => ?_
      rcases (gone r hr).2 with h | h <;> simp [h]
    simp only [owedCommits]
    conv_rhs => rw [← split, List.filter_append, none, List.nil_append]

/-- The APPLYING record, its list empty, becomes APPLIED and leaves the queue with the finished records around it (R68, R71). -/
theorem moves_applied {s : State} {n : CommitNumber} (hm : ∃ r ∈ s.cc.queue, r.number = n ∧ r.state = .applying)
    (he : ∀ r ∈ s.cc.queue, r.number = n ∧ r.state = .applying → r.writes = []) :
    Moves s (s.withCc { s.cc with queue :=
      (updateRecord n .applying (fun r => { r with state := .applied }) s).cc.queue.dropWhile fun r => finished r.state }) := by
  obtain ⟨rec, hmem, rfl, hs⟩ := hm
  obtain ⟨l1, l2, hq⟩ := List.append_of_mem hmem
  have hw := he rec hmem ⟨rfl, hs⟩
  have ahead : QueueCore s → ∀ a ∈ l1, a.state = .voided := fun c a ha => by
    have := (List.pairwise_append.mp (hq ▸ c.ordered)).2.2 a ha rec List.mem_cons_self
    simp only [inOrder, hs, stageRank, Nat.not_lt_zero, false_or, reduceCtorEq] at this
    rcases this with h | ⟨h, h' | h'⟩
    · exact h
    all_goals
      rw [h] at h'
      cases h'
  have q' : QueueCore s → (updateRecord rec.number .applying (fun r => { r with state := .applied }) s).cc.queue.dropWhile
      (fun r => finished r.state) = l2.dropWhile fun r => finished r.state := fun c => by
    rw [show updateRecord rec.number .applying _ s = updateRecord rec.number rec.state _ s by rw [hs], updateRecord_queue c hq,
      List.dropWhile_append_of_pos fun a ha => by simp [ahead c a ha, finished], List.dropWhile_cons_of_pos (by simp [finished])]
  have split := List.takeWhile_append_dropWhile (p := fun r : CommitRecord => finished r.state) (l := l2)
  have suffix : QueueCore s → s.cc.queue = (l1 ++ rec :: l2.takeWhile fun r => finished r.state) ++
      l2.dropWhile fun r => finished r.state := fun _ => by
    rw [hq, List.append_assoc, List.cons_append, split]
  have gone : QueueCore s → ∀ r ∈ l1 ++ rec :: l2.takeWhile fun r => finished r.state,
      r.writes = [] ∧ r.state ≠ .queued ∧ r.state ≠ .logging := fun c r hr => by
    have hmem : r ∈ s.cc.queue := by
      rw [suffix c]
      exact List.mem_append_left _ hr
    rcases List.mem_append.mp hr with h | h
    · have := ahead c r h
      exact ⟨c.voidedEmpty r hmem this, by simp [this]⟩
    · rcases List.mem_cons.mp h with rfl | h
      · exact ⟨hw, by simp [hs]⟩
      · have hf : finished r.state = true := List.mem_takeWhile_imp (p := fun r : CommitRecord => finished r.state) h
        have : r.state = .voided := by
          simp only [finished, Bool.or_eq_true, beq_iff_eq] at hf
          exact hf.resolve_left (c.noneApplied r hmem)
        exact ⟨c.voidedEmpty r hmem this, by simp [this]⟩
  refine moves_queue _ (fun c => queueCore_suffix c ((q' c).symm ▸ suffix c) rfl rfl) (fun c => ?_) (fun c => ?_)
  · rw [q' c, suffix c, List.flatMap_append, List.flatMap_eq_nil_iff.mpr fun r hr => (gone c r hr).1, List.nil_append]
  · have none : (l1 ++ rec :: l2.takeWhile fun r => finished r.state).filter
        (fun r => r.state == .queued || r.state == .logging) = [] :=
      List.filter_eq_nil_iff.mpr fun r hr => by simp [(gone c r hr).2]
    simp only [owedCommits]
    rw [q' c]
    conv_rhs => rw [suffix c, List.filter_append, none, List.nil_append]

end Sys2Proof.Machine
end

section
/-! PROOF. The moves in which a commit record ends or is answered, a COMMIT is accepted, and a pass-through request is sent or completed
(R6, R62, R64 to R71, R132, R133, R138). -/

namespace Sys2Proof.Machine

/-! ## Owed responses -/

/-- Of distinct ids, taking out those of a part leaves the rest. -/
theorem filter_not_mem_left {A B : List HostId} (h : (A ++ B).Nodup) : (A ++ B).filter (fun x => !A.contains x) = B := by
  obtain ⟨-, -, apart⟩ := List.nodup_append.mp h
  rw [List.filter_append, List.filter_eq_nil_iff.mpr fun x hx => by simp [hx], List.nil_append, List.filter_eq_self]
  intro x hx
  simpa using fun hA => apart x hA x hx rfl

/-- Owed responses are given: as many places and ids fewer are owed. -/
theorem responsesOwed_given {s t : State} {ids : List HostId} {resps : List Response} (o : ResponsesOwed s)
    (hp : (owedCommits s.cc ++ owedPasses s.mp).Perm (ids ++ (owedCommits t.cc ++ owedPasses t.mp)))
    (hresp : t.hp.responses = s.hp.responses ++ resps) (hlen : resps.length = ids.length)
    (hres : t.hp.reserved = s.hp.reserved - ids.length) (hold : t.hp.hold = s.hp.hold)
    (hin : t.hp.inflight = s.hp.inflight.filter fun x => !ids.contains x) : ResponsesOwed t := by
  obtain ⟨o1, o2, o3, o4⟩ := o
  have len := hp.length_eq
  simp only [List.length_append] at len
  have perm := o3.trans hp
  refine ⟨?_, ?_, ?_, ?_⟩
  · simp only [owedHold, hold] at *
    omega
  · rw [hresp, List.length_append, hres, hlen]
    omega
  · rw [hin]
    refine (perm.filter _).trans (.of_eq ?_)
    exact filter_not_mem_left (perm.nodup_iff.mp o4)
  · rw [hin]
    exact o4.filter _

/-! ## Records that end -/

/-- The queue when the chosen records have been voided (R65, R66, R69). -/
def voidQueue (chosen : CommitRecord → Bool) (why : FailReason) (q : List CommitRecord) : List CommitRecord :=
  q.map fun r => if chosen r then voidedRecord why r else r

/-- The state when the chosen records have been voided, answered and released, before the stage-wait test and the evaluation. -/
def droppedState (chosen : CommitRecord → Bool) (why : FailReason) (a : Answer) (s : State) : State :=
  releaseDescs ((s.cc.queue.filter chosen).flatMap CommitRecord.writes)
    ((s.cc.queue.filter chosen).foldl (fun t r => respondOwed r.hostId a [] t)
      (s.withCc { s.cc with queue := voidQueue chosen why s.cc.queue }))

theorem queueCore_voided {s t : State} (chosen : CommitRecord → Bool) (why : FailReason) (c : QueueCore s)
    (hq : t.cc.queue = voidQueue chosen why s.cc.queue) (hn : t.cc.next = s.cc.next) (hp : t.cc.path = s.cc.path) :
    QueueCore t := by
  obtain ⟨q1, q2, q3, q4, q5, q6⟩ := c
  have mem : ∀ r ∈ t.cc.queue, (∃ r', r = voidedRecord why r') ∨ r ∈ s.cc.queue := by
    intro r hr
    rw [hq, voidQueue, List.mem_map] at hr
    obtain ⟨r', hr', rfl⟩ := hr
    split
    · exact .inl ⟨r', rfl⟩
    · exact .inr hr'
  refine ⟨by simpa [hq, voidQueue] using q1, ?_, ?_, fun r hr => ?_, fun r hr h => ?_, fun hb => ?_⟩
  · rw [hn]
    refine numbered_of_map ?_ q2
    rw [hq, voidQueue, List.map_map]
    refine List.map_congr_left fun r _ => ?_
    simp only [Function.comp]
    split <;> rfl
  · rw [hq, voidQueue, List.pairwise_map]
    refine q3.imp fun {a b} h => ?_
    split
    · exact .inl rfl
    · split
      · exact .inr (.inl rfl)
      · exact h
  · rcases mem r hr with ⟨r', rfl⟩ | hr
    · nofun
    · exact q4 r hr
  · rcases mem r hr with ⟨r', rfl⟩ | hr
    · rfl
    · exact q5 r hr h
  · rw [hq, q6 (hp ▸ hb)]
    rfl

/-- The lists of the queue are those of the chosen records and those that the voided queue keeps. -/
theorem voidQueue_lists (chosen : CommitRecord → Bool) (why : FailReason) (q : List CommitRecord) :
    (q.flatMap CommitRecord.writes).Perm
      ((q.filter chosen).flatMap CommitRecord.writes ++ (voidQueue chosen why q).flatMap CommitRecord.writes) := by
  induction q with
  | nil => rfl
  | cons r q ih =>
    simp only [voidQueue, List.map_cons, List.filter_cons, List.flatMap_cons] at *
    split
    · simpa [voidedRecord] using ih.append_left _
    · exact (ih.append_left _).trans (List.perm_append_comm_assoc ..)

/-- The record's COMMIT has not been answered (R70). -/
def unansweredState (r : CommitRecord) : Bool := r.state == .queued || r.state == .logging

/-- The COMMITs owed are those of the chosen records and those that the voided queue still owes. -/
theorem voidQueue_owed (chosen : CommitRecord → Bool) (why : FailReason) (q : List CommitRecord)
    (hc : ∀ r ∈ q, chosen r = true → unansweredState r = true) :
    ((q.filter unansweredState).map CommitRecord.hostId).Perm ((q.filter chosen).map CommitRecord.hostId ++
      ((voidQueue chosen why q).filter unansweredState).map CommitRecord.hostId) := by
  induction q with
  | nil => rfl
  | cons r q ih =>
    have ih := ih fun r hr => hc r (List.mem_cons_of_mem _ hr)
    simp only [voidQueue, List.map_cons, List.filter_cons] at *
    by_cases h : chosen r = true
    · have h2 : unansweredState (voidedRecord why r) = false := rfl
      simpa [h, hc r List.mem_cons_self h, h2] using ih
    · by_cases h2 : unansweredState r = true
      · simpa [h, h2] using (ih.cons r.hostId).trans List.perm_middle.symm
      · simpa [h, h2] using ih

/-- The chosen records, none of which has been answered, are voided, answered and released (R65, R66, R69). -/
theorem moves_drops {s : State} (chosen : CommitRecord → Bool) (why : FailReason) (a : Answer)
    (hc : ∀ r ∈ s.cc.queue, chosen r = true → unansweredState r = true) : Moves s (droppedState chosen why a s) := by
  have eq := foldl_respondOwed (s.cc.queue.filter chosen) a (s.withCc { s.cc with queue := voidQueue chosen why s.cc.queue })
  unfold droppedState
  rw [eq]
  refine ⟨rfl, id, fun c => queueCore_voided chosen why c rfl rfl rfl, fun p => ⟨fun h hh => ?_, p.2⟩, fun _ _ d => ?_,
    fun _ _ o => ?_, fun d => ⟨?_, d.2, d.3, d.4, d.5, d.6⟩⟩
  · obtain ⟨r, hr, hpe, hk⟩ := p.1 h hh
    exact ⟨r, hr, protocolError_mono (fun x hx => (List.mem_filter.mp hx).1) hpe, hk⟩
  · refine conserved_of_released (ds := (s.cc.queue.filter chosen).flatMap CommitRecord.writes) d ?_ d.1 d.2 ?_
    · exact (released_releaseDescs _ _).of_same rfl rfl rfl rfl rfl rfl rfl rfl
    · change (heldByGroups s.gt ++ s.cc.queue.flatMap CommitRecord.writes).Perm
        (_ ++ (heldByGroups s.gt ++ (voidQueue chosen why s.cc.queue).flatMap CommitRecord.writes))
      exact ((voidQueue_lists chosen why _).append_left _).trans (List.perm_append_comm_assoc ..)
  · refine responsesOwed_given (ids := (s.cc.queue.filter chosen).map CommitRecord.hostId) o ?_ rfl (by simp) (by simp) rfl rfl
    rw [← List.append_assoc]
    exact (voidQueue_owed chosen why _ hc).append_right _
  · simpa [releaseDescs, foldl_releaseOne] using d.1

/-- The LOGGING record becomes DURABLE and its COMMIT is answered (R64). -/
theorem moves_durable {s : State} {rec : CommitRecord} (a : Answer) (h : loggingRecord s.cc = some rec) :
    Moves s (respondOwed rec.hostId a [] (updateRecord rec.number .logging (fun r => { r with state := .durable }) s)) := by
  obtain ⟨hs, l1, l2, hq, -⟩ := find_split h
  have q' : QueueCore s → (updateRecord rec.number .logging (fun r => { r with state := .durable }) s).cc.queue =
      l1 ++ { rec with state := .durable } :: l2 := fun c => hs ▸ updateRecord_queue c hq _
  refine ⟨rfl, id, fun c => queueCore_replaced c hq (q' c) rfl rfl rfl nofun nofun (fun a _ h => ?_) (fun b _ h => ?_),
    fun p => ⟨fun h hh => ?_, p.2⟩, fun c _ d => ?_, fun c _ o => ?_, fun d => ⟨d.1, d.2, d.3, d.4, d.5, d.6⟩⟩
  · cases ha : a.state <;> simp_all [inOrder, stageRank]
  · cases hb : b.state <;> simp_all [inOrder, stageRank]
  · obtain ⟨r, hr, hpe, hk⟩ := p.1 h hh
    exact ⟨r, hr, protocolError_mono (fun x hx => (List.mem_filter.mp hx).1) hpe, hk⟩
  · have same : heldByRecords (updateRecord rec.number .logging (fun r => { r with state := .durable }) s).cc =
        heldByRecords s.cc := by
      simp only [heldByRecords]
      rw [q' c, hq]
      simp
    obtain ⟨d1, d2, d3, d4, d5⟩ := d
    exact ⟨d1, d2, by simpa [same] using d3, by simpa [heldDescs, same, descAt] using d4,
      by simpa [heldDescs, same, descAt] using d5⟩
  · refine responsesOwed_given (ids := [rec.hostId]) (resps := [⟨rec.hostId, a, []⟩]) o ?_ rfl rfl rfl rfl ?_
    · have owed : (owedCommits s.cc).Perm ([rec.hostId] ++
          owedCommits (updateRecord rec.number .logging (fun r => { r with state := .durable }) s).cc) := by
        rw [owedCommits, owedCommits, q' c, hq]
        simp [List.filter_append, hs]
      rw [← List.append_assoc]
      exact owed.append_right _
    · simp [respondOwed, leaveInflight, respond]
      rfl

/-- The APPLYING record gives up an applied descriptor, which is released (R68, R113). -/
theorem moves_unlists {s : State} {rec : CommitRecord} {i : Nat} (hm : rec ∈ s.cc.queue) (hs : rec.state = .applying)
    (hi : i ∈ rec.writes) : Moves s (releaseDescs [i]
      (updateRecord rec.number .applying (fun r => { r with writes := rec.writes.erase i }) s)) := by
  obtain ⟨l1, l2, hq⟩ := List.append_of_mem hm
  have q' : QueueCore s → (updateRecord rec.number .applying (fun r => { r with writes := rec.writes.erase i }) s).cc.queue =
      l1 ++ { rec with writes := rec.writes.erase i } :: l2 := fun c => hs ▸ updateRecord_queue c hq _
  refine ⟨rfl, id, fun c => queueCore_replaced c hq (q' c) rfl rfl rfl (by simp [hs]) (by simp [hs]) (fun a _ h => ?_)
    (fun b _ h => ?_), fun p => ⟨p.1, p.2⟩, fun c _ d => ?_, fun c _ o => ?_, fun d => ⟨?_, d.2, d.3, d.4, d.5, d.6⟩⟩
  · exact (inOrder_congr rfl rfl).mpr h
  · exact (inOrder_congr rfl rfl).mpr h
  · refine conserved_of_released (ds := [i]) d ?_ d.1 d.2 ?_
    · exact (released_releaseDescs _ _).of_same rfl rfl rfl rfl rfl rfl rfl rfl
    · change (heldByGroups s.gt ++ s.cc.queue.flatMap CommitRecord.writes).Perm ([i] ++ (heldByGroups s.gt ++
        (updateRecord rec.number .applying (fun r => { r with writes := rec.writes.erase i }) s).cc.queue.flatMap
          CommitRecord.writes))
      rw [q' c, hq]
      have := List.perm_cons_erase hi
      rw [List.perm_iff_count] at *
      intro a
      have := this a
      simp only [List.flatMap_append, List.flatMap_cons, List.count_append, List.count_cons, List.count_nil] at *
      omega
  · have same : owedCommits (updateRecord rec.number .applying (fun r => { r with writes := rec.writes.erase i }) s).cc =
        owedCommits s.cc := by
      rw [owedCommits, owedCommits, q' c, hq]
      simp [List.filter_append, hs]
    obtain ⟨o1, o2, o3, o4⟩ := o
    exact ⟨by simpa [same] using o1, o2, by simpa [same] using o3, o4⟩
  · simpa [releaseDescs, releaseOne] using d.1

/-! ## Requests that are accepted, sent and completed -/

/-- The in-flight ids when `id` has joined (R6). -/
def joined (id : HostId) (ids : List HostId) : List HostId := if ids.contains id then ids else ids ++ [id]

/-- Setting a context and claiming a place touch different blocks. -/
theorem setCtx_claimPlace (t : Tag) (c : Context) (s : State) : setCtx t c (claimPlace s) = claimPlace (setCtx t c s) := by
  unfold setCtx
  split_ifs <;> rfl

/-- What the acceptance of a COMMIT writes, block by block (R62). -/
theorem acceptCommit_blocks (r : HostRequest) (s : State) : ∃ xs ys,
    (s.hp.intake.length ≤ 16 → (s.hp.intake.tail ++ xs).length ≤ 16) ∧ acceptCommit r (claimPlace s) =
      ((s.withGt (setCtx r.tag Context.idle s).gt).withCc { s.cc with
        queue := s.cc.queue ++ [newRecord r (ctxOf s r.tag) s.cc.next], next := s.cc.next + 1 }).withHp
        (leftWith xs ys { s.hp with
          reserved := s.hp.reserved + 1 - owedHold s.hp, inflight := joined r.id s.hp.inflight }) := by
  have left := leaveIntake_with (joinInflight r.id ((setCtx r.tag Context.idle (claimPlace s)).withCc { s.cc with
    queue := s.cc.queue ++ [newRecord r (ctxOf (claimPlace s) r.tag) s.cc.next], next := s.cc.next + 1 }))
  rw [setCtx_claimPlace, setCtx_eq] at left
  obtain ⟨xs, ys, h, hl⟩ := left
  refine ⟨xs, ys, hl, ?_⟩
  rw [acceptCommit, setCtx_claimPlace, setCtx_eq]
  exact h

/-- An id that is not in flight joins, and the place claimed is owed for it. -/
theorem responsesOwed_joined {s t : State} {id : HostId} (o : ResponsesOwed s) (hp : HasPlace s) (hid : id ∉ s.hp.inflight)
    (howed : (owedCommits t.cc ++ owedPasses t.mp).Perm (id :: (owedCommits s.cc ++ owedPasses s.mp)))
    (hold : t.hp.hold = none) (hresp : t.hp.responses = s.hp.responses)
    (hres : t.hp.reserved = s.hp.reserved + 1 - owedHold s.hp) (hin : t.hp.inflight = joined id s.hp.inflight) :
    ResponsesOwed t := by
  obtain ⟨h1, h2⟩ := owedHold_places hp o
  have len := howed.length_eq
  simp only [List.length_append, List.length_cons] at len
  have h3 := o.placesOwed
  have inflight : t.hp.inflight = s.hp.inflight ++ [id] := by
    rw [hin, joined, if_neg (by simpa using hid)]
  refine ⟨?_, by rw [hresp, hres]; exact h1, ?_, ?_⟩
  · simp only [hres, owedHold, hold, Option.isSome_none, Bool.false_eq_true, if_false] at *
    omega
  · rw [inflight]
    exact List.perm_append_comm.trans ((o.idsOwed.cons id).trans howed.symm)
  · rw [inflight, List.perm_append_comm.nodup_iff]
    exact List.nodup_cons.mpr ⟨hid, o.idsDistinct⟩

/-- A record at the tail with the next number. -/
theorem queueCore_appended {s t : State} {rec : CommitRecord} (c : QueueCore s) (h32 : s.cc.queue.length < 32)
    (hb : ¬ beforeRun s.cc.path) (hq : t.cc.queue = s.cc.queue ++ [rec]) (hn : t.cc.next = s.cc.next + 1)
    (hp : t.cc.path = s.cc.path) (num : rec.number = s.cc.next) (st : rec.state = .queued) : QueueCore t := by
  refine ⟨?_, fun i hi => ?_, ?_, fun r hr => ?_, fun r hr hv => ?_, fun h => absurd (hp ▸ h) hb⟩
  · rw [hq, List.length_append, List.length_singleton]
    exact h32
  · simp only [hq, List.length_append, List.length_singleton] at hi ⊢
    rw [hn, List.getElem_append]
    split
    · rename_i hlt
      rw [c.numbered i hlt, Nat.sub_add_comm (Nat.le_of_lt hlt), BitVec.ofNat_add]
      bv_omega
    · rw [List.getElem_singleton, num, show s.cc.queue.length + 1 - i = 1 by omega]
      bv_omega
  · rw [hq, List.pairwise_append]
    refine ⟨c.ordered, List.pairwise_singleton _ _, fun a ha b hb => ?_⟩
    rw [List.mem_singleton] at hb
    subst hb
    have := c.noneApplied a ha
    cases has : a.state <;> simp_all [inOrder, stageRank]
  · rw [hq] at hr
    rcases List.mem_append.mp hr with hr | hr
    · exact c.noneApplied r hr
    · rw [List.mem_singleton.mp hr, st]
      nofun
  · rw [hq] at hr
    rcases List.mem_append.mp hr with hr | hr
    · exact c.voidedEmpty r hr hv
    · rw [List.mem_singleton.mp hr, st] at hv
      cases hv

/-- A COMMIT is accepted: the group's list moves into a QUEUED record at the tail (R62). -/
theorem moves_commits {s : State} {r : HostRequest} (hp : HasPlace s) (hg : HoldSound s → r.id ∉ s.hp.inflight ∧ r.tag ≠ 0)
    (h32 : s.cc.queue.length < 32) (hb : ¬ beforeRun s.cc.path) : Moves s (acceptCommit r (claimPlace s)) := by
  obtain ⟨xs, ys, hl, eq⟩ := acceptCommit_blocks r s
  rw [eq]
  refine ⟨rfl, id, fun c => queueCore_appended c h32 hb rfl rfl rfl rfl rfl, fun _ => holdSound_of_none rfl, fun _ p d => ?_,
    fun _ p o => ?_, fun d => ⟨d.1, d.2, d.3, (setCtx_length ..).trans d.4, hl d.5, d.6⟩⟩
  · refine conserved_of_released (ds := []) d ((released_nil s).of_same rfl rfl rfl rfl rfl rfl rfl rfl)
      ((setCtx_length ..).trans d.1) (onlyOpen_setCtx d.2 fun _ => rfl) ?_
    change (heldByGroups s.gt ++ s.cc.queue.flatMap CommitRecord.writes).Perm (heldByGroups (setCtx r.tag Context.idle s).gt ++
      (s.cc.queue ++ [newRecord r (ctxOf s r.tag) s.cc.next]).flatMap CommitRecord.writes)
    have := held_setCtx Context.idle d.contexts63 (hg p).2
    rw [List.perm_iff_count] at *
    intro a
    have := this a
    simp only [Context.idle, newRecord, List.flatMap_append, List.flatMap_cons, List.flatMap_nil, List.count_append,
      List.count_nil] at *
    omega
  · refine responsesOwed_joined o hp (hg p).1 ?_ rfl rfl rfl rfl
    have owed : owedCommits { s.cc with
        queue := s.cc.queue ++ [newRecord r (ctxOf s r.tag) s.cc.next], next := s.cc.next + 1 } = owedCommits s.cc ++ [r.id] := by
      simp [owedCommits, List.filter_append, newRecord]
    change (owedCommits { s.cc with
        queue := s.cc.queue ++ [newRecord r (ctxOf s r.tag) s.cc.next], next := s.cc.next + 1 } ++ owedPasses s.mp).Perm _
    rw [owed, List.append_assoc]
    exact List.perm_middle

/-- A record of the pass-through list replaced: the ids owed change by its old and its new id. -/
theorem owedPasses_set {mp : MemoryPort} {k : Nat} {x : Option PassRecord} (y : Option PassRecord) (h : mp.records[k]? = some x) :
    ((y.map PassRecord.id).toList ++ owedPasses mp).Perm
      ((x.map PassRecord.id).toList ++ owedPasses { mp with records := mp.records.set k y }) := by
  obtain ⟨hk, hx⟩ := List.getElem?_eq_some_iff.mp h
  simp only [owedPasses]
  rw [List.set_eq_take_append_cons_drop, if_pos hk]
  nth_rw 1 [← List.take_append_drop k mp.records, List.drop_eq_getElem_cons hk]
  rw [hx, List.perm_iff_count]
  intro a
  cases x <;> cases y <;> simp [List.filterMap_append, List.count_append, List.count_cons] <;> omega

/-- The first FREE request record is one of the list and is free. -/
theorem firstAbsent_getElem {α : Type} {xs : List (Option α)} {k : Nat} (h : firstAbsent xs = some k) : xs[k]? = some none := by
  obtain ⟨hk, hx, -⟩ := List.findIdx?_eq_some_iff_getElem.mp h
  rw [List.getElem?_eq_getElem hk, Option.isNone_iff_eq_none.mp hx]

/-- A request is sent to the memory port (R132, R138). -/
theorem moves_sends {s : State} {r : HostRequest} (hp : HasPlace s) (hg : HoldSound s → r.id ∉ s.hp.inflight)
    (hm : firstAbsent s.mp.records ≠ none) : Moves s (sendPass r (claimPlace s)) := by
  obtain ⟨k, hk⟩ := Option.ne_none_iff_exists'.mp hm
  have hk' : firstAbsent (claimPlace s).mp.records = some k := hk
  simp only [sendPass, hk']
  generalize hs1 : (claimPlace s).withMp _ = s1
  generalize hs2 : handRequest _ _ _ _ _ _ s1 = s2
  have free := firstAbsent_getElem hk
  obtain ⟨xs, ys, eq, hl⟩ := leaveIntake_with (joinInflight r.id s2)
  rw [eq]
  have hhp : s2.hp = (claimPlace s).hp := by simp [← hs2, ← hs1]
  have hrecs : s2.mp.records = s.mp.records.set k (some (newPassRecord (burst s.mg.cfg) r (passKind r))) := by
    simp [← hs2, ← hs1, handRequest, claimPlace]
  have hss : s2.ss = s.ss := by simp [← hs2, ← hs1, claimPlace]
  have hgt : s2.gt = s.gt := by simp [← hs2, ← hs1, claimPlace]
  have hcc : s2.cc = s.cc := by simp [← hs2, ← hs1, claimPlace]
  have hre : s2.re = s.re := by simp [← hs2, ← hs1, claimPlace]
  have hmg : s2.mg = s.mg := by simp [← hs2, ← hs1, claimPlace]
  refine ⟨by simp [hcc], by simp [hre], fun c => ?_, fun _ => holdSound_of_none rfl, fun _ _ d => ?_, fun _ p o => ?_, fun d => ?_⟩
  · obtain ⟨q1, q2, q3, q4, q5, q6⟩ := c
    constructor <;> simpa [hcc]
  · obtain ⟨d1, d2, d3, d4, d5⟩ := d
    exact ⟨by simpa [hgt] using d1, by simpa [hgt] using d2, by simpa [hgt, hss, hcc] using d3,
      by simpa [hgt, hss, hcc, heldDescs, descAt] using d4, by simpa [hgt, hss, hcc, heldDescs, descAt] using d5⟩
  · refine responsesOwed_joined o hp (hg p) ?_ rfl (by simp [leftWith, joinInflight, hhp, claimPlace])
      (by simp [leftWith, joinInflight, hhp, claimPlace]) (by simp [leftWith, joinInflight, hhp, claimPlace, joined])
    have passes : owedPasses s2.mp = owedPasses { s.mp with records := s2.mp.records } := rfl
    have := owedPasses_set (some (newPassRecord (burst s.mg.cfg) r (passKind r))) free
    simp only [State.withHp_cc, State.withHp_mp, joinInflight_frame, hcc, passes, hrecs]
    simp only [Option.map_some, Option.toList_some, Option.map_none, Option.toList_none, List.nil_append, newPassRecord] at this
    exact (this.symm.append_left _).trans List.perm_middle
  · refine ⟨by simpa [hss] using d.1, by simpa [leftWith, joinInflight, hhp, claimPlace] using d.2, by simpa [hrecs] using d.3,
      by simpa [hgt] using d.4, hl ?_, by simpa [hmg] using d.6⟩
    simpa [joinInflight, hhp, claimPlace] using d.5

/-- A request record is freed and its request answered (R133, R147). -/
theorem moves_completes {s : State} {k : Nat} {r : PassRecord} (a : Answer) (data : List Byte)
    (h : s.mp.records.getD k none = some r) :
    Moves s (respondOwed r.id a data (s.withMp { s.mp with records := s.mp.records.set k none })) := by
  have held : s.mp.records[k]? = some (some r) := by
    rw [List.getD_eq_getElem?_getD] at h
    cases hx : s.mp.records[k]? with
    | none => simp [hx] at h
    | some x => simpa [hx] using h
  refine ⟨rfl, id, fun c => ⟨c.1, c.2, c.3, c.4, c.5, c.6⟩, fun p => ⟨fun h hh => ?_, p.2⟩, fun _ _ d => ⟨d.1, d.2, d.3, d.4, d.5⟩,
    fun _ _ o => ?_, fun d => ⟨d.1, d.2, (List.length_set ..).trans d.3, d.4, d.5, d.6⟩⟩
  · obtain ⟨r, hr, hpe, hk⟩ := p.1 h hh
    exact ⟨r, hr, protocolError_mono (fun x hx => (List.mem_filter.mp hx).1) hpe, hk⟩
  · refine responsesOwed_given (ids := [r.id]) (resps := [⟨r.id, a, data⟩]) o ?_ rfl rfl rfl rfl ?_
    · have := owedPasses_set none held
      simp only [Option.map_some, Option.toList_some, Option.map_none, Option.toList_none, List.nil_append,
        List.singleton_append] at this
      exact (this.append_left _).trans List.perm_middle
    · simp [respondOwed, leaveInflight, respond]
      rfl

end Sys2Proof.Machine
end

section
/-! PROOF. What becomes of a head request is a move, however it is treated; so are an evaluation anew, a stage-wait test, a release event
and the taking of a request (R4, R8, R13, R25, R33). -/

namespace Sys2Proof.Machine

/-! ## The head request -/

/-- The request `r` at the head may be treated: it has a place, the path takes requests, and it passes the protocol checks outside
DRAINING and SAFE when the hold is sound (R3, R4, R5, R9). -/
structure Treatable (r : HostRequest) (s : State) : Prop where
  place : HasPlace s
  head : s.hp.intake.head? = some r
  takes : pathTakes s.cc = true
  sound : HoldSound s → protocolError s.hp.inflight r = false ∧ s.cc.path ≠ .draining ∧ s.cc.path ≠ .safe

/-- It may be treated after a change outside the host port and the commit controller, too. -/
theorem Treatable.of_same {r : HostRequest} {s u : State} (h : Treatable r s) (hp : u.hp = s.hp) (hc : u.cc = s.cc) :
    Treatable r u := by
  obtain ⟨h1, h2, h3, h4⟩ := h
  refine ⟨by rw [HasPlace, hp]; exact h1, by rw [hp]; exact h2, by rw [hc]; exact h3, fun p => ?_⟩
  rw [hp, hc]
  exact h4 ⟨by rw [← hp]; exact p.1, by rw [← hp, ← hc]; exact p.2⟩

/-- A state with a claimed place in its host port is one in which the place has been claimed. -/
theorem eq_claimPlace {s u : State} (h : u.hp = (claimPlace s).hp) : u = claimPlace (u.withHp s.hp) := by
  cases u
  cases h
  rfl

/-- An answer touches the host port alone. -/
theorem answerHead_comm (a : Answer) (s : State) (ss : Staging) (gt : GroupTable) :
    answerHead a ((s.withGt gt).withSs ss) = ((answerHead a s).withGt gt).withSs ss := by
  have accept : ∀ x : State, acceptWaiting ((x.withGt gt).withSs ss) = ((acceptWaiting x).withGt gt).withSs ss := by
    intro x
    unfold acceptWaiting
    by_cases hr : x.pf.resetAsserted = true
    · rw [if_pos hr, if_pos (show ((x.withGt gt).withSs ss).pf.resetAsserted = true from hr)]
    · rw [if_neg hr, if_neg (show ¬ ((x.withGt gt).withSs ss).pf.resetAsserted = true from hr)]
      rfl
  simp only [answerHead, State.withSs_hp, State.withGt_hp]
  split
  · rfl
  · rename_i r rest _
    exact accept ((respond r.id a [] s).withHp { (respond r.id a [] s).hp with intake := (respond r.id a [] s).hp.intake.tail, hold := none })

theorem answerHead_withGt (a : Answer) (s : State) (gt : GroupTable) : answerHead a (s.withGt gt) = (answerHead a s).withGt gt := by
  have same : ((answerHead a s).withGt gt).withSs s.ss = (answerHead a s).withGt gt := by
    rw [← show ((answerHead a s).withGt gt).ss = s.ss by simp, State.withSs_self]
  rw [← same, ← answerHead_comm]
  rfl

theorem answerHead_withSs (a : Answer) (s : State) (ss : Staging) : answerHead a (s.withSs ss) = (answerHead a s).withSs ss := by
  have same : (answerHead a s).withGt s.gt = answerHead a s := by
    rw [← show (answerHead a s).gt = s.gt by simp, State.withGt_self]
  rw [← same, ← answerHead_comm]
  rfl

/-- The answered request no longer holds the port (R12). -/
theorem answerHead_hold {r : HostRequest} {s : State} (a : Answer) (h : s.hp.intake.head? = some r) :
    (answerHead a s).hp.hold = none := by
  obtain ⟨rest, hi⟩ := intake_of_head h
  simp only [answerHead, hi]
  obtain ⟨xs, ys, e, -⟩ := leaveIntake_with (respond r.id a [] s)
  rw [e]
  rfl

/-- A release after an answer finds no write in stage wait, and may as well come before it (R25, R33). -/
theorem releaseEvent_answered {r : HostRequest} {s : State} (a : Answer) (ds : List Nat) (h : s.hp.intake.head? = some r) :
    releaseEvent ds (answerHead a s) = answerHead a (releaseDescs ds s) := by
  rw [releaseEvent_noWait _ _ (by rw [answerHead_hold a h]; nofun)]
  rw [releaseDescs, releaseDescs, answerHead_withSs, (answerHead_frame a s).2.1]

/-- A context set after an answer may as well be set before it. -/
theorem setCtx_answered (a : Answer) (t : Tag) (c : Context) (s : State) :
    setCtx t c (answerHead a s) = answerHead a (setCtx t c s) := by
  have same : (setCtx t c (answerHead a s)).gt = (setCtx t c s).gt := by
    unfold setCtx
    split <;> simp
  rw [setCtx_eq, same, setCtx_eq t c s, answerHead_withGt]
  rfl

/-- A group that faults as a request is answered (R42 to R44, R46). -/
theorem faultGroup_answered {r : HostRequest} {s : State} (a : Answer) (t : Tag) (why : FaultReason)
    (h : s.hp.intake.head? = some r) : faultGroup t why (answerHead a s) =
      answerHead a (releaseDescs (ctxOf s t).writes (setCtx t (Context.faulted why) s)) := by
  have ctx : ctxOf (answerHead a s) t = ctxOf s t := by simp [ctxOf]
  rw [faultGroup, ctx, setCtx_answered, releaseEvent_answered a _ (by simpa using h)]

/-- A change outside the host port and the commit controller, and the answer. -/
theorem Treatable.answers {r : HostRequest} {s u : State} (h : Treatable r s) (a : Answer) (hu : u.hp = s.hp) (m : Moves s u) :
    Moves s (answerHead a (claimPlace u)) :=
  m.trans (answerHead_moves a u (by rw [HasPlace, hu]; exact h.place) (by rw [hu]; exact h.head))

/-- Only the changes that no invariant looks at. -/
theorem Treatable.answer {r : HostRequest} {s : State} (h : Treatable r s) (a : Answer) : Moves s (answerHead a (claimPlace s)) :=
  h.answers a rfl (.refl s)

/-- The group of a tag faults as the request is answered. -/
theorem Treatable.faults {r : HostRequest} {s : State} (h : Treatable r s) (a : Answer) (t : Tag) (why : FaultReason)
    (h0 : HoldSound s → t ≠ 0) : Moves s (faultGroup t why (answerHead a (claimPlace s))) := by
  rw [faultGroup_answered (s := claimPlace s) a t why h.head, setCtx_claimPlace]
  exact h.answers a (by simp) (moves_groupLost t _ h0 rfl)

/-! ## Tagged writes -/

/-- A count or a timer of the staging store is no part of what the invariants look at. -/
theorem same_store {s : State} {x : Staging} (h1 : x.descPool = s.ss.descPool) (h2 : x.segPool = s.ss.segPool)
    (h3 : x.descs = s.ss.descs) (h4 : x.cells = s.ss.cells) : Same s (s.withSs x) where
  hp := rfl
  descPool := h1
  segPool := h2
  cells := h4
  segs i := by simp only [descAt, State.withSs_ss, h3]
  lengths i := by simp only [descAt, State.withSs_ss, h3]
  gt := rfl
  queue := rfl
  next := rfl
  path := rfl
  records := rfl
  works := id
  cfg := rfl

/-- Nor is a cause. -/
theorem same_setCause (c : Cause) (s : State) : Same s (setCause c s) where
  hp := rfl
  segs _ := rfl
  lengths _ := rfl
  gt := rfl
  queue := rfl
  next := rfl
  path := rfl
  records := rfl
  works := id
  cfg := rfl

theorem moves_countStarved (n : Nat) (s : State) : Moves s (countStarved n s) :=
  (same_store (x := { s.ss with
    starveDesc := if s.ss.descPool.isEmpty then satSucc s.ss.starveDesc else s.ss.starveDesc
    starveSeg := if s.ss.segPool.length < needSegs n then satSucc s.ss.starveSeg else s.ss.starveSeg })
    rfl rfl rfl rfl).moves.trans (same_setCause ..).moves

theorem stageHead_moves {r : HostRequest} {s : State} (h : Treatable r s) (h0 : HoldSound s → r.tag ≠ 0)
    (hs : sufficient s.ss r.length = true) : Moves s (stageHead r (claimPlace s)) := by
  have := h.answers .ok (by simp) (moves_stages r h0 hs)
  rw [← setCtx_claimPlace] at this
  exact this

theorem expireHead_moves {r : HostRequest} {s : State} (h : Treatable r s) (h0 : HoldSound s → r.tag ≠ 0) :
    Moves s (expireHead r (claimPlace s)) := by
  have same : Moves s (s.withSs { s.ss with timer := none }) :=
    (same_store (x := { s.ss with timer := none }) rfl rfl rfl rfl).moves
  exact same.trans ((h.of_same (u := s.withSs { s.ss with timer := none }) rfl rfl).faults .overflow r.tag .overflow fun p => h0 ⟨p.1, p.2⟩)

theorem taggedWrite_moves {r : HostRequest} {s : State} (h : Treatable r s) (hk : r.kind = .write) (h0 : r.tag ≠ 0) :
    Moves s (taggedWrite r (claimPlace s)) := by
  unfold taggedWrite
  dsimp only
  split_ifs
  · exact h.answer .groupFaulted
  · exact h.faults .groupFull r.tag .groupFull fun _ => h0
  · rename_i hs
    exact stageHead_moves h (fun _ => h0) hs
  · unfold enterStageWait
    dsimp only
    have starved := moves_countStarved r.length s
    have h' : Treatable r (countStarved r.length s) := h.of_same (by simp) (by simp)
    have claimed : countStarved r.length (claimPlace s) = claimPlace (countStarved r.length s) := rfl
    rw [claimed]
    split_ifs
    · exact starved.trans (expireHead_moves h' fun _ => h0)
    · refine (starved.trans (same_store (s := countStarved r.length s)
        (x := { (countStarved r.length s).ss with timer := some s.mg.cfg.stageWait }) rfl rfl rfl rfl).moves).trans ?_
      have h'' := h'.of_same (u := (countStarved r.length s).withSs
        { (countStarved r.length s).ss with timer := some s.mg.cfg.stageWait }) rfl rfl
      exact holdHead_moves (r := r) (c := .stageWait) _ h''.place h''.head h''.sound
        (by simpa [holdsRightly, isWrite, hk] using h0)

/-! ## Markers -/

/-- A FOLD that passes the protocol checks names two different tags other than 0 (R5). -/
theorem fold_tags {ids : List HostId} {r : HostRequest} (hf : classify r = .fold) (hp : protocolError ids r = false) :
    r.tag ≠ 0 ∧ r.target ≠ 0 ∧ r.target ≠ r.tag := by
  have hk : r.kind = .marker ∧ isFold r = true := by
    unfold classify at hf
    split at hf
    · split at hf <;> cases hf
    · split at hf <;> cases hf
    · rename_i hk
      refine ⟨hk, ?_⟩
      split at hf
      case h_3 hcode => simp [isFold, hk, hcode]
      case h_4 hcode => simp [isFold, hk, hcode]
      all_goals cases hf
  simp only [protocolError, hk, Bool.or_eq_false_iff, Bool.true_and, beq_eq_false_iff_ne] at hp
  obtain ⟨⟨⟨⟨-, h1⟩, h2, h3⟩, -⟩, -⟩ := hp
  exact ⟨by simpa using h1, h2, h3⟩

/-- Both sides of a FOLD take new contexts: what their lists lose is released (R49 to R51). -/
theorem moves_fold {s : State} {a b : Tag} {c : Context} (ds : List Nat) (hg : HoldSound s → a ≠ 0 ∧ b ≠ 0 ∧ b ≠ a)
    (hc : DescriptorsConserved s → c.state ≠ .opened → c.writes = [])
    (hp : DescriptorsConserved s → ((ctxOf s a).writes ++ (ctxOf s b).writes).Perm (ds ++ c.writes)) :
    Moves s (releaseDescs ds (setCtx b c (setCtx a Context.idle s))) := by
  have split : setCtx b c (setCtx a Context.idle s) = s.withGt (setCtx b c (setCtx a Context.idle s)).gt := by
    rw [setCtx_eq a, setCtx_eq b]
    rfl
  rw [split]
  refine moves_regroups _ _ (by simp) fun p d => ⟨onlyOpen_setCtx (onlyOpen_setCtx d.2 fun _ => rfl) (hc d), ?_⟩
  obtain ⟨ha, hb, hab⟩ := hg p
  have h1 := held_setCtx Context.idle d.contexts63 ha
  have h2 := held_setCtx (s := setCtx a Context.idle s) c (by simpa using d.contexts63) hb
  have h3 := hp d
  rw [ctxOf_setCtx s a b _ d.contexts63 ha, if_neg hab] at h2
  rw [List.perm_iff_count] at *
  intro x
  have h1 := h1 x
  have h2 := h2 x
  have h3 := h3 x
  simp only [List.count_append, Context.idle, List.count_nil] at *
  omega

theorem foldGroups_moves {r : HostRequest} {s : State} (h : Treatable r s) (hf : classify r = .fold) :
    Moves s (foldGroups r (claimPlace s)) := by
  have tags : HoldSound s → r.tag ≠ 0 ∧ r.target ≠ 0 ∧ r.target ≠ r.tag := fun p => fold_tags hf (h.sound p).1
  have ctx : ∀ t, ctxOf (claimPlace s) t = ctxOf s t := fun _ => rfl
  unfold foldGroups
  simp only [ctx, setCtx_claimPlace]
  split_ifs with h1 h2 h3 h4
  · exact h.answer .ok
  · rw [releaseEvent_answered (r := r) _ _ (by simpa [claimPlace] using h.head)]
    have empty := fun d : DescriptorsConserved s => ctxOf_onlyOpen d.2 (t := r.target) (by rw [h3]; nofun)
    exact h.answers .failedGroup (by simp) (moves_fold _ tags (fun d _ => empty d) fun d => by simp [empty d])
  · rw [releaseEvent_answered (r := r) _ _ (by simpa [claimPlace] using h.head)]
    exact h.answers .failedGroup (by simp) (moves_fold _ tags (fun _ _ => rfl) fun _ => by simp [Context.faulted])
  · exact h.answer .groupFull
  · have none : ∀ x : State, x = releaseDescs [] x := fun _ => rfl
    rw [none (setCtx r.target _ _)]
    refine h.answers .ok (by simp) (moves_fold _ tags (fun _ ho => absurd rfl ho) fun _ => ?_)
    simp only [foldedContext]
    split_ifs
    · exact List.perm_append_comm
    · rfl

end Sys2Proof.Machine
end

section
/-! PROOF. COMMIT, the read path, and with them every treatment of the head request, are moves (R4, R8, R13, R59 to R62, R124 to R132). -/

namespace Sys2Proof.Machine

/-! ## COMMIT -/

/-- A marker class comes from a marker (R7). -/
theorem kind_of_classify {r : HostRequest} (h : classify r = .commit ∨ classify r = .abort) : r.kind = .marker := by
  unfold classify at h
  split at h
  · split at h <;> simp at h
  · split at h <;> simp at h
  · assumption

/-- Only a COMMIT is classified so (R7). -/
theorem isMarker_commit_of_classify {r : HostRequest} (h : classify r = .commit) : isMarker .commit r = true := by
  have hk := kind_of_classify (.inl h)
  simp only [classify, hk] at h
  rw [isMarker_iff]
  refine ⟨hk, ?_⟩
  split at h
  · assumption
  all_goals cases h

/-- The path takes requests before RUN only in UNCONFIGURED (R8, R9). -/
theorem beforeRun_takes {cc : CommitControl} (h : pathTakes cc = true) (hb : beforeRun cc.path) : cc.path = .unconfigured := by
  rcases hb with hb | hb | hb
  · exact hb
  all_goals simp [pathTakes, hb] at h

theorem commitHead_moves {r : HostRequest} {s : State} (h : Treatable r s) (hc : classify r = .commit)
    (hu : s.cc.path ≠ .unconfigured) : Moves s (commitHead r (claimPlace s)) := by
  have kind := kind_of_classify (.inl hc)
  have tag : HoldSound s → r.tag ≠ 0 := fun p => marker_tag_ne_zero kind (h.sound p).1
  have ctx : ctxOf (claimPlace s) r.tag = ctxOf s r.tag := rfl
  have cc : (claimPlace s).cc = s.cc := rfl
  unfold commitHead
  simp only [ctx, cc, setCtx_claimPlace]
  split_ifs with h1 h2 h3 h4 h5 h6
  · exact h.answers .stopped (by simp) (moves_ctx _ _ tag (by rw [h2]; nofun) rfl)
  · exact h.answer .stopped
  · exact h.answer .empty
  · exact h.answers .failedGroup (by simp) (moves_ctx _ _ tag (by rw [h4]; nofun) rfl)
  · rw [releaseEvent_answered (r := r) _ _ (by simpa [claimPlace] using h.head)]
    exact h.answers .tooLarge (by simp) (moves_groupLost _ _ tag rfl)
  · exact holdHead_moves s h.place h.head h.sound (isMarker_commit_of_classify hc)
  · exact moves_commits h.place (fun p => ⟨notInFlight_of_sound (h.sound p).1, tag p⟩) (Nat.lt_of_not_le h6)
      fun hb => hu (beforeRun_takes h.takes hb)

/-! ## The read path -/

/-- The walk of a group's list changes nothing that the invariants look at (R129). -/
theorem same_overlayWalk (a len : Nat) (is : List Nat) (ov : List (Option Byte)) (s : State) :
    Same s (overlayWalk a len is ov s).2 := by
  have store := overlayWalk_store a len is ov s
  have frame := overlayWalk_frame a len is ov s
  obtain ⟨h1, h2, h3, h4⟩ := store
  constructor
  case segs | lengths => intro i; simp only [descAt, h3]
  all_goals simp [h1, h2, h4]

/-- A read that travels with an overlay has a tag (R128). -/
theorem tag_of_needsSlot {r : HostRequest} {s : State} (h : needsSlot r s = true) : r.kind = .read ∧ r.tag ≠ 0 := by
  simp only [needsSlot, Bool.and_eq_true, beq_iff_eq] at h
  refine ⟨h.1, fun h0 => ?_⟩
  simp [ctxOf, h0, Context.idle] at h

/-- A merge slot is taken beside a place claimed. -/
theorem takeSlot_claimPlace (r : HostRequest) (ov : List (Option Byte)) (s : State) :
    takeSlot r ov (claimPlace s) = claimPlace (takeSlot r ov s) := by
  have slots : (claimPlace s).hp.slots = s.hp.slots := rfl
  unfold takeSlot
  rw [slots]
  split <;> rfl

theorem takeSlot_moves (r : HostRequest) (ov : List (Option Byte)) (s : State) : Moves s (takeSlot r ov s) := by
  unfold takeSlot
  split
  · exact .refl s
  · exact moves_slots s _ (by simp)

/-- A request is sent in the host port as it is, but for a merge slot taken. -/
theorem sendPass_moves {r : HostRequest} {s : State} (hp : HasPlace s) (hg : HoldSound s → r.id ∉ s.hp.inflight)
    (hm : (firstAbsent s.mp.records).isNone = false) : Moves s (sendPass r (claimPlace s)) :=
  moves_sends hp hg (by simpa [← Option.isNone_iff_eq_none] using hm)

theorem overlayRead_moves {r : HostRequest} {s : State} (h : Treatable r s) (hn : needsSlot r s = true)
    (hm : (firstAbsent s.mp.records).isNone = false) : Moves s (overlayRead r (claimPlace s)) := by
  have frame := overlayWalk_frame r.addr.toNat r.length (ctxOf s r.tag).writes (List.replicate r.length none) (claimPlace s)
  have walk := same_overlayWalk r.addr.toNat r.length (ctxOf s r.tag).writes (List.replicate r.length none) (claimPlace s)
  have ctx : ctxOf (claimPlace s) r.tag = ctxOf s r.tag := rfl
  unfold overlayRead
  rw [ctx]
  generalize overlayWalk _ _ _ _ (claimPlace s) = w at *
  obtain ⟨res, s1⟩ := w
  dsimp only at walk frame ⊢
  obtain ⟨-, fhp, fgt, fcc, -, -, fmp, -, -, -⟩ := frame
  have same : Same s (s1.withHp s.hp) :=
    ⟨rfl, walk.descPool, walk.segPool, walk.cells, walk.segs, walk.lengths, walk.gt, walk.queue, walk.next, walk.path, walk.records,
      walk.works, walk.cfg⟩
  have h' : Treatable r (s1.withHp s.hp) := h.of_same rfl fcc
  rw [eq_claimPlace fhp]
  cases res with
  | some ov =>
    dsimp only
    rw [takeSlot_claimPlace]
    have taken := takeSlot_moves r ov (s1.withHp s.hp)
    refine (same.moves.trans taken).trans (sendPass_moves ?_ (fun p => ?_) ?_)
    · have := h'.place
      unfold takeSlot
      split
      · exact this
      · exact this
    · have back : HoldSound (s1.withHp s.hp) := by
        unfold takeSlot at p
        split at p
        · exact p
        · exact ⟨p.1, p.2⟩
      have := notInFlight_of_sound (h'.sound back).1
      unfold takeSlot
      split
      · exact this
      · exact this
    · unfold takeSlot
      split
      · simpa [show s1.mp = s.mp from fmp] using hm
      · simpa [show s1.mp = s.mp from fmp] using hm
  | none =>
    exact same.moves.trans (h'.faults .integrity r.tag .integrity fun _ => (tag_of_needsSlot hn).2)

theorem passThrough_moves {r : HostRequest} {s : State} (h : Treatable r s) (hr : onReadPath r = true) :
    Moves s (passThrough r (claimPlace s)) := by
  have slot : needsSlot r (claimPlace s) = needsSlot r s := rfl
  have slots : (claimPlace s).hp.slots = s.hp.slots := rfl
  have recs : (claimPlace s).mp.records = s.mp.records := rfl
  unfold passThrough
  dsimp only
  rw [slot, slots, recs]
  split_ifs with h1 h2 h3 h4 h5
  · exact h.answer .blocked
  · exact holdHead_moves s h.place h.head h.sound hr
  · refine holdHead_moves s h.place h.head h.sound ?_
    simp only [Bool.and_eq_true] at h3
    simp [holdsRightly, isRead, (tag_of_needsSlot h3.1).1]
  · exact holdHead_moves s h.place h.head h.sound hr
  · exact overlayRead_moves h h5 (Bool.eq_false_iff.mpr h4)
  · exact sendPass_moves h.place (fun p => notInFlight_of_sound (h.sound p).1) (Bool.eq_false_iff.mpr h4)

/-! ## Every treatment -/

theorem abortGroup_moves {r : HostRequest} {s : State} (h : Treatable r s) (hc : classify r = .abort) :
    Moves s (abortGroup r (claimPlace s)) := by
  have ctx : ctxOf (claimPlace s) r.tag = ctxOf s r.tag := rfl
  simp only [abortGroup, ctx, setCtx_claimPlace]
  rw [releaseEvent_answered (r := r) _ _ (by simpa [claimPlace] using h.head)]
  exact h.answers .ok (by simp) (moves_groupLost _ _ (fun p => marker_tag_ne_zero (kind_of_classify (.inr hc)) (h.sound p).1) rfl)

/-- Reads and untagged writes are on the read path (R7, R125). -/
theorem onReadPath_of_classify {r : HostRequest}
    (h : classify r = .untaggedRead ∨ classify r = .taggedRead ∨ classify r = .untaggedWrite) : onReadPath r = true := by
  unfold classify at h
  split at h
  · simp [onReadPath, isRead, *]
  · split_ifs at h with h0
    · simp_all [onReadPath, isWrite]
    · simp at h
  · split at h <;> simp at h

/-- The treatment of a head request by its class is a move (R8). -/
theorem dispatch_moves {r : HostRequest} {s : State} (h : Treatable r s) : Moves s (dispatch r (claimPlace s)) := by
  have cc : (claimPlace s).cc = s.cc := rfl
  unfold dispatch
  rw [cc]
  split
  case h_1 hc | h_2 hc | h_3 hc =>
    exact passThrough_moves h (onReadPath_of_classify (by simp [hc]))
  case h_4 hc =>
    have hw : r.kind = .write ∧ r.tag ≠ 0 := by
      unfold classify at hc
      split at hc
      · split at hc <;> cases hc
      · rename_i hk
        split_ifs at hc with h0
        exact ⟨hk, by simpa using h0⟩
      · split at hc <;> cases hc
    split_ifs
    · exact taggedWrite_moves h hw.1 hw.2
    · exact h.answer .nolog
  case h_5 hc =>
    split_ifs with hu
    · exact h.answer .nolog
    · exact commitHead_moves h hc hu
  case h_6 hc =>
    split_ifs
    · exact h.answer .ok
    · exact abortGroup_moves h hc
  case h_7 hc =>
    split_ifs
    · exact h.answer .nolog
    · exact h.answer .stopped
    · exact foldGroups_moves h hc
  case h_8 => exact h.answer .protocol

/-- A request that holds the port may be treated in a path that takes requests (R13). -/
theorem treatable_of_hold {r : HostRequest} {c : HoldCondition} {s : State} (hh : s.hp.hold = some c)
    (hr : s.hp.intake.head? = some r) (ht : pathTakes s.cc = true) : Treatable r s := by
  refine ⟨.inl (by simp [hh]), hr, ht, fun p => ⟨?_, fun hd => ?_, fun hs => ?_⟩⟩
  · obtain ⟨r', hr', hp, -⟩ := p.1 c hh
    rw [hr] at hr'
    cases hr'
    exact hp
  · rw [p.2 (.inl hd)] at hh
    cases hh
  · rw [p.2 (.inr hs)] at hh
    cases hh

/-- An evaluation anew is a move (R13). -/
theorem evaluate_moves (ev : EvalEvent) (s : State) : Moves s (evaluate ev s) := by
  unfold evaluate
  split
  · rename_i c r rest hh hi
    split_ifs with h
    · simp only [Bool.and_eq_true] at h
      have := dispatch_moves (treatable_of_hold (r := r) hh (by simp [hi]) h.2)
      rwa [claimPlace_of_some hh] at this
    · exact .refl s
  · exact .refl s

/-- A stage-wait test is a move (R25). -/
theorem stageTest_moves (s : State) : Moves s (stageTest s) := by
  unfold stageTest
  split
  · rename_i r rest hh hi
    split_ifs with hs
    · have tag : HoldSound s → r.tag ≠ 0 := fun p => by
        obtain ⟨r', hr', -, hr⟩ := p.1 _ hh
        rw [hi] at hr'
        cases hr'
        simp only [holdsRightly, Bool.and_eq_true, bne_iff_ne] at hr
        exact hr.2
      have staged := moves_stages r tag hs
      have answered := answerHead_moves (r := r) .ok _ (.inl (by simp [hh])) (by simp [hi]) |> staged.trans
      rwa [claimPlace_of_some (c := .stageWait) (by simpa using hh)] at answered
    · exact .refl s
  · exact .refl s

/-- A release event after a change and its release is a move, when these are (R33, R25). -/
theorem releaseEvent_moves {s u : State} (ds : List Nat) (h : Moves s (releaseDescs ds u)) : Moves s (releaseEvent ds u) := by
  unfold releaseEvent
  split
  · rename_i hd
    rw [List.isEmpty_iff.mp hd] at h
    exact h
  · exact h.trans (stageTest_moves _)

/-- A request that is taken is treated in a move (R4). -/
theorem takeHead_moves (named : HostRequest → Bool) (s : State) : Moves s (takeHead named s) := by
  unfold takeHead
  split
  · exact .refl s
  · rename_i r rest hi
    split_ifs with h
    · simp only [canTake, Bool.and_eq_true, Option.isNone_iff_eq_none, decide_eq_true_eq] at h
      obtain ⟨⟨⟨ht, hn⟩, hp⟩, -⟩ := h
      have place : HasPlace s := .inr hp
      have head : s.hp.intake.head? = some r := by simp [hi]
      change Moves s (treat r (reservePlace s))
      rw [← claimPlace_of_none hn, treat]
      change Moves s (if s.cc.path = .draining ∨ s.cc.path = .safe then _ else if protocolError s.hp.inflight r = true then _ else _)
      split_ifs with h1 h2
      · exact answerHead_moves _ s place head
      · exact answerHead_moves _ s place head
      · push Not at h1
        exact dispatch_moves ⟨place, head, ht, fun _ => ⟨by simpa using h2, h1⟩⟩
    · exact .refl s

end Sys2Proof.Machine
end

section
/-! PROOF. What a change of the engines and of the memory port may touch without touching the queue, the hold, the holders or the responses,
and the life of commit records as moves (R57, R63 to R69, R71, R93, R98, R136, R158 to R165). -/

namespace Sys2Proof.Machine

/-! ## Changes outside the invariants -/

theorem same_le (s : State) (x : LogEngine) : Same s (s.withLe x) :=
  ⟨rfl, rfl, rfl, rfl, fun _ => rfl, fun _ => rfl, rfl, rfl, rfl, rfl, rfl, id, rfl⟩

theorem same_ae (s : State) (x : ApplyEngine) : Same s (s.withAe x) :=
  ⟨rfl, rfl, rfl, rfl, fun _ => rfl, fun _ => rfl, rfl, rfl, rfl, rfl, rfl, id, rfl⟩

theorem same_pf (s : State) (x : PowerFail) : Same s (s.withPf x) :=
  ⟨rfl, rfl, rfl, rfl, fun _ => rfl, fun _ => rfl, rfl, rfl, rfl, rfl, rfl, id, rfl⟩

theorem same_mg {s : State} {x : Management} (h : x.cfg = s.mg.cfg) : Same s (s.withMg x) :=
  ⟨rfl, rfl, rfl, rfl, fun _ => rfl, fun _ => rfl, rfl, rfl, rfl, rfl, rfl, id, h⟩

theorem same_re {s : State} {x : RecoveryEngine} (h : recoveryWorks x → recoveryWorks s.re) : Same s (s.withRe x) :=
  ⟨rfl, rfl, rfl, rfl, fun _ => rfl, fun _ => rfl, rfl, rfl, rfl, rfl, rfl, h, rfl⟩

theorem same_cc {s : State} {x : CommitControl} (hq : x.queue = s.cc.queue) (hn : x.next = s.cc.next) (hp : x.path = s.cc.path) :
    Same s (s.withCc x) :=
  ⟨rfl, rfl, rfl, rfl, fun _ => rfl, fun _ => rfl, rfl, hq, hn, hp, rfl, id, rfl⟩

theorem same_mp {s : State} {x : MemoryPort}
    (h : x.records.map (Option.map PassRecord.id) = s.mp.records.map (Option.map PassRecord.id)) : Same s (s.withMp x) :=
  ⟨rfl, rfl, rfl, rfl, fun _ => rfl, fun _ => rfl, rfl, rfl, rfl, rfl, h, id, rfl⟩

theorem same_handRequest (o : Nat → Owner) (k : MemKind) (a n : Nat) (m : Option (List Bool)) (d : List Byte) (s : State) :
    Same s (handRequest o k a n m d s) :=
  same_mp (by simp)

theorem same_withdrawRequests (sel : Owner → Bool) (s : State) : Same s (withdrawRequests sel s) := same_mp rfl

theorem same_retirementNotice (gone : List CommitRecord) (s : State) : Same s (retirementNotice gone s) := same_le ..

theorem same_advanceHead (sp : Option Span) (s : State) : Same s (advanceHead sp s) := by
  unfold advanceHead
  split <;> exact same_le ..

theorem same_anchorAcked (s : State) : Same s (anchorAcked s) := by
  unfold anchorAcked
  split
  · exact same_le s s.le
  · exact same_le ..

theorem moves_haltApply (s : State) : Moves s (haltApply s) := by
  unfold haltApply
  dsimp only
  split
  · exact .refl s
  · exact (same_ae ..).moves.trans (same_withdrawRequests ..).moves

theorem moves_countChecks (cs : List WordCheck) (s : State) : Moves s (cs.foldl countCheck s) := by
  induction cs generalizing s with
  | nil => exact .refl s
  | cons c cs ih =>
    refine Moves.trans ?_ (ih (countCheck s c))
    unfold countCheck
    split
    · exact .refl s
    · exact (same_store (x := { s.ss with corrected := s.ss.corrected + 1 }) rfl rfl rfl rfl).moves
    · exact (same_store (x := { s.ss with uncorrectable := s.ss.uncorrectable + 1 }) rfl rfl rfl rfl).moves.trans
        (same_setCause ..).moves

/-- The words of a read-out are counted and nothing more (R31). -/
theorem readDescriptor_moves (d : Descriptor) (s : State) : Moves s (readDescriptor d s).2.2 := moves_countChecks ..

/-! ## Requests of RE -/

/-- RE goes on and asks the memory port for more: only RE and the ready lists change (R136, R158 to R165). -/
structure Asks (s t : State) : Prop where
  hp : t.hp = s.hp
  ss : t.ss = s.ss
  gt : t.gt = s.gt
  cc : t.cc = s.cc
  le : t.le = s.le
  ae : t.ae = s.ae
  pf : t.pf = s.pf
  mg : t.mg = s.mg
  records : t.mp.records = s.mp.records
  entries : t.mp.entries = s.mp.entries
  orphaned : t.mp.orphaned = s.mp.orphaned

theorem Asks.refl (s : State) : Asks s s := ⟨rfl, rfl, rfl, rfl, rfl, rfl, rfl, rfl, rfl, rfl, rfl⟩

theorem Asks.trans {s u t : State} (h : Asks s u) (k : Asks u t) : Asks s t :=
  ⟨k.hp.trans h.hp, k.ss.trans h.ss, k.gt.trans h.gt, k.cc.trans h.cc, k.le.trans h.le, k.ae.trans h.ae, k.pf.trans h.pf,
    k.mg.trans h.mg, k.records.trans h.records, k.entries.trans h.entries, k.orphaned.trans h.orphaned⟩

theorem Asks.same {s t : State} (h : Asks s t) (hw : recoveryWorks t.re → recoveryWorks s.re) : Same s t :=
  ⟨h.hp, by rw [h.ss], by rw [h.ss], by rw [h.ss], fun i => by simp only [descAt, h.ss], fun i => by simp only [descAt, h.ss],
    h.gt, by rw [h.cc], by rw [h.cc], by rw [h.cc], by rw [h.records], hw, by rw [h.mg]⟩

/-- It may ask while it works. -/
theorem Asks.moves {s t : State} (h : Asks s t) (hw : recoveryWorks s.re) : Moves s t := (h.same fun _ => hw).moves

theorem asks_withRe (s : State) (x : RecoveryEngine) : Asks s (s.withRe x) := ⟨rfl, rfl, rfl, rfl, rfl, rfl, rfl, rfl, rfl, rfl, rfl⟩

theorem asks_handRequest (o : Nat → Owner) (k : MemKind) (a n : Nat) (m : Option (List Bool)) (d : List Byte) (s : State) :
    Asks s (handRequest o k a n m d s) := by
  simp only [handRequest]
  cases ownerClass (o 0) <;> exact ⟨rfl, rfl, rfl, rfl, rfl, rfl, rfl, rfl, rfl, rfl, rfl⟩

theorem asks_handUnitRead (what : RecoveryRequest) (p n : Nat) (s : State) : Asks s (handUnitRead what p n s) :=
  (asks_handRequest ..).trans (asks_withRe ..)

theorem asks_readSlots (s : State) : Asks s (readSlots s) :=
  (((((asks_withRe ..).trans (asks_handRequest ..)).trans (asks_withRe ..)).trans (asks_handRequest ..)).trans (asks_withRe ..))

theorem asks_beginFormat (a : Option Anchor) (s : State) : Asks s (beginFormat a s) := (asks_withRe ..).trans (asks_handRequest ..)

theorem asks_formatSecond (s : State) : Asks s (formatSecond s) := asks_handRequest ..

theorem asks_scanStart (s : State) : Asks s (scanStart s) := (asks_withRe ..).trans (asks_handUnitRead ..)

theorem asks_closeScan (s : State) : Asks s (closeScan s) := (asks_withRe ..).trans (asks_handRequest ..)

theorem asks_passGroup (g : Nat) (s : State) : Asks s (passGroup g s) := (asks_withRe ..).trans (asks_scanStart _)

theorem asks_startUnitRead (bs : List Byte) (s : State) : Asks s (startUnitRead bs s) := by
  unfold startUnitRead
  dsimp only
  split
  · exact (asks_withRe ..).trans (asks_scanStart _)
  · split
    · exact asks_closeScan s
    · exact (asks_withRe ..).trans (asks_handUnitRead ..)

theorem asks_verifyNext (gr : GroupUnderTest) (s : State) : Asks s (verifyNext gr s) := by
  unfold verifyNext
  split_ifs
  · split
    · exact asks_closeScan s
    · exact (asks_withRe ..).trans (asks_handUnitRead ..)
  · exact asks_closeScan s
  · exact asks_closeScan s
  · exact asks_handUnitRead ..

theorem asks_trailerUnitRead (bs : List Byte) (s : State) : Asks s (trailerUnitRead bs s) := by
  unfold trailerUnitRead
  split
  · exact asks_closeScan s
  · split
    · exact asks_closeScan s
    · exact (asks_withRe ..).trans (asks_passGroup ..)
    · exact (asks_withRe ..).trans (asks_verifyNext ..)

theorem asks_datHeaderRead (bs : List Byte) (s : State) : Asks s (datHeaderRead bs s) := by
  unfold datHeaderRead
  split
  · exact asks_closeScan s
  · split
    · exact asks_closeScan s
    · exact (asks_withRe ..).trans (asks_handUnitRead ..)

theorem asks_datRestRead (bs : List Byte) (s : State) : Asks s (datRestRead bs s) := by
  unfold datRestRead
  dsimp only
  split
  · exact asks_closeScan s
  · split_ifs
    · exact (asks_withRe ..).trans (asks_verifyNext ..)
    · exact asks_closeScan s

theorem asks_handReplay (gr : GroupUnderTest) (w : RecordWrite) (s : State) : Asks s (handReplay gr w s) := by
  have handed := (asks_handRequest (Owner.recovery (.replayWrite s.re.i)) .write w.addr.toNat w.length w.mask w.data s).trans
    (asks_withRe _ { s.re with
      replaySet := s.re.replaySet ++ [⟨s.re.i, w.addr, w.length, freshMarks (handedPieces s w.addr.toNat w.length)⟩]
      held := none, i := s.re.i + 1 })
  unfold handReplay
  dsimp only
  split_ifs
  · split
    · exact handed.trans (asks_handUnitRead ..)
    · exact handed
  · exact handed

theorem asks_replayGroupEnd (s : State) : Asks s (replayGroupEnd s) := by
  unfold replayGroupEnd
  split
  · exact .refl s
  · split_ifs
    · exact (asks_withRe ..).trans (asks_passGroup ..)
    · exact .refl s

theorem asks_replayPieceAcked (i k : Nat) (s : State) : Asks s (replayPieceAcked i k s) := by
  unfold replayPieceAcked
  dsimp only
  split
  · exact .refl s
  · split_ifs
    · exact (asks_withRe ..).trans (asks_replayGroupEnd _)
    · exact asks_withRe ..

/-! ## Removal, drops and the ends of logging -/

theorem removeHeads_moves (s : State) : Moves s (removeHeads s) := by
  unfold removeHeads
  dsimp only
  split
  · exact .refl s
  · exact ((moves_retires s).trans (same_retirementNotice ..).moves).trans (evaluate_moves ..)

theorem dropRecords_moves {s : State} (chosen : CommitRecord → Bool) (why : FailReason) (a : Answer)
    (hc : ∀ r ∈ s.cc.queue, chosen r = true → unansweredState r = true) : Moves s (dropRecords chosen why a s) :=
  (releaseEvent_moves _ (moves_drops chosen why a hc)).trans (evaluate_moves ..)

theorem trailerAcked_moves (s : State) : Moves s (trailerAcked s) := by
  unfold trailerAcked
  dsimp only
  split
  · exact .refl s
  · rename_i rec h
    have swap : respondOwed rec.hostId .ok []
        (advanceHead rec.span (updateRecord rec.number .logging (fun r => { r with state := .durable }) s)) =
        advanceHead rec.span
          (respondOwed rec.hostId .ok [] (updateRecord rec.number .logging (fun r => { r with state := .durable }) s)) := by
      unfold advanceHead
      split <;> rfl
    rw [swap]
    have done := (moves_durable .ok h).trans (same_advanceHead rec.span _).moves
    split
    · exact done.trans (evaluate_moves ..)
    · exact done

theorem voidTrailerAcked_moves (s : State) : Moves s (voidTrailerAcked s) := by
  unfold voidTrailerAcked
  split
  · exact .refl s
  · exact ((same_advanceHead ..).moves.trans (dropRecords_moves _ _ _ (by simp +contextual [unansweredState]))).trans
      (removeHeads_moves _)

theorem groupPieceAcked_moves (part : LogPart) (s : State) : Moves s (groupPieceAcked part s) := by
  unfold groupPieceAcked
  split
  · exact .refl s
  · split
    · exact voidTrailerAcked_moves s
    · exact trailerAcked_moves s
    · exact (same_le ..).moves

/-! ## Groups and stage waits -/

theorem faultOpenGroups_moves (s : State) : Moves s (faultOpenGroups s) :=
  releaseEvent_moves _ (moves_openLists _ (fun c hc => by simp [hc, Context.faulted]) (fun c hc hw => by simp [hc, hw]))

theorem discardGroups_moves (s : State) : Moves s (discardGroups s) :=
  releaseEvent_moves _ (moves_openLists (fun _ => Context.idle) (fun _ _ => rfl) (fun _ _ _ => rfl))

/-- The request that holds the port is answered where it stands (R10, R27). -/
theorem answerHeld_moves {c : HoldCondition} (a : Answer) (s : State) (h : s.hp.hold = some c) :
    Moves s (answerHead a (s.withSs { s.ss with timer := none })) := by
  have stopped : Moves s (s.withSs { s.ss with timer := none }) :=
    (same_store (x := { s.ss with timer := none }) rfl rfl rfl rfl).moves
  cases hi : s.hp.intake with
  | nil => simpa [answerHead, hi] using stopped
  | cons r rest =>
    have := answerHead_moves (r := r) a (s.withSs { s.ss with timer := none }) (.inl (by simp [h])) (by simp [hi])
    rw [claimPlace_of_some (s := s.withSs { s.ss with timer := none }) (c := c) h] at this
    exact stopped.trans this

theorem endStageWait_moves (a : Answer) (s : State) : Moves s (endStageWait a s) := by
  unfold endStageWait
  split_ifs with h
  · exact answerHeld_moves a s h
  · exact .refl s

theorem powerHead_moves (s : State) : Moves s (powerHead s) := by
  unfold powerHead
  split_ifs with h
  · obtain ⟨c, hc⟩ := Option.isSome_iff_exists.mp h
    exact answerHeld_moves .power s hc
  · exact .refl s

end Sys2Proof.Machine
end

section
/-! PROOF. The end of an applied write and the outcome of a pass-through request as moves, and the changes of the path: what they keep
(R68, R113, R133, R138, R147, R151 to R157). -/

namespace Sys2Proof.Machine

/-! ## The queue under an evaluation -/

/-- A treatment may append one QUEUED record and changes no other (R62). -/
theorem dispatch_queue (r : HostRequest) (s : State) :
    ∃ new, (dispatch r s).cc.queue = s.cc.queue ++ new ∧ ∀ x ∈ new, x.state = .queued := by
  have none : ∀ u : State, u.cc = s.cc → ∃ new, u.cc.queue = s.cc.queue ++ new ∧ ∀ x ∈ new, x.state = .queued :=
    fun u h => ⟨[], by simp [h]⟩
  have commit : ∃ new, (commitHead r s).cc.queue = s.cc.queue ++ new ∧ ∀ x ∈ new, x.state = .queued := by
    by_cases h : commitHead r s = acceptCommit r s
    · exact ⟨[newRecord r (ctxOf s r.tag) s.cc.next], by simp [h, acceptCommit, newRecord], by simp [newRecord]⟩
    · refine none _ ?_
      unfold commitHead at h ⊢
      dsimp only at h ⊢
      split_ifs at h ⊢ <;> simp_all
  unfold dispatch
  split
  case h_5 =>
    split_ifs
    · exact none _ (by simp)
    · exact commit
  case h_4 | h_6 | h_7 =>
    split_ifs <;> exact none _ (by simp)
  all_goals exact none _ (by simp)

theorem evaluate_queue (ev : EvalEvent) (s : State) :
    ∃ new, (evaluate ev s).cc.queue = s.cc.queue ++ new ∧ ∀ x ∈ new, x.state = .queued := by
  unfold evaluate
  split
  · split
    · exact dispatch_queue _ _
    · exact ⟨[], by simp⟩
  · exact ⟨[], by simp⟩

/-! ## The end of an applied write -/

theorem currentRecord_spec {s : State} {rec : CommitRecord} (h : currentRecord s = some rec) :
    rec ∈ s.cc.queue ∧ rec.state = .applying := by
  unfold currentRecord at h
  split at h
  · cases h
  · have := List.find?_some h
    simp only [Bool.and_eq_true, beq_iff_eq] at this
    exact ⟨List.mem_of_find?_eq_some h, this.2⟩

/-- The APPLYING record with number `n`, whose list is empty, becomes APPLIED, and what stands finished at the head is removed (R68, R71). -/
theorem applied_removed_moves {s : State} {n : CommitNumber} (x : ApplyEngine)
    (hm : ∃ r ∈ s.cc.queue, r.number = n ∧ r.state = .applying)
    (he : ∀ r ∈ s.cc.queue, r.number = n ∧ r.state = .applying → r.writes = []) :
    Moves s (removeHeads ((updateRecord n .applying (fun r => { r with state := .applied }) s).withAe x)) := by
  have applied := moves_applied hm he
  unfold removeHeads
  dsimp only
  split
  · rename_i hg
    have rest : ∀ q : List CommitRecord, (q.takeWhile fun r => finished r.state).isEmpty = true →
        q.dropWhile (fun r => finished r.state) = q := fun q hq => by
      have := List.takeWhile_append_dropWhile (p := fun r : CommitRecord => finished r.state) (l := q)
      rwa [List.isEmpty_iff.mp hq, List.nil_append] at this
    rw [show List.dropWhile _ (updateRecord n .applying (fun r => { r with state := .applied }) s).cc.queue = _ from rest _ hg] at applied
    exact applied.trans (same_ae ..).moves
  · exact ((applied.trans (same_ae _ x).moves).trans (same_retirementNotice ..).moves).trans (evaluate_moves ..)

theorem applyRelease_moves (i : Nat) (s : State) : Moves s (applyRelease i s) := by
  unfold applyRelease
  dsimp only
  split
  · exact .refl s
  · rename_i rec h
    obtain ⟨hm, hs⟩ := currentRecord_spec h
    split
    · rename_i hi
      have unlisted := (releaseEvent_moves [i] (moves_unlists hm hs (by simpa using hi))).trans
        (evaluate_moves .hazardShrank (releaseEvent [i]
          (updateRecord rec.number .applying (fun r => { r with writes := rec.writes.erase i }) s)))
      split
      · rename_i he
        refine unlisted.trans (applied_removed_moves _ ?_ ?_)
        all_goals
          obtain ⟨new, hq, hnew⟩ := evaluate_queue .hazardShrank (releaseEvent [i]
            (updateRecord rec.number .applying (fun r => { r with writes := rec.writes.erase i }) s))
          rw [hq, (releaseEvent_frame ..).2.1]
        · refine ⟨{ rec with writes := rec.writes.erase i }, List.mem_append_left _ (List.mem_map.mpr ⟨rec, hm, ?_⟩), rfl, hs⟩
          rw [if_pos ⟨rfl, hs⟩]
        · intro r hr hn
          rcases List.mem_append.mp hr with hr | hr
          · obtain ⟨r', -, rfl⟩ := List.mem_map.mp hr
            split_ifs at hn ⊢ with h'
            · exact List.isEmpty_iff.mp he
            · exact absurd hn h'
          · exact absurd hn.2 (by rw [hnew r hr]; nofun)
      · exact unlisted
    · exact .refl s

/-! ## Pass-through requests in the memory port -/

/-- A record replaced by one of the same request. -/
theorem recordIds_set {xs : List (Option PassRecord)} {k : Nat} {r r' : PassRecord} (h : xs.getD k none = some r)
    (hid : r'.id = r.id) : (xs.set k (some r')).map (Option.map PassRecord.id) = xs.map (Option.map PassRecord.id) := by
  have hk : xs[k]? = some (some r) := by
    rw [List.getD_eq_getElem?_getD] at h
    cases hx : xs[k]? with
    | none => simp [hx] at h
    | some y => simpa [hx] using h
  rw [List.map_set, Option.map_some, hid]
  refine List.ext_getElem? fun j => ?_
  rw [List.getElem?_set]
  split_ifs with h1 h2
  · subst h1
    simp [hk]
  · subst h1
    simpa using h2
  · rfl

theorem completePass_moves (k : Nat) (s : State) : Moves s (completePass k s) := by
  unfold completePass
  dsimp only
  split
  · exact .refl s
  · rename_i r hr
    generalize hd : passData r s.hp.slots = data
    generalize hb : (r.kind == MemKind.read && (slotOverlay s.hp.slots r.id).isSome) = held
    have answered := moves_completes (passAnswer r) data hr
    have slotted := answered.trans (moves_slots _ (if held then freeSlot r.id s.hp.slots else s.hp.slots) (by
      split
      · exact List.length_map _
      · rfl))
    split_ifs with h1 h2
    · exact .refl s
    · rw [if_pos h2] at slotted
      exact (slotted.trans (evaluate_moves ..)).trans (evaluate_moves ..)
    · rw [if_neg h2] at slotted
      exact slotted.trans (evaluate_moves ..)

theorem setPassPiece_id (i : Nat) (st : PassPieceState) (r : PassRecord) : (setPassPiece i st r).id = r.id := rfl

theorem passPieceIssued_moves (k i : Nat) (s : State) : Moves s (passPieceIssued k i s) := by
  unfold passPieceIssued
  split
  · exact .refl s
  · rename_i r hr
    exact (same_mp (recordIds_set hr (setPassPiece_id ..))).moves

theorem passPieceDone_moves (k i : Nat) (outcome : Option (List Byte)) (s : State) : Moves s (passPieceDone k i outcome s) := by
  unfold passPieceDone
  dsimp only
  split
  · exact .refl s
  · rename_i r hr
    refine Moves.trans (same_mp (recordIds_set hr ?_)).moves (completePass_moves ..)
    split
    · split <;> rfl
    · rfl

theorem foldl_completePass_moves (ks : List Nat) (s : State) : Moves s (ks.foldl (fun t k => completePass k t) s) := by
  induction ks generalizing s with
  | nil => exact .refl s
  | cons k ks ih => exact (completePass_moves k s).trans (ih _)

theorem withdrawPass_moves (s : State) : Moves s (withdrawPass s) := by
  refine Moves.trans (same_mp ?_).moves (foldl_completePass_moves ..)
  rw [List.map_map]
  apply List.map_congr_left
  intro r _
  cases r <;> rfl

/-! ## Changes of the path -/

/-- What every event keeps: each invariant of the queue, the hold, the descriptors, the responses and the shapes. -/
structure Keeps (s t : State) : Prop where
  queue : QueueSound s → QueueSound t
  hold : HoldSound s → HoldSound t
  descs : QueueSound s → HoldSound s → DescriptorsConserved s → DescriptorsConserved t
  owed : QueueSound s → HoldSound s → ResponsesOwed s → ResponsesOwed t
  shape : ShapeSound s → ShapeSound t

theorem Keeps.trans {s u t : State} (h : Keeps s u) (k : Keeps u t) : Keeps s t where
  queue q := k.queue (h.queue q)
  hold p := k.hold (h.hold p)
  descs q p d := k.descs (h.queue q) (h.hold p) (h.descs q p d)
  owed q p d := k.owed (h.queue q) (h.hold p) (h.owed q p d)
  shape d := k.shape (h.shape d)

theorem Moves.keeps {s t : State} (h : Moves s t) : Keeps s t where
  queue q := by
    rw [queueSound_iff] at *
    refine ⟨h.queue q.1, fun w => ?_⟩
    rw [h.path]
    exact q.2 (h.works w)
  hold := h.hold
  descs q := h.descs ((queueSound_iff s).mp q).1
  owed q := h.owed ((queueSound_iff s).mp q).1
  shape := h.shape

theorem Keeps.refl (s : State) : Keeps s s := (Moves.refl s).keeps

/-- The path is neither DRAINING nor SAFE. -/
def calm (p : PathState) : Prop := p ≠ .draining ∧ p ≠ .safe

/-- What the reports of outcomes keep: the invariants, and DRAINING and SAFE, which no report enters or leaves (R154). -/
structure Reports (s t : State) : Prop extends Keeps s t where
  path : QueueSound s → t.cc.path = s.cc.path ∨ (calm s.cc.path ∧ calm t.cc.path)

theorem Reports.trans {s u t : State} (h : Reports s u) (k : Reports u t) : Reports s t where
  toKeeps := h.toKeeps.trans k.toKeeps
  path q := by
    rcases h.path q with h1 | ⟨h1, h2⟩ <;> rcases k.path (h.queue q) with k1 | ⟨k1, k2⟩
    · exact .inl (k1.trans h1)
    · exact .inr ⟨h1 ▸ k1, k2⟩
    · exact .inr ⟨h1, k1 ▸ h2⟩
    · exact .inr ⟨h1, k2⟩

theorem Moves.reports {s t : State} (h : Moves s t) : Reports s t := ⟨h.keeps, fun _ => .inl h.path⟩

theorem Reports.refl (s : State) : Reports s s := (Moves.refl s).reports

/-- The path changes, and the next number with it where the queue is empty (R106, R151). -/
theorem keeps_repath {s t : State} {n : CommitNumber} {p : PathState}
    (h : Same ((s.withCc { s.cc with next := n, path := p }).withRe t.re) t)
    (hq : QueueSound s → s.cc.queue = [] ∨ (n = s.cc.next ∧ ¬ beforeRun p))
    (hp : HoldSound s → p = .draining ∨ p = .safe → s.hp.hold = none)
    (hw : QueueSound s → recoveryWorks t.re → p = .formatting ∨ p = .recovering) : Keeps s t := by
  have core : QueueSound s → QueueCore ((s.withCc { s.cc with next := n, path := p }).withRe t.re) := fun q => by
    refine ⟨q.atMost32, ?_, q.ordered, q.noneApplied, q.voidedEmpty, fun hb => ?_⟩
    · rcases hq q with he | ⟨rfl, -⟩
      · intro i hi
        simp [he] at hi
      · exact q.numbered
    · exact (hq q).elim id fun hn => absurd hb hn.2
  have hold : HoldSound s → HoldSound ((s.withCc { s.cc with next := n, path := p }).withRe t.re) := fun s' => ⟨s'.1, hp s'⟩
  refine ⟨fun q => ?_, fun s' => h.moves.hold (hold s'),
    fun q s' d => h.moves.descs (core q) (hold s') ⟨d.1, d.2, d.3, d.4, d.5⟩,
    fun q s' o => h.moves.owed (core q) (hold s') ⟨o.1, o.2, o.3, o.4⟩, fun d => h.moves.shape ⟨d.1, d.2, d.3, d.4, d.5, d.6⟩⟩
  rw [queueSound_iff]
  refine ⟨h.moves.queue (core q), fun w => ?_⟩
  rw [h.path]
  exact hw q w

/-- Outside FORMATTING and RECOVERING RE works on nothing. -/
theorem not_works_of_path {s : State} (q : QueueSound s) (h : s.cc.path ≠ .formatting ∧ s.cc.path ≠ .recovering) :
    ¬ recoveryWorks s.re := fun w => (q.recoveryPath w).elim h.1 h.2

theorem enterStopped_reports {s : State} (h : s.cc.path = .run) : Reports s (enterStopped s) := by
  have stop : Reports s (s.withCc { s.cc with path := .stopped }) :=
    ⟨keeps_repath (n := s.cc.next) (p := .stopped)
      ⟨rfl, rfl, rfl, rfl, fun _ => rfl, fun _ => rfl, rfl, rfl, rfl, rfl, rfl, id, rfl⟩
      (fun _ => .inr ⟨rfl, by simp [beforeRun]⟩) (by simp)
      fun q w => (not_works_of_path q (by rw [h]; exact ⟨nofun, nofun⟩) w).elim,
      fun _ => .inr ⟨by rw [h]; exact ⟨nofun, nofun⟩, nofun, nofun⟩⟩
  exact stop.trans ((endStageWait_moves ..).trans (faultOpenGroups_moves _)).reports

theorem addLogCause_reports (s : State) : Reports s (addLogCause s) := by
  unfold addLogCause
  split
  · rename_i h
    exact ((same_cc (x := { s.cc with stopLog := true }) rfl rfl rfl).moves.reports.trans (enterStopped_reports (by simpa using h))).trans
      (same_setCause ..).moves.reports
  · split_ifs
    · exact .refl s
    · exact ((same_cc (x := { s.cc with stopLog := true }) rfl rfl rfl).moves.trans (same_setCause ..).moves).reports
  · exact .refl s

theorem addApplyCause_reports (s : State) : Reports s (addApplyCause s) := by
  unfold addApplyCause
  split
  · rename_i h
    exact ((same_cc (x := { s.cc with stopApply := true }) rfl rfl rfl).moves.reports.trans
      (enterStopped_reports (by simpa using h))).trans ((same_setCause ..).moves.trans (evaluate_moves ..)).reports
  · split_ifs
    · exact .refl s
    · exact (((same_cc (x := { s.cc with stopApply := true }) rfl rfl rfl).moves.trans (same_setCause ..).moves).trans
        (evaluate_moves ..)).reports
  · exact .refl s

theorem logStop_reports (giveUp : Bool) (s : State) : Reports s (logStop giveUp s) := by
  unfold logStop
  dsimp only
  refine Reports.trans (addLogCause_reports s) (Moves.reports ?_)
  generalize addLogCause s = u
  have given : Moves u (if giveUp = true then
      advanceHead ((loggingRecord u.cc).bind CommitRecord.span) (withdrawRequests isGroupOwner u) else u) := by
    split
    · exact (same_withdrawRequests ..).moves.trans (same_advanceHead ..).moves
    · exact .refl u
  have dropped := (given.trans (dropRecords_moves
    (fun r => (giveUp && r.state == .logging) || (s.cc.path != .draining && r.state == .queued)) .media .failedMedia
    (by intro r _; simp [unansweredState]; tauto))).trans (removeHeads_moves _)
  split
  · exact dropped
  · exact dropped.trans (evaluate_moves ..)

theorem groupPieceFailed_reports (trailer : Bool) (s : State) : Reports s (groupPieceFailed trailer s) := by
  unfold groupPieceFailed
  split
  · exact .refl s
  · exact logStop_reports ..

theorem anchorFailed_reports (s : State) : Reports s (anchorFailed s) := by
  unfold anchorFailed
  dsimp only
  split
  · exact (same_le ..).moves.reports
  · exact (same_le ..).moves.reports.trans (logStop_reports ..)

end Sys2Proof.Machine
end

section
/-! PROOF. What the engines' operations keep: the log engine, the apply engine and the recovery engine (R91 to R103, R110 to R118, R158 to
R166). -/

namespace Sys2Proof.Machine

/-! ## The log engine -/

theorem handGroupRecord_moves (part : LogPart) (p : Nat) (bytes : List Byte) (s : State) :
    Moves s (handGroupRecord part p bytes s) := by
  unfold handGroupRecord
  dsimp only
  have handed := (same_handRequest (Owner.group part) .write (unitAddr s.mg.cfg p) bytes.length none bytes s).moves
  split
  · exact handed
  · exact handed.trans (same_le ..).moves

theorem startLogging_moves {s : State} {rec : CommitRecord} (h : oldestQueued s.cc = some rec) (hl : loggingRecord s.cc = none) :
    Moves s (startLogging rec s) := by
  have started := moves_logs (some (planSpan (ringU s) s.le.head rec.units)) h hl
  unfold startLogging
  dsimp only
  split
  · exact (started.trans (same_le ..).moves).trans (handGroupRecord_moves ..)
  · exact (started.trans (same_le ..).moves).trans (handGroupRecord_moves ..)

theorem handDataRecord_moves (job : LogJob) (rec : CommitRecord) (i : Nat) (s : State) : Moves s (handDataRecord job rec i s) := by
  have read := readDescriptor_moves (descAt s (rec.writes.getD (i - 1) 0)) s
  unfold handDataRecord
  dsimp only
  split
  · exact read.trans (same_le ..).moves
  · exact (read.trans (same_le ..).moves).trans (handGroupRecord_moves ..)

theorem handTrailer_moves (void : Bool) (job : LogJob) (rec : CommitRecord) (s : State) : Moves s (handTrailer void job rec s) :=
  (same_le ..).moves.trans (handGroupRecord_moves ..)

theorem requestAnchor_moves (s : State) : Moves s (requestAnchor s) := by
  unfold requestAnchor
  exact (same_le ..).moves.trans (same_handRequest ..).moves

/-! ## The apply engine -/

theorem startApply_moves {s : State} {rec : CommitRecord} (h : startable s.cc = some rec) : Moves s (startApply rec s) :=
  (moves_applies h).trans (same_ae ..).moves

theorem handHome_moves (rec : CommitRecord) (i : Nat) (w : RecordWrite) (s : State) : Moves s (handHome rec i w s) :=
  (same_handRequest ..).moves.trans (same_ae ..).moves

theorem handFallback_moves (i : Nat) (d : Descriptor) (s : State) : Moves s (handFallback i d s) :=
  (same_handRequest ..).moves.trans (same_ae ..).moves

theorem walkStep_moves (rec : CommitRecord) (i : Nat) (s : State) : Moves s (walkStep rec i s) := by
  have read := readDescriptor_moves (descAt s i) s
  unfold walkStep
  dsimp only
  split
  · split
    · exact read.trans (handFallback_moves ..)
    · exact read.trans (handHome_moves ..)
  · exact .refl s

theorem applyFailure_reports (i : Nat) (s : State) : Reports s (applyFailure i s) := by
  unfold applyFailure
  dsimp only
  split
  · exact (same_ae ..).moves.reports
  · exact ((same_ae ..).moves.trans (moves_haltApply _)).reports.trans (addApplyCause_reports _)

theorem fallbackReturned_reports (f : Fallback) (bs : List Byte) (s : State) : Reports s (fallbackReturned f bs s) := by
  unfold fallbackReturned
  dsimp only
  split
  · exact (same_ae ..).moves.reports
  · split
    · exact ((same_ae ..).moves.trans (handHome_moves ..)).reports
    · exact (same_ae ..).moves.reports.trans (applyFailure_reports ..)

theorem homePieceAcked_moves (i k : Nat) (s : State) : Moves s (homePieceAcked i k s) := by
  unfold homePieceAcked
  dsimp only
  split
  · exact .refl s
  · split
    · exact (same_ae ..).moves.trans (applyRelease_moves ..)
    · exact (same_ae ..).moves

theorem homePieceFailed_reports (i : Nat) (s : State) : Reports s (homePieceFailed i s) := by
  unfold homePieceFailed
  split
  · exact (same_ae ..).moves.reports.trans (applyFailure_reports ..)
  · exact .refl s

theorem fallbackPiece_reports (k : Nat) (m : PieceMark) (s : State) : Reports s (fallbackPiece k m s) := by
  unfold fallbackPiece
  dsimp only
  split
  · exact .refl s
  · split
    · exact (same_ae ..).moves.reports
    · split
      · exact (same_ae ..).moves.reports.trans (applyFailure_reports ..)
      · split
        · exact fallbackReturned_reports ..
        · exact (same_ae ..).moves.reports

/-! ## The recovery engine -/

theorem works_of_listens {re : RecoveryEngine} (h : recoveryListens re = true) : recoveryWorks re := by
  simp only [recoveryListens, Bool.and_eq_true, bne_iff_ne] at h
  exact ⟨h.1, fun e => absurd e h.2⟩

theorem not_works_idleRecovery (re : RecoveryEngine) : ¬ recoveryWorks (idleRecovery re) := fun h => h.1 rfl

/-- While RE works nothing has been committed. -/
theorem queue_nil_of_works {s : State} (q : QueueSound s) (w : recoveryWorks s.re) : s.cc.queue = [] :=
  q.emptyBeforeRun (.inr (q.recoveryPath w))

/-- The path leaves FORMATTING or RECOVERING with RE idle (R152, R155). -/
theorem leaveStartUp_reports {s u : State} {n : CommitNumber} {p : PathState}
    (h : Same ((s.withCc { s.cc with next := n, path := p }).withRe u.re) (u.withCc { u.cc with path := p }))
    (hp : p = .run ∨ p = .unconfigured) (hw : recoveryWorks s.re) (hu : ¬ recoveryWorks u.re) : Reports s (leaveStartUp p u) := by
  have calmed : calm p := by rcases hp with rfl | rfl <;> exact ⟨nofun, nofun⟩
  have repathed : Reports s (u.withCc { u.cc with path := p }) := by
    refine ⟨keeps_repath h (fun q => .inl (queue_nil_of_works q hw)) (fun _ hd => ?_) fun _ w => absurd w hu, fun q => .inr ⟨?_, calmed⟩⟩
    · exact (hd.elim calmed.1 calmed.2).elim
    · rcases q.recoveryPath hw with h | h <;> rw [h] <;> exact ⟨nofun, nofun⟩
  exact repathed.trans (evaluate_moves .pathChanged _).reports

/-- What ends a command leaves the rest of the state (R155, R160). -/
theorem formatDone_reports {s : State} (hw : recoveryWorks s.re) : Reports s (formatDone s) :=
  leaveStartUp_reports (n := 1) ⟨rfl, rfl, rfl, rfl, fun _ => rfl, fun _ => rfl, rfl, rfl, rfl, rfl, rfl, id, rfl⟩ (.inl rfl) hw
    (not_works_idleRecovery _)

theorem closeDone_reports {s : State} (hw : recoveryWorks s.re) : Reports s (closeDone s) :=
  leaveStartUp_reports (n := s.re.c) ⟨rfl, rfl, rfl, rfl, fun _ => rfl, fun _ => rfl, rfl, rfl, rfl, rfl, rfl, id, rfl⟩ (.inl rfl) hw
    (not_works_idleRecovery _)

/-- A command that has failed ends in UNCONFIGURED (R161, R166). -/
theorem commandFailed_reports {s : State} (res : ResultCode) (hw : recoveryWorks s.re) :
    Reports s (leaveStartUp .unconfigured ((endCommand res s).withRe (idleRecovery (endCommand res s).re))) :=
  leaveStartUp_reports (n := s.cc.next) ⟨rfl, rfl, rfl, rfl, fun _ => rfl, fun _ => rfl, rfl, rfl, rfl, rfl, rfl, id, rfl⟩ (.inr rfl)
    hw (not_works_idleRecovery _)

theorem beginScan_reports {s : State} (a : Option Anchor) (hw : recoveryWorks s.re) : Reports s (beginScan a s) := by
  unfold beginScan
  split
  · exact commandFailed_reports .noAnchor hw
  · exact (((asks_withRe ..).trans (asks_scanStart _)).moves hw).reports

theorem slotsRead_reports {s : State} (hw : recoveryWorks s.re) : Reports s (slotsRead s) := by
  unfold slotsRead
  dsimp only
  split
  · exact ((asks_beginFormat ..).moves hw).reports
  · exact beginScan_reports _ hw

theorem failRecovery_moves {s : State} (res : ResultCode) (hw : recoveryWorks s.re) : Moves s (failRecovery res s) :=
  (same_re fun _ => hw).moves.trans (same_withdrawRequests ..).moves

theorem secondReadingDone_moves {s : State} (bs : List Byte) (hw : recoveryWorks s.re) : Moves s (secondReadingDone bs s) := by
  unfold secondReadingDone
  split
  · split
    · split_ifs
      · exact (asks_withRe ..).moves hw
      · exact failRecovery_moves _ hw
    · exact failRecovery_moves _ hw
  · exact failRecovery_moves _ hw

theorem recoveryReadDone_moves {s : State} (what : RecoveryRequest) (bs : List Byte) (hw : recoveryWorks s.re) :
    Moves s (recoveryReadDone what bs s) := by
  unfold recoveryReadDone
  split
  · exact (asks_startUnitRead ..).moves hw
  · exact (asks_trailerUnitRead ..).moves hw
  · exact (asks_datHeaderRead ..).moves hw
  · exact (asks_datRestRead ..).moves hw
  · exact secondReadingDone_moves bs hw
  all_goals exact .refl s

theorem recoveryPieceRead_reports (what : RecoveryRequest) (k : Nat) (bytes : List Byte) (s : State) :
    Reports s (recoveryPieceRead what k bytes s) := by
  unfold recoveryPieceRead
  dsimp only
  split
  · rename_i hl
    have hw := works_of_listens hl
    have noted := fun x : RecoveryEngine => ((asks_withRe s x).moves hw).reports
    split
    · split
      · exact (noted _).trans (slotsRead_reports (by exact hw))
      · exact noted _
    · split
      · exact noted _
      · split
        · exact ((asks_withRe ..).trans (asks_withRe ..)).moves hw |>.reports.trans (recoveryReadDone_moves _ _ (by exact hw)).reports
        · exact noted _
  · exact .refl s

theorem recoveryPieceAcked_reports (what : RecoveryRequest) (k : Nat) (s : State) : Reports s (recoveryPieceAcked what k s) := by
  unfold recoveryPieceAcked
  split
  · rename_i hl
    have hw := works_of_listens hl
    split
    · exact ((asks_formatSecond s).moves hw).reports
    · exact formatDone_reports hw
    · exact closeDone_reports hw
    · exact ((asks_replayPieceAcked ..).moves hw).reports
    · exact .refl s
  · exact .refl s

theorem recoveryPieceFailed_reports (what : RecoveryRequest) (s : State) : Reports s (recoveryPieceFailed what s) := by
  unfold recoveryPieceFailed
  split
  · rename_i hl
    exact (failRecovery_moves _ (works_of_listens hl)).reports
  · exact .refl s

theorem handReplay_moves {s : State} (gr : GroupUnderTest) (w : RecordWrite) (hr : s.re.mode = .replay) :
    Moves s (handReplay gr w s) :=
  (asks_handReplay ..).moves ⟨by rw [hr]; nofun, by rw [hr]; nofun⟩

end Sys2Proof.Machine
end

section
/-! PROOF. What an event keeps that changes the path, and with it every report, every frame and every command: the invariants of the queue,
the hold, the descriptors, the responses and the shapes (R141 to R147, R151 to R157, R166 to R173, R179). -/

namespace Sys2Proof.Machine

/-! ## What an event leaves due -/

theorem endingSettle_reports (s : State) : Reports s (endingSettle s) := by
  unfold endingSettle
  split
  · rename_i hd
    simp only [endingDue, Bool.and_eq_true, beq_iff_eq] at hd
    split
    · rename_i res ho
      exact commandFailed_reports res ⟨by rw [hd.1]; nofun, fun _ => by rw [ho]; nofun⟩
    · exact (same_re fun w => absurd w (not_works_idleRecovery _)).moves.reports
  · exact .refl s

/-- The state when the discard step for command `c` has been taken, before RE reads the anchor slots (R157). -/
def discarded (c : Command) (s : State) : State :=
  { s with
    hp := { s.hp with
      responses := s.hp.responses ++ (unanswered s.cc).map fun r => ⟨r.hostId, .stopped, []⟩
      reserved := s.hp.reserved - (unanswered s.cc).length
      inflight := s.hp.inflight.filter fun x => !((unanswered s.cc).map CommitRecord.hostId).contains x
      slots := s.hp.slots.map fun _ => none }
    ss := refillPools s.ss
    gt := ⟨s.gt.ctxs.map fun _ => Context.idle⟩
    ae := ApplyEngine.reset
    cc := { s.cc with queue := [], stopLog := false, stopApply := false, quiesce := none, path := startUpPath c } }

theorem discard_eq (c : Command) (s : State) : discard c s = readSlots (discarded c s) := by
  unfold discard
  rw [foldl_respondOwed]
  rfl

/-- The records not yet answered are answered STOPPED and everything volatile goes (R157). -/
theorem discard_keeps (c : Command) (s : State) : Keeps s (discard c s) := by
  have path : startUpPath c = .formatting ∨ startUpPath c = .recovering := by cases c <;> simp [startUpPath]
  have asks := asks_readSlots (discarded c s)
  rw [← discard_eq] at asks
  have noGroups : heldByGroups (discard c s).gt = [] := by
    rw [asks.gt, heldByGroups, List.flatMap_eq_nil_iff]
    intro x hx
    obtain ⟨-, -, rfl⟩ := List.mem_map.mp hx
    rfl
  have noRecords : (discard c s).cc.queue = [] := by rw [asks.cc]; rfl
  have none : heldDescs (discard c s) = [] := by simp [heldDescs, heldByRecords, noGroups, noRecords]
  refine ⟨fun _ => ⟨?_, ?_, ?_, ?_, ?_, ?_, ?_⟩, fun p => ⟨fun h hh => ?_, fun hd => ?_⟩, fun _ _ d => ⟨?_, ?_, ?_, ?_, ?_⟩,
    fun _ _ o => ?_, fun d => ⟨?_, ?_, ?_, ?_, ?_, ?_⟩⟩
  case refine_1 | refine_2 | refine_3 | refine_4 | refine_5 | refine_6 => simp [noRecords]
  case refine_7 => rw [asks.cc]; exact fun _ => path
  case refine_8 =>
    rw [asks.hp] at hh ⊢
    obtain ⟨r, hr, hp, hc⟩ := p.1 h hh
    exact ⟨r, hr, protocolError_mono (fun x hx => (List.mem_filter.mp hx).1) hp, hc⟩
  case refine_9 =>
    rw [asks.cc] at hd
    rcases path with h | h <;> simp [discarded, h] at hd
  case refine_10 => rw [asks.gt]; simpa [discarded] using d.contexts63
  case refine_11 =>
    rw [asks.gt]
    intro x hx _
    obtain ⟨-, -, rfl⟩ := List.mem_map.mp hx
    rfl
  case refine_12 =>
    rw [asks.ss, noGroups, heldByRecords, noRecords]
    simp [discarded, refillPools, List.range_eq_range']
  case refine_13 =>
    rw [asks.ss, none]
    simp [discarded, refillPools, List.range_eq_range']
  case refine_14 => simp [none]
  case refine_15 =>
    refine responsesOwed_given (s := s) (ids := (unanswered s.cc).map CommitRecord.hostId)
      (resps := (unanswered s.cc).map fun r => ⟨r.hostId, .stopped, []⟩) o ?_ ?_ (by simp) ?_ ?_ ?_
    · have commits : owedCommits (discard c s).cc = [] := by simp [owedCommits, noRecords]
      rw [commits, owedPasses_of_ids (congrArg _ asks.records)]
      exact .refl _
    all_goals rw [asks.hp]
    all_goals simp [discarded]
  case refine_16 => rw [asks.ss]; exact d.buffer
  case refine_17 => rw [asks.hp]; simpa [discarded] using d.slots8
  case refine_18 => rw [asks.records]; exact d.records16
  case refine_19 => rw [asks.gt]; simpa [discarded] using d.contexts63
  case refine_20 => rw [asks.hp]; exact d.intake16
  case refine_21 => rw [asks.mg]; exact d.settings

theorem quiesceSettle_reports (s : State) : Reports s (quiesceSettle s) := by
  unfold quiesceSettle
  split
  · rename_i h
    simp only [discardDue, Bool.and_eq_true, beq_iff_eq] at h
    split
    · rename_i c _
      refine ⟨discard_keeps c s, fun _ => .inr ⟨by rw [h.1.1.1.1.1]; exact ⟨nofun, nofun⟩, ?_⟩⟩
      rw [discard_eq, (asks_readSlots _).cc]
      cases c <;> exact ⟨nofun, nofun⟩
    · exact .refl s
  · exact .refl s

theorem enterSafe_keeps {s : State} (h : s.cc.path = .draining) : Keeps s (enterSafe s) :=
  keeps_repath (n := s.cc.next) (p := .safe) ⟨rfl, rfl, rfl, rfl, fun _ => rfl, fun _ => rfl, rfl, rfl, rfl, rfl, rfl, id, rfl⟩
    (fun _ => .inr ⟨rfl, by simp [beforeRun]⟩) (fun p _ => p.noneInDrain (.inl h))
    fun q w => (not_works_of_path q (by rw [h]; exact ⟨nofun, nofun⟩) w).elim

theorem followDrain_moves (s : State) : Moves s (followDrain s) := by
  unfold followDrain
  split
  · exact (same_pf ..).moves
  · exact .refl s

theorem drainSettle_keeps (s : State) : Keeps s (drainSettle s) := by
  unfold drainSettle
  split
  · rename_i h
    exact enterSafe_keeps h.1
  · exact (followDrain_moves s).keeps

theorem settle_keeps (s : State) : Keeps s (settle s) :=
  ((endingSettle_reports s).trans (quiesceSettle_reports _)).toKeeps.trans (drainSettle_keeps _)

/-! ## The entry to DRAINING -/

/-- The commit controller as PFW_N interrupts it: DRAINING, with a BUSY command ended and no quiesce (R154). -/
def interruptedControl (cc : CommitControl) : CommitControl :=
  if cc.status = .busy then
    { cc with path := .draining, status := .done, result := some .interrupted, replayed := 0, skipped := 0, quiesce := none }
  else { cc with path := .draining, quiesce := none }

/-- The management port with CMD_DONE set when a BUSY command is interrupted (R154, R189). -/
def interruptedCauses (s : State) : Management := if s.cc.status = .busy then (setCause .cmdDone s).mg else s.mg

theorem interruptCommand_eq (s : State) : interruptCommand (s.withCc { s.cc with path := .draining }) =
    (s.withMg (interruptedCauses s)).withCc (interruptedControl s.cc) := by
  unfold interruptCommand interruptedCauses interruptedControl
  by_cases h : s.cc.status = .busy
  · simp only [if_pos h, if_pos (show (s.withCc { s.cc with path := .draining }).cc.status = .busy from h)]
    rfl
  · simp only [if_neg h, if_neg (show ¬ (s.withCc { s.cc with path := .draining }).cc.status = .busy from h)]
    rfl

/-- An answer touches neither the commit controller nor the management port. -/
theorem answerHead_outside (a : Answer) (s : State) (mg : Management) (cc : CommitControl) :
    answerHead a ((s.withMg mg).withCc cc) = ((answerHead a s).withMg mg).withCc cc := by
  have accept : ∀ x : State, acceptWaiting ((x.withMg mg).withCc cc) = ((acceptWaiting x).withMg mg).withCc cc := by
    intro x
    unfold acceptWaiting
    by_cases hr : x.pf.resetAsserted = true
    · rw [if_pos hr, if_pos (show ((x.withMg mg).withCc cc).pf.resetAsserted = true from hr)]
    · rw [if_neg hr, if_neg (show ¬ ((x.withMg mg).withCc cc).pf.resetAsserted = true from hr)]
      rfl
  simp only [answerHead, State.withCc_hp, State.withMg_hp]
  split
  · rfl
  · rename_i r rest _
    exact accept ((respond r.id a [] s).withHp { (respond r.id a [] s).hp with
      intake := (respond r.id a [] s).hp.intake.tail, hold := none })

theorem powerHead_outside (s : State) (mg : Management) (cc : CommitControl) :
    powerHead ((s.withMg mg).withCc cc) = ((powerHead s).withMg mg).withCc cc := by
  unfold powerHead
  by_cases h : s.hp.hold.isSome = true
  · rw [if_pos (show ((s.withMg mg).withCc cc).hp.hold.isSome = true from h), if_pos h]
    exact answerHead_outside .power (s.withSs { s.ss with timer := none }) mg cc
  · rw [if_neg (show ¬ ((s.withMg mg).withCc cc).hp.hold.isSome = true from h), if_neg h]

/-- The first steps of a drain in the other order: the request that holds the port is answered, then the path changes (R10, R154). -/
theorem powerHead_interruptCommand (s : State) : powerHead (interruptCommand (s.withCc { s.cc with path := .draining })) =
    ((powerHead s).withMg (interruptedCauses s)).withCc (interruptedControl s.cc) := by
  rw [interruptCommand_eq, powerHead_outside]

/-- Nothing holds the port once the request that held it has been answered (R10). -/
theorem powerHead_hold {s : State} (p : HoldSound s) : (powerHead s).hp.hold = none := by
  unfold powerHead
  split
  · rename_i h
    obtain ⟨c, hc⟩ := Option.isSome_iff_exists.mp h
    obtain ⟨r, hr, -⟩ := p.1 c hc
    exact answerHead_hold (r := r) _ hr
  · simp_all

theorem interruptRecovery_idles (s : State) : ¬ recoveryWorks (interruptRecovery s).re := by
  unfold interruptRecovery
  split
  · rename_i h
    exact fun w => w.1 h
  · exact fun w => w.2 rfl rfl

theorem interruptRecovery_moves (s : State) : Moves s (interruptRecovery s) := by
  unfold interruptRecovery
  split
  · exact .refl s
  · exact (same_re fun w => absurd rfl (w.2 rfl)).moves.trans (same_withdrawRequests ..).moves

theorem dropForPower_moves (s : State) : Moves s (dropForPower s) :=
  (dropRecords_moves _ _ _ (by simp +contextual [unansweredState])).trans (removeHeads_moves _)

/-- An interruption leaves the queue and the next number (R154). -/
theorem interruptedControl_spec (cc : CommitControl) : (interruptedControl cc).queue = cc.queue ∧
    (interruptedControl cc).next = cc.next ∧ (interruptedControl cc).path = .draining := by
  unfold interruptedControl
  split <;> exact ⟨rfl, rfl, rfl⟩

/-- The state in DRAINING when the request that holds the port has been answered, before the other blocks react (R154, R171). -/
def drainBegun (s : State) : State := ((powerHead s).withMg (interruptedCauses s)).withCc (interruptedControl s.cc)

/-- The entry to DRAINING from there, block by block (R171; the order is log 6). -/
theorem enterDraining_eq (s : State) : enterDraining s =
    interruptRecovery (haltApply (dropForPower (discardGroups (withdrawPass (drainBegun s))))) := by
  rw [enterDraining, powerHead_interruptCommand]
  rfl

theorem drainBegun_moves (s : State) : Moves (drainBegun s) (enterDraining s) := by
  rw [enterDraining_eq]
  exact ((((withdrawPass_moves _).trans (discardGroups_moves _)).trans (dropForPower_moves _)).trans (moves_haltApply _)).trans
    (interruptRecovery_moves _)

theorem enterDraining_path (s : State) : (enterDraining s).cc.path = .draining :=
  (drainBegun_moves s).path.trans (interruptedControl_spec s.cc).2.2

theorem enterDraining_keeps (s : State) : Keeps s (enterDraining s) := by
  have answered := powerHead_moves s
  have frame := powerHead_frame s
  have cfg : (interruptedCauses s).cfg = s.mg.cfg := by unfold interruptedCauses; split <;> rfl
  obtain ⟨cq, cn, cp⟩ := interruptedControl_spec s.cc
  obtain ⟨-, -, fcc, -, -, -, -, -, fmg⟩ := frame
  have drains := drainBegun_moves s
  generalize hu : drainBegun s = u at drains
  have core : QueueSound s → QueueCore u := fun q => by
    obtain ⟨q1, q2, q3, q4, q5, -⟩ := ((queueSound_iff s).mp q).1
    subst hu
    unfold drainBegun
    constructor
    case emptyBeforeRun => simp [cp, beforeRun]
    case numbered => simpa only [State.withCc_cc, cq, cn] using q2
    all_goals simpa [cq, cn]
  have hold : HoldSound s → HoldSound u := fun p => holdSound_of_none (by rw [← hu]; exact powerHead_hold p)
  refine ⟨fun q => ?_, fun p => drains.hold (hold p), fun q p d => drains.descs (core q) (hold p) ?_,
    fun q p o => drains.owed (core q) (hold p) ?_, fun d => drains.shape ?_⟩
  · refine (queueSound_iff _).mpr ⟨drains.queue (core q), fun w => ?_⟩
    rw [enterDraining] at w
    exact absurd w (interruptRecovery_idles _)
  · have d := answered.descs ((queueSound_iff s).mp q).1 p d
    subst hu
    obtain ⟨d1, d2, d3, d4, d5⟩ := d
    have held : heldByRecords (interruptedControl s.cc) = heldByRecords (powerHead s).cc := by rw [fcc, heldByRecords, cq]; rfl
    refine ⟨d1, d2, ?_, ?_, ?_⟩
    · rw [← held] at d3
      exact d3
    · rw [heldDescs, ← held] at d4
      exact d4
    · rw [heldDescs, ← held] at d5
      exact d5
  · have o := answered.owed ((queueSound_iff s).mp q).1 p o
    subst hu
    obtain ⟨o1, o2, o3, o4⟩ := o
    have owed : owedCommits (interruptedControl s.cc) = owedCommits (powerHead s).cc := by rw [fcc, owedCommits, cq]; rfl
    refine ⟨?_, o2, ?_, o4⟩
    · rw [← owed] at o1
      exact o1
    · rw [← owed] at o3
      exact o3
  · have d := answered.shape d
    have settings := d.settings
    rw [fmg, ← cfg] at settings
    subst hu
    exact ⟨d.1, d.2, d.3, d.4, d.5, settings⟩

/-! ## Reports and the memory port -/

theorem reportAcked_reports (o : Owner) (s : State) : Reports s (reportAcked o s) := by
  unfold reportAcked
  split
  · exact (passPieceDone_moves ..).reports
  · exact (groupPieceAcked_moves ..).reports
  · exact (same_anchorAcked s).moves.reports
  · exact (homePieceAcked_moves ..).reports
  · exact .refl s
  · exact recoveryPieceAcked_reports ..

theorem reportRead_reports (o : Owner) (bytes : List Byte) (s : State) : Reports s (reportRead o bytes s) := by
  unfold reportRead
  split
  · exact (passPieceDone_moves ..).reports
  · exact fallbackPiece_reports ..
  · exact recoveryPieceRead_reports ..
  · exact .refl s

theorem reportFailed_reports (o : Owner) (s : State) : Reports s (reportFailed o s) := by
  unfold reportFailed
  split
  · exact (passPieceDone_moves ..).reports
  · exact groupPieceFailed_reports ..
  · exact anchorFailed_reports s
  · exact homePieceFailed_reports ..
  · exact fallbackPiece_reports ..
  · exact recoveryPieceFailed_reports ..

theorem retryPiece_moves (p : Piece) (s : State) : Moves s (retryPiece p s) := by
  unfold retryPiece setReady
  dsimp only
  split <;> exact (same_mp (by rfl)).moves

theorem attemptFailed_reports (p : Piece) (w : Bool) (s : State) : Reports s (attemptFailed p w s) := by
  unfold attemptFailed
  split
  · exact (retryPiece_moves ..).reports
  · exact reportFailed_reports ..

theorem attemptOk_reports (p : Piece) (data : List Byte) (s : State) : Reports s (attemptOk p data s) := by
  unfold attemptOk
  split
  · exact reportAcked_reports ..
  · exact reportRead_reports ..

theorem pieceResponse_reports (k : Nat) (p : Piece) (w : Bool) (st : MemStatus) (data : List Byte) (s : State) :
    Reports s (pieceResponse k p w st data s) := by
  unfold pieceResponse
  dsimp only
  split
  · exact (same_mp (by rfl)).moves.reports.trans (attemptOk_reports ..)
  · exact ((same_mp (by rfl)).moves.trans (same_mp (by rfl)).moves).reports.trans (attemptFailed_reports ..)

theorem orphanEntry_moves (k : Nat) (p : Piece) (s : State) : Moves s (orphanEntry k p s) :=
  ((same_mp (by rfl)).moves.trans (same_mp (by rfl)).moves).trans (same_setCause ..).moves

theorem takeResponse_keeps (k : Nat) (st : MemStatus) (data : List Byte) (s : State) : Keeps s (takeResponse k st data s) := by
  unfold takeResponse
  split
  · exact (same_mp (by rfl)).moves.keeps
  · exact ((same_mp (by rfl)).moves.trans (same_mp (by rfl)).moves).keeps
  · exact (pieceResponse_reports ..).toKeeps.trans (settle_keeps _)

theorem expireEntry_keeps (k : Nat) (s : State) : Keeps s (expireEntry k s) := by
  unfold expireEntry
  split
  · exact ((orphanEntry_moves ..).reports.trans (attemptFailed_reports ..)).toKeeps.trans (settle_keeps _)
  · exact .refl s

/-- The log position of a descriptor is no part of what it lists (R32). -/
theorem setLogPos_moves (i u : Nat) (s : State) : Moves s (setLogPos i u s) := by
  unfold setLogPos
  split
  · exact .refl s
  · rename_i d hd
    have read : ∀ j, descAt (s.withSs { s.ss with descs := insertDesc s.ss.descs i { d with logPos := some u } }) j =
        if j = i then { d with logPos := some u } else descAt s j := fun j => by
      simp only [descAt, State.withSs_ss, lookupDesc_insertDesc]
      split <;> rfl
    have old : descAt s i = d := by simp [descAt, hd]
    refine Same.moves ⟨rfl, rfl, rfl, rfl, fun j => ?_, fun j => ?_, rfl, rfl, rfl, rfl, rfl, id, rfl⟩
    · rw [read]
      split_ifs with h
      · rw [h, old]
      · rfl
    · rw [read]
      split_ifs with h
      · rw [h, old]
      · rfl

theorem grantOne_moves (s : State) : Moves s (grantOne s) := by
  unfold grantOne
  split
  case h_1 c k _ _ =>
    split
    case h_1 p _ _ =>
      refine Moves.trans ?_ (followDrain_moves _)
      have placed : Moves s (s.withMp (placePiece c k p s.mp)) := (same_mp (by cases c <;> rfl)).moves
      unfold firstGrant
      split
      · exact placed.trans (passPieceIssued_moves ..)
      · split
        · exact placed.trans (setLogPos_moves ..)
        · exact placed
      · exact placed
    case h_2 => exact .refl s
  case h_2 => exact .refl s

theorem acceptPiece_moves (s : State) : Moves s (acceptPiece s) := by
  unfold acceptPiece
  split
  · exact .refl s
  · exact (same_mp (by rfl)).moves

/-! ## Frames -/

theorem endFrame_moves (f : FrameStatus) (n : Nat) (d : Word32) (s : State) : Moves s (endFrame f n d s) := (same_mg (by rfl)).moves

theorem readRegister_moves (a : BitVec 16) (s : State) : Moves s (readRegister a s).2 := by
  unfold readRegister
  split
  case h_7 => exact (same_mg (by rfl)).moves
  case h_9 =>
    unfold readStarved
    split
    · exact (same_store (x := { s.ss with starveDesc := 0 }) rfl rfl rfl rfl).moves
    · exact (same_store (x := { s.ss with starveSeg := 0 }) rfl rfl rfl rfl).moves
  case h_11 => exact (same_mg (by rfl)).moves
  case h_12 =>
    unfold readTagB
    split
    · split
      · exact .refl s
      · exact (same_mg (by rfl)).moves
    · exact (same_mg (by rfl)).moves
  all_goals exact .refl s

/-- A value taken into a configuration field is in the field's range (R183). -/
theorem setConfig_inRange {c c' : Settings} {i : Nat} {v : Word32} (h : setConfig c i v = some c')
    (hc : settingsInRange c = true) : settingsInRange c' = true := by
  unfold setConfig at h
  simp only [settingsInRange, decide_eq_true_eq] at *
  split at h
  all_goals try split_ifs at h
  all_goals cases h
  all_goals simp only at *; omega

theorem writeConfig_moves (i : Nat) (v : Word32) (s : State) : Moves s (writeConfig i v s) := by
  unfold writeConfig
  split
  · rename_i c hc
    split
    · exact ⟨rfl, id, fun q => ⟨q.1, q.2, q.3, q.4, q.5, q.6⟩, fun p => ⟨p.1, p.2⟩, fun _ _ d => ⟨d.1, d.2, d.3, d.4, d.5⟩,
        fun _ _ o => ⟨o.1, o.2, o.3, o.4⟩, fun d => ⟨d.1, d.2, d.3, d.4, d.5, setConfig_inRange hc d.6⟩⟩
    · exact .refl s
  · exact .refl s

theorem enterStartUp_keeps {s : State} (c : Command) (h : s.cc.path = .unconfigured) : Keeps s (enterStartUp c s) := by
  have path : startUpPath c = .formatting ∨ startUpPath c = .recovering := by cases c <;> simp [startUpPath]
  have asks := asks_readSlots (s.withCc { s.cc with path := startUpPath c })
  refine keeps_repath (n := s.cc.next) (p := startUpPath c) ?_ (fun q => .inl (q.emptyBeforeRun (.inl h))) ?_ fun _ _ => path
  · exact Asks.same (s := (s.withCc { s.cc with path := startUpPath c }).withRe (enterStartUp c s).re)
      ⟨asks.hp, asks.ss, asks.gt, asks.cc, asks.le, asks.ae, asks.pf, asks.mg, asks.records, asks.entries, asks.orphaned⟩ id
  · rcases path with h | h <;> simp [h]

theorem controllerTakes_keeps (c : Command) (s : State) : Keeps s (controllerTakes c s) := by
  have taken : ∀ c, Moves s (takenCommand c s) := fun c => (same_cc (by rfl) (by rfl) (by rfl)).moves
  have quiesced : ∀ c u, Moves u (beginQuiesce c u) := fun c u => (same_cc (by rfl) (by rfl) (by rfl)).moves.trans (moves_haltApply _)
  unfold controllerTakes
  split
  · rename_i h
    exact (taken _).keeps.trans (enterStartUp_keeps _ h)
  · rename_i h
    exact (taken _).keeps.trans (enterStartUp_keeps _ h)
  · exact ((taken _).trans (quiesced ..)).keeps.trans (settle_keeps _)
  · exact ((taken _).trans (quiesced ..)).keeps.trans (settle_keeps _)
  · exact (same_cc (by rfl) (by rfl) (by rfl)).moves.keeps

theorem writeRegister_keeps (a : BitVec 16) (v : Word32) (s : State) : Keeps s (writeRegister a v s) := by
  unfold writeRegister
  split
  · exact (writeConfig_moves ..).keeps
  · split
    · unfold commandEvent
      split
      · exact .refl s
      · exact controllerTakes_keeps ..
    · exact .refl s
  · exact (same_mg (by rfl)).moves.keeps
  · exact .refl s

theorem incompleteFrame_keeps (cmd : BitVec 8) (bits : Nat) (a : BitVec 16) (s : State) : Keeps s (incompleteFrame cmd bits a s) := by
  unfold incompleteFrame
  split
  · exact .refl s
  · split
    · exact ((readRegister_moves a s).trans (endFrame_moves ..)).keeps
    · exact (endFrame_moves ..).keeps

theorem takeFrame_keeps (cmd : BitVec 8) (a : BitVec 16) (v : Word32) (bits : Nat) (s : State) :
    Keeps s (takeFrame cmd a v bits s) := by
  unfold takeFrame
  split
  · exact incompleteFrame_keeps ..
  · split
    · exact ((readRegister_moves a s).trans (endFrame_moves ..)).keeps
    · split
      · exact (writeRegister_keeps a v s).trans (endFrame_moves ..).keeps
      · exact incompleteFrame_keeps ..

/-! ## Reset -/

theorem resetBlocks_keeps (s : State) : Keeps s (resetBlocks s) := by
  obtain ⟨q, p, d, o, -, -, -, h⟩ := resetStateIsSound
  exact ⟨fun _ => ⟨q.1, q.2, q.3, q.4, q.5, q.6, q.7⟩, fun _ => ⟨p.1, p.2⟩, fun _ _ _ => ⟨d.1, d.2, d.3, d.4, d.5⟩,
    fun _ _ _ => ⟨o.1, o.2, o.3, o.4⟩, fun _ => ⟨h.1, h.2, h.3, h.4, h.5, h.6⟩⟩

theorem startDevice_keeps (s : State) : Keeps s (startDevice s) := by
  unfold startDevice
  dsimp only
  have started := (resetBlocks_keeps s).trans (acceptWaiting_moves _).keeps
  split
  · exact started.trans ((enterDraining_keeps _).trans (settle_keeps _))
  · exact started

end Sys2Proof.Machine
end

section
/-! PROOF. Every command keeps the queue, the hold, the descriptors, the responses and the shapes sound (R1, R3, R5, R6, R10 to R12, R19 to
R21, R58, R63, R67, R128, R138, R183). -/

namespace Sys2Proof.Machine

theorem applyUpsets_moves (us : List Upset) (s : State) : Moves s (applyUpsets us s) :=
  (same_store (s := s) (x := { s.ss with flips := us.foldl (fun fs u => toggleFlip fs u.word u.bit) s.ss.flips })
    rfl rfl rfl rfl).moves

/-- The host places a request on its channel (R1). -/
theorem placeRequest_moves (r : HostRequest) (s : State) : Moves s (placeRequest r s) := by
  have := moves_accepts s [] (s.hp.channel ++ [r]) (by simp)
  simpa [placeRequest] using this

/-- A stage wait expires (R26). -/
theorem stageWaitExpiry_moves (s : State) : Moves s (effect .stageWaitExpiry s) := by
  simp only [effect]
  split
  · rename_i r rest hh hi
    have tag : HoldSound s → r.tag ≠ 0 := fun p => by
      obtain ⟨r', hr', -, hr⟩ := p.1 _ hh
      rw [hi] at hr'
      cases hr'
      simp only [holdsRightly, Bool.and_eq_true, bne_iff_ne] at hr
      exact hr.2
    have head : s.hp.intake.head? = some r := by simp [hi]
    have stopped : Moves s (s.withSs { s.ss with timer := none }) :=
      (same_store (x := { s.ss with timer := none }) rfl rfl rfl rfl).moves
    have lost := stopped.trans (moves_groupLost (s := s.withSs { s.ss with timer := none }) r.tag (Context.faulted .overflow)
      (fun p => tag ⟨p.1, p.2⟩) rfl)
    rw [expireHead, faultGroup_answered (r := r) _ _ _ (by exact head)]
    have answered := lost.trans (answerHead_moves (r := r) .overflow _ (.inl (by simp [hh])) (by simpa using head))
    rwa [claimPlace_of_some (c := .stageWait) (by simpa using hh)] at answered
  · exact .refl s

theorem logRecordHand_moves (us : List Upset) (s : State) : Moves s (effect (.logRecordHand us) s) := by
  have upset := applyUpsets_moves us s
  simp only [effect]
  split
  · split
    · split
      · exact (upset.trans (same_le ..).moves).trans (handGroupRecord_moves ..)
      · exact upset.trans (handDataRecord_moves ..)
      · exact upset
    · exact upset
  · exact upset

/-- Every command keeps these invariants. -/
theorem effect_keeps (c : Instr) (s : State) : Keeps s (effect c s) := by
  cases c
  case hostRequestAccept r => exact ((placeRequest_moves r s).trans (acceptWaiting_moves _)).keeps
  case read us => exact ((applyUpsets_moves us s).trans (takeHead_moves ..)).keeps
  case write | commit | abort | foldOver | foldUnder | unknownMarkerCode => exact (takeHead_moves ..).keeps
  case responseDelivery => exact (deliver_moves s).keeps
  case stageWaitExpiry => exact (stageWaitExpiry_moves s).keeps
  case loggingStart =>
    simp only [effect]
    split
    · split
      · rename_i rec h hs
        simp only [mayStartGroup, Bool.and_eq_true, Option.isNone_iff_eq_none] at hs
        exact (startLogging_moves h hs.1.2).keeps
      · exact .refl s
    · exact .refl s
  case logRecordHand us => exact (logRecordHand_moves us s).keeps
  case trailerHand | voidTrailerHand =>
    simp only [effect]
    split
    · split
      · exact (handTrailer_moves ..).keeps
      · exact .refl s
    · exact .refl s
  case anchorWriteRequest =>
    simp only [effect]
    split
    · exact (requestAnchor_moves s).keeps
    · exact .refl s
  case applyStart =>
    simp only [effect]
    split
    · split
      · exact (startApply_moves (by assumption)).keeps
      · exact .refl s
    · exact .refl s
  case homeWriteHand us =>
    have upset := applyUpsets_moves us s
    simp only [effect]
    split
    · exact (upset.trans (walkStep_moves ..)).keeps
    · exact upset.keeps
  case arbiterGrant =>
    simp only [effect]
    split
    · exact .refl s
    · exact (grantOne_moves s).keeps
  case channelAccept => exact (acceptPiece_moves s).keeps
  case memoryResponse id st data => exact takeResponse_keeps ..
  case responseTimeout entry => exact expireEntry_keeps ..
  case quiesceDiscard => exact (quiesceSettle_reports s).toKeeps
  case endingComplete => exact (endingSettle_reports s).toKeeps
  case safe => exact drainSettle_keeps s
  case replayWriteHand =>
    simp only [effect]
    split
    · split
      · exact (handReplay_moves _ _ (by assumption)).keeps
      · exact .refl s
    · exact .refl s
  case pfwNFall =>
    simp only [effect]
    split
    · exact .refl s
    · exact (same_pf ..).moves.keeps
  case pfwNRise => exact (same_pf ..).moves.keeps
  case pfwNAssertion =>
    simp only [effect]
    split
    · split
      · exact (same_pf ..).moves.keeps
      · exact (same_pf ..).moves.keeps.trans ((enterDraining_keeps _).trans (settle_keeps _))
    · exact .refl s
  case resetNAssert => exact (resetBlocks_keeps s).trans (same_pf ..).moves.keeps
  case resetNDeassert =>
    simp only [effect]
    split
    · exact startDevice_keeps s
    · exact .refl s
  case powerOn => exact startDevice_keeps s
  case incompleteFrame cmd bits a => exact incompleteFrame_keeps ..
  all_goals exact takeFrame_keeps ..

/-! ## The command queue is no part of the invariants -/

theorem QueueSound.withPending {s : State} (q : QueueSound s) (x : List Instr) : QueueSound (s.withPending x) :=
  ⟨q.1, q.2, q.3, q.4, q.5, q.6, q.7⟩

theorem HoldSound.withPending {s : State} (p : HoldSound s) (x : List Instr) : HoldSound (s.withPending x) := ⟨p.1, p.2⟩

/-- Settles O54: every command keeps the shapes. -/
theorem stepKeepsShapes : Obligations.StepKeepsShapes := fun _ _ hs h =>
  step_keeps (Inv := ShapeSound) (fun _ _ d => ⟨d.1, d.2, d.3, d.4, d.5, d.6⟩) (fun c s d => (effect_keeps c s).shape d) hs h

/-- Settles O55: every command keeps the commit queue and the hold sound, each by itself. -/
theorem stepKeepsQueueAndHold : Obligations.StepKeepsQueueAndHold := fun _ _ h =>
  ⟨fun q => step_keeps (Inv := QueueSound) (fun _ x q => q.withPending x) (fun c s q => (effect_keeps c s).queue q) q h,
    fun p => step_keeps (Inv := HoldSound) (fun _ x p => p.withPending x) (fun c s p => (effect_keeps c s).hold p) p h⟩

/-- Settles O56: with queue and hold sound, every command conserves the descriptors and the segments. -/
theorem stepConservesDescriptors : Obligations.StepConservesDescriptors := fun _ _ q p d h =>
  (step_keeps (Inv := fun s => (QueueSound s ∧ HoldSound s) ∧ DescriptorsConserved s)
    (fun _ x i => ⟨⟨i.1.1.withPending x, i.1.2.withPending x⟩, ⟨i.2.1, i.2.2, i.2.3, i.2.4, i.2.5⟩⟩)
    (fun c s ⟨⟨q, p⟩, d⟩ => ⟨⟨(effect_keeps c s).queue q, (effect_keeps c s).hold p⟩, (effect_keeps c s).descs q p d⟩)
    ⟨⟨q, p⟩, d⟩ h).2

/-- Settles O57: with queue and hold sound, every command keeps one place and one id for each response owed. -/
theorem stepKeepsResponsesOwed : Obligations.StepKeepsResponsesOwed := fun _ _ q p o h =>
  (step_keeps (Inv := fun s => (QueueSound s ∧ HoldSound s) ∧ ResponsesOwed s)
    (fun _ x i => ⟨⟨i.1.1.withPending x, i.1.2.withPending x⟩, ⟨i.2.1, i.2.2, i.2.3, i.2.4⟩⟩)
    (fun c s ⟨⟨q, p⟩, o⟩ => ⟨⟨(effect_keeps c s).queue q, (effect_keeps c s).hold p⟩, (effect_keeps c s).owed q p o⟩)
    ⟨⟨q, p⟩, o⟩ h).2

end Sys2Proof.Machine
end

section
/-! PROOF. Two invariants that a step does not keep by themselves: the ring's account without a sound hold, and the caps of the outstanding
table without ready lists kept by class (R89, R136, R139). -/

namespace Sys2Proof.Machine

/-! ## The ring's account in a drain -/

/-- A COMMIT of tag 1. -/
def heldCommit : HostRequest :=
  { id := 1, kind := .marker, addr := 0, length := 0, tag := 1, mask := none, data := [], code := .commit, target := 0 }

/-- A write of one piece that the memory port has ISSUED (R138). -/
def issuedWrite : PassRecord :=
  { id := 0, kind := .write, addr := 0, length := 1, pieces := [⟨0, 1, .issued⟩], buffer := [] }

/-- The entry of that piece (R139). -/
def issuedWriteEntry : Entry := .issued ⟨.pass 0 0, .write, 0, 1, none, [], 0⟩ none false

/-- A drain that left nothing in the ring, whose used units are those of an earlier log, with a COMMIT that holds the port on a full
pass-through list: sound as to queue and ledger, but not as to the hold (R10). The response that comes frees the list. -/
def drainWithHeldCommit : State :=
  { State.reset with
    pending := [.memoryResponse 0 .ok []]
    hp := { HostPort.reset with hold := some .passListFull, intake := [heldCommit] }
    gt := ⟨[⟨.opened, [], 0, 0, 2, none⟩]⟩
    cc := { CommitControl.reset with path := .draining }
    le := { LogEngine.reset with used := 5 }
    mp := { MemoryPort.reset with records := [some issuedWrite], entries := [issuedWriteEntry] } }

/-- The COMMIT is accepted in the drain, and its record stands in the queue beside used units that nothing accounts for. -/
theorem drainWithHeldCommit_steps : ∃ t, step drainWithHeldCommit = .next t ∧ t.cc.queue ≠ [] ∧
    t.le.used ≠ t.le.reclaimable + consumedUnits t.cc :=
  ⟨_, rfl, by decide, by decide⟩

/-- Refutes O60: in a drain that has left nothing the ledger bounds no used units, and a COMMIT that holds the port there, which a sound
hold would exclude, is accepted when its event comes. -/
theorem not_stepKeepsRingLedger : ¬ Obligations.StepKeepsRingLedger := by
  intro h
  obtain ⟨t, ht, hq, hu⟩ := drainWithHeldCommit_steps
  have ledger : LedgerSound drainWithHeldCommit := by
    have idle : ¬ ringInUse drainWithHeldCommit := by
      rintro (h | h | h | h)
      · cases h
      · cases h
      · exact h rfl
      · exact h rfl
    exact ⟨fun h => absurd h idle, fun h => absurd h idle, nofun, nofun, nofun, fun _ => rfl⟩
  have queue : QueueSound drainWithHeldCommit :=
    ⟨Nat.zero_le _, fun i hi => absurd hi (Nat.not_lt_zero i), .nil, nofun, nofun, fun _ => rfl, fun h => absurd rfl h.1⟩
  exact hu ((h _ t queue ledger ht).usedAccounted (.inr (.inr (.inl hq))))

/-! ## The caps of the outstanding table -/

/-- A piece of an anchor write, which is of class LOG (R136). -/
def anchorPiece : Piece := ⟨.anchor, .write, 0, 64, none, [], 0⟩

/-- Eight LOG pieces are ISSUED, as many as the cap allows, and a ninth stands in the PASS ready list, where no handed request puts it
(R136, R139). -/
def logPieceInPassList : State :=
  { State.reset with
    pending := [.arbiterGrant]
    mp := { MemoryPort.reset with
      readyPass := [anchorPiece]
      entries := List.replicate 8 (.issued anchorPiece none false) ++ List.replicate 24 .free } }

/-- The arbiter grants it as a PASS piece. -/
theorem logPieceInPassList_steps : ∃ t, step logPieceInPassList = .next t ∧ classIssued .log t.mp = 9 := ⟨_, rfl, by decide⟩

/-- Refutes O58: that a ready list holds pieces of its own class is no part of the sound table, and a LOG piece in the PASS list takes an
entry beyond the cap of LOG. -/
theorem not_stepKeepsTableSound : ¬ Obligations.StepKeepsTableSound := by
  intro h
  obtain ⟨t, ht, h9⟩ := logPieceInPassList_steps
  have sound : TableSound logPieceInPassList := ⟨by decide, fun c => by cases c <;> decide, by decide, nofun⟩
  have cap := (h _ t sound ht).withinCaps .log
  rw [h9] at cap
  exact absurd cap (by decide)

end Sys2Proof.Machine
end

section
/-! PROOF. Every step leaves nothing due: an event that may leave something due settles, and no other event disturbs what the ends of commands,
the discard step and the drain look at (R157, R166, R172, R173; log 2). -/

namespace Sys2Proof.Machine

/-! ## Events that disturb nothing -/

/-- What the ends of commands, the discard step and the drain look at is the same. -/
structure Undisturbed (s t : State) : Prop where
  cc : t.cc = s.cc
  mode : t.re.mode = s.re.mode
  anchor : t.le.anchor = s.le.anchor
  entries : t.mp.entries.map issuedPiece = s.mp.entries.map issuedPiece
  records : t.mp.records = s.mp.records
  drain : t.pf.drain = s.pf.drain
  psafe : t.pf.psafe = s.pf.psafe

theorem Undisturbed.refl (s : State) : Undisturbed s s := ⟨rfl, rfl, rfl, rfl, rfl, rfl, rfl⟩

theorem Undisturbed.trans {s u t : State} (h : Undisturbed s u) (k : Undisturbed u t) : Undisturbed s t :=
  ⟨k.cc.trans h.cc, k.mode.trans h.mode, k.anchor.trans h.anchor, k.entries.trans h.entries, k.records.trans h.records,
    k.drain.trans h.drain, k.psafe.trans h.psafe⟩

/-- The issued pieces decide every count of them. -/
theorem issuedCount_congr {mp mp' : MemoryPort} (h : mp'.entries.map issuedPiece = mp.entries.map issuedPiece) (sel : Owner → Bool) :
    issuedCount sel mp' = issuedCount sel mp := by rw [issuedCount_eq, issuedCount_eq, h]

theorem NothingDue.of_undisturbed {s t : State} (n : NothingDue s) (h : Undisturbed s t) : NothingDue t := by
  obtain ⟨hc, hm, ha, he, hr, hd, hp⟩ := h
  obtain ⟨n1, n2, n3, n4, n5, n6⟩ := n
  have now : drainNow t = drainNow s := by simp only [drainNow, hc, ha, issuedCount_congr he]
  constructor
  · simpa only [endingDue, hm, issuedCount_congr he] using n1
  · simpa only [discardDue, hc, ha, hr, issuedCount_congr he] using n2
  · simpa only [hc, hd, now] using n3
  · simpa only [hc, hd] using n4
  · simpa only [hc, hd] using n5
  · simpa only [hc, hp] using n6

/-- RE goes on in the same mode. -/
theorem Asks.undisturbed {s t : State} (h : Asks s t) (hm : t.re.mode = s.re.mode) : Undisturbed s t :=
  ⟨h.cc, hm, by rw [h.le], by rw [h.entries], h.records, by rw [h.pf], by rw [h.pf]⟩

theorem undisturbed_handRequest (o : Nat → Owner) (k : MemKind) (a n : Nat) (m : Option (List Bool)) (d : List Byte) (s : State) :
    Undisturbed s (handRequest o k a n m d s) :=
  (asks_handRequest ..).undisturbed (by simp)

theorem undisturbed_withLe {s : State} {x : LogEngine} (h : x.anchor = s.le.anchor) : Undisturbed s (s.withLe x) :=
  ⟨rfl, rfl, h, rfl, rfl, rfl, rfl⟩

theorem undisturbed_withAe (s : State) (x : ApplyEngine) : Undisturbed s (s.withAe x) := ⟨rfl, rfl, rfl, rfl, rfl, rfl, rfl⟩

theorem undisturbed_handGroupRecord (part : LogPart) (p : Nat) (bytes : List Byte) (s : State) :
    Undisturbed s (handGroupRecord part p bytes s) := by
  have handed := undisturbed_handRequest (Owner.group part) .write (unitAddr s.mg.cfg p) bytes.length none bytes s
  unfold handGroupRecord
  dsimp only
  split
  · exact handed
  · exact handed.trans (undisturbed_withLe (by simp))

theorem undisturbed_readDescriptor (d : Descriptor) (s : State) : Undisturbed s (readDescriptor d s).2.2 := by
  constructor <;> simp

theorem undisturbed_handDataRecord (job : LogJob) (rec : CommitRecord) (i : Nat) (s : State) :
    Undisturbed s (handDataRecord job rec i s) := by
  have read := undisturbed_readDescriptor (descAt s (rec.writes.getD (i - 1) 0)) s
  unfold handDataRecord
  dsimp only
  split
  · exact read.trans (undisturbed_withLe (by rfl))
  · exact (read.trans (undisturbed_withLe (by rfl))).trans (undisturbed_handGroupRecord ..)

theorem undisturbed_handTrailer (void : Bool) (job : LogJob) (rec : CommitRecord) (s : State) :
    Undisturbed s (handTrailer void job rec s) :=
  (undisturbed_withLe (by rfl)).trans (undisturbed_handGroupRecord ..)

theorem undisturbed_walkStep (rec : CommitRecord) (i : Nat) (s : State) : Undisturbed s (walkStep rec i s) := by
  have read := undisturbed_readDescriptor (descAt s i) s
  unfold walkStep
  dsimp only
  split
  · split
    · exact (read.trans (undisturbed_handRequest ..)).trans (undisturbed_withAe ..)
    · exact (read.trans (undisturbed_handRequest ..)).trans (undisturbed_withAe ..)
  · exact .refl s

theorem undisturbed_applyUpsets (us : List Upset) (s : State) : Undisturbed s (applyUpsets us s) := ⟨rfl, rfl, rfl, rfl, rfl, rfl, rfl⟩

theorem undisturbed_logRecordHand (us : List Upset) (s : State) : Undisturbed s (effect (.logRecordHand us) s) := by
  have upset := undisturbed_applyUpsets us s
  simp only [effect]
  split
  · split
    · split
      · exact (upset.trans (undisturbed_withLe (by rfl))).trans (undisturbed_handGroupRecord ..)
      · exact upset.trans (undisturbed_handDataRecord ..)
      · exact upset
    · exact upset
  · exact upset

theorem undisturbed_handReplay (gr : GroupUnderTest) (w : RecordWrite) (s : State) : Undisturbed s (handReplay gr w s) := by
  refine (asks_handReplay ..).undisturbed ?_
  unfold handReplay
  dsimp only
  split
  · split <;> rfl
  · rfl

/-- The timer of an entry is no part of it (R141). -/
theorem undisturbed_acceptPiece (s : State) : Undisturbed s (acceptPiece s) := by
  unfold acceptPiece
  split
  · exact .refl s
  · refine ⟨rfl, rfl, rfl, ?_, rfl, rfl, rfl⟩
    dsimp only [State.withMp_mp]
    split
    · rfl
    · apply List.ext_getElem?
      intro j
      simp only [List.getElem?_map, List.getElem?_modify]
      split
      · cases s.mp.entries[j]? with
        | none => rfl
        | some e => cases e <;> rfl
      · cases s.mp.entries[j]? <;> rfl

theorem undisturbed_readRegister (a : BitVec 16) (s : State) : Undisturbed s (readRegister a s).2 := by
  have frame := readRegister_frame a s
  constructor <;> simp

theorem undisturbed_endFrame (f : FrameStatus) (n : Nat) (d : Word32) (s : State) : Undisturbed s (endFrame f n d s) :=
  ⟨rfl, rfl, rfl, rfl, rfl, rfl, rfl⟩

theorem undisturbed_incompleteFrame (cmd : BitVec 8) (bits : Nat) (a : BitVec 16) (s : State) :
    Undisturbed s (incompleteFrame cmd bits a s) := by
  unfold incompleteFrame
  split
  · exact .refl s
  · split
    · exact (undisturbed_readRegister a s).trans (undisturbed_endFrame ..)
    · exact undisturbed_endFrame ..

/-! ## Requests at the head of the intake queue -/

/-- With records appended that are QUEUED the record being logged is the same (R63). -/
theorem loggingRecord_append {cc cc' : CommitControl} {new : List CommitRecord} (h : cc'.queue = cc.queue ++ new)
    (hn : ∀ x ∈ new, x.state = .queued) : loggingRecord cc' = loggingRecord cc := by
  have none : new.find? (fun r => r.state == .logging) = none := List.find?_eq_none.mpr fun x hx => by simp [hn x hx]
  rw [loggingRecord, h, List.find?_append, none, Option.or_none]
  rfl

/-- A treatment leaves nothing due while the path takes requests, which it does not during quiesce (R9). -/
theorem NothingDue.dispatches {s : State} (n : NothingDue s) (r : HostRequest) (h : pathTakes s.cc = true) :
    NothingDue (dispatch r s) := by
  obtain ⟨new, hq, hn⟩ := dispatch_queue r s
  obtain ⟨path, ⟨-, -, quiesce⟩, -, -, ⟨entries, -, -⟩, -⟩ := dispatch_kept r s
  have frame := dispatch_frame r s
  have count := issuedCount_congr (mp' := (dispatch r s).mp) (mp := s.mp) (by rw [entries])
  have now : drainNow (dispatch r s) = drainNow s := by simp [drainNow, loggingRecord_append hq hn, count]
  obtain ⟨n1, n2, n3, n4, n5, n6⟩ := n
  constructor
  · simpa [endingDue, count] using n1
  · simp only [discardDue, path, quiesce]
    by_cases hs : s.cc.path = .stopped
    · simp only [pathTakes, hs] at h
      simp [Option.isNone_iff_eq_none.mp h]
    · simp [hs]
  · simpa [path, now] using n3
  · simpa [path] using n4
  · simpa [path] using n5
  · simpa [path] using n6

theorem NothingDue.takes {s : State} (n : NothingDue s) (named : HostRequest → Bool) : NothingDue (takeHead named s) := by
  unfold takeHead
  split
  · exact n
  · split
    · rename_i r rest _ hc
      have hp : pathTakes s.cc = true := by
        simp only [canTake, Bool.and_eq_true] at hc
        exact hc.1.1.1
      have answered : ∀ a, Undisturbed s (answerHead a (reservePlace s)) := fun a => by
        constructor <;> simp
      change NothingDue (treat r (reservePlace s))
      unfold treat
      split_ifs
      · exact n.of_undisturbed (answered _)
      · exact n.of_undisturbed (answered _)
      · exact (n.of_undisturbed (t := reservePlace s) ⟨rfl, rfl, rfl, rfl, rfl, rfl, rfl⟩).dispatches r hp
    · exact n

/-! ## Events that settle -/

/-- The drain progress outside a drain, and PSAFE, are as the path says (R172, R173). -/
def Lined (s : State) : Prop :=
  (s.cc.path ≠ .draining → s.cc.path ≠ .safe → s.pf.drain = none) ∧
  (s.cc.path = .safe → s.pf.drain = some ⟨false, false, 0⟩) ∧ (s.pf.psafe = true ↔ s.cc.path = .safe)

theorem NothingDue.lined {s : State} (n : NothingDue s) : Lined s := ⟨n.4, n.5, n.6⟩

/-- No report enters or leaves DRAINING or SAFE, and none touches the lines. -/
theorem Lined.reported {s t : State} (l : Lined s) (q : QueueSound s) (r : Reports s t) (h : t.pf = s.pf) : Lined t := by
  obtain ⟨l1, l2, l3⟩ := l
  rcases r.path q with hp | ⟨hs, ht⟩
  · simp only [Lined, hp, h]
    exact ⟨l1, l2, l3⟩
  · simp only [Lined, h]
    exact ⟨fun _ _ => l1 hs.1 hs.2, fun e => absurd e ht.2, by simp [l3, hs.2, ht.2]⟩

theorem endingDue_endingSettle (s : State) : endingDue (endingSettle s) = false := by
  by_cases h : endingDue s = true
  · unfold endingSettle
    rw [if_pos h]
    split
    · simp [endingDue, leaveStartUp, idleRecovery]
    · simp [endingDue, idleRecovery]
  · rw [endingSettle, if_neg h]
    simpa using h

/-- After the discard step RE reads the anchor slots, and no quiesce is left (R157). -/
theorem settled_quiesceSettle {s : State} (h : endingDue s = false) :
    endingDue (quiesceSettle s) = false ∧ discardDue (quiesceSettle s) = false := by
  by_cases hd : discardDue s = true
  · unfold quiesceSettle
    rw [if_pos hd]
    simp only [discardDue, Bool.and_eq_true] at hd
    split
    · rename_i c _
      rw [discard_eq]
      exact ⟨rfl, by rw [discardDue, (asks_readSlots _).cc]; cases c <;> rfl⟩
    · rename_i hn
      simp [hn] at hd
  · rw [quiesceSettle, if_neg hd]
    exact ⟨h, by simpa using hd⟩

theorem nothingDue_drainSettle {s : State} (he : endingDue s = false) (hd : discardDue s = false) (l : Lined s) :
    NothingDue (drainSettle s) := by
  obtain ⟨l1, l2, l3⟩ := l
  unfold drainSettle
  split
  · exact ⟨he, rfl, nofun, fun _ h => absurd rfl h, fun _ => rfl, by simp [enterSafe]⟩
  · rename_i hc
    unfold followDrain
    split
    · rename_i hp
      refine ⟨he, hd, fun _ => ⟨rfl, ?_⟩, fun h => absurd hp h, fun h => ?_, l3⟩
      · exact Bool.eq_false_iff.mpr fun h => hc ⟨hp, h⟩
      · exact absurd (hp.symm.trans h) nofun
    · rename_i hp
      exact ⟨he, hd, fun h => absurd h hp, l1, l2, l3⟩

/-- An event that settles leaves nothing due. -/
theorem nothingDue_settle {s : State} (q : QueueSound s) (l : Lined s) : NothingDue (settle s) := by
  have ended := endingSettle_reports s
  have q1 := ended.queue q
  have l1 := l.reported q ended (by simp)
  have l2 := l1.reported q1 (quiesceSettle_reports _) (by simp)
  obtain ⟨e, d⟩ := settled_quiesceSettle (endingDue_endingSettle s)
  exact nothingDue_drainSettle e d l2

/-! ## The commands -/

theorem takeResponse_leavesNothingDue {s : State} (q : QueueSound s) (n : NothingDue s) (k : Nat) (st : MemStatus) (data : List Byte) :
    NothingDue (takeResponse k st data s) := by
  unfold takeResponse
  split
  · exact n.of_undisturbed ⟨rfl, rfl, rfl, rfl, rfl, rfl, rfl⟩
  · rename_i p h
    refine n.of_undisturbed ⟨rfl, rfl, rfl, ?_, rfl, rfl, rfl⟩
    apply List.ext_getElem?
    intro j
    simp only [lateResponse, setEntry, State.withMp_mp, List.map_set]
    rw [List.getElem?_set]
    split_ifs with h1 h2
    · subst h1
      rw [List.getD_eq_getElem?_getD] at h
      rw [List.length_map] at h2
      rw [List.getElem?_eq_getElem h2] at h
      simp only [Option.getD_some] at h
      simp [h2, h, issuedPiece]
    · subst h1
      simpa using h2
    · rfl
  · have r := pieceResponse_reports k
    exact nothingDue_settle ((r ..).queue q) (n.lined.reported q (r ..) (by simp))

theorem expireEntry_leavesNothingDue {s : State} (q : QueueSound s) (n : NothingDue s) (k : Nat) : NothingDue (expireEntry k s) := by
  unfold expireEntry
  split
  · have r := fun p w => (orphanEntry_moves k p s).reports.trans (attemptFailed_reports p w _)
    exact nothingDue_settle ((r ..).queue q) (n.lined.reported q (r ..) (by simp))
  · exact n

/-- A start-up command in UNCONFIGURED leaves RE reading the anchor slots (R158, R161). -/
theorem NothingDue.startsUp {s : State} (n : NothingDue s) (h : s.cc.path = .unconfigured) (c : Command) :
    NothingDue (enterStartUp c s) := by
  have asks := asks_readSlots (s.withCc { s.cc with path := startUpPath c })
  obtain ⟨-, -, -, n4, -, n6⟩ := n
  have path : startUpPath c = .formatting ∨ startUpPath c = .recovering := by cases c <;> simp [startUpPath]
  have pf : (enterStartUp c s).pf = s.pf := asks.pf
  have cc : (enterStartUp c s).cc.path = startUpPath c := by rw [show (enterStartUp c s).cc = _ from asks.cc]; rfl
  refine ⟨rfl, ?_, fun hd => ?_, fun _ _ => ?_, fun hs => ?_, ?_⟩
  · rcases path with hp | hp <;> simp [discardDue, cc, hp]
  · rcases path with hp | hp <;> simp [cc, hp] at hd
  · rw [pf]
    exact n4 (by simp [h]) (by simp [h])
  · rcases path with hp | hp <;> simp [cc, hp] at hs
  · rw [pf, n6, cc]
    rcases path with hp | hp <;> simp [hp, h]

/-- Quiesce begins, and the discard step is taken when it is due at once (R156, R157). -/
theorem nothingDue_quiesces {s : State} (q : QueueSound s) (n : NothingDue s) (c : Command) :
    NothingDue (settle (beginQuiesce c (takenCommand c s))) := by
  have moves : Moves s (beginQuiesce c (takenCommand c s)) :=
    ((same_cc (by rfl) (by rfl) (by rfl)).moves.trans (same_cc (by rfl) (by rfl) (by rfl)).moves).trans (moves_haltApply _)
  exact nothingDue_settle (moves.keeps.queue q) (n.lined.reported q moves.reports (by simp [takenCommand]))

theorem controllerTakes_leavesNothingDue {s : State} (q : QueueSound s) (n : NothingDue s) (c : Command) :
    NothingDue (controllerTakes c s) := by
  have status : ∀ x : CommitControl, x.queue = s.cc.queue → x.path = s.cc.path → x.quiesce = s.cc.quiesce → NothingDue (s.withCc x) := by
    intro x hq hp hz
    obtain ⟨n1, n2, n3, n4, n5, n6⟩ := n
    have now : drainNow (s.withCc x) = drainNow s := by simp [drainNow, loggingRecord, hq]
    constructor
    · exact n1
    · simpa [discardDue, loggingRecord, hq, hp, hz] using n2
    · simpa [hp, now] using n3
    · simpa [hp] using n4
    · simpa [hp] using n5
    · simpa [hp] using n6
  have taken : ∀ c, NothingDue (takenCommand c s) := fun c => status _ (by rfl) (by rfl) (by rfl)
  unfold controllerTakes
  split
  · rename_i h
    exact (taken _).startsUp (by exact h) _
  · rename_i h
    exact (taken _).startsUp (by exact h) _
  · exact nothingDue_quiesces q n _
  · exact nothingDue_quiesces q n _
  · exact status _ (by rfl) (by rfl) (by rfl)

theorem takeFrame_leavesNothingDue {s : State} (q : QueueSound s) (n : NothingDue s) (cmd : BitVec 8) (a : BitVec 16) (v : Word32)
    (bits : Nat) : NothingDue (takeFrame cmd a v bits s) := by
  have written : NothingDue (writeRegister a v s) := by
    unfold writeRegister
    split
    · unfold writeConfig
      split
      · split
        · exact n.of_undisturbed ⟨rfl, rfl, rfl, rfl, rfl, rfl, rfl⟩
        · exact n
      · exact n
    · split
      · unfold commandEvent
        split
        · exact n
        · exact controllerTakes_leavesNothingDue q n _
      · exact n
    · exact n.of_undisturbed ⟨rfl, rfl, rfl, rfl, rfl, rfl, rfl⟩
    · exact n
  unfold takeFrame
  split
  · exact n.of_undisturbed (undisturbed_incompleteFrame ..)
  · split
    · exact n.of_undisturbed ((undisturbed_readRegister a s).trans (undisturbed_endFrame ..))
    · split
      · exact written.of_undisturbed (undisturbed_endFrame ..)
      · exact n.of_undisturbed (undisturbed_incompleteFrame ..)

/-- A grant makes one more piece ISSUED (R140). -/
theorem issuedCount_granted {mp mp' : MemoryPort} {k : Nat} {p : Piece} (hk : freeEntry mp = some k)
    (he : mp'.entries = mp.entries.set k (.issued p none false)) (sel : Owner → Bool) :
    issuedCount sel mp' = issuedCount sel mp + if sel p.owner then 1 else 0 := by
  obtain ⟨hlt, hfree, -⟩ := List.findIdx?_eq_some_iff_getElem.mp hk
  have free : issuedPiece mp.entries[k] = none := by
    cases h : mp.entries[k] <;> simp_all [isFree, issuedPiece]
  rw [issuedCount_eq, issuedCount_eq, he, List.map_set, List.countP_set (h := by simpa using hlt), List.getElem_map, free]
  by_cases h : sel p.owner = true <;> simp [issuedPiece, h]

/-- The owner's part of a first grant leaves the table as the grant set it (R94, R138). -/
theorem firstGrant_entries (p : Piece) (s : State) : (firstGrant p s).mp.entries = s.mp.entries := by
  unfold firstGrant
  split
  · unfold passPieceIssued
    split <;> rfl
  · split
    · unfold setLogPos
      split <;> rfl
    · rfl
  · rfl

/-- No end of a command and no drain is due with a piece that has just been ISSUED (R140, R172). -/
theorem grantOne_leavesNothingDue {s : State} (n : NothingDue s) : NothingDue (grantOne s) := by
  unfold grantOne
  split
  case h_1 c k _ hk =>
    split
    case h_1 p _ _ =>
      have entries : (firstGrant p (s.withMp (placePiece c k p s.mp))).mp.entries = s.mp.entries.set k (.issued p none false) :=
        firstGrant_entries ..
      have frame := firstGrant_frame p (s.withMp (placePiece c k p s.mp))
      generalize firstGrant p (s.withMp (placePiece c k p s.mp)) = u at *
      obtain ⟨-, -, -, hcc, hle, -, hre, hpf, -⟩ := frame
      have count := issuedCount_granted hk entries
      have more : issuedCount (fun _ => true) u.mp ≠ 0 := by simp [count]
      have lined : Lined u := by
        simp only [Lined, hcc, hpf]
        exact n.lined
      have ending : endingDue u = false := by
        have := n.commandEnded
        simp only [endingDue, hre, State.withMp_re, count, Bool.and_eq_false_iff] at this ⊢
        refine this.imp id fun h => ?_
        simp only [beq_eq_false_iff_ne] at h ⊢
        omega
      have settled := nothingDue_drainSettle ending (by simp [discardDue, more]) lined
      rwa [drainSettle, if_neg (by simp [drainClear, drainNow, more])] at settled
    case h_2 => exact n
  case h_2 => exact n

/-- Starts change the state of a record, in RUN or outside quiesce (R91, R110). -/
theorem starts_leaveNothingDue {s t : State} (n : NothingDue s) (hq : s.cc.quiesce = none)
    (hp : s.cc.path = .run ∨ s.cc.path = .stopped) (path : t.cc.path = s.cc.path) (quiesce : t.cc.quiesce = s.cc.quiesce)
    (mode : t.re.mode = s.re.mode) (entries : t.mp.entries.map issuedPiece = s.mp.entries.map issuedPiece) (pf : t.pf = s.pf) :
    NothingDue t := by
  obtain ⟨n1, -, -, n4, n5, n6⟩ := n
  have calm : s.cc.path ≠ .draining ∧ s.cc.path ≠ .safe := by rcases hp with h | h <;> simp [h]
  constructor
  · simpa only [endingDue, mode, issuedCount_congr entries] using n1
  · simp [discardDue, quiesce, hq]
  · exact fun h => absurd (path ▸ h) calm.1
  · exact fun _ _ => by rw [pf]; exact n4 calm.1 calm.2
  · exact fun h => absurd (path ▸ h) calm.2
  · rw [pf, path]
    exact n6

/-- The entry to DRAINING, from a path outside DRAINING and SAFE, settles (R171 to R173). -/
theorem nothingDue_drains {s : State} (q : QueueSound s) (l : Lined s) (hs : s.cc.path ≠ .safe) :
    NothingDue (settle (enterDraining s)) := by
  refine nothingDue_settle ((enterDraining_keeps s).queue q) ?_
  have pf : (enterDraining s).pf = s.pf := by simp
  rw [Lined, enterDraining_path, pf]
  refine ⟨fun h => absurd rfl h, nofun, fun h => absurd (l.2.2.mp h) hs, nofun⟩

theorem startDevice_leavesNothingDue (s : State) : NothingDue (startDevice s) := by
  obtain ⟨-, -, -, -, -, n, -⟩ := resetStateIsSound
  have started : NothingDue (acceptWaiting (resetBlocks s)) :=
    n.of_undisturbed (by rw [acceptWaiting_resetBlocks]; exact ⟨rfl, rfl, rfl, rfl, rfl, rfl, rfl⟩)
  unfold startDevice
  dsimp only
  split
  · refine nothingDue_drains ?_ started.lined (by rw [acceptWaiting_resetBlocks]; nofun)
    obtain ⟨q, -⟩ := resetStateIsSound
    exact (acceptWaiting_moves (resetBlocks s)).keeps.queue ⟨q.1, q.2, q.3, q.4, q.5, q.6, q.7⟩
  · exact started

theorem effect_leavesNothingDue {s : State} (q : QueueSound s) (n : NothingDue s) (c : Instr) : NothingDue (effect c s) := by
  cases c
  case hostRequestAccept r =>
    exact n.of_undisturbed (by constructor <;> simp [effect])
  case read us => exact (n.of_undisturbed (undisturbed_applyUpsets us s)).takes _
  case write | commit | abort | foldOver | foldUnder | unknownMarkerCode => exact n.takes _
  case responseDelivery => exact n.of_undisturbed ⟨rfl, rfl, rfl, rfl, rfl, rfl, rfl⟩
  case stageWaitExpiry =>
    simp only [effect]
    split
    · exact n.of_undisturbed (by constructor <;> simp)
    · exact n
  case loggingStart =>
    simp only [effect]
    split
    · split
      · rename_i rec _ h
        simp only [mayStartGroup, Bool.and_eq_true, beq_iff_eq, Option.isNone_iff_eq_none] at h
        obtain ⟨⟨⟨hp, hq⟩, -⟩, -⟩ := h
        unfold startLogging
        dsimp only
        split <;> exact (starts_leaveNothingDue n hq (.inl hp) (by rfl) (by rfl) (by rfl) (by rfl) (by rfl)).of_undisturbed
          (undisturbed_handGroupRecord ..)
      · exact n
    · exact n
  case logRecordHand us => exact n.of_undisturbed (undisturbed_logRecordHand us s)
  case trailerHand | voidTrailerHand =>
    simp only [effect]
    split
    · split
      · exact n.of_undisturbed (undisturbed_handTrailer ..)
      · exact n
    · exact n
  case anchorWriteRequest =>
    simp only [effect]
    split
    · rename_i h
      simp only [wantsAnchor, Bool.and_eq_true, Bool.or_eq_true, beq_iff_eq, Option.isNone_iff_eq_none] at h
      obtain ⟨⟨⟨-, hp⟩, hq⟩, -⟩ := h
      refine starts_leaveNothingDue n hq (hp.imp id (·.1)) ?_ ?_ ?_ ?_ ?_
      all_goals simp [requestAnchor]
    · exact n
  case applyStart =>
    simp only [effect]
    split
    · split
      · rename_i h
        simp only [mayApply, Bool.and_eq_true, Bool.or_eq_true, beq_iff_eq, Option.isNone_iff_eq_none] at h
        obtain ⟨-, hp, hq⟩ := h
        exact starts_leaveNothingDue n hq (hp.imp id (·.1)) rfl rfl rfl rfl rfl
      · exact n
    · exact n
  case homeWriteHand us =>
    have upset := undisturbed_applyUpsets us s
    simp only [effect]
    split
    · exact n.of_undisturbed (upset.trans (undisturbed_walkStep ..))
    · exact n.of_undisturbed upset
  case arbiterGrant =>
    simp only [effect]
    split
    · exact n
    · exact grantOne_leavesNothingDue n
  case channelAccept => exact n.of_undisturbed (undisturbed_acceptPiece s)
  case memoryResponse id st data => exact takeResponse_leavesNothingDue q n ..
  case responseTimeout entry => exact expireEntry_leavesNothingDue q n ..
  case quiesceDiscard =>
    simp only [effect, quiesceSettle, n.discardTaken]
    exact n
  case endingComplete =>
    simp only [effect, endingSettle, n.commandEnded]
    exact n
  case safe => exact nothingDue_drainSettle n.1 n.2 n.lined
  case replayWriteHand =>
    simp only [effect]
    split
    · split
      · exact n.of_undisturbed (undisturbed_handReplay ..)
      · exact n
    · exact n
  case pfwNFall =>
    simp only [effect]
    split
    · exact n
    · exact n.of_undisturbed ⟨rfl, rfl, rfl, rfl, rfl, rfl, rfl⟩
  case pfwNRise => exact n.of_undisturbed ⟨rfl, rfl, rfl, rfl, rfl, rfl, rfl⟩
  case pfwNAssertion =>
    simp only [effect]
    split
    · split
      · exact n.of_undisturbed ⟨rfl, rfl, rfl, rfl, rfl, rfl, rfl⟩
      · rename_i hp
        exact nothingDue_drains (s := s.withPf { s.pf with qualifying := false }) ⟨q.1, q.2, q.3, q.4, q.5, q.6, q.7⟩ n.lined
          fun h => hp (.inr h)
    · exact n
  case resetNAssert =>
    obtain ⟨-, -, -, -, -, r, -⟩ := resetStateIsSound
    exact r.of_undisturbed ⟨rfl, rfl, rfl, rfl, rfl, rfl, rfl⟩
  case resetNDeassert =>
    simp only [effect]
    split
    · exact startDevice_leavesNothingDue s
    · exact n
  case powerOn => exact startDevice_leavesNothingDue s
  case incompleteFrame cmd bits a => exact n.of_undisturbed (undisturbed_incompleteFrame ..)
  all_goals exact takeFrame_leavesNothingDue q n ..

/-- Settles O59: every command either settles or disturbs nothing that may be due. -/
theorem stepLeavesNothingDue : Obligations.StepLeavesNothingDue := fun _ _ q _ n h =>
  (step_keeps (Inv := fun s => QueueSound s ∧ NothingDue s)
    (fun _ x i => ⟨i.1.withPending x, i.2.1, i.2.2, i.2.3, i.2.4, i.2.5, i.2.6⟩)
    (fun c s i => ⟨(effect_keeps c s).queue i.1, effect_leavesNothingDue i.1 i.2 c⟩) ⟨q, n⟩ h).2

end Sys2Proof.Machine
end

section
/-! PROOF. What becomes of the request that is taken: the read path, tagged writes, FOLD and COMMIT (R8, R11, R23 to R26, R33, R40 to R51, R59 to
R62, R125 to R132). -/

namespace Sys2Proof.Machine

/-! ## Answers and releases of a taken request -/

/-- A release with the answer of a taken request: no stage wait can be under way (R25, R33). -/
theorem releaseEvent_taken (ds : List Nat) (a : Answer) {s : State} {r : HostRequest} (hl : Live s)
    (hr : s.hp.intake.head? = some r) :
    releaseEvent ds (answerHead a (reservePlace s)) = (releaseDescs ds s).withHp (headAnswered s.hp r a) := by
  rw [answerHead_taken s r a hl hr, releaseEvent_noWait _ _ (by simp [headAnswered, headLeft])]
  rfl

/-- A release and the reservation of a response place touch different blocks. -/
theorem releaseDescs_reservePlace (ds : List Nat) (s : State) :
    releaseDescs ds (reservePlace s) = reservePlace (releaseDescs ds s) := rfl

/-- A group that faults as a taken request is answered (R42 to R46). -/
theorem faultGroup_taken (t : Tag) (why : FaultReason) (a : Answer) {s : State} {r : HostRequest} (hl : Live s)
    (hr : s.hp.intake.head? = some r) : faultGroup t why (answerHead a (reservePlace s)) =
      (releaseDescs (ctxOf s t).writes (setCtx t (Context.faulted why) s)).withHp (headAnswered s.hp r a) := by
  rw [faultGroup_answered (r := r) a t why (by simpa [reservePlace] using hr), setCtx_reservePlace, ctxOf_reservePlace]
  have := answerHead_taken (releaseDescs (ctxOf s t).writes (setCtx t (Context.faulted why) s)) r a (by simpa [Live] using hl)
    (by simpa using hr)
  simpa [releaseDescs_reservePlace] using this

/-! ## The read path -/

/-- What becomes of a request of the read path that is taken, in the order of R11. -/
theorem exec_passThrough {c : Instr} {s : State} {r : HostRequest} (h : TakesSound c s r)
    (hk : r.kind = .read ∨ (r.kind = .write ∧ r.tag = 0)) : exec c s = .next (
      let u := applyUpsets (upsetsOf c) s
      if overlapsSide homeSide s r.addr.toNat r.length && s.cc.stopApply then u.withHp (headAnswered s.hp r .blocked)
      else if overlapsSide (fun st => loggingSide st || homeSide st) s r.addr.toNat r.length then
        u.withHp (headHolds s.hp .hazardOverlap)
      else if needsSlot r s && (firstAbsent s.hp.slots).isNone then u.withHp (headHolds s.hp .noMergeSlot)
      else if (firstAbsent s.mp.records).isNone then u.withHp (headHolds s.hp .passListFull)
      else if needsSlot r s then overlayRead r (reservePlace u)
      else sendPass r (reservePlace u)) := by
  have ⟨⟨hl, hr, _, _⟩, _, _, _⟩ := h
  have slot : needsSlot r (reservePlace (applyUpsets (upsetsOf c) s)) = needsSlot r s := by simp [needsSlot]
  rw [exec_takesSound c s r h, dispatch_passThrough r _ hk, passThrough]
  dsimp only
  rw [overlapsSide_taken, overlapsSide_taken, slot,
    answerHead_taken (applyUpsets (upsetsOf c) s) r .blocked (by simpa [Live] using hl) (by simpa using hr)]
  simp only [holdHead_taken]
  rfl

/-- A request is free of both sides of the hazard set when it is free of their union. -/
theorem passThrough_clear {s : State} {a len : Nat} (h : overlapsSide (fun st => loggingSide st || homeSide st) s a len = false) :
    (overlapsSide homeSide s a len && s.cc.stopApply) = false := by
  rw [overlapsSide_home_of_none h, Bool.false_and]

theorem needsSlot_iff {r : HostRequest} {s : State} :
    needsSlot r s = true ↔ r.kind = .read ∧ (ctxOf s r.tag).state = .opened := by simp [needsSlot]

/-- Settles O14: the branches of the read path before dispatch, in their order. -/
theorem hazardOverlapHoldsOrBlocks : Obligations.HazardOverlapHoldsOrBlocks := by
  intro c s r h hk
  have read := exec_passThrough h hk
  refine ⟨fun hc => ?covered, fun hc ho hs => ?noSlot, fun hc ho hm => ?listFull⟩
  case covered =>
    rw [read]
    dsimp only
    rw [if_pos hc]
    split <;> rfl
  case noSlot =>
    rw [read]
    dsimp only
    rw [passThrough_clear hc, if_neg nofun, if_neg (by simp [hc]), if_pos (by simp [needsSlot_iff.mpr ho, hs])]
  case listFull =>
    have slot : (needsSlot r s && (firstAbsent s.hp.slots).isNone) = false := by
      by_cases hn : needsSlot r s = true
      · simpa [hn, Option.isSome_iff_ne_none] using ho (needsSlot_iff.mp hn)
      · simp [hn]
    rw [read]
    dsimp only
    rw [passThrough_clear hc, if_neg nofun, if_neg (by simp [hc]), slot, if_neg nofun, if_pos (by simp [hm])]

/-- A taken request that needs no merge slot is sent (R132, R138). -/
theorem sendPass_taken {s : State} {r : HostRequest} {k : Nat} (hl : Live s) (hm : firstAbsent s.mp.records = some k)
    (hi : r.id ∉ s.hp.inflight) :
    sendPass r (reservePlace s) = (s.withHp (headDispatched s.hp r)).withMp (passSent s.mg.cfg s.mp k r) := by
  rw [sendPass_eq r (reservePlace s) k hl (by simpa using hm) hi]
  rfl

/-- Settles O11: the last branch of the read path. -/
theorem passThroughIsDispatched : Obligations.PassThroughIsDispatched := by
  intro c s r k h hk hc hm
  have ⟨⟨hl, _, _, _⟩, _, _, hp⟩ := h
  have noSlot : needsSlot r s = false := by
    rw [Bool.eq_false_iff, Ne, needsSlot_iff]
    rintro ⟨h1, h2⟩
    rcases hk with ⟨-, hk⟩ | ⟨hk, -⟩
    · exact hk h2
    · rw [hk] at h1
      cases h1
  rw [exec_passThrough h (hk.imp And.left id)]
  dsimp only
  rw [passThrough_clear hc, noSlot, if_neg nofun, if_neg (by simp [hc]), if_neg (by simp), if_neg (by simp [hm]), if_neg nofun,
    sendPass_taken (by simpa [Live] using hl) (by simpa using hm) (by simpa using notInFlight_of_sound hp)]
  simp [passSent]

/-- Settles O12: the overlay read after its walk, and the fault of its group. -/
theorem openTagReadTakesMergeSlot : Obligations.OpenTagReadTakesMergeSlot := by
  intro us s u r k m res h h63 ho hc hs hm hw
  have ⟨⟨hl, hr, _, hn⟩, _, _, hp⟩ := h
  have hk : r.kind = .read := by simpa [namesRequest, isRead] using hn
  have slot : needsSlot r s = true := needsSlot_iff.mpr ⟨hk, ho⟩
  have h0 : r.tag ≠ 0 := (tag_of_needsSlot slot).2
  have walk := overlayWalk_frame r.addr.toNat r.length (ctxOf s r.tag).writes (List.replicate r.length none)
    (reservePlace (applyUpsets us s))
  have store := overlayWalk_store r.addr.toNat r.length (ctxOf s r.tag).writes (List.replicate r.length none)
    (reservePlace (applyUpsets us s))
  rw [hw] at walk store
  obtain ⟨wp, whp, wgt, wcc, wle, wae, wmp, wre, wpf, wcfg⟩ := walk
  obtain ⟨wd, wsg, wds, wcl⟩ := store
  replace wgt : u.gt = s.gt := wgt
  replace wmp : u.mp = s.mp := wmp
  replace wpf : u.pf = s.pf := wpf
  replace wcfg : u.mg.cfg = s.mg.cfg := wcfg
  replace wd : u.ss.descPool = s.ss.descPool := wd
  replace wsg : u.ss.segPool = s.ss.segPool := wsg
  replace wds : u.ss.descs = s.ss.descs := wds
  replace wcl : u.ss.cells = s.ss.cells := wcl
  have place : u = reservePlace (u.withHp s.hp) := by
    rw [reservePlace, State.withHp_withHp, State.withHp_hp]
    exact congrArg u.withHp whp
  have clear : exec (.read us) s = .next (overlayRead r (reservePlace (applyUpsets us s))) := by
    rw [exec_passThrough h (.inl hk)]
    dsimp only
    rw [passThrough_clear hc, slot, if_neg nofun, if_neg (by simp [hc]), if_neg (by simp [hs]), if_neg (by simp [hm]), if_pos rfl]
    rfl
  rw [overlayRead, ctxOf_reservePlace, ctxOf_applyUpsets, hw] at clear
  refine ⟨_, clear, ?_⟩
  cases res with
  | some ov =>
    have sent : sendPass r (takeSlot r ov u) =
        (u.withHp { headDispatched s.hp r with slots := s.hp.slots.set m (some ⟨r.id, r.addr, r.length, ov⟩) }).withMp
          (passSent s.mg.cfg s.mp k r) := by
      have taken : takeSlot r ov u =
          reservePlace (u.withHp { s.hp with slots := s.hp.slots.set m (some ⟨r.id, r.addr, r.length, ov⟩) }) := by
        rw [place]
        simp only [takeSlot, reservePlace, State.withHp_hp, hs]
        rfl
      rw [taken, sendPass_taken (s := u.withHp { s.hp with slots := s.hp.slots.set m (some ⟨r.id, r.addr, r.length, ov⟩) }) (k := k)
        (by rw [Live, State.withHp_pf, wpf]; exact hl) (by simp [wmp, hm]) (notInFlight_of_sound hp)]
      simp only [State.withHp_mp, State.withHp_mg, wmp, wcfg]
      rfl
    dsimp only
    rw [sent]
    refine ⟨fun ov' e => ?_, nofun, ?_, ?_, ?_, fun b hb => ?_⟩
    · cases e
      exact ⟨rfl, by simp [passSent, passKind, hk], wgt, wd, wsg, wds⟩
    · simp [passSent]
    · exact wcl
    · exact wcfg
    · cases b <;> simp [sameBlock] at hb ⊢ <;> assumption
  | none =>
    dsimp only
    have ctx : ∀ t, ctxOf (u.withHp s.hp) t = ctxOf s t := fun t => by simp [ctxOf, wgt]
    rw [place, faultGroup_taken r.tag .integrity .integrity (r := r) (by rw [Live, State.withHp_pf, wpf]; exact hl) (by simpa using hr),
      ctx]
    have set := fun t => ctxOf_setCtx (u.withHp s.hp) r.tag t (Context.faulted .integrity) (by simpa [wgt] using h63) h0
    refine ⟨nofun, fun _ => ⟨rfl, by simp [wmp], ?_, fun t ht => ?_, ?_⟩, by simp [wmp], by simp [releaseDescs, foldl_releaseOne, wcl],
      by simp [wcfg], fun b hb => ?_⟩
    · simpa using set r.tag
    · simpa [ht, ctx] using set t
    · exact (released_releaseDescs _ _).of_same (by simp [wd]) (by simp [wsg]) (by simp [wds]) (by simp [wcl]) rfl rfl rfl rfl
    · cases b <;> simp [sameBlock] at hb ⊢ <;> assumption

end Sys2Proof.Machine
end

section
/-! PROOF. Tagged writes, FOLD and COMMIT as they are taken (R8, R23 to R26, R33, R40 to R51, R59 to R62). -/

namespace Sys2Proof.Machine

/-- An answer after a change of the staging store and of a tag's context, to a taken request. -/
theorem answerHead_setCtx_taken (a : Answer) (t : Tag) (c : Context) {s : State} {r : HostRequest} (hl : Live s)
    (hr : s.hp.intake.head? = some r) :
    answerHead a (setCtx t c (reservePlace s)) = (setCtx t c s).withHp (headAnswered s.hp r a) := by
  rw [setCtx_reservePlace, answerHead_taken _ r a (by simpa [Live] using hl) (by simpa using hr)]
  simp

/-! ## Tagged writes -/

/-- A tagged write that passes the protocol checks goes to the group table in RUN, and elsewhere is answered NOLOG (R8). -/
theorem exec_write {s : State} {r : HostRequest} (h : TakesSound .write s r) (h0 : r.tag ≠ 0) :
    exec .write s = .next (if s.cc.path = .run then taggedWrite r (reservePlace s) else s.withHp (headAnswered s.hp r .nolog)) := by
  have ⟨⟨hl, hr, _, hn⟩, _, _, _⟩ := h
  have class' : classify r = .taggedWrite := by
    have hk : r.kind = .write := by simpa [namesRequest, isWrite] using hn
    simp only [classify, hk, beq_iff_eq]
    rw [if_neg h0]
  rw [exec_takesSound .write s r h, dispatch, class', show applyUpsets (upsetsOf .write) s = s from applyUpsets_nil s]
  dsimp only
  rw [answerHead_taken s r .nolog hl hr]
  rfl

/-- The state in which the head request has been staged (R23, R41). -/
def stagedState (r : HostRequest) (s : State) : State :=
  setCtx r.tag (appendWrite (ctxOf s r.tag) (s.ss.descPool.headD 0) r.length (writeMask r).isSome)
    (s.withSs { allocate r s.ss with timer := none })

theorem stageHead_taken {s : State} {r : HostRequest} (hl : Live s) (hr : s.hp.intake.head? = some r) :
    stageHead r (reservePlace s) = (stagedState r s).withHp (headAnswered s.hp r .ok) := by
  have := answerHead_setCtx_taken .ok r.tag (appendWrite (ctxOf s r.tag) (s.ss.descPool.headD 0) r.length (writeMask r).isSome)
    (s := s.withSs { allocate r s.ss with timer := none }) hl hr
  exact this

/-- Settles O15: the staged state, figure for figure. -/
theorem taggedWriteIsStaged : Obligations.TaggedWriteIsStaged := by
  intro s r h hp h0 h63 hf hc hd hs
  have ⟨⟨hl, hr, _, _⟩, _, _, _⟩ := h
  have ctx := fun t => ctxOf_setCtx (s.withSs { allocate r s.ss with timer := none }) r.tag t
    (appendWrite (ctxOf s r.tag) (s.ss.descPool.headD 0) r.length (writeMask r).isSome) h63 h0
  have store : (stagedState r s).ss = { allocate r s.ss with timer := none } := by simp [stagedState]
  refine ⟨(stagedState r s).withHp (headAnswered s.hp r .ok), ?_, rfl, ?_, ?_, ?_, ?_, fun t ht => ?_, fun i hi => ?_, ?_, ?_, ?_,
    fun b hb => ?_⟩
  · have sound : sufficient s.ss r.length = true := by simp [sufficient, hd, hs]
    rw [exec_write h h0, if_pos hp, taggedWrite, ctxOf_reservePlace, if_neg hf, if_neg (fun ⟨h1, h2⟩ => absurd (hc h1) (Nat.not_lt.mpr h2)), reservePlace_ss, if_pos sound,
      stageHead_taken hl hr]
  · simp [store, allocate]
  · simp [store, allocate]
  · simp [store, allocate, lookupDesc_insertDesc]
  · simpa [stagedState, appendWrite] using ctx r.tag
  · simpa [stagedState, ht, ctxOf] using ctx t
  · simp only [State.withHp_ss, store, allocate, lookupDesc_insertDesc, if_neg hi]
  · simp [store]
  · simp [store, allocate]
  · simp [store, allocate]
  · cases b <;> simp [sameBlock, stagedState] at hb ⊢

/-- A group that faults with the answer of a taken request changes its context and releases its list (R33, R44). -/
theorem faulted_spec {s : State} (t : Tag) (why : FaultReason) (hp : HostPort) (h63 : s.gt.ctxs.length = 63) (h0 : t ≠ 0) :
    let u := (releaseDescs (ctxOf s t).writes (setCtx t (Context.faulted why) s)).withHp hp
    ctxOf u t = Context.faulted why ∧ Released (ctxOf s t).writes s u ∧ (∀ t', t' ≠ t → ctxOf u t' = ctxOf s t') ∧
      OnlyIn [.hp, .ss, .gt] s u := by
  have ctx := fun t' => ctxOf_setCtx s t t' (Context.faulted why) h63 h0
  refine ⟨by simpa using ctx t, ?_, fun t' ht => by simpa [ht] using ctx t', fun b hb => ?_⟩
  · exact (released_releaseDescs _ _).of_same (by simp) (by simp) (by simp) (by simp) rfl rfl rfl rfl
  · cases b <;> simp [sameBlock] at hb ⊢

/-- Counting starved pools sets STARVE (R24, R28). -/
theorem countStarved_starve (n : Nat) (s : State) : causeIn .starve (countStarved n s).mg.causes = true := by
  simp [countStarved, setCause, causeIn, causeBit]

/-- Settles O17: the branches of a tagged write that stages nothing. -/
theorem unstagedWriteOutcomes : Obligations.UnstagedWriteOutcomes := by
  intro s r h h0 h63
  have ⟨⟨hl, hr, _, _⟩, _, _, _⟩ := h
  have taken := exec_write h h0
  refine ⟨fun hp => by rw [taken, if_neg hp], fun hp hf => ?faulted, fun hp ho hc => ?full, fun hp hf hc hs => ?starved⟩
  all_goals
    rw [taken, if_pos hp, taggedWrite, ctxOf_reservePlace]
  case faulted => rw [if_pos hf, answerHead_taken s r _ hl hr]
  case full =>
    obtain ⟨c, rel, others, only⟩ := faulted_spec (s := s) r.tag .groupFull (headAnswered s.hp r .groupFull) h63 h0
    rw [if_neg (by rw [ho]; nofun), if_pos ⟨ho, hc⟩, faultGroup_taken r.tag .groupFull .groupFull hl hr]
    exact ⟨_, rfl, rfl, c, rel, others, only⟩
  case starved =>
    have short : sufficient s.ss r.length = false := by
      rcases hs with hs | hs
      · simp [sufficient, hs]
      · simp [sufficient, Nat.not_le.mpr hs]
    have counted : countStarved r.length (reservePlace s) = reservePlace (countStarved r.length s) := rfl
    have desc : (countStarved r.length s).ss.starveDesc = if s.ss.descPool = [] then satSucc s.ss.starveDesc else s.ss.starveDesc := by
      simp [countStarved]
    have seg : (countStarved r.length s).ss.starveSeg =
        if s.ss.segPool.length < needSegs r.length then satSucc s.ss.starveSeg else s.ss.starveSeg := by simp [countStarved]
    have starve := countStarved_starve r.length s
    rw [if_neg hf, if_neg (fun ⟨h1, h2⟩ => absurd (hc h1) (Nat.not_lt.mpr h2)), reservePlace_ss, if_neg (by simp [short]), enterStageWait]
    dsimp only
    rw [counted]
    by_cases hw : s.mg.cfg.stageWait = 0
    · rw [if_pos (show (reservePlace s).mg.cfg.stageWait = 0 from hw), expireHead]
      have expired := faultGroup_taken (s := (countStarved r.length s).withSs { (countStarved r.length s).ss with timer := none })
        r.tag .overflow .overflow (r := r) hl hr
      obtain ⟨c, rel, others, only⟩ := faulted_spec
        (s := (countStarved r.length s).withSs { (countStarved r.length s).ss with timer := none }) r.tag .overflow
        (headAnswered s.hp r .overflow) h63 h0
      refine ⟨_, congrArg _ expired, ?_, ?_, ?_, ?_, ?_, ?_, others, fun hn => absurd hw hn, fun _ => ⟨rfl, ?_, c, ?_⟩⟩
      · simpa using starve
      · simpa [releaseDescs, foldl_releaseOne] using desc
      · simpa [releaseDescs, foldl_releaseOne] using seg
      · simp [releaseDescs, foldl_releaseOne, countStarved]
      · simp
      · intro b hb
        cases b <;> simp [sameBlock] at hb ⊢
      · simp [releaseDescs, foldl_releaseOne]
      · exact rel.of_same rfl rfl rfl rfl rfl rfl rfl rfl
    · rw [if_neg (show ¬ (reservePlace s).mg.cfg.stageWait = 0 from hw)]
      refine ⟨_, rfl, starve, desc, seg, rfl, rfl, fun b hb => ?_, fun _ _ => rfl,
        fun _ => ⟨rfl, rfl, rfl, rfl, rfl, rfl⟩, fun hn => absurd hn hw⟩
      cases b <;> simp [sameBlock, holdHead] at hb ⊢

/-- Settles O18: the expiry answers, stops the timer and faults the group. -/
theorem stageWaitExpires : Obligations.StageWaitExpires := by
  intro s r hl hh hr h0 h63
  obtain ⟨rest, hi⟩ := intake_of_head hr
  have stopped := answerHead_eq (releaseDescs (ctxOf s r.tag).writes
    (setCtx r.tag (Context.faulted .overflow) (s.withSs { s.ss with timer := none }))) r .overflow
    (by simpa [Live] using hl) (by simpa using hr)
  obtain ⟨c, rel, others, only⟩ := faulted_spec (s := s.withSs { s.ss with timer := none }) r.tag .overflow
    { headAnswered s.hp r .overflow with reserved := s.hp.reserved - 1 } h63 h0
  refine ⟨_, ?_, ?_, ?_, c, rel.of_same rfl rfl rfl rfl rfl rfl rfl rfl, others, ?_, ?_, ?_⟩
  · rw [exec_live .stageWaitExpiry hl]
    simp only [effect, hh, hi, expireHead]
    rw [faultGroup_answered (r := r) _ _ _ (by simpa using hr)]
    simp only [releaseDescs_frame, setCtx_frame, State.withSs_hp] at stopped
    exact congrArg _ stopped
  · rfl
  · simp [releaseDescs, foldl_releaseOne]
  · simp [releaseDescs, foldl_releaseOne]
  · simp [releaseDescs, foldl_releaseOne]
  · intro b hb
    have := only b hb
    cases b <;> simp [sameBlock] at hb this ⊢

end Sys2Proof.Machine
end

section
/-! PROOF. FOLD and COMMIT as they are taken (R8, R33, R49 to R51, R59 to R62). -/

namespace Sys2Proof.Machine

/-- The group is lost as its tag becomes IDLE with the answer of a taken request (R33). -/
theorem idled_spec {s : State} (t : Tag) (hp : HostPort) (h63 : s.gt.ctxs.length = 63) (h0 : t ≠ 0) :
    let u := (releaseDescs (ctxOf s t).writes (setCtx t Context.idle s)).withHp hp
    ctxOf u t = Context.idle ∧ Released (ctxOf s t).writes s u ∧ (∀ t', t' ≠ t → ctxOf u t' = ctxOf s t') ∧
      OnlyIn [.hp, .ss, .gt] s u := by
  have ctx := fun t' => ctxOf_setCtx s t t' Context.idle h63 h0
  refine ⟨by simpa using ctx t, ?_, fun t' ht => by simpa [ht] using ctx t', fun b hb => ?_⟩
  · exact (released_releaseDescs _ _).of_same (by simp) (by simp) (by simp) (by simp) rfl rfl rfl rfl
  · cases b <;> simp [sameBlock] at hb ⊢

/-! ## FOLD -/

/-- The contexts after both sides of a FOLD have been set. -/
theorem ctxOf_setBoth {s : State} {a b : Tag} (c : Context) (h63 : s.gt.ctxs.length = 63) (ha : a ≠ 0) (hb : b ≠ 0) (hab : b ≠ a) :
    ctxOf (setCtx b c (setCtx a Context.idle s)) a = Context.idle ∧ ctxOf (setCtx b c (setCtx a Context.idle s)) b = c ∧
    ∀ t, t ≠ a → t ≠ b → ctxOf (setCtx b c (setCtx a Context.idle s)) t = ctxOf s t := by
  have outer := fun t => ctxOf_setCtx (setCtx a Context.idle s) b t c (by simpa using h63) hb
  have inner := fun t => ctxOf_setCtx s a t Context.idle h63 ha
  refine ⟨?_, ?_, fun t hta htb => ?_⟩
  · rw [outer, if_neg (Ne.symm hab), inner, if_pos rfl]
  · rw [outer, if_pos rfl]
  · rw [outer, if_neg htb, inner, if_neg hta]

theorem classify_fold {c : Instr} {r : HostRequest} (hc : c = .foldOver ∨ c = .foldUnder) (h : namesRequest c r = true) :
    classify r = .fold ∧ ((r.code == .foldOver) = true ↔ c = .foldOver) ∧ upsetsOf c = [] := by
  rcases hc with rfl | rfl
  all_goals
    obtain ⟨hk, hm⟩ := isMarker_iff.mp h
    simp [classify, hk, hm, upsetsOf]

/-- A FOLD that is taken, by the path (R8). -/
theorem exec_fold {c : Instr} {s : State} {r : HostRequest} (hc : c = .foldOver ∨ c = .foldUnder) (h : TakesSound c s r) :
    exec c s = .next (if s.cc.path = .unconfigured then s.withHp (headAnswered s.hp r .nolog)
      else if s.cc.path = .stopped then s.withHp (headAnswered s.hp r .stopped) else foldGroups r (reservePlace s)) := by
  have ⟨⟨hl, hr, _, hn⟩, _, _, _⟩ := h
  obtain ⟨cl, -, up⟩ := classify_fold hc hn
  rw [exec_takesSound c s r h, dispatch, cl, up, applyUpsets_nil]
  dsimp only
  rw [answerHead_taken s r _ hl hr, answerHead_taken s r _ hl hr]
  rfl

/-- Settles O20: the cases of R49 in their order. -/
theorem foldJoinsTwoGroups : Obligations.FoldJoinsTwoGroups := by
  intro c s r hc h h63
  have ⟨⟨hl, hr, _, hn⟩, _, _, hp⟩ := h
  obtain ⟨cl, code, -⟩ := classify_fold hc hn
  obtain ⟨ha, hb, hab⟩ := fold_tags cl hp
  have taken := exec_fold hc h
  have run : s.cc.path = .run → exec c s = .next (foldGroups r (reservePlace s)) := fun hp => by
    rw [taken, if_neg (by rw [hp]; nofun), if_neg (by rw [hp]; nofun)]
  have both := fun x => ctxOf_setBoth x h63 ha hb hab
  have answered : ∀ a x, answerHead a (setCtx r.target x (setCtx r.tag Context.idle (reservePlace s))) =
      (setCtx r.target x (setCtx r.tag Context.idle s)).withHp (headAnswered s.hp r a) := fun a x => by
    rw [setCtx_reservePlace, answerHead_setCtx_taken a r.target x (by simpa [Live] using hl) (by simpa using hr)]
    simp
  refine ⟨fun hu => by rw [taken, if_pos hu], fun hs => ?stopped, fun hp ho hf hc' => ?joins, fun hp ho hf hc' => ?full,
    fun hp hi => ?idle, fun hp hi hf => ?failed⟩
  case stopped => rw [taken, if_neg (by rw [hs]; nofun), if_pos hs]
  all_goals
    rw [run hp]
    unfold foldGroups
    simp only [ctxOf_reservePlace]
  case joins =>
    rw [if_neg (by rw [ho]; nofun), if_neg (by simp [ho, hf]), if_neg (show ¬ Config.groupWrites < _ from Nat.not_lt.mpr hc'), answered]
    obtain ⟨b1, b2, b3⟩ := both (foldedContext (r.code == .foldOver) (ctxOf s r.tag) (ctxOf s r.target))
    refine ⟨_, rfl, rfl, b1, ?_, b3, fun b hb' => ?_⟩
    · refine Eq.trans b2 ?_
      simp only [foldedContext, code]
    · cases b <;> simp [sameBlock] at hb' ⊢
  case full =>
    rw [if_neg (by rw [ho]; nofun), if_neg (by simp [ho, hf]), if_pos (show Config.groupWrites < _ from hc'), answerHead_taken s r _ hl hr]
  case idle => rw [if_pos hi, answerHead_taken s r _ hl hr]
  case failed =>
    rw [if_neg hi, if_pos hf, setCtx_reservePlace, setCtx_reservePlace,
      releaseEvent_taken _ .failedGroup (r := r) (by simpa [Live] using hl) (by simpa using hr)]
    obtain ⟨b1, b2, b3⟩ := both (if (ctxOf s r.target).state = .faulted then ctxOf s r.target else Context.faulted .fold)
    refine ⟨_, rfl, ?_, b1, b2, b3, ?_, fun b hb' => ?_⟩
    · simp
    · exact (released_releaseDescs _ _).of_same (by simp) (by simp) (by simp) (by simp) rfl rfl rfl rfl
    · cases b <;> simp [sameBlock] at hb' ⊢

/-! ## COMMIT -/

/-- A COMMIT that is taken goes to the ordered checks outside UNCONFIGURED (R8). -/
theorem exec_commit {s : State} {r : HostRequest} (h : TakesSound .commit s r) : exec .commit s = .next
    (if s.cc.path = .unconfigured then s.withHp (headAnswered s.hp r .nolog) else commitHead r (reservePlace s)) := by
  have ⟨⟨hl, hr, _, hn⟩, _, _, _⟩ := h
  obtain ⟨hk, hc⟩ := isMarker_iff.mp hn
  have cl : classify r = .commit := by simp [classify, hk, hc]
  rw [exec_takesSound .commit s r h, dispatch, cl, show applyUpsets (upsetsOf .commit) s = s from applyUpsets_nil s]
  dsimp only
  rw [answerHead_taken s r _ hl hr]
  rfl

/-- An accepted COMMIT that is taken (R62). -/
theorem acceptCommit_taken {s : State} {r : HostRequest} (hl : Live s) (hi : r.id ∉ s.hp.inflight) :
    acceptCommit r (reservePlace s) = ((setCtx r.tag Context.idle s).withHp (headDispatched s.hp r)).withCc { s.cc with
      queue := s.cc.queue ++ [newRecord r (ctxOf s r.tag) s.cc.next], next := s.cc.next + 1 } := by
  rw [acceptCommit]
  dsimp only
  rw [setCtx_reservePlace, setCtx_eq, leaveIntake_eq _ (by simpa [Live, joinInflight] using hl)]
  simp [joinInflight, reservePlace, hi, headDispatched, headLeft]
  rfl

/-- Settles O21: the ordered checks, one branch after another. -/
theorem commitChecksInOrder : Obligations.CommitChecksInOrder := by
  intro s r h h63
  have ⟨⟨hl, hr, _, hn⟩, _, _, hp⟩ := h
  have taken := exec_commit h
  have tag : r.tag ≠ 0 := marker_tag_ne_zero (isMarker_iff.mp hn).1 hp
  have checks : s.cc.path ≠ .unconfigured → exec .commit s = .next (commitHead r (reservePlace s)) := fun hu => by
    rw [taken, if_neg hu]
  refine ⟨fun hu => by rw [taken, if_pos hu], fun hs => ?stopped, fun hp hi => ?empty, fun hp hf => ?failed, fun hp ho hu => ?large,
    fun hp ho hu hq => ?full, fun hp ho hu hq => ?accepted⟩
  case stopped =>
    rw [checks (by rw [hs]; nofun), commitHead, ctxOf_reservePlace, reservePlace_cc, if_pos hs]
    split
    · rw [answerHead_setCtx_taken _ _ _ hl hr]
    · rw [answerHead_taken s r _ hl hr]
  all_goals rw [checks (by rw [hp]; nofun), commitHead, ctxOf_reservePlace, reservePlace_cc, if_neg (by rw [hp]; nofun),
    show ringU (reservePlace s) = ringU s from rfl]
  case empty => rw [if_pos hi, answerHead_taken s r _ hl hr]
  case failed => rw [if_neg (by rw [hf]; nofun), if_pos hf, answerHead_setCtx_taken _ _ _ hl hr]
  all_goals rw [if_neg (by rw [ho]; nofun), if_neg (by rw [ho]; nofun)]
  case large =>
    obtain ⟨c, rel, others, only⟩ := idled_spec (s := s) r.tag (headAnswered s.hp r .tooLarge) h63 tag
    rw [if_pos (by exact hu), setCtx_reservePlace, releaseEvent_taken _ .tooLarge (r := r) (by simpa [Live] using hl) (by simpa using hr),
      (setCtx_frame ..).2.1]
    exact ⟨_, rfl, rfl, c, rel, others, only⟩
  case full => rw [if_neg (Nat.not_lt.mpr hu), if_pos (show Config.commitRecords ≤ s.cc.queue.length from hq)]; rfl
  case accepted =>
    rw [if_neg (Nat.not_lt.mpr hu), if_neg (show ¬ Config.commitRecords ≤ s.cc.queue.length from Nat.not_le.mpr hq), acceptCommit_taken hl (notInFlight_of_sound (by assumption))]
    rfl

end Sys2Proof.Machine
end

section
/-! PROOF. The log engine hands: the start of a group (O22), its records (O23), its trailer, and the acknowledgements of its pieces. -/

namespace Sys2Proof.Machine

/-! ## Handing -/

/-- The changed bits of the store leave every descriptor as it is. -/
@[simp] theorem descAt_applyUpsets (us : List Upset) (s : State) (i : Nat) : descAt (applyUpsets us s) i = descAt s i := by
  rfl

/-- Settles O22: one branch of `startLogging` with the PAD and one without. -/
theorem loggingStartPlacesTheSpan : Obligations.LoggingStartPlacesTheSpan := by
  intro s rec hl hp hq hn ho u pad span bytes room
  have start : exec .loggingStart s = .next (startLogging rec s) := by
    have may : mayStartGroup s = true := by simp [mayStartGroup, hp, hq, hn]
    have fits : hasRoom s rec = true := by
      have same : planSpan (ringU s) s.le.head rec.units = span := by simp [planSpan, needsPad, span, pad, u]
      simpa [hasRoom, same] using room
    rw [exec_live .loggingStart hl]
    simp [effect, ho, may, fits]
  refine ⟨_, start, ?_⟩
  by_cases h : pad
  · have hn : needsPad (ringU s) s.le.head rec.units = true := by simpa [needsPad] using h
    simp only [startLogging, planSpan, firstUnit, hn, if_true]
    rw [handGroupRecord_eq _ _ _ _ _ rfl]
    simp only [span, bytes, if_pos h]
    refine ⟨rfl, rfl, by simp [updateRecord, u], fun b hb => ?_⟩
    cases b <;> simp [sameBlock, updateRecord] at hb ⊢
  · have hn : needsPad (ringU s) s.le.head rec.units = false := decide_eq_false h
    simp only [startLogging, planSpan, firstUnit, hn, Bool.false_eq_true, if_false]
    rw [handGroupRecord_eq _ _ _ _ _ rfl]
    simp only [span, bytes, if_neg h]
    refine ⟨rfl, rfl, by simp [updateRecord, nextAfter], fun b hb => ?_⟩
    cases b <;> simp [sameBlock, updateRecord] at hb ⊢

/-- Settles O23: the HDR, or the data record of a descriptor after its read-out. -/
theorem logRecordIsHanded : Obligations.LogRecordIsHanded := by
  intro us s job rec hl hj hr hm hi hv
  have header (h : job.next = .hdr) : exec (.logRecordHand us) s = .next (handGroupRecord .hdr job.first
      (hdrRecord s.le.epoch rec.number rec.count rec.units)
      ((applyUpsets us s).withLe { s.le with job := some { job with next := nextAfter 0 rec.count } })) := by
    rw [exec_live (.logRecordHand us) hl]
    simp [effect, hj, hr, hm, hv, groupAllIssued, hi, h]
  have record (i : Nat) (h : job.next = .dat i) :
      exec (.logRecordHand us) s = .next (handDataRecord job rec i (applyUpsets us s)) := by
    rw [exec_live (.logRecordHand us) hl]
    simp [effect, hj, hr, hm, hv, groupAllIssued, hi, h]
  refine ⟨fun h => ⟨_, header h, ?_⟩, fun i h => ?_⟩
  · rw [handGroupRecord_eq _ _ _ _ _ rfl]
    refine ⟨⟨by simp, by simp [nextAfter]⟩, rfl, fun b hb => ?_⟩
    cases b <;> simp [sameBlock] at hb ⊢
  · intro d desc read
    refine ⟨fun clean => ⟨_, record i h, ?_⟩, fun dirty => ⟨_, record i h, ?_⟩⟩
    · have hc : (readDescriptor (descAt s (rec.writes.getD (i - 1) 0)) (applyUpsets us s)).1 ≠ .uncorrectable := clean
      simp only [handDataRecord, descAt_applyUpsets, if_neg hc]
      rw [handGroupRecord_eq _ _ _ _ _ rfl]
      refine ⟨⟨by simp [read, desc, d], by simp [nextAfter, read, desc, d]⟩, rfl, rfl, fun b hb => ?_⟩
      cases b <;> simp [sameBlock] at hb ⊢
    · have hc : (readDescriptor (descAt s (rec.writes.getD (i - 1) 0)) (applyUpsets us s)).1 = .uncorrectable := dirty
      simp only [handDataRecord, descAt_applyUpsets, if_pos hc]
      refine ⟨by simp, rfl, rfl, fun b hb => ?_⟩
      cases b <;> simp [sameBlock] at hb ⊢

/-- The trailer that LE hands, OK or VOID (R83, R95, R97). -/
theorem exec_handTrailer {void : Bool} {s : State} {job : LogJob} {rec : CommitRecord} (hl : Live s) (hj : s.le.job = some job)
    (hr : loggingRecord s.cc = some rec) (hm : mayContinueGroup s.cc = true) (hv : job.void = void)
    (hd : void = false → job.next = .done) (hu : job.unacked = 0) (ht : job.trailer = none) :
    exec (if void then .voidTrailerHand else .trailerHand) s = .next (handTrailer void job rec s) := by
  cases void
  · rw [if_neg nofun, exec_live .trailerHand hl]
    simp [effect, hj, hr, hm, hv, hd, hu, ht]
  · rw [if_pos rfl, exec_live .voidTrailerHand hl]
    simp [effect, hj, hr, hm, hv, hu, ht]

end Sys2Proof.Machine
end

section
/-! PROOF. Rules for what follows a release or a removal: the stage-wait test, the evaluation of the request that holds the port, and
the removal of what stands finished at the head of the queue (R13, R25, R33, R68, R71, R98). -/

namespace Sys2Proof.Machine

/-! ## Evaluations that find nothing to do -/

/-- The event reaches no request: nothing holds the port on a condition of its own, or HP takes no requests (R9, R13). -/
def Unwoken (ev : EvalEvent) (s : State) : Prop := (∀ c, s.hp.hold = some c → wakes c ev = false) ∨ pathTakes s.cc = false

theorem evaluate_unwoken {ev : EvalEvent} {s : State} (h : Unwoken ev s) : evaluate ev s = s := by
  unfold evaluate
  split
  · rename_i c r rest hc _
    rcases h with h | h
    · simp [h c hc]
    · simp [h]
  · rfl

/-- During quiesce HP takes no request in STOPPED (R156). -/
theorem pathTakes_quiescing {cc : CommitControl} (hp : cc.path = .stopped) (hq : cc.quiesce ≠ none) : pathTakes cc = false := by
  cases h : cc.quiesce <;> simp_all [pathTakes]

/-- A shrinking hazard set wakes a hold on overlap alone (R13). -/
theorem wakes_hazardShrank (c : HoldCondition) : wakes c .hazardShrank = (c == .hazardOverlap) := by cases c <;> rfl

/-- A removed record wakes a COMMIT on a full queue alone (R13). -/
theorem wakes_recordRemoved (c : HoldCondition) : wakes c .recordRemoved = (c == .commitQueueFull) := by cases c <;> rfl

/-- An added cause wakes every hold but a stage wait (R14). -/
theorem wakes_causeAdded (c : HoldCondition) : wakes c .causeAdded = (c != .stageWait) := by cases c <;> rfl

theorem unwoken_hazardShrank {s : State} (h : s.hp.hold ≠ some .hazardOverlap) : Unwoken .hazardShrank s :=
  .inl fun c hc => by rw [wakes_hazardShrank]; simp only [beq_eq_false_iff_ne]; rintro rfl; exact h hc

theorem unwoken_recordRemoved {s : State} (h : s.hp.hold ≠ some .commitQueueFull) : Unwoken .recordRemoved s :=
  .inl fun c hc => by rw [wakes_recordRemoved]; simp only [beq_eq_false_iff_ne]; rintro rfl; exact h hc

/-- What an event evaluates depends on the hold, on the path and on the quiesce alone. -/
theorem Unwoken.of_same {ev : EvalEvent} {s t : State} (h : Unwoken ev s) (hh : t.hp.hold = s.hp.hold) (hp : t.cc.path = s.cc.path)
    (hq : t.cc.quiesce = s.cc.quiesce) : Unwoken ev t := by
  unfold Unwoken pathTakes at *
  rw [hh, hp, hq]
  exact h

/-! ## The head request on the read path -/

/-- A request that is sent leaves the intake queue (R132). -/
theorem sendPass_hold (r : HostRequest) {s : State} (h : (firstAbsent s.mp.records).isNone = false) : (sendPass r s).hp.hold = none := by
  cases hk : firstAbsent s.mp.records with
  | none => simp [hk] at h
  | some k =>
    simp only [sendPass, hk]
    obtain ⟨xs, ys, e, -⟩ := leaveIntake_with (joinInflight r.id (handRequest (Owner.pass k) (passKind r) r.addr.toNat r.length
      (if passKind r = .write then writeMask r else none) (if passKind r = .write then writeData r else [])
      (s.withMp { s.mp with records := s.mp.records.set k (some (newPassRecord (burst s.mg.cfg) r (passKind r))) })))
    rw [e]
    rfl

/-- A read of an OPEN tag that reaches the overlay leaves the intake queue (R131, R132). -/
theorem overlayRead_hold {r : HostRequest} {s : State} (hr : s.hp.intake.head? = some r)
    (h : (firstAbsent s.mp.records).isNone = false) : (overlayRead r s).hp.hold = none := by
  have walk := overlayWalk_frame r.addr.toNat r.length (ctxOf s r.tag).writes (List.replicate r.length none) s
  unfold overlayRead
  split
  · rename_i ov u e
    rw [e] at walk
    have port : (takeSlot r ov u).mp = s.mp := by
      rw [← walk.2.2.2.2.2.2.1]
      unfold takeSlot
      split <;> rfl
    exact sendPass_hold r (by rw [port]; exact h)
  · rename_i u e
    rw [e] at walk
    have head : u.hp.intake.head? = some r := by rw [show u.hp = s.hp from walk.2.1]; exact hr
    rw [faultGroup_answered _ _ _ head]
    exact answerHead_hold _ (by simpa using head)

/-- A request on the read path leaves, or holds on a condition of the read path and nothing else changes (R11, R12). -/
theorem passThrough_cases {r : HostRequest} {s : State} (hr : s.hp.intake.head? = some r) :
    (passThrough r s).hp.hold = none ∨
      ∃ c, c ≠ .commitQueueFull ∧ c ≠ .stageWait ∧ passThrough r s = holdHead c s := by
  unfold passThrough
  dsimp only
  split
  · exact .inl (answerHead_hold _ hr)
  · split
    · exact .inr ⟨.hazardOverlap, nofun, nofun, rfl⟩
    · split
      · exact .inr ⟨.noMergeSlot, nofun, nofun, rfl⟩
      · split
        · exact .inr ⟨.passListFull, nofun, nofun, rfl⟩
        · rename_i full
          split
          · exact .inl (overlayRead_hold hr (Bool.eq_false_of_not_eq_true full))
          · exact .inl (sendPass_hold r (Bool.eq_false_of_not_eq_true full))

theorem passThrough_hold {r : HostRequest} {s : State} (hr : s.hp.intake.head? = some r) (c : HoldCondition)
    (hc : (passThrough r s).hp.hold = some c) : c ≠ .commitQueueFull ∧ c ≠ .stageWait := by
  rcases passThrough_cases hr with h | ⟨c', h1, h2, h⟩
  · rw [h] at hc; cases hc
  · rw [h] at hc; cases hc; exact ⟨h1, h2⟩

/-- What a request evaluated on the read path has come to does not depend on the condition that it held on. -/
theorem PassEvaluated.ofHold {own : Bool} {r : HostRequest} {hp : HostPort} {mp : MemoryPort} {t : State} {h : Option HoldCondition}
    (e : PassEvaluated own r { hp with hold := h } mp t) : PassEvaluated own r hp mp t := ⟨e.1, e.2, e.3, e.4⟩

/-- It is seen from the port, the overlaps, the stop cause and the configuration. -/
theorem PassEvaluated.of_same {own : Bool} {r : HostRequest} {hp : HostPort} {mp : MemoryPort} {u t : State}
    (e : PassEvaluated own r hp mp u) (h1 : t.hp = u.hp) (h2 : t.mp = u.mp) (h3 : t.cc.stopApply = u.cc.stopApply)
    (h4 : t.mg.cfg = u.mg.cfg)
    (h5 : ∀ side, (∀ st, finished st = true → side st = false) → ∀ a n, overlapsSide side t a n = overlapsSide side u a n) :
    PassEvaluated own r hp mp t := by
  have home := h5 homeSide fun st => by cases st <;> simp [finished, homeSide]
  have all := h5 (fun st => loggingSide st || homeSide st) fun st => by cases st <;> simp [finished, homeSide, loggingSide]
  obtain ⟨e1, e2, e3, e4⟩ := e
  constructor
  · rw [home, h1, h2, h3]; exact e1
  · rw [home, all, h1, h2, h3]; exact e2
  · rw [all, h1, h2]; exact e3
  · rw [all, h1, h2, h4]; exact e4

/-! ## Removal at the head of the queue -/

/-- The state when what stands finished at the head of the queue has been removed and its spans are reclaimable (R71, R98). -/
def headsRemoved (s : State) : State :=
  (s.withCc { s.cc with queue := s.cc.queue.dropWhile fun r => finished r.state }).withLe
    (retired (ringU s) (s.cc.queue.takeWhile fun r => finished r.state) s.le)

theorem headsRemoved_nothing {s : State} (h : (s.cc.queue.takeWhile fun r => finished r.state) = []) : headsRemoved s = s := by
  have all : (s.cc.queue.dropWhile fun r => finished r.state) = s.cc.queue := by
    have := List.takeWhile_append_dropWhile (p := fun r : CommitRecord => finished r.state) (l := s.cc.queue)
    rwa [h, List.nil_append] at this
  simp only [headsRemoved, h, all, retired, List.map_nil, List.sum_nil, Nat.add_zero, if_true]
  rfl

/-- The removal, and the evaluation of a COMMIT on a full queue that follows one (R71). -/
theorem removeHeads_eq (s : State) : removeHeads s =
    if (s.cc.queue.takeWhile fun r => finished r.state) = [] then s else evaluate .recordRemoved (headsRemoved s) := by
  unfold removeHeads
  dsimp only
  by_cases h : (s.cc.queue.takeWhile fun r => finished r.state) = []
  · rw [if_pos h, if_pos (by simp [h])]
  · rw [if_neg h, if_neg (by simpa using h)]
    congr 1
    simp only [headsRemoved, retired, if_neg h]
    rfl

/-- With no COMMIT to evaluate there is the removal alone. -/
theorem removeHeads_unwoken {s : State} (h : Unwoken .recordRemoved s) : removeHeads s = headsRemoved s := by
  rw [removeHeads_eq]
  split
  · rename_i hn
    rw [headsRemoved_nothing hn]
  · exact evaluate_unwoken (h.of_same rfl rfl rfl)

/-- The log engine sees the removal alone. -/
theorem removeHeads_le (s : State) : (removeHeads s).le = (headsRemoved s).le := by
  rw [removeHeads_eq]
  split
  · rename_i hn
    rw [headsRemoved_nothing hn]
  · simp

/-- A removed record overlaps with nothing (R124). -/
theorem overlapsSide_headsRemoved {side : RecordState → Bool} (hs : ∀ st, finished st = true → side st = false) (s : State)
    (a n : Nat) : overlapsSide side (headsRemoved s) a n = overlapsSide side s a n := by
  have gone : (s.cc.queue.takeWhile fun r => finished r.state).any (fun rec => side rec.state && recordMeets s.ss a n rec) = false := by
    rw [List.any_eq_false]
    intro rec hr
    have done : finished rec.state = true := List.mem_takeWhile_imp (p := fun r : CommitRecord => finished r.state) hr
    simp [hs _ done]
  have split := List.takeWhile_append_dropWhile (p := fun r : CommitRecord => finished r.state) (l := s.cc.queue)
  have : overlapsSide side s a n = ((s.cc.queue.takeWhile fun r => finished r.state) ++
      s.cc.queue.dropWhile fun r => finished r.state).any (fun rec => side rec.state && recordMeets s.ss a n rec) := by
    rw [split]; rfl
  rw [this, List.any_append, gone, Bool.false_or]
  rfl

theorem StageTested.headsRemoved {x : Staging} {hp : HostPort} {r : HostRequest} {s t : State} (h : StageTested x hp r s t) :
    StageTested x hp r s (headsRemoved t) := ⟨h.staged, h.waits⟩

theorem PassEvaluated.headsRemoved {own : Bool} {r : HostRequest} {hp : HostPort} {mp : MemoryPort} {u : State}
    (e : PassEvaluated own r hp mp u) : PassEvaluated own r hp mp (headsRemoved u) :=
  e.of_same rfl rfl rfl rfl fun _ hs a n => overlapsSide_headsRemoved hs u a n

/-! ## A release and what follows it -/

/-- A release with nothing that waits or holds on overlap (R13, R25, R33). -/
theorem released_unwoken {ds : List Nat} {s : State} (hw : s.hp.hold ≠ some .stageWait) (hu : Unwoken .hazardShrank s) :
    evaluate .hazardShrank (releaseEvent ds s) = releaseDescs ds s := by
  rw [releaseEvent_noWait _ _ hw, evaluate_unwoken (hu.of_same (by simp) (by simp) (by simp))]

/-- A release with a request that holds on overlap (R13, R126). -/
theorem released_hazard {ds : List Nat} {s : State} {r : HostRequest} (hh : s.hp.hold = some .hazardOverlap)
    (hr : s.hp.intake.head? = some r) (hp : onReadPath r = true) (ht : pathTakes s.cc = true) :
    evaluate .hazardShrank (releaseEvent ds s) = passThrough r (releaseDescs ds s) := by
  rw [releaseEvent_noWait _ _ (by rw [hh]; nofun),
    evaluate_onReadPath (h := .hazardOverlap) (by simpa using hh) (by simpa using hr) hp rfl (by simpa using ht)]

/-- After a stage-wait test nothing holds on anything but a stage wait that goes on (R25). -/
theorem stageTest_hold {s : State} (h : s.hp.hold = some .stageWait) (c : HoldCondition) (hc : (stageTest s).hp.hold = some c) :
    c = .stageWait := by
  unfold stageTest at hc
  split at hc
  · rename_i r rest _ hi
    split at hc
    · rw [stageHead, answerHead_hold (r := r) _ (by simp [hi])] at hc
      cases hc
    · rw [h] at hc; cases hc; rfl
  · rw [h] at hc; cases hc; rfl

theorem releaseEvent_hold {ds : List Nat} {s : State} (h : s.hp.hold = some .stageWait) (c : HoldCondition)
    (hc : (releaseEvent ds s).hp.hold = some c) : c = .stageWait := by
  unfold releaseEvent at hc
  split at hc
  · rw [h] at hc; cases hc; rfl
  · exact stageTest_hold (by simpa using h) c hc

/-- A release with a write in stage wait (R25). -/
theorem released_stageWait {ds : List Nat} {s : State} (hh : s.hp.hold = some .stageWait) :
    evaluate .hazardShrank (releaseEvent ds s) = releaseEvent ds s :=
  evaluate_unwoken (unwoken_hazardShrank fun h => by cases releaseEvent_hold hh _ h)

/-- The head request, a tagged write, staged out of its stage wait (R41). -/
theorem stageHead_eq {s : State} {r : HostRequest} (hl : Live s) (hr : s.hp.intake.head? = some r) :
    stageHead r s = (stagedState r s).withHp (holdAnswered s.hp r .ok) := by
  rw [stageHead, answerHead_eq _ r _ (by simpa [Live] using hl) (by simpa using hr)]
  simp only [setCtx_frame, State.withSs_hp]
  rfl

/-- A write in stage wait has been tested after a release (R25, R33, R41). -/
theorem releaseEvent_tested {ds : List Nat} {s : State} {r : HostRequest} (hl : Live s) (hs : HoldSound s)
    (hh : s.hp.hold = some .stageWait) (hr : s.hp.intake.head? = some r) (h63 : s.gt.ctxs.length = 63) (hd : ds ≠ []) :
    StageTested (ds.foldl releaseOne s.ss) s.hp r s (releaseEvent ds s) := by
  obtain ⟨rest, hi⟩ := intake_of_head hr
  have tag : r.tag ≠ 0 := by
    obtain ⟨r', hr', -, holds⟩ := hs.head _ hh
    rw [hr] at hr'
    cases hr'
    simpa using (Bool.and_eq_true_iff.mp holds).2
  have pool : (ds.foldl releaseOne s.ss).descPool.isEmpty = false := by
    simp [(foldl_releaseOne ds s.ss).1, hd]
  have event : releaseEvent ds s = if sufficient (ds.foldl releaseOne s.ss) r.length then stageHead r (releaseDescs ds s)
      else releaseDescs ds s := by
    rw [releaseEvent, if_neg (by simpa using hd)]
    simp only [stageTest, releaseDescs_frame, hh, hi]
    rfl
  constructor
  · intro room
    have fits : sufficient (ds.foldl releaseOne s.ss) r.length = true := by simp [sufficient, pool, room]
    rw [event, if_pos fits, stageHead_eq (by simpa [Live] using hl) (by simpa using hr)]
    refine ⟨by simp, by simp [stagedState, releaseDescs], ?_⟩
    have ctx := ctxOf_setCtx ((releaseDescs ds s).withSs { allocate r (releaseDescs ds s).ss with timer := none }) r.tag r.tag
      (appendWrite (ctxOf (releaseDescs ds s) r.tag) ((releaseDescs ds s).ss.descPool.headD 0) r.length (writeMask r).isSome)
      (by simpa using h63) tag
    rw [if_pos rfl] at ctx
    exact ctx
  · intro short
    have lacks : sufficient (ds.foldl releaseOne s.ss) r.length = false := by simp [sufficient, short]
    rw [event, lacks]
    exact ⟨by simp, by simp [releaseDescs], by simp⟩

/-! ## The evaluation of a hold on overlap -/

/-- An event that reaches a hold on overlap alone changes nothing, or sends its request on the read path again (R13, R126). -/
theorem evaluate_overlap {ev : EvalEvent} {s : State} (hw : ∀ c, wakes c ev = (c == .hazardOverlap)) (hs : HoldSound s) :
    evaluate ev s = s ∨ ∃ r, s.hp.hold = some .hazardOverlap ∧ s.hp.intake.head? = some r ∧ evaluate ev s = passThrough r s := by
  by_cases hh : s.hp.hold = some .hazardOverlap
  · obtain ⟨r, hr, -, hp⟩ := hs.head _ hh
    cases ht : pathTakes s.cc with
    | false => exact .inl (evaluate_unwoken (.inr ht))
    | true => exact .inr ⟨r, hh, hr, evaluate_onReadPath hh hr hp (by rw [hw]; rfl) ht⟩
  · exact .inl (evaluate_unwoken (.inl fun c hc => by rw [hw]; simp only [beq_eq_false_iff_ne]; rintro rfl; exact hh hc))

theorem evaluate_overlap_cc {ev : EvalEvent} {s : State} (hw : ∀ c, wakes c ev = (c == .hazardOverlap)) (hs : HoldSound s) :
    (evaluate ev s).cc = s.cc := by
  rcases evaluate_overlap hw hs with h | ⟨r, -, -, h⟩ <;> simp [h]

/-- A release keeps the request that holds sound, but for a stage wait that it ends. -/
theorem releaseEvent_holdSound {ds : List Nat} {s : State} (hs : HoldSound s) (hh : s.hp.hold ≠ some .stageWait) :
    HoldSound (releaseEvent ds s) := by
  rw [releaseEvent_noWait _ _ hh]
  exact ⟨by simpa using hs.head, by simpa using hs.noneInDrain⟩

/-- What follows a release leaves the commit controller alone (R13, R25). -/
theorem released_cc {ds : List Nat} {s : State} (hs : HoldSound s) : (evaluate .hazardShrank (releaseEvent ds s)).cc = s.cc := by
  by_cases hh : s.hp.hold = some .stageWait
  · simp [released_stageWait hh]
  · rw [evaluate_overlap_cc wakes_hazardShrank (releaseEvent_holdSound hs hh)]
    simp

/-- What follows a release makes nothing hold on a full queue. -/
theorem released_hold {ds : List Nat} {s : State} (hs : HoldSound s) (hh : s.hp.hold ≠ some .commitQueueFull) :
    (evaluate .hazardShrank (releaseEvent ds s)).hp.hold ≠ some .commitQueueFull := by
  intro hc
  by_cases hw : s.hp.hold = some .stageWait
  · rw [released_stageWait hw] at hc
    cases releaseEvent_hold hw _ hc
  · have same : (releaseEvent ds s).hp = s.hp := by rw [releaseEvent_noWait _ _ hw]; simp
    rcases evaluate_overlap wakes_hazardShrank (releaseEvent_holdSound (ds := ds) hs hw) with h | ⟨r, -, hr, h⟩
    · rw [h, same] at hc; exact hh hc
    · rw [h] at hc; exact (passThrough_hold hr _ hc).1 rfl

/-- The request that held on overlap after a release: what has become of it, and that the release stands (R13, R33, R126). -/
theorem released_hazard_evaluated {ds : List Nat} {s : State} {r : HostRequest} (hl : Live s) (hs : HoldSound s)
    (hh : s.hp.hold = some .hazardOverlap) (hr : s.hp.intake.head? = some r) (ht : pathTakes s.cc = true) :
    PassEvaluated (needsSlot r s) r s.hp s.mp (evaluate .hazardShrank (releaseEvent ds s)) ∧
      (needsSlot r s = false → Released ds s (evaluate .hazardShrank (releaseEvent ds s))) := by
  obtain ⟨r', hr', sound, hp⟩ := hs.head _ hh
  rw [hr] at hr'
  cases hr'
  have sent : needsSlot r (releaseDescs ds s) = needsSlot r s := by simp [needsSlot, ctxOf]
  rw [released_hazard hh hr hp ht]
  refine ⟨?_, fun hn => ?_⟩
  · have := passThrough_evaluates r (releaseDescs ds s) (by simpa [Live] using hl) (by simpa using hr)
      (by simpa using notInFlight_of_sound sound)
    rwa [sent, (releaseDescs_frame ds s).2.1, (releaseDescs_frame ds s).2.2.2.2.2.2.1] at this
  · have only := (passThrough_evaluated r (releaseDescs ds s) (by simpa [Live] using hl) (by simpa using hr)
      (by simpa using notInFlight_of_sound sound) (sent.trans hn)).2
    have store : (passThrough r (releaseDescs ds s)).ss = (releaseDescs ds s).ss := only .ss (by decide)
    exact (released_releaseDescs ds s).of_same rfl rfl rfl rfl (by rw [store]) (by rw [store]) (by rw [store]) (by rw [store])

/-! ## Dropped records -/

/-- The state when the chosen records have been VOIDED and answered, their lists not yet released (R65, R66, R69, R70). -/
def recordsDropped (chosen : CommitRecord → Bool) (why : FailReason) (a : Answer) (s : State) : State :=
  (s.withCc { s.cc with queue := recordsVoided s.cc.queue chosen why }).withHp
    (recordsAnswered s.hp (s.cc.queue.filter chosen) a)

theorem dropRecords_eq (chosen : CommitRecord → Bool) (why : FailReason) (a : Answer) (s : State) :
    dropRecords chosen why a s = evaluate .hazardShrank
      (releaseEvent ((s.cc.queue.filter chosen).flatMap CommitRecord.writes) (recordsDropped chosen why a s)) := by
  rw [dropRecords]
  dsimp only
  rw [foldl_respondOwed]
  rfl

/-- Answered records leave the request that holds the port sound. -/
theorem holdSound_recordsDropped {chosen : CommitRecord → Bool} {why : FailReason} {a : Answer} {s : State} (hs : HoldSound s) :
    HoldSound (recordsDropped chosen why a s) where
  head c hc := by
    obtain ⟨r, hr, sound, holds⟩ := hs.head c hc
    exact ⟨r, hr, protocolError_mono (fun x hx => (List.mem_filter.mp hx).1) sound, holds⟩
  noneInDrain := hs.noneInDrain

/-- One answered record. -/
theorem recordsAnswered_one (hp : HostPort) (rec : CommitRecord) (a : Answer) :
    recordsAnswered hp [rec] a = owedAnswered hp ⟨rec.hostId, a, []⟩ := by
  simp only [recordsAnswered, owedAnswered, List.map_cons, List.map_nil, List.length_cons, List.length_nil, Nat.zero_add]
  congr 1
  apply List.filter_congr
  intro x _
  simp [bne, beq_eq_decide]

/-! ## A release and a removal -/

/-- A release and a removal with nothing that waits or is evaluated. -/
theorem releasedRemoved_unwoken {ds : List Nat} {s : State} (hw : s.hp.hold ≠ some .stageWait) (h1 : Unwoken .hazardShrank s)
    (h2 : Unwoken .recordRemoved s) :
    removeHeads (evaluate .hazardShrank (releaseEvent ds s)) = headsRemoved (releaseDescs ds s) := by
  rw [released_unwoken hw h1, removeHeads_unwoken (h2.of_same (by simp) (by simp) (by simp))]

/-- The removal that follows a release has no COMMIT to evaluate, when none held before. -/
theorem releasedRemoved_noCommit {ds : List Nat} {s : State} (hs : HoldSound s)
    (h : s.hp.hold ≠ some .commitQueueFull ∨ pathTakes s.cc = false) :
    removeHeads (evaluate .hazardShrank (releaseEvent ds s)) = headsRemoved (evaluate .hazardShrank (releaseEvent ds s)) := by
  refine removeHeads_unwoken ?_
  rcases h with h | h
  · exact unwoken_recordRemoved (released_hold hs h)
  · exact .inr (by rw [released_cc hs]; exact h)

/-- A release and a removal with a write in stage wait (R25). -/
theorem releasedRemoved_stageWait {ds : List Nat} {s : State} (hs : HoldSound s) (hh : s.hp.hold = some .stageWait) :
    removeHeads (evaluate .hazardShrank (releaseEvent ds s)) = headsRemoved (releaseEvent ds s) := by
  rw [releasedRemoved_noCommit hs (.inl (by rw [hh]; nofun)), released_stageWait hh]

/-! ## A COMMIT on a full queue -/

/-- A COMMIT that leaves the full queue is accepted (R61, R62). -/
theorem acceptCommit_eq {s : State} {r : HostRequest} (hl : Live s) (hi : r.id ∉ s.hp.inflight) :
    acceptCommit r s = ((setCtx r.tag Context.idle s).withHp (holdDispatched s.hp r)).withCc { s.cc with
      queue := s.cc.queue ++ [newRecord r (ctxOf s r.tag) s.cc.next], next := s.cc.next + 1 } := by
  rw [acceptCommit]
  dsimp only
  rw [leaveIntake_eq _ (by simpa [Live, joinInflight] using hl)]
  simp [joinInflight, hi, holdDispatched, headLeft]
  rfl

/-- A COMMIT that holds on a full queue is evaluated anew when a removal makes room in RUN (R61, R71). -/
theorem removeHeads_commit {s u : State} {r : HostRequest} (hl : Live u) (hu : HoldSound u) (hh : u.hp.hold = some .commitQueueFull)
    (hr : u.hp.intake.head? = some r) (hp : s.cc.path = .run) (hgt : u.gt = s.gt) (hmg : u.mg.cfg = s.mg.cfg)
    (hcc : u.cc = { s.cc with queue := u.cc.queue }) (hn : u.cc.queue.length = s.cc.queue.length) :
    CommitAccepted (u.cc.queue.dropWhile fun r => finished r.state) u.hp r s (removeHeads u) := by
  change (ctxOf s r.tag).state = .opened → (ctxOf s r.tag).units ≤ ringU s / 2 → _ < 32 → _ < _ → _ ∧ _
  intro opened units room shorter
  obtain ⟨rest, hi⟩ := intake_of_head hr
  obtain ⟨r', hr', sound, commit⟩ := hu.head _ hh
  rw [hr] at hr'
  cases hr'
  have gone : (u.cc.queue.takeWhile fun r => finished r.state) ≠ [] := fun h => by
    have := congrArg List.length (List.takeWhile_append_dropWhile (p := fun r : CommitRecord => finished r.state) (l := u.cc.queue))
    rw [h, List.nil_append] at this
    omega
  obtain ⟨hk, hc⟩ := isMarker_iff.mp commit
  have path : u.cc.path = .run := by rw [hcc]; exact hp
  have ctx : ctxOf (headsRemoved u) r.tag = ctxOf s r.tag := by
    change ctxOf u r.tag = _
    simp only [ctxOf, hgt]
  have head : dispatch r (headsRemoved u) = commitHead r (headsRemoved u) := by
    simp only [dispatch, classify, hk, hc]
    rw [if_neg (show ¬ (headsRemoved u).cc.path = .unconfigured from fun h => by cases path.symm.trans h)]
  have accepted : removeHeads u = acceptCommit r (headsRemoved u) := by
    rw [removeHeads_eq, if_neg gone, evaluate, show (headsRemoved u).hp = u.hp from rfl, hh, hi]
    dsimp only
    rw [if_pos (by simp [wakes, pathTakes, headsRemoved, path]), head, commitHead, ctx]
    rw [if_neg (show ¬ (headsRemoved u).cc.path = .stopped from fun h => by cases path.symm.trans h), if_neg (by rw [opened]; nofun), if_neg (by rw [opened]; nofun),
      if_neg (Nat.not_lt.mpr (by rw [show ringU (headsRemoved u) = ringU s by simp only [ringU]; rw [← hmg]; rfl]; exact units)),
      if_neg (show ¬ Config.commitRecords ≤ (headsRemoved u).cc.queue.length from Nat.not_le.mpr room)]
  rw [accepted, acceptCommit_eq (s := headsRemoved u) hl (notInFlight_of_sound sound), ctx]
  refine ⟨rfl, ?_⟩
  simp only [State.withCc_cc, headsRemoved, State.withLe_cc]
  rw [hcc]
  rfl

end Sys2Proof.Machine
end

section
/-! PROOF. The acknowledgements of the log engine's pieces: of a group's records, of its trailer (O24), and of an anchor (O26). -/

namespace Sys2Proof.Machine

/-! ## Acknowledgements -/

/-- An acknowledged write piece that is not RE's: what its owner makes of it, and what the event then leaves due (R142, R146). -/
theorem exec_acked {id : MemId} {data : List Byte} {s u : State} {p : Piece} {t0 : Option (BitVec 16)} {w : Bool} (hl : Live s)
    (hs : Quiet s ∨ Quiescing s) (he : s.mp.entries.getD id.toNat .free = .issued p t0 w) (hk : p.kind = .write)
    (ho : isRecoveryOwner p.owner = false) (hu : reportAcked p.owner (s.withMp (entryFreed s.mp id)) = u)
    (hm : u.mp.entries = (entryFreed s.mp id).entries) (hr : u.re = s.re) (hq : u.cc.quiesce = s.cc.quiesce)
    (hp : u.cc.path = s.cc.path) : exec (.memoryResponse id .ok data) s = .next (afterEvent u) := by
  rw [response_acked hl he hk, hu, settle_afterEvent hs he ho (e := .free) rfl (by rw [hm]; rfl) hr hq hp]

/-- The one LOGGING record is the one being logged (R63). -/
theorem loggingRecord_of_one {cc : CommitControl} {rec : CommitRecord} (h : (cc.queue.filter fun r => r.state == .logging) = [rec]) :
    loggingRecord cc = some rec := by
  rw [loggingRecord, ← List.head?_filter, h]
  rfl

/-- A change of the LOGGING record by its number changes the one LOGGING record. -/
theorem updateRecord_logging {s : State} {rec : CommitRecord} (h : (s.cc.queue.filter fun r => r.state == .logging) = [rec])
    (f : CommitRecord → CommitRecord) : updateRecord rec.number .logging f s =
      s.withCc { s.cc with queue := s.cc.queue.map fun r => if r.state = .logging then f r else r } := by
  have same : (s.cc.queue.map fun r => if r.number = rec.number ∧ r.state = .logging then f r else r) =
      s.cc.queue.map fun r => if r.state = .logging then f r else r := by
    refine List.map_congr_left fun r hr => ?_
    by_cases hs : r.state = .logging
    · have : r ∈ s.cc.queue.filter fun r => r.state == .logging := by simp [hr, hs]
      rw [h, List.mem_singleton] at this
      rw [this, if_pos ⟨rfl, this ▸ hs⟩, if_pos (this ▸ hs)]
    · rw [if_neg fun h => hs h.2, if_neg hs]
  rw [updateRecord, same]

/-- The path takes requests in RUN, and in STOPPED outside quiesce (R9). -/
theorem pathTakes_of {cc : CommitControl} (hq : cc.quiesce = none) (hp : cc.path = .run ∨ cc.path = .stopped) : pathTakes cc = true := by
  rcases hp with h | h <;> simp [pathTakes, h, hq]

/-! ## Trailers -/

/-- The OK trailer of the one LOGGING record `rec` is acknowledged: the state but for the evaluation that may follow (R64, R96). -/
def madeDurable (rec : CommitRecord) (sp : Span) (s : State) : State :=
  ((s.withCc { s.cc with queue := s.cc.queue.map fun r => if r.state = .logging then { r with state := .durable } else r }).withLe
    (spanConsumed (ringU s) sp s.le)).withHp (owedAnswered s.hp ⟨rec.hostId, .ok, []⟩)

theorem trailerAcked_eq {s : State} {rec : CommitRecord} {sp : Span} (h : (s.cc.queue.filter fun r => r.state == .logging) = [rec])
    (hsp : rec.span = some sp) : trailerAcked s =
      if s.cc.stopApply then evaluate .durableUnderApply (madeDurable rec sp s) else madeDurable rec sp s := by
  rw [trailerAcked, loggingRecord_of_one h]
  dsimp only
  rw [updateRecord_logging h, hsp]
  rfl

/-- The VOID trailer of the one LOGGING record is acknowledged (R65, R97). -/
theorem voidTrailerAcked_eq {s : State} {rec : CommitRecord} {sp : Span}
    (h : (s.cc.queue.filter fun r => r.state == .logging) = [rec]) (hsp : rec.span = some sp) :
    voidTrailerAcked s = removeHeads (evaluate .hazardShrank (releaseEvent rec.writes
      (recordsDropped (fun r => r.state == .logging) .integrity .voidedIntegrity (s.withLe (spanConsumed (ringU s) sp s.le))))) := by
  rw [voidTrailerAcked, loggingRecord_of_one h]
  dsimp only
  rw [dropRecords_eq, hsp]
  have list : ((advanceHead (some sp) s).cc.queue.filter fun r => r.state == .logging).flatMap CommitRecord.writes = rec.writes := by
    rw [show (advanceHead (some sp) s).cc = s.cc from rfl, h]
    simp
  rw [list]
  rfl

/-- A durable record shrinks the hazard set of a request whose cause is present: it wakes a hold on overlap alone (R126). -/
theorem wakes_durableUnderApply (c : HoldCondition) : wakes c .durableUnderApply = (c == .hazardOverlap) := by cases c <;> rfl

theorem holdSound_owedAnswered {s : State} (hs : HoldSound s) (x : Response) {u : State} (hu : u.hp = owedAnswered s.hp x)
    (hp : u.cc.path = s.cc.path) : HoldSound u where
  head c hc := by
    rw [hu] at hc ⊢
    obtain ⟨r, hr, sound, holds⟩ := hs.head c hc
    exact ⟨r, hr, protocolError_mono (fun x hx => (List.mem_filter.mp hx).1) sound, holds⟩
  noneInDrain h := by rw [hu]; exact hs.noneInDrain (by rwa [hp] at h)

/-- The handing of either trailer. -/
theorem trailer_handed (void : Bool) (s : State) (job : LogJob) (rec : CommitRecord) (hl : Live s) (hj : s.le.job = some job)
    (hr : loggingRecord s.cc = some rec) (hm : mayContinueGroup s.cc = true) (hv : job.void = void)
    (hd : void = false → job.next = .done) (hu : job.unacked = 0) (ht : job.trailer = none) :
    let bytes := trlRecord s.le.epoch rec.number (rec.count + 1) void
    let a := unitAddr s.mg.cfg (job.first + rec.units - 1)
    let ps := cutRequest (burst s.mg.cfg) (Owner.group (.trl void)) .write a bytes.length none bytes
    let job' : LogJob := { job with trailer := some void, unacked := pieceCount (burst s.mg.cfg) a bytes.length }
    exec (if void then .voidTrailerHand else .trailerHand) s =
      .next ((s.withMp (logHanded s.mp ps)).withLe { s.le with job := some job' }) := by
  intro bytes a ps job'
  rw [exec_handTrailer hl hj hr hm hv hd hu ht, handTrailer, handGroupRecord_eq _ _ _ _ _ rfl]
  simp only [State.withLe_le, State.withLe_mp, State.withLe_mg, hu, Nat.zero_add]
  rfl

/-- The acknowledgement of a piece that is not a trailer's. -/
theorem groupPiece_acked (part : LogPart) (id : MemId) (data : List Byte) (s : State) (p : Piece) (t0 : Option (BitVec 16)) (w : Bool)
    (k : Nat) (job : LogJob) (hl : Live s) (hs : Quiet s ∨ Quiescing s) (he : s.mp.entries.getD id.toNat .free = .issued p t0 w)
    (ho : p.owner = .group part k) (ht : isTrailer part = false) (hk : p.kind = .write) (hj : s.le.job = some job) :
    exec (.memoryResponse id .ok data) s = .next (afterEvent ((s.withMp (entryFreed s.mp id)).withLe { s.le with
      job := some { job with unacked := job.unacked - 1 } })) := by
  refine exec_acked hl hs he hk (by rw [ho]; rfl) ?_ rfl rfl rfl rfl
  rw [ho]
  simp only [reportAcked, groupPieceAcked, State.withMp_le, hj]
  cases part <;> simp_all [isTrailer]

/-- The acknowledgement of an OK trailer. -/
theorem trailer_acked {id : MemId} {data : List Byte} {s : State} {p : Piece} {t0 : Option (BitVec 16)} {w : Bool}
    {k : Nat} {job : LogJob} {rec : CommitRecord} {sp : Span} (hl : Live s) (hs : Quiet s ∨ Quiescing s) (hh : HoldSound s)
    (he : s.mp.entries.getD id.toNat .free = .issued p t0 w) (ho : p.owner = .group (.trl false) k) (hk : p.kind = .write)
    (hj : s.le.job = some job) (hq : (s.cc.queue.filter fun r => r.state == .logging) = [rec]) (hsp : rec.span = some sp) :
    let u := madeDurable rec sp (s.withMp (entryFreed s.mp id))
    let t := if s.cc.stopApply then evaluate .durableUnderApply u else u
    exec (.memoryResponse id .ok data) s = .next (afterEvent t) ∧ t.cc = u.cc ∧ t.le = u.le ∧
      (s.hp.hold = none ∨ s.cc.stopApply = false ∨ s.cc.quiesce ≠ none → t = u) ∧
      (∀ r, s.cc.path = .stopped → s.cc.quiesce = none → s.cc.stopApply = true → s.hp.hold = some .hazardOverlap →
        s.hp.intake.head? = some r → onReadPath r = true → PassEvaluated (needsSlot r s) r u.hp u.mp t) := by
  intro u t
  have sound : HoldSound u := holdSound_owedAnswered hh ⟨rec.hostId, .ok, []⟩ rfl rfl
  have control : t.cc = u.cc := by
    simp only [t]
    split
    · exact evaluate_overlap_cc wakes_durableUnderApply sound
    · rfl
  refine ⟨exec_acked hl hs he hk (by rw [ho]; rfl) ?_ ?_ ?_ (by rw [control]; rfl) (by rw [control]; rfl), control, ?_, fun h => ?_,
    fun r hp hn ha hz hr hread => ?_⟩
  · rw [ho]
    simp only [reportAcked, groupPieceAcked, State.withMp_le, hj]
    exact trailerAcked_eq (s := s.withMp (entryFreed s.mp id)) hq hsp
  · simp only [t]
    split
    · rw [(evaluate_kept ..).entries.1]; rfl
    · rfl
  · simp only [t]
    split <;> simp [u, madeDurable]
  · simp only [t]
    split <;> simp
  · simp only [t]
    split
    · rename_i ha
      refine evaluate_unwoken ?_
      rcases h with h | h | h
      · exact .inl fun c hc => by rw [show u.hp.hold = s.hp.hold from rfl, h] at hc; cases hc
      · rw [h] at ha; cases ha
      · rcases hs with hs | hs
        · exact absurd hs.2 h
        · exact .inr (pathTakes_quiescing hs.1 h)
    · rfl
  · have again : t = passThrough r u := by
      simp only [t, ha]
      exact evaluate_onReadPath hz hr hread (by rfl) (pathTakes_of hn (.inr hp))
    obtain ⟨r', hr', free, -⟩ := sound.head _ hz
    rw [show u.hp.intake = s.hp.intake from rfl, hr] at hr'
    cases hr'
    rw [again]
    exact passThrough_evaluates r u hl hr (notInFlight_of_sound free)

/-- The acknowledgement of a VOID trailer. -/
theorem voidTrailer_acked {id : MemId} {data : List Byte} {s : State} {p : Piece} {t0 : Option (BitVec 16)} {w : Bool}
    {k : Nat} {job : LogJob} {rec : CommitRecord} {sp : Span} (hl : Live s) (hs : Quiet s ∨ Quiescing s) (hh : HoldSound s)
    (he : s.mp.entries.getD id.toNat .free = .issued p t0 w) (ho : p.owner = .group (.trl true) k) (hk : p.kind = .write)
    (hj : s.le.job = some job) (hq : (s.cc.queue.filter fun r => r.state == .logging) = [rec]) (hsp : rec.span = some sp) :
    let u := recordsDropped (fun r => r.state == .logging) .integrity .voidedIntegrity
      ((s.withMp (entryFreed s.mp id)).withLe (spanConsumed (ringU s) sp s.le))
    let v := evaluate .hazardShrank (releaseEvent rec.writes u)
    exec (.memoryResponse id .ok data) s = .next (afterEvent (removeHeads v)) ∧ HoldSound u ∧ v.cc = u.cc := by
  intro u v
  have sound : HoldSound u := holdSound_recordsDropped ⟨hh.head, hh.noneInDrain⟩
  have control : v.cc = u.cc := released_cc sound
  have kept : ControlKept u (removeHeads v) := by
    refine ControlKept.trans (u := v) ?_ ?_
    · exact .trans (.of_same (by simp) (by simp) (by simp)) (evaluate_kept ..)
    · rw [removeHeads_eq]
      split
      · exact .of_same rfl rfl rfl
      · refine .trans (u := headsRemoved v) ⟨rfl, ⟨rfl, rfl, rfl⟩, ⟨rfl, rfl, rfl, rfl, rfl⟩, ⟨rfl, rfl⟩, ⟨rfl, rfl, rfl⟩, fun _ h => h⟩
          (evaluate_kept ..)
  refine ⟨exec_acked hl hs he hk (by rw [ho]; rfl) ?_ kept.entries.1 ?_ kept.causes.2.2 kept.path, sound, control⟩
  · rw [ho]
    simp only [reportAcked, groupPieceAcked, State.withMp_le, hj]
    exact voidTrailerAcked_eq (s := s.withMp (entryFreed s.mp id)) hq hsp
  · simp [v, u, recordsDropped]

/-- Settles O24: the handing, and the acknowledgement of a record's piece, of an OK trailer and of a VOID trailer. -/
theorem trailersAreHandedLast : Obligations.TrailersAreHandedLast := by
  refine ⟨trailer_handed, groupPiece_acked, fun void id data s p t0 w k job rec sp hl hs hh he ho hk hj hq hsp => ?_⟩
  intro mp hp durable voided left
  refine ⟨?durable, ?voided⟩
  case durable =>
    rintro rfl
    obtain ⟨step, control, log, quiet, again⟩ := trailer_acked (data := data) hl hs hh he ho hk hj hq hsp
    refine ⟨_, step, control, log, fun h => ?_, again⟩
    rw [quiet h]
    exact ⟨rfl, rfl, fun b hb => by cases b <;> simp [sameBlock, madeDurable] at hb ⊢⟩
  case voided =>
    rintro rfl
    obtain ⟨step, sound, control⟩ := voidTrailer_acked (data := data) hl hs hh he ho hk hj hq hsp
    generalize hu : recordsDropped (fun r => r.state == .logging) .integrity .voidedIntegrity
      ((s.withMp (entryFreed s.mp id)).withLe (spanConsumed (ringU s) sp s.le)) = u at step sound control
    have queue : u.cc = { s.cc with queue := voided } := by
      rw [← hu]
      simp only [recordsDropped, recordsVoided, beq_iff_eq]
      rfl
    have answered : u.hp = hp .voidedIntegrity := by
      rw [← hu]
      simp only [recordsDropped, State.withHp_hp, State.withLe_cc, State.withMp_cc, hq, recordsAnswered_one]
      rfl
    have port : u.mp = mp := by rw [← hu]; rfl
    have groups : u.gt = s.gt := by rw [← hu]; rfl
    have store : u.ss = s.ss := by rw [← hu]; rfl
    have log : u.le = spanConsumed (ringU s) sp s.le := by rw [← hu]; rfl
    have config : u.mg = s.mg := by rw [← hu]; rfl
    have live : Live u := by rw [← hu]; exact hl
    have ring : ringU u = ringU s := by simp only [ringU, config]
    have held : u.hp.hold = s.hp.hold := by rw [answered]; rfl
    have intake : u.hp.intake = s.hp.intake := by rw [answered]; rfl
    have closed (h : s.cc.quiesce ≠ none) : pathTakes u.cc = false := by
      rcases hs with hs | hs
      · exact absurd hs.2 h
      · exact pathTakes_quiescing (by rw [queue]; exact hs.1) (by rw [queue]; exact h)
    have released : Released rec.writes s (headsRemoved (releaseDescs rec.writes u)) :=
      (released_releaseDescs rec.writes u).of_same (by rw [store]) (by rw [store]) (by rw [store]) (by rw [store]) rfl rfl rfl rfl
    refine ⟨_, step, ?_, fun h => ?_, fun h => ?_, fun r hr => ⟨fun hz hn hpath => ?_, fun hw h63 hne => ?_, fun hc hrun => ?_⟩⟩
    · rw [removeHeads_le]
      simp only [headsRemoved, State.withLe_le, control, queue, ringU, evaluate_frame, releaseEvent_frame, config, log]
    · rw [releasedRemoved_noCommit sound (h.imp (fun h => by rw [held]; exact h) closed)]
      simp only [headsRemoved, State.withLe_cc, State.withCc_cc, control, queue]
      rfl
    · have unwoken : s.hp.hold ≠ some .stageWait ∧ Unwoken .hazardShrank u ∧ Unwoken .recordRemoved u := by
        rcases h with h | h | h | ⟨hq, h⟩
        case inr.inr.inr => exact ⟨h, .inr (closed hq), .inr (closed hq)⟩
        all_goals
          exact ⟨by rw [h]; nofun, unwoken_hazardShrank (by rw [held, h]; nofun), unwoken_recordRemoved (by rw [held, h]; nofun)⟩
      rw [releasedRemoved_unwoken (by rw [held]; exact unwoken.1) unwoken.2.1 unwoken.2.2]
      refine ⟨?_, ?_, released, fun b hb => ?_⟩
      · simp only [headsRemoved, State.withLe_hp, State.withCc_hp, releaseDescs_frame, answered]
      · simp only [headsRemoved, State.withLe_mp, State.withCc_mp, releaseDescs_frame, port]
      · rw [← hu]
        cases b <;> simp [sameBlock, headsRemoved, recordsDropped] at hb ⊢
    · have takes : pathTakes u.cc = true := pathTakes_of (by rw [queue]; exact hn) (by rw [queue]; exact hpath)
      obtain ⟨evaluated, rel⟩ := released_hazard_evaluated (ds := rec.writes) live sound (held.trans hz) (intake ▸ hr) takes
      have slot : needsSlot r u = needsSlot r s := by simp only [needsSlot, ctxOf, groups]
      rw [releasedRemoved_noCommit sound (.inl (by rw [held, hz]; nofun))]
      rw [slot, answered, port] at evaluated
      refine ⟨evaluated.headsRemoved, fun hns => ?_⟩
      exact (rel (slot.trans hns)).of_same (by rw [store]) (by rw [store]) (by rw [store]) (by rw [store]) rfl rfl rfl rfl
    · rw [releasedRemoved_stageWait sound (held.trans hw)]
      have tested := releaseEvent_tested live sound (held.trans hw) (intake ▸ hr) (by rw [groups]; exact h63) hne
      rw [store, answered] at tested
      have same : ctxOf u = ctxOf s := by funext t; simp only [ctxOf, groups]
      obtain ⟨staged, waits⟩ := tested.headsRemoved
      rw [same] at staged
      exact ⟨staged, fun hs => groups ▸ waits hs⟩
    · rw [released_unwoken (by rw [held, hc]; nofun) (unwoken_hazardShrank (by rw [held, hc]; nofun))]
      have accepted := removeHeads_commit (s := s) (u := releaseDescs rec.writes u) (by simpa [Live] using live)
        ⟨by simpa using sound.head, by simpa using sound.noneInDrain⟩ (by simpa [held] using hc) (by simpa [intake] using hr) hrun
        (by simpa using groups) (by simp [config]) (by simp [queue]) (by simp [queue, voided])
      simpa [queue, answered] using accepted

/-! ## Anchors -/

/-- The discard step does not come while a record is LOGGING, a request record is in use or an entry is ISSUED (R157). -/
theorem quiesceSettle_undue {u : State}
    (h : loggingRecord u.cc ≠ none ∨ u.mp.records.all Option.isNone = false ∨ issuedCount (fun _ => true) u.mp ≠ 0) :
    quiesceSettle u = u := by
  have : discardDue u = false := by
    rcases h with h | h | h
    · obtain ⟨r, hr⟩ := Option.ne_none_iff_exists'.mp h
      simp [discardDue, hr]
    · simp [discardDue, h]
    · simp [discardDue, h]
  simp [quiesceSettle, this]

/-- Settles O26: the acknowledgement, and the failure where the path is draining, quiesces or has the LOG cause. -/
theorem anchorAcknowledgementMovesTail : Obligations.AnchorAcknowledgementMovesTail := by
  refine ⟨fun id data s p t0 w a hl he ho hk ha => ?_, fun c id s p hl hf ho => ?_⟩
  · intro le
    have acked : anchorAcked (s.withMp (entryFreed s.mp id)) = (s.withLe le).withMp (entryFreed s.mp id) := by
      simp only [anchorAcked, State.withMp_le, ha]
      rfl
    have step := response_acked (data := data) hl he hk
    rw [ho, show reportAcked .anchor = anchorAcked from rfl, acked] at step
    refine ⟨⟨_, step, by rw [(settle_frame _).2.1]; rfl, by rw [settle_entries]; rfl⟩, fun hq => ?_⟩
    rw [step, settle_quiet (u := (s.withLe le).withMp (entryFreed s.mp id)) hq he (e := .free) (by rw [ho]; rfl) rfl rfl rfl rfl]
  · intro u
    obtain ⟨e, free, entries⟩ := failureMp_entries c id p s.mp
    have ⟨timer, w, he, _⟩ := hf
    have step := exec_failsForGood hl hf
    rw [ho] at step
    have stays (h : s.cc.path = .draining ∨ s.cc.quiesce.isSome ∨ s.cc.stopLog) : reportFailed .anchor (afterFailure c id p s) = u :=
      if_pos h
    refine ⟨fun hq h => ?_, fun cmd hp hc hm => ?_⟩
    · rw [step, stays (h.imp_right .inr), settle_quiet (u := u) hq he (e := e) (by rw [ho]; rfl) free ?_ rfl rfl]
      exact congrArg (List.map issuedPiece) entries
    · refine ⟨_, step, ?_, ?_, ?_, fun h => ?_⟩
      all_goals rw [stays (.inr (.inl (by rw [hc]; rfl))), settle_quiescing u ⟨hp, by change s.cc.quiesce ≠ _; rw [hc]; nofun, hm⟩]
      · exact (quiesceSettle_frame u).2.1
      · exact (quiesceSettle_head u).1
      · exact (quiesceSettle_head u).2
      · exact quiesceSettle_undue (h.imp_right (.imp_left fun h => by
          rw [← h]; exact congrArg (·.all Option.isNone) (failureMp_frame c id p s.mp).2.2.2))

end Sys2Proof.Machine
end

section
/-! PROOF. The log stop (O27): what the entry to STOPPED does, then the drop of the records, the removal and the evaluations (R13, R14,
R27, R45, R66, R71, R98, R102, R103, R153). -/

namespace Sys2Proof.Machine

/-! ## Evaluations in STOPPED -/

/-- No group is OPEN. -/
def NoneOpen (s : State) : Prop := ∀ c ∈ s.gt.ctxs, c.state ≠ .opened

theorem NoneOpen.ctxOf {s : State} (h : NoneOpen s) (t : Tag) : (ctxOf s t).state ≠ .opened := by
  unfold Machine.ctxOf
  split
  · nofun
  · rw [List.getD_eq_getElem?_getD]
    cases hc : s.gt.ctxs[t.toNat - 1]? with
    | none => nofun
    | some c => exact h c (List.mem_of_getElem? hc)

theorem NoneOpen.needsSlot {s : State} (h : NoneOpen s) (r : HostRequest) : needsSlot r s = false := by
  simp [Machine.needsSlot, h.ctxOf]

/-- A context that becomes IDLE makes none OPEN. -/
theorem NoneOpen.setCtx_idle {s : State} (h : NoneOpen s) (t : Tag) : NoneOpen (setCtx t Context.idle s) := by
  unfold setCtx
  split
  · exact h
  · intro c hc
    rcases List.mem_or_eq_of_mem_set hc with hc | rfl
    · exact h c hc
    · nofun

/-- In STOPPED an evaluation changes nothing, or sends the request on the read path, or answers a COMMIT STOPPED (R8, R13, R60). -/
theorem evaluate_stopped {ev : EvalEvent} {s : State} (hl : Live s) (hs : HoldSound s) (hp : s.cc.path = .stopped) :
    evaluate ev s = s ∨
    (∃ r, s.hp.intake.head? = some r ∧ r.id ∉ s.hp.inflight ∧ evaluate ev s = passThrough r s) ∨
    (∃ r, evaluate ev s = (if (ctxOf s r.tag).state = .faulted then setCtx r.tag Context.idle s else s).withHp
      (holdAnswered s.hp r .stopped)) := by
  by_cases hu : Unwoken ev s
  · exact .inl (evaluate_unwoken hu)
  · obtain ⟨woken, takes⟩ := not_or.mp hu
    push Not at woken
    obtain ⟨c, hc, wake⟩ := woken
    obtain ⟨r, hr, sound, holds⟩ := hs.head c hc
    have wake : wakes c ev = true := by simpa using wake
    have takes : pathTakes s.cc = true := by simpa using takes
    have read (h : onReadPath r = true) : evaluate ev s = passThrough r s := evaluate_onReadPath hc hr h wake takes
    have quiet : s.cc.quiesce = none := by simpa [pathTakes, hp] using takes
    cases c with
    | stageWait => cases wake
    | commitQueueFull => exact .inr (.inr ⟨r, evaluate_commit_stopped hl hc hr holds wake hp quiet⟩)
    | noMergeSlot =>
      exact .inr (.inl ⟨r, hr, notInFlight_of_sound sound, read (by simp [onReadPath, show isRead r = true from holds])⟩)
    | hazardOverlap | passListFull => exact .inr (.inl ⟨r, hr, notInFlight_of_sound sound, read holds⟩)

theorem evaluate_stopped_cc {ev : EvalEvent} {s : State} (hl : Live s) (hs : HoldSound s) (hp : s.cc.path = .stopped) :
    (evaluate ev s).cc = s.cc := by
  rcases evaluate_stopped hl hs hp with h | ⟨r, -, -, h⟩ | ⟨r, h⟩
  · rw [h]
  · rw [h]; simp
  · rw [h]; split <;> simp

/-- With no group OPEN it leaves the staging store alone, and no group OPEN. -/
theorem evaluate_stopped_store {ev : EvalEvent} {s : State} (hl : Live s) (hs : HoldSound s) (hp : s.cc.path = .stopped)
    (hn : NoneOpen s) : (evaluate ev s).ss = s.ss ∧ NoneOpen (evaluate ev s) := by
  rcases evaluate_stopped hl hs hp with h | ⟨r, hr, hi, h⟩ | ⟨r, h⟩
  · rw [h]; exact ⟨rfl, hn⟩
  · have only := (passThrough_evaluated r s hl hr hi (hn.needsSlot r)).2
    rw [h]
    have groups : (passThrough r s).gt = s.gt := only .gt (by decide)
    exact ⟨only .ss (by decide), by rw [NoneOpen, groups]; exact hn⟩
  · rw [h]
    split
    · exact ⟨by simp, hn.setCtx_idle r.tag⟩
    · exact ⟨rfl, hn⟩

/-! ## What drops and removals keep -/

theorem headsRemoved_kept (s : State) : ControlKept s (headsRemoved s) :=
  ⟨rfl, ⟨rfl, rfl, rfl⟩, ⟨rfl, rfl, rfl, rfl, rfl⟩, ⟨rfl, rfl⟩, ⟨rfl, rfl, rfl⟩, fun _ h => h⟩

theorem removeHeads_kept (s : State) : ControlKept s (removeHeads s) := by
  rw [removeHeads_eq]
  split
  · exact .of_same rfl rfl rfl
  · exact (headsRemoved_kept s).trans (evaluate_kept ..)

theorem dropRecords_kept (chosen : CommitRecord → Bool) (why : FailReason) (a : Answer) (s : State) :
    ControlKept s (dropRecords chosen why a s) := by
  rw [dropRecords_eq]
  refine ControlKept.trans (u := recordsDropped chosen why a s)
    ⟨rfl, ⟨rfl, rfl, rfl⟩, ⟨rfl, rfl, rfl, rfl, rfl⟩, ⟨rfl, rfl⟩, ⟨rfl, rfl, rfl⟩, fun _ h => h⟩ ?_
  exact .trans (.of_same (by simp) (by simp) (by simp)) (evaluate_kept ..)

/-! ## The drop of the records in STOPPED -/

/-- The chosen records are dropped with reason MEDIA, what stands finished at the head is removed, and when a cause was added the request
that holds the port is evaluated anew (R14, R66, R71, R103). -/
def mediaDropped (chosen : CommitRecord → Bool) (added : Bool) (s : State) : State :=
  let t := removeHeads (dropRecords chosen .media .failedMedia s)
  if added then evaluate .causeAdded t else t

section
variable {chosen : CommitRecord → Bool} {added : Bool} {s : State}

theorem mediaDropped_kept : ControlKept s (mediaDropped chosen added s) := by
  have := (dropRecords_kept chosen .media .failedMedia s).trans (removeHeads_kept _)
  unfold mediaDropped
  dsimp only
  split
  · exact this.trans (evaluate_kept ..)
  · exact this

theorem mediaDropped_engines : (mediaDropped chosen added s).ae = s.ae ∧ (mediaDropped chosen added s).re = s.re ∧
    (mediaDropped chosen added s).pf = s.pf ∧ (mediaDropped chosen added s).mg.cfg = s.mg.cfg := by
  unfold mediaDropped
  dsimp only
  split <;> simp

/-- The records have been dropped and answered, and their lists are about to be released. -/
def mediaVoided (chosen : CommitRecord → Bool) (s : State) : State := recordsDropped chosen .media .failedMedia s

theorem mediaDropped_eq : mediaDropped chosen added s =
    (let t := removeHeads (evaluate .hazardShrank (releaseEvent ((s.cc.queue.filter chosen).flatMap CommitRecord.writes)
      (mediaVoided chosen s)))
    if added then evaluate .causeAdded t else t) := by
  rw [mediaDropped, dropRecords_eq]
  rfl

theorem holdSound_mediaVoided (hs : HoldSound s) : HoldSound (mediaVoided chosen s) := holdSound_recordsDropped hs

theorem mediaDropped_le (hs : HoldSound s) : (mediaDropped chosen added s).le =
    retired (ringU s) ((recordsVoided s.cc.queue chosen .media).takeWhile fun r => finished r.state) s.le := by
  have log : (removeHeads (dropRecords chosen .media .failedMedia s)).le =
      retired (ringU s) ((recordsVoided s.cc.queue chosen .media).takeWhile fun r => finished r.state) s.le := by
    rw [removeHeads_le, dropRecords_eq]
    simp only [headsRemoved, State.withLe_le, released_cc (holdSound_recordsDropped hs), ringU, evaluate_frame, releaseEvent_frame]
    rfl
  unfold mediaDropped
  dsimp only
  split
  · rw [(evaluate_frame ..).2.1, log]
  · exact log

/-- A removal in STOPPED leaves the queue as `headsRemoved` says. -/
theorem removeHeads_stopped_cc {s : State} (hl : Live s) (hs : HoldSound s) (hp : s.cc.path = .stopped) :
    (removeHeads s).cc = (headsRemoved s).cc := by
  rw [removeHeads_eq]
  split
  · rename_i h; rw [headsRemoved_nothing h]
  · exact evaluate_stopped_cc hl ⟨hs.head, hs.noneInDrain⟩ hp

theorem live_dropRecords {why : FailReason} {a : Answer} (hl : Live s) : Live (dropRecords chosen why a s) := by
  simpa [Live, dropRecords] using hl

theorem live_removeHeads {s : State} (hl : Live s) : Live (removeHeads s) := by simpa [Live] using hl

theorem mediaDropped_cc (hc : ∀ r, chosen r = true → unansweredState r = true) (hl : Live s) (hs : HoldSound s)
    (hp : s.cc.path = .stopped) : (mediaDropped chosen added s).cc =
    { s.cc with queue := (recordsVoided s.cc.queue chosen .media).dropWhile fun r => finished r.state } := by
  have dropped := dropRecords_moves (s := s) chosen .media .failedMedia fun r _ => hc r
  have path : (dropRecords chosen .media .failedMedia s).cc.path = .stopped := dropped.path.trans hp
  have removed : (removeHeads (dropRecords chosen .media .failedMedia s)).cc =
      { s.cc with queue := (recordsVoided s.cc.queue chosen .media).dropWhile fun r => finished r.state } := by
    rw [removeHeads_stopped_cc (live_dropRecords hl) (dropped.hold hs) path, dropRecords_eq]
    simp only [headsRemoved, State.withLe_cc, State.withCc_cc, released_cc (holdSound_recordsDropped hs)]
    rfl
  unfold mediaDropped
  dsimp only
  split
  · rw [evaluate_stopped_cc (live_removeHeads (live_dropRecords hl)) ((removeHeads_moves _).hold (dropped.hold hs))
      ((removeHeads_moves _).path.trans path), removed]
  · exact removed

/-- With nothing that holds the port there are the drop, the release and the removal alone. -/
theorem mediaDropped_noHold (hh : s.hp.hold = none) : mediaDropped chosen added s =
    headsRemoved (releaseDescs ((s.cc.queue.filter chosen).flatMap CommitRecord.writes) (mediaVoided chosen s)) := by
  have none : (mediaVoided chosen s).hp.hold = none := hh
  rw [mediaDropped_eq, releasedRemoved_unwoken (by rw [none]; nofun) (unwoken_hazardShrank (by rw [none]; nofun))
    (unwoken_recordRemoved (by rw [none]; nofun))]
  dsimp only
  split
  · exact evaluate_noHold _ _ (by simpa [headsRemoved] using none)
  · rfl

theorem noneOpen_releaseEvent {ds : List Nat} (hw : s.hp.hold ≠ some .stageWait) (hn : NoneOpen s) : NoneOpen (releaseEvent ds s) := by
  rw [releaseEvent_noWait _ _ hw, NoneOpen, (releaseDescs_frame ds s).2.2.1]
  exact hn

/-- With no group OPEN and no stage wait the dropped lists alone are released, and no group is OPEN after it (R45, R66). -/
theorem mediaDropped_released (hc : ∀ r, chosen r = true → unansweredState r = true) (hl : Live s) (hs : HoldSound s)
    (hp : s.cc.path = .stopped) (hw : s.hp.hold ≠ some .stageWait) (hn : NoneOpen s) :
    Released ((s.cc.queue.filter chosen).flatMap CommitRecord.writes) s (mediaDropped chosen added s) ∧
      NoneOpen (mediaDropped chosen added s) := by
  have dropped := dropRecords_moves (s := s) chosen .media .failedMedia fun r _ => hc r
  have path : (dropRecords chosen .media .failedMedia s).cc.path = .stopped := dropped.path.trans hp
  have first : (dropRecords chosen .media .failedMedia s).ss =
        (releaseDescs ((s.cc.queue.filter chosen).flatMap CommitRecord.writes) (mediaVoided chosen s)).ss ∧
      NoneOpen (dropRecords chosen .media .failedMedia s) := by
    rw [dropRecords_eq]
    have := evaluate_stopped_store (ev := .hazardShrank) (s := releaseEvent ((s.cc.queue.filter chosen).flatMap CommitRecord.writes)
      (recordsDropped chosen .media .failedMedia s)) (by simpa [Live, recordsDropped] using hl)
      (releaseEvent_holdSound (holdSound_recordsDropped hs) hw) (by simpa [recordsDropped] using hp)
      (noneOpen_releaseEvent (s := recordsDropped chosen .media .failedMedia s) hw hn)
    refine ⟨?_, this.2⟩
    rw [this.1, releaseEvent_noWait _ _ (show (recordsDropped chosen .media .failedMedia s).hp.hold ≠ _ from hw)]
    rfl
  have second : (removeHeads (dropRecords chosen .media .failedMedia s)).ss = (dropRecords chosen .media .failedMedia s).ss ∧
      NoneOpen (removeHeads (dropRecords chosen .media .failedMedia s)) := by
    rw [removeHeads_eq]
    split
    · exact ⟨rfl, first.2⟩
    · exact evaluate_stopped_store (s := headsRemoved (dropRecords chosen .media .failedMedia s)) (live_dropRecords hl)
        ⟨(dropped.hold hs).head, (dropped.hold hs).noneInDrain⟩ path first.2
  have third : (mediaDropped chosen added s).ss = (removeHeads (dropRecords chosen .media .failedMedia s)).ss ∧
      NoneOpen (mediaDropped chosen added s) := by
    unfold mediaDropped
    dsimp only
    split
    · exact evaluate_stopped_store (live_removeHeads (live_dropRecords hl)) ((removeHeads_moves _).hold (dropped.hold hs))
        ((removeHeads_moves _).path.trans path) second.2
    · exact ⟨rfl, second.2⟩
  have store := third.1.trans (second.1.trans first.1)
  exact ⟨(released_releaseDescs _ (mediaVoided chosen s)).of_same rfl rfl rfl rfl (by rw [store]) (by rw [store]) (by rw [store])
    (by rw [store]), third.2⟩

/-- A read or an untagged write that holds the port is evaluated anew: on overlap after the release, and otherwise when a cause was
added (R13, R14). -/
theorem mediaDropped_readPath {h : HoldCondition} {r : HostRequest} (hl : Live s) (hs : HoldSound s) (hp : s.cc.path = .stopped)
    (hq : s.cc.quiesce = none) (hn : NoneOpen s) (hh : s.hp.hold = some h) (hr : s.hp.intake.head? = some r)
    (hread : onReadPath r = true) (hw : added = true ∨ h = .hazardOverlap) :
    PassEvaluated false r (mediaVoided chosen s).hp s.mp (mediaDropped chosen added s) := by
  obtain ⟨r', hr', sound, holds⟩ := hs.head h hh
  rw [hr] at hr'
  cases hr'
  have slot {z : State} (hz : z.gt = s.gt) : needsSlot r z = false := NoneOpen.needsSlot (by rw [NoneOpen, hz]; exact hn) r
  have takes : pathTakes s.cc = true := pathTakes_of hq (.inr hp)
  have free := notInFlight_of_sound (protocolError_mono (ids' := (mediaVoided chosen s).hp.inflight)
    (fun x hx => (List.mem_filter.mp hx).1) sound)
  have noCommit : h ≠ .commitQueueFull ∧ h ≠ .stageWait := by
    constructor <;> rintro rfl <;> simp [holdsRightly, isMarker, isWrite, onReadPath, isRead] at holds hread <;> simp_all
  generalize hds : (s.cc.queue.filter chosen).flatMap CommitRecord.writes = ds
  have evaluated (hz : h = .hazardOverlap) : PassEvaluated false r (mediaVoided chosen s).hp s.mp
      (evaluate .hazardShrank (releaseEvent ds (mediaVoided chosen s))) := by
    have := (released_hazard_evaluated (ds := ds) (s := mediaVoided chosen s) (r := r) hl (holdSound_mediaVoided hs) (by rw [← hz]; exact hh) hr takes).1
    rwa [slot (z := mediaVoided chosen s) rfl] at this
  have shape : (h = .hazardOverlap ∧ (evaluate .hazardShrank (releaseEvent ds (mediaVoided chosen s))).hp.hold = none) ∨
      ∃ c, c ≠ .stageWait ∧
        evaluate .hazardShrank (releaseEvent ds (mediaVoided chosen s)) = holdHead c (releaseDescs ds (mediaVoided chosen s)) := by
    by_cases hz : h = .hazardOverlap
    · rw [released_hazard (s := mediaVoided chosen s) (by rw [← hz]; exact hh) hr hread takes]
      rcases passThrough_cases (s := releaseDescs ds (mediaVoided chosen s)) (r := r) (by simpa [mediaVoided, recordsDropped, recordsAnswered] using hr) with gone | ⟨c, -, hc, stays⟩
      · exact .inl ⟨hz, gone⟩
      · exact .inr ⟨c, hc, stays⟩
    · refine .inr ⟨h, noCommit.2, ?_⟩
      have same : (mediaVoided chosen s).hp.hold = some h := hh
      rw [released_unwoken (by rw [same]; simpa using noCommit.2) (unwoken_hazardShrank (by rw [same]; simpa using hz))]
      simp only [holdHead, releaseDescs_frame, ← same]
      rfl
  rw [mediaDropped_eq, hds, releasedRemoved_noCommit (holdSound_mediaVoided hs)
    (.inl (by rw [show (mediaVoided chosen s).hp.hold = some h from hh]; simpa using noCommit.1))]
  dsimp only
  cases added with
  | false => exact (evaluated (hw.resolve_left nofun)).headsRemoved
  | true =>
    rw [if_pos rfl]
    rcases shape with ⟨hz, gone⟩ | ⟨c, hc, stays⟩
    · rw [evaluate_noHold _ _ (by exact gone)]
      exact (evaluated hz).headsRemoved
    · generalize hy : headsRemoved (holdHead c (releaseDescs ds (mediaVoided chosen s))) = y
      have port : y.hp = { (mediaVoided chosen s).hp with hold := some c } := by
        rw [← hy]; simp [headsRemoved, holdHead]
      have mem : y.mp = s.mp := by rw [← hy]; simp [headsRemoved, holdHead, mediaVoided, recordsDropped]
      have control : y.cc.path = s.cc.path ∧ y.cc.quiesce = s.cc.quiesce := by
        rw [← hy]; simp [headsRemoved, holdHead, mediaVoided, recordsDropped]
      have groups : y.gt = s.gt := by rw [← hy]; simp [headsRemoved, holdHead, mediaVoided, recordsDropped]
      have live : Live y := by rw [← hy]; simpa [Live, headsRemoved, holdHead, mediaVoided, recordsDropped] using hl
      have head : y.hp.intake.head? = some r := by rw [port]; exact hr
      rw [stays, hy, evaluate_onReadPath (h := c) (by rw [port]) head hread (by rw [wakes_causeAdded]; simpa using hc)
        (pathTakes_of (by rw [control.2]; exact hq) (.inr (by rw [control.1]; exact hp)))]
      have := (passThrough_evaluated r y live head (by rw [port]; exact free) (slot groups)).1
      rw [port, mem] at this
      exact this.ofHold

/-- A COMMIT on a full queue is answered STOPPED, after the removal or at the added cause (R14, R71). -/
theorem mediaDropped_commit {r : HostRequest} (hl : Live s) (hs : HoldSound s) (hp : s.cc.path = .stopped)
    (hq : s.cc.quiesce = none) (hh : s.hp.hold = some .commitQueueFull) (hr : s.hp.intake.head? = some r) :
    let u := headsRemoved (releaseDescs ((s.cc.queue.filter chosen).flatMap CommitRecord.writes) (mediaVoided chosen s))
    mediaDropped chosen true s = (if (ctxOf s r.tag).state = .faulted then setCtx r.tag Context.idle u else u).withHp
      (holdAnswered (mediaVoided chosen s).hp r .stopped) := by
  intro u
  obtain ⟨r', hr', -, commit⟩ := hs.head _ hh
  rw [hr] at hr'
  cases hr'
  have port : u.hp = (mediaVoided chosen s).hp := by simp [u, headsRemoved]
  have groups : u.gt = s.gt := by simp [u, headsRemoved, mediaVoided, recordsDropped]
  have ctx : ctxOf u r.tag = ctxOf s r.tag := by simp only [ctxOf, groups]
  have answered (ev : EvalEvent) (hw : wakes .commitQueueFull ev = true) : evaluate ev u =
      (if (ctxOf s r.tag).state = .faulted then setCtx r.tag Context.idle u else u).withHp
        (holdAnswered (mediaVoided chosen s).hp r .stopped) := by
    rw [evaluate_commit_stopped (r := r) (by simpa [Live, u, headsRemoved, mediaVoided, recordsDropped] using hl) (by rw [port]; exact hh)
      (by rw [port]; exact hr) commit hw (by simpa [u, headsRemoved, mediaVoided, recordsDropped] using hp)
      (by simpa [u, headsRemoved, mediaVoided, recordsDropped] using hq), ctx, port]
  have waits : (mediaVoided chosen s).hp.hold = some .commitQueueFull := hh
  rw [mediaDropped_eq, released_unwoken (by rw [waits]; nofun) (unwoken_hazardShrank (by rw [waits]; nofun)), removeHeads_eq]
  dsimp only
  rw [if_pos rfl]
  split
  · rename_i nothing
    rw [← headsRemoved_nothing nothing]
    exact answered .causeAdded rfl
  · rw [show headsRemoved (releaseDescs _ (mediaVoided chosen s)) = u from rfl, answered .recordRemoved rfl]
    exact evaluate_noHold _ _ rfl

end

end Sys2Proof.Machine
end

section
/-! PROOF. The log stop in RUN and STOPPED, in quiesce and in DRAINING (O27). -/

namespace Sys2Proof.Machine

/-! ## The entry to STOPPED -/

/-- What the entry to STOPPED from RUN does: it ends a stage wait NOLOG, faults the OPEN groups and releases their lists (R27, R45). -/
structure PathStopped (cc : CommitControl) (s t : State) : Prop where
  control : t.cc = cc
  engines : t.le = s.le ∧ t.ae = s.ae ∧ t.mp = s.mp ∧ t.re = s.re ∧ t.pf = s.pf ∧ t.mg = s.mg
  noneOpen : NoneOpen t
  released : Released (openLists s) s t
  noWait : t.hp.hold ≠ some .stageWait
  port : s.hp.hold ≠ some .stageWait → t.hp = s.hp
  waited : ∀ r, s.hp.hold = some .stageWait → s.hp.intake.head? = some r → t.hp = holdAnswered s.hp r .nolog ∧ t.ss.timer = none

/-- A stage wait ends with an answer (R27). -/
theorem endStageWait_eq {s : State} {r : HostRequest} (a : Answer) (hl : Live s) (hh : s.hp.hold = some .stageWait)
    (hr : s.hp.intake.head? = some r) :
    endStageWait a s = (s.withSs { s.ss with timer := none }).withHp (holdAnswered s.hp r a) := by
  rw [endStageWait, if_pos hh, answerHead_eq (s.withSs { s.ss with timer := none }) r a (by simpa [Live] using hl) hr]
  rfl

/-- With no stage wait the OPEN lists are released and nothing else changes but their contexts (R45). -/
theorem faultOpenGroups_noWait {s : State} (h : s.hp.hold ≠ some .stageWait) : faultOpenGroups s = releaseDescs (openLists s)
    (s.withGt ⟨s.gt.ctxs.map fun c => if c.state = .opened then Context.faulted .stopped else c⟩) :=
  releaseEvent_noWait _ _ h

theorem enterStopped_stopped {s : State} {cc : CommitControl} (hl : Live s) (hs : HoldSound s) :
    PathStopped { cc with path := .stopped } s (enterStopped (s.withCc cc)) := by
  have ended : ∃ hp ss, endStageWait .nolog (s.withCc { cc with path := .stopped }) = ((s.withCc { cc with path := .stopped }).withSs ss).withHp hp ∧
      hp.hold ≠ some .stageWait ∧ ss = { s.ss with timer := ss.timer } ∧ (s.hp.hold ≠ some .stageWait → hp = s.hp) ∧
      (∀ r, s.hp.hold = some .stageWait → s.hp.intake.head? = some r → hp = holdAnswered s.hp r .nolog ∧ ss.timer = none) := by
    by_cases hh : s.hp.hold = some .stageWait
    · obtain ⟨r, hr, -⟩ := hs.head _ hh
      refine ⟨holdAnswered s.hp r .nolog, { s.ss with timer := none }, endStageWait_eq (s := s.withCc _) .nolog hl hh hr, nofun, rfl, fun h => absurd hh h,
        fun r' _ hr' => ?_⟩
      rw [hr] at hr'
      cases hr'
      exact ⟨rfl, rfl⟩
    · refine ⟨s.hp, s.ss, if_neg hh, hh, rfl, fun _ => rfl, fun r h => absurd h hh⟩
  obtain ⟨hp, ss, ended, noWait, same, port, waited⟩ := ended
  have stopped : enterStopped (s.withCc cc) = releaseDescs (openLists s) ((((s.withCc { cc with path := .stopped }).withSs ss).withHp hp).withGt
      ⟨s.gt.ctxs.map fun c => if c.state = .opened then Context.faulted .stopped else c⟩) := by
    rw [enterStopped]
    change faultOpenGroups (endStageWait .nolog (s.withCc { cc with path := .stopped })) = _
    rw [ended, faultOpenGroups_noWait noWait]
    rfl
  rw [stopped]
  constructor
  · simp
  · simp
  · intro c hc
    simp only [releaseDescs_frame, State.withGt_gt, List.mem_map] at hc
    obtain ⟨d, -, rfl⟩ := hc
    split
    · nofun
    · assumption
  · exact (released_releaseDescs _ _).of_same (by rw [State.withGt_ss, State.withHp_ss, State.withSs_ss, same])
      (by rw [State.withGt_ss, State.withHp_ss, State.withSs_ss, same]) (by rw [State.withGt_ss, State.withHp_ss, State.withSs_ss, same])
      (by rw [State.withGt_ss, State.withHp_ss, State.withSs_ss, same]) rfl rfl rfl rfl
  · simpa using noWait
  · simpa using port
  · intro r h1 h2
    obtain ⟨h3, h4⟩ := waited r h1 h2
    exact ⟨by simpa using h3, by simpa [releaseDescs, foldl_releaseOne] using h4⟩

/-! ## The added LOG cause -/

/-- The LOG cause has been added to `s`, and LE has given the group up or not, as the log engine and the memory port say: the records
are about to be dropped (R45, R102, R103, R153). -/
structure LogStopBegun (le : LogEngine) (mp : MemoryPort) (s t : State) : Prop where
  control : t.cc = { s.cc with path := .stopped, stopLog := true }
  parts : t.le = le ∧ t.mp = mp ∧ t.ae = s.ae ∧ t.re = s.re ∧ t.pf = s.pf ∧ t.mg.cfg = s.mg.cfg
  cause : s.cc.stopLog = false → causeIn .stopLog t.mg.causes = true
  lines : ∀ c, causeIn c s.mg.causes = true → causeIn c t.mg.causes = true
  sound : HoldSound t
  noneOpen : s.cc.path = .run → NoneOpen t ∧ Released (openLists s) s t ∧ t.hp.hold ≠ some .stageWait
  stopped : s.cc.path = .stopped → t.hp = s.hp ∧ t.ss = s.ss ∧ t.gt = s.gt
  port : s.hp.hold ≠ some .stageWait → t.hp = s.hp
  waited : s.cc.path = .run → ∀ r, s.hp.hold = some .stageWait → s.hp.intake.head? = some r →
    t.hp = holdAnswered s.hp r .nolog ∧ t.ss.timer = none

theorem setCause_causeIn (c : Cause) (s : State) : causeIn c (setCause c s).mg.causes = true := by
  cases c <;> simp [setCause, causeIn, causeBit]

theorem addLogCause_begun {s : State} (hl : Live s) (hs : HoldSound s) (hp : s.cc.path = .run ∨ s.cc.path = .stopped) :
    LogStopBegun s.le s.mp s (addLogCause s) := by
  have sound : HoldSound (addLogCause s) := (addLogCause_reports s).hold hs
  rcases hp with hp | hp
  · have entered := enterStopped_stopped (cc := { s.cc with stopLog := true }) hl hs
    have added : addLogCause s = setCause .stopLog (enterStopped (s.withCc { s.cc with stopLog := true })) := by
      simp only [addLogCause, hp]
    rw [added] at sound ⊢
    obtain ⟨control, ⟨h1, h2, h3, h4, h5, h6⟩, open', rel, noWait, port, waited⟩ := entered
    exact ⟨by rw [(setCause_frame ..).2.2.2.2.1, control], ⟨h1, h3, h2, h4, h5, by simp⟩,
      fun _ => setCause_causeIn .stopLog _, fun c hc => causeIn_mono c _ _ hc _ (by rw [h6]), sound,
      fun _ => ⟨by simpa [NoneOpen] using open', rel.of_same rfl rfl rfl rfl rfl rfl rfl rfl, noWait⟩,
      fun h => absurd (hp.symm.trans h) nofun, port, fun _ => waited⟩
  · have control : (addLogCause s).cc = { s.cc with path := .stopped, stopLog := true } := by
      simp only [addLogCause, hp]
      split
      · rename_i hc
        cases hcc : s.cc
        simp_all
      · simp [← hp]
    have port : (addLogCause s).hp = s.hp ∧ (addLogCause s).ss = s.ss ∧ (addLogCause s).gt = s.gt := by
      simp only [addLogCause, hp]
      split <;> exact ⟨rfl, rfl, rfl⟩
    refine ⟨control, by simp, fun hc => ?_, fun c hc => ?_, sound, fun h => absurd (hp.symm.trans h) nofun, fun _ => port, fun _ => port.1,
      fun h => absurd (hp.symm.trans h) nofun⟩
    · simp only [addLogCause, hp]
      rw [if_neg (by rw [hc]; nofun)]
      exact setCause_causeIn .stopLog _
    · simp only [addLogCause, hp]
      split
      · exact hc
      · exact causeIn_mono c _ _ hc _ rfl

/-- LE gives the group up (R102). -/
theorem LogStopBegun.givesUp {le : LogEngine} {mp : MemoryPort} {s t : State} (h : LogStopBegun le mp s t) (sp : Span) :
    LogStopBegun (spanConsumed (ringU s) sp le) (withdrawnMp isGroupOwner mp) s
      (advanceHead (some sp) (withdrawRequests isGroupOwner t)) := by
  obtain ⟨control, ⟨h1, h2, h3, h4, h5, h6⟩, cause, lines, sound, noneOpen, stopped, port, waited⟩ := h
  refine ⟨control, ⟨?_, ?_, h3, h4, h5, h6⟩, cause, lines, ⟨sound.head, sound.noneInDrain⟩, fun hr => ?_, stopped, port, waited⟩
  · simp only [advanceHead, ringU, State.withLe_le, withdrawRequests, State.withMp_le, State.withMp_mg, h1, h6]
    rfl
  · rw [← h2]; rfl
  · obtain ⟨none, rel, noWait⟩ := noneOpen hr
    exact ⟨none, rel.of_same rfl rfl rfl rfl rfl rfl rfl rfl, noWait⟩

/-- The context of a tag that becomes IDLE when it was FAULTED, and is not OPEN, is IDLE. -/
theorem ctxOf_idled {s u : State} {t : Tag} (hu : u.gt = s.gt) (h : (ctxOf s t).state ≠ .opened) (hp : HostPort) :
    (ctxOf ((if (ctxOf s t).state = .faulted then setCtx t Context.idle u else u).withHp hp) t).state = .idle := by
  change (ctxOf (if (ctxOf s t).state = .faulted then setCtx t Context.idle u else u) t).state = .idle
  have same : ctxOf u t = ctxOf s t := by simp only [ctxOf, hu]
  split
  · rename_i hf
    simp only [ctxOf, setCtx]
    by_cases h0 : t = 0
    · simp [h0, Context.idle]
    · simp only [if_neg h0, State.withGt_gt, List.getD_eq_getElem?_getD, List.getElem?_set]
      rw [if_pos trivial]
      split <;> rfl
  · rename_i hf
    rw [same]
    cases hc : (ctxOf s t).state <;> simp_all

/-- No request of the read path is in stage wait (R12). -/
theorem notWaiting_onReadPath {s : State} {r : HostRequest} (hs : HoldSound s) (hw : s.hp.hold = some .stageWait)
    (hi : s.hp.intake.head? = some r) (hr : onReadPath r = true) : False := by
  obtain ⟨r', hr', -, holds⟩ := hs.head _ hw
  rw [hi] at hr'
  cases hr'
  obtain ⟨kind, tag⟩ : r.kind = .write ∧ r.tag ≠ 0 := by simpa [holdsRightly, isWrite] using holds
  exact tag (by simpa [onReadPath, isRead, isWrite, kind] using hr)

theorem LogStopBegun.logStopped {chosen : CommitRecord → Bool} {le : LogEngine} {mp : MemoryPort} {s t : State}
    (h : LogStopBegun le mp s t) (hl : Live s) (hs : HoldSound s) (hp : s.cc.path = .run ∨ s.cc.path = .stopped)
    (hq : s.cc.quiesce = none)
    (hc : ∀ r, chosen r = true → unansweredState r = true) :
    LogStopped chosen le mp s (mediaDropped chosen (!s.cc.stopLog) t) := by
  obtain ⟨control, ⟨hle, hmp, hae, hre, hpf, hcfg⟩, cause, lines, sound, noneOpen, stopped, port, waited⟩ := h
  have live : Live t := by rw [Live, hpf]; exact hl
  have path : t.cc.path = .stopped := by rw [control]
  have quiet : t.cc.quiesce = none := by rw [control]; exact hq
  have queue : t.cc.queue = s.cc.queue := by rw [control]
  have ring : ringU t = ringU s := by simp only [ringU, hcfg]
  have kept := mediaDropped_kept (chosen := chosen) (added := !s.cc.stopLog) (s := t)
  have engines := mediaDropped_engines (chosen := chosen) (added := !s.cc.stopLog) (s := t)
  have voided : (mediaVoided chosen t).hp = recordsAnswered t.hp (s.cc.queue.filter chosen) .failedMedia := by
    rw [← queue]; rfl
  have quietly (hn : t.hp.hold = none) : (mediaDropped chosen (!s.cc.stopLog) t).hp = recordsAnswered t.hp (s.cc.queue.filter chosen) .failedMedia ∧
      (mediaDropped chosen (!s.cc.stopLog) t).mp = mp ∧ (mediaDropped chosen (!s.cc.stopLog) t).ss.timer = t.ss.timer := by
    rw [mediaDropped_noHold hn, ← voided, ← hmp]
    simp [headsRemoved, mediaVoided, recordsDropped, releaseDescs, foldl_releaseOne]
  constructor
  · rw [mediaDropped_cc hc live sound path, control]
  · exact fun h => kept.lines _ (cause h)
  · rw [mediaDropped_le sound, ring, queue, hle]
  · exact ⟨engines.1.trans hae, engines.2.1.trans hre, engines.2.2.1.trans hpf⟩
  · exact hmp ▸ ⟨kept.ready.1, kept.ready.2, kept.entries⟩
  · intro hr
    obtain ⟨none, rel, noWait⟩ := noneOpen hr
    have dropped := mediaDropped_released (added := !s.cc.stopLog) hc live sound path noWait none
    rw [queue] at dropped
    exact ⟨dropped.2, rel.trans dropped.1⟩
  · intro hp hw hn
    obtain ⟨h1, h2, h3⟩ := stopped hp
    have dropped := mediaDropped_released (added := !s.cc.stopLog) hc live sound path (by rw [h1]; exact hw) (by rw [NoneOpen, h3]; exact hn)
    rw [queue] at dropped
    exact dropped.1.of_same (by rw [h2]) (by rw [h2]) (by rw [h2]) (by rw [h2]) rfl rfl rfl rfl
  · intro hn
    have same := port (by rw [hn]; nofun)
    have := quietly (by rw [same]; exact hn)
    rw [same] at this
    exact ⟨this.1, this.2.1⟩
  · intro r hr hw hi
    obtain ⟨same, timer⟩ := waited hr r hw hi
    have := quietly (by rw [same]; rfl)
    rw [same, timer] at this
    exact this
  · intro r hr hlog hh hi
    have same := port (by rw [hh]; nofun)
    have := mediaDropped_commit (chosen := chosen) (r := r) live sound path quiet (by rw [same]; exact hh) (by rw [same]; exact hi)
    rw [hlog, show (!false) = true from rfl, this, voided, same]
    refine ⟨rfl, ?_, ?_⟩
    · exact ctxOf_idled (by simp [headsRemoved, mediaVoided, recordsDropped]) ((noneOpen hr).1.ctxOf r.tag) _
    · rw [← hmp]
      split <;> simp [headsRemoved, mediaVoided, recordsDropped]
  · intro h r hh hi hread hopen hadded
    have notWait : s.hp.hold ≠ some .stageWait := fun hw => notWaiting_onReadPath hs hw hi hread
    have same := port notWait
    have none : NoneOpen t := by
      rcases hopen with hr | hn
      · exact (noneOpen hr).1
      · rcases hp with hr | hr
        · exact (noneOpen hr).1
        · rw [NoneOpen, (stopped hr).2.2]; exact hn
    have := mediaDropped_readPath (chosen := chosen) (added := !s.cc.stopLog) (h := h) (r := r) live sound path quiet none
      (by rw [same]; exact hh) (by rw [same]; exact hi) hread (hadded.imp_left fun h => by rw [h]; rfl)
    rw [voided, same, hmp] at this
    exact this

/-! ## The stop by a failure -/

/-- The records that a log stop drops: the QUEUED ones outside DRAINING, and the LOGGING one when LE gives the group up (R66, R103). -/
def stopDrops (giveUp draining : Bool) (r : CommitRecord) : Bool :=
  (giveUp && r.state == .logging) || (!draining && r.state == .queued)

theorem logStop_eq (giveUp : Bool) (s : State) : logStop giveUp s =
    mediaDropped (stopDrops giveUp (s.cc.path == .draining)) (!(s.cc.stopLog || s.cc.path == .draining))
      (if giveUp then advanceHead ((loggingRecord (addLogCause s).cc).bind CommitRecord.span)
        (withdrawRequests isGroupOwner (addLogCause s)) else addLogCause s) := by
  unfold logStop mediaDropped
  dsimp only
  cases s.cc.stopLog || s.cc.path == .draining <;> rfl

/-- A log stop that gives the group up, in RUN and STOPPED. -/
theorem LogStopBegun.giveUp {s : State} {le : LogEngine} {mp : MemoryPort} {v : State} {rec : CommitRecord} {sp : Span}
    (h : LogStopBegun le mp s (addLogCause v)) (hc : v.cc = s.cc) (hp : s.cc.path = .run ∨ s.cc.path = .stopped)
    (hr : (s.cc.queue.filter fun r => r.state == .logging) = [rec]) (hsp : rec.span = some sp) :
    ∃ w, LogStopBegun (spanConsumed (ringU s) sp le) (withdrawnMp isGroupOwner mp) s w ∧
      logStop true v = mediaDropped (fun r => r.state == .logging || r.state == .queued) (!s.cc.stopLog) w ∧
      w.mg = (addLogCause v).mg := by
  refine ⟨_, h.givesUp sp, ?_, rfl⟩
  have record : loggingRecord (addLogCause v).cc = some rec := loggingRecord_of_one (by rw [h.control]; exact hr)
  have path : (s.cc.path == .draining) = false := by rcases hp with hp | hp <;> simp [hp]
  rw [logStop_eq, if_pos rfl, record, hc, path]
  simp only [Bool.or_false, Option.bind_some, hsp]
  rfl

/-- A log stop that leaves the group alone, in RUN and STOPPED. -/
theorem logStop_goesOn {s v : State} (hc : v.cc = s.cc) (hp : s.cc.path = .run ∨ s.cc.path = .stopped) :
    logStop false v = mediaDropped (fun r => r.state == .queued) (!s.cc.stopLog) (addLogCause v) := by
  have path : (s.cc.path == .draining) = false := by rcases hp with hp | hp <;> simp [hp]
  rw [logStop_eq, hc, path]
  simp only [Bool.or_false]
  rfl

/-- A failed attempt comes before the stop and changes the memory port and a cause. -/
theorem addLogCause_afterFailure {c : Instr} {id : MemId} {p : Piece} {s : State} (le : LogEngine) (hl : Live s) (hs : HoldSound s)
    (hp : s.cc.path = .run ∨ s.cc.path = .stopped) :
    LogStopBegun le (failureMp c id p s.mp) s (addLogCause ((afterFailure c id p s).withLe le)) ∧
      (c = .responseTimeout id → causeIn .orphan (addLogCause ((afterFailure c id p s).withLe le)).mg.causes = true) := by
  obtain ⟨control, ⟨h1, h2, h3, h4, h5, h6⟩, cause, lines, sound, noneOpen, stopped, port, waited⟩ :=
    addLogCause_begun (s := (afterFailure c id p s).withLe le) hl ⟨hs.head, hs.noneInDrain⟩ hp
  refine ⟨⟨control, ⟨h1, h2, h3, h4, h5, h6.trans (failureMg_cfg ..)⟩, cause, fun d hd => lines d ?_, sound, fun hr => ?_, stopped, port,
    waited⟩, fun hto => lines _ (failureMg_orphan c id s.mg hto)⟩
  · by_cases h : d = .orphan
    · subst h
      change causeIn .orphan (failureMg c id s.mg).causes = true
      unfold failureMg
      split
      · simp [causeIn, causeBit]
      · exact hd
    · exact (failureMg_mono c id s.mg d h).trans hd
  · obtain ⟨none, rel, noWait⟩ := noneOpen hr
    exact ⟨none, rel.of_same rfl rfl rfl rfl rfl rfl rfl rfl, noWait⟩

/-- What a stop in RUN or STOPPED leaves settles to itself. -/
theorem settle_stopped {s t : State} (hc : t.cc.path = .stopped) (hq : t.cc.quiesce = none) (hr : t.re = s.re)
    (hm : s.re.mode ≠ .ending) : settle t = t :=
  settle_settled t ⟨by rw [hr]; exact hm, hq, by rw [hc]; nofun⟩

/-- With nothing that waits and HP taking no requests there are the drop, the release and the removal alone. -/
theorem mediaDropped_closed {chosen : CommitRecord → Bool} {added : Bool} {s : State} (hw : s.hp.hold ≠ some .stageWait)
    (ht : pathTakes s.cc = false) : mediaDropped chosen added s =
      headsRemoved (releaseDescs ((s.cc.queue.filter chosen).flatMap CommitRecord.writes) (mediaVoided chosen s)) := by
  rw [mediaDropped_eq, releasedRemoved_unwoken (s := mediaVoided chosen s) hw (.inr ht) (.inr ht)]
  dsimp only
  split
  · exact evaluate_unwoken (.inr (by simpa [pathTakes, headsRemoved, mediaVoided, recordsDropped] using ht))
  · rfl

/-- No record that was dropped is left waiting for its answer. -/
theorem unanswered_voided {queue : List CommitRecord} {r : CommitRecord}
    (h : r ∈ (recordsVoided queue (fun r => r.state == .logging || r.state == .queued) .media).dropWhile fun r => finished r.state) :
    r.state ≠ .queued ∧ r.state ≠ .logging := by
  obtain ⟨x, -, rfl⟩ := List.mem_map.mp ((List.dropWhile_sublist _).mem h)
  by_cases hx : x.state = .logging ∨ x.state = .queued
  · rw [if_pos (by simpa using hx)]
    exact ⟨nofun, nofun⟩
  · rw [if_neg (by simpa using hx)]
    exact ⟨fun h => hx (.inr h), fun h => hx (.inl h)⟩

/-- A mark of withdrawal leaves an issued piece issued (R148). -/
theorem issuedPiece_markWithdrawn (sel : Owner → Bool) : issuedPiece ∘ markWithdrawn sel = issuedPiece := by
  funext e
  cases e <;> rfl

/-- In STOPPED the LOG cause sets STOP_LOG when it was absent (R153). -/
theorem addLogCause_stopLog {c : Instr} {id : MemId} {p : Piece} {s : State} {le : LogEngine} (hp : s.cc.path = .stopped) :
    causeIn .stopLog (addLogCause ((afterFailure c id p s).withLe le)).mg.causes =
      (causeIn .stopLog s.mg.causes || !s.cc.stopLog) := by
  have before : causeIn .stopLog ((afterFailure c id p s).withLe le).mg.causes = causeIn .stopLog s.mg.causes :=
    failureMg_mono c id s.mg .stopLog nofun
  simp only [addLogCause]
  rw [show ((afterFailure c id p s).withLe le).cc = s.cc from rfl, hp]
  dsimp only
  cases hc : s.cc.stopLog with
  | true => rw [if_pos rfl, before]; simp
  | false => rw [if_neg nofun, setCause_causeIn]; simp

/-- The discard step answers no record when none waits for its answer (R73, R157). -/
theorem quiesceSettle_responses {s : State} (h : ∀ r ∈ s.cc.queue, r.state ≠ .queued ∧ r.state ≠ .logging) :
    (quiesceSettle s).hp.responses = s.hp.responses := by
  have none : unanswered s.cc = [] := by
    rw [unanswered, List.filter_eq_nil_iff]
    intro r hr
    obtain ⟨h1, h2⟩ := h r hr
    simp [h1, h2]
  unfold quiesceSettle
  split
  · split
    · simp [discard, none]
    · rfl
  · rfl

/-- Nor does it come while an anchor is in flight (R157). -/
theorem quiesceSettle_anchored {s : State} (h : s.le.anchor ≠ none) : quiesceSettle s = s := by
  obtain ⟨a, ha⟩ := Option.ne_none_iff_exists'.mp h
  simp [quiesceSettle, discardDue, ha]

section
variable {c : Instr} {id : MemId} {s : State} {p : Piece} {part : LogPart} {k : Nat} {job : LogJob} {rec : CommitRecord} {sp : Span}

/-- A piece of the group that fails before its trailer is handed, or the trailer's, makes LE give the group up (R102). -/
theorem exec_groupFailed (hl : Live s) (hf : FailsForGood c id s p) (ho : p.owner = .group part k) (hj : s.le.job = some job)
    (ht : job.trailer = none ∨ isTrailer part = true) :
    exec c s = .next (settle (logStop true ((afterFailure c id p s).withLe s.le))) := by
  rw [exec_failsForGood hl hf, ho]
  have gives : (isTrailer part || job.trailer.isNone) = true := by rcases ht with h | h <;> simp [h]
  change Host.Outcome.next (settle (groupPieceFailed (isTrailer part) (afterFailure c id p s))) = _
  rw [groupPieceFailed, show (afterFailure c id p s).le = s.le from rfl, hj]
  dsimp only
  rw [gives]
  rfl

/-- In RUN and STOPPED. -/
theorem groupFailed_stops (hl : Live s) (hs : HoldSound s) (hf : FailsForGood c id s p) (ho : p.owner = .group part k)
    (hj : s.le.job = some job) (ht : job.trailer = none ∨ isTrailer part = true)
    (hr : (s.cc.queue.filter fun r => r.state == .logging) = [rec]) (hsp : rec.span = some sp)
    (hp : s.cc.path = .run ∨ s.cc.path = .stopped) (hq : s.cc.quiesce = none) (hm : s.re.mode ≠ .ending) :
    ∃ t, exec c s = .next t ∧
      LogStopped (fun r => r.state == .logging || r.state == .queued) (spanConsumed (ringU s) sp s.le)
        (withdrawnMp isGroupOwner (failureMp c id p s.mp)) s t ∧
      (∀ r ∈ t.cc.queue, r.state ≠ .queued ∧ r.state ≠ .logging) ∧
      (c = .responseTimeout id → causeIn .orphan t.mg.causes = true) := by
  obtain ⟨begun, orphan⟩ := addLogCause_afterFailure (c := c) (id := id) (p := p) s.le hl hs hp
  obtain ⟨w, begun', stop, causes⟩ := begun.giveUp rfl hp hr hsp
  have stopped := begun'.logStopped (chosen := fun r => r.state == .logging || r.state == .queued) hl hs hp hq
    (fun r h => by simpa [unansweredState, or_comm] using h)
  refine ⟨_, ?_, stopped, fun r h => ?_, fun hto => ?_⟩
  · rw [exec_groupFailed hl hf ho hj ht, stop, settle_stopped (s := s) (by rw [stopped.control]) (by rw [stopped.control]; exact hq)
      stopped.engines.2.1 hm]
  · rw [stopped.control] at h
    exact unanswered_voided h
  · exact mediaDropped_kept.lines _ (by rw [causes]; exact orphan hto)

/-- During quiesce. -/
theorem groupFailed_quiesce (cmd : Command) (hl : Live s) (hs : HoldSound s) (hf : FailsForGood c id s p)
    (ho : p.owner = .group part k) (hj : s.le.job = some job) (ht : job.trailer = none ∨ isTrailer part = true)
    (hr : (s.cc.queue.filter fun r => r.state == .logging) = [rec]) (hsp : rec.span = some sp)
    (hp : s.cc.path = .stopped) (hq : s.cc.quiesce = some cmd) (hm : s.re.mode ≠ .ending) (hw : s.hp.hold ≠ some .stageWait) :
    let unanswered := fun r : CommitRecord => r.state == .logging || r.state == .queued
    let mp := withdrawnMp isGroupOwner (failureMp c id p s.mp)
    ∃ t, exec c s = .next t ∧ causeIn .stopLog t.mg.causes = (causeIn .stopLog s.mg.causes || !s.cc.stopLog) ∧
      t.le = retired (ringU s) ((recordsVoided s.cc.queue unanswered .media).takeWhile fun r => finished r.state)
        (spanConsumed (ringU s) sp s.le) ∧
      t.hp.responses = (recordsAnswered s.hp (s.cc.queue.filter unanswered) .failedMedia).responses ∧
      t.hp.intake = s.hp.intake ∧ t.hp.hold = s.hp.hold ∧
      (s.le.anchor ≠ none ∨ s.mp.records.all Option.isNone = false ∨ issuedCount (fun _ => true) mp ≠ 0 →
        t.cc = { s.cc with
          queue := (recordsVoided s.cc.queue unanswered .media).dropWhile fun r => finished r.state, stopLog := true } ∧
        t.mp = mp) := by
  intro unanswered mp
  obtain ⟨begun, -⟩ := addLogCause_afterFailure (c := c) (id := id) (p := p) s.le hl hs (.inr hp)
  obtain ⟨w, ⟨control, ⟨log, port, hae, hre, hpf, hcfg⟩, -, -, sound, -, stopped, -, -⟩, stop, causes⟩ := begun.giveUp rfl (.inr hp) hr hsp
  obtain ⟨hhp, -, -⟩ := stopped hp
  have takes : pathTakes w.cc = false := pathTakes_quiescing (by rw [control]) (by rw [control, hq]; nofun)
  have closed := mediaDropped_closed (chosen := unanswered) (added := !s.cc.stopLog) (s := w) (by rw [hhp]; exact hw) takes
  have queue : w.cc.queue = s.cc.queue := by rw [control]
  generalize ht' : mediaDropped unanswered (!s.cc.stopLog) w = u at closed stop
  have ucc : u.cc = { s.cc with
      queue := (recordsVoided s.cc.queue unanswered .media).dropWhile fun r => finished r.state
      path := .stopped
      stopLog := true } := by
    rw [closed]
    simp only [headsRemoved, State.withLe_cc, State.withCc_cc, releaseDescs_frame, mediaVoided, recordsDropped, State.withHp_cc, control]
  have uhp : u.hp = recordsAnswered s.hp (s.cc.queue.filter unanswered) .failedMedia := by
    rw [closed]
    simp only [headsRemoved, State.withLe_hp, State.withCc_hp, releaseDescs_frame, mediaVoided, recordsDropped, State.withHp_hp, queue, hhp]
  have ump : u.mp = mp := by
    rw [closed]
    simp only [headsRemoved, State.withLe_mp, State.withCc_mp, releaseDescs_frame, mediaVoided, recordsDropped, State.withHp_mp, port, mp]
  have ule : u.le = retired (ringU s) ((recordsVoided s.cc.queue unanswered .media).takeWhile fun r => finished r.state)
      (spanConsumed (ringU s) sp s.le) := by
    rw [← ht', mediaDropped_le sound, log, queue]
    simp only [ringU, hcfg]
  have ure : u.re = s.re := by
    rw [closed]
    simp only [headsRemoved, State.withLe_re, State.withCc_re, releaseDescs_frame, mediaVoided, recordsDropped, State.withHp_re, hre]
  have umg : u.mg = (addLogCause ((afterFailure c id p s).withLe s.le)).mg := by
    rw [closed]
    simp only [headsRemoved, State.withLe_mg, State.withCc_mg, releaseDescs_frame, mediaVoided, recordsDropped, State.withHp_mg, causes]
  have quiescing : Quiescing u := ⟨by rw [ucc], by rw [ucc]; change s.cc.quiesce ≠ none; rw [hq]; nofun, by rw [ure]; exact hm⟩
  refine ⟨quiesceSettle u, ?_, ?_, ?_, ?_, ?_, ?_, fun h => ?_⟩
  · rw [exec_groupFailed hl hf ho hj ht, stop, settle_quiescing u quiescing]
  · rw [(quiesceSettle_frame u).2.2.2, umg]
    exact addLogCause_stopLog hp
  · rw [(quiesceSettle_frame u).2.1, ule]
  · rw [quiesceSettle_responses, uhp]
    intro r h
    rw [ucc] at h
    exact unanswered_voided h
  · rw [(quiesceSettle_head u).1, uhp]; rfl
  · rw [(quiesceSettle_head u).2, uhp]; rfl
  · have stays : quiesceSettle u = u := by
      rcases h with h | h
      · exact quiesceSettle_anchored (by rw [ule]; exact h)
      · exact quiesceSettle_undue (.inr (h.imp (fun h => by rw [← h, ump]; exact congrArg (·.all Option.isNone) (failureMp_frame c id p s.mp).2.2.2)
          fun h => by rw [ump]; exact h))
    rw [stays]
    exact ⟨by rw [ucc, ← hp], ump⟩

/-- In DRAINING the LOGGING record alone ends and no cause is added (R105). -/
theorem groupFailed_drain (hl : Live s) (hs : HoldSound s) (hf : FailsForGood c id s p) (ho : p.owner = .group part k)
    (hj : s.le.job = some job) (ht : job.trailer = none ∨ isTrailer part = true)
    (hr : (s.cc.queue.filter fun r => r.state == .logging) = [rec]) (hsp : rec.span = some sp)
    (hp : s.cc.path = .draining) (hq : Quiet s) :
    let logging := fun r : CommitRecord => r.state == .logging
    ∃ u, exec c s = .next (afterDrain u) ∧
      u.cc = { s.cc with queue := (recordsVoided s.cc.queue logging .media).dropWhile fun r => finished r.state } ∧
      u.le = retired (ringU s) ((recordsVoided s.cc.queue logging .media).takeWhile fun r => finished r.state)
        (spanConsumed (ringU s) sp s.le) ∧
      u.hp = recordsAnswered s.hp [rec] .failedMedia ∧ u.mp = withdrawnMp isGroupOwner (failureMp c id p s.mp) ∧
      u.mg = failureMg c id s.mg ∧ Released rec.writes s u ∧ OnlyIn [.hp, .ss, .cc, .le, .mp, .mg] s u := by
  intro logging
  have none : s.hp.hold = none := hs.noneInDrain (.inl hp)
  generalize hw : advanceHead (some sp) (withdrawRequests isGroupOwner ((afterFailure c id p s).withLe s.le)) = w
  have stop : logStop true ((afterFailure c id p s).withLe s.le) =
      headsRemoved (releaseDescs rec.writes (mediaVoided logging w)) := by
    have still : addLogCause ((afterFailure c id p s).withLe s.le) = (afterFailure c id p s).withLe s.le := by
      simp only [addLogCause]
      rw [show ((afterFailure c id p s).withLe s.le).cc = s.cc from rfl, hp]
    have record : loggingRecord s.cc = some rec := loggingRecord_of_one hr
    have path : (s.cc.path == .draining) = true := by rw [hp]; rfl
    have queue : w.cc.queue = s.cc.queue := by rw [← hw]; rfl
    rw [logStop_eq, still, if_pos rfl, show ((afterFailure c id p s).withLe s.le).cc = s.cc from rfl, record, path, Option.bind_some, hsp, hw,
      mediaDropped_noHold (by rw [← hw]; exact none), queue]
    have same : stopDrops true true = logging := by funext r; simp [stopDrops, logging]
    rw [same, show s.cc.queue.filter logging = [rec] from hr]
    simp
  obtain ⟨e, free, entries⟩ := failureMp_entries c id p s.mp
  have ⟨timer, wd, he, _⟩ := hf
  have ump : (headsRemoved (releaseDescs rec.writes (mediaVoided logging w))).mp = withdrawnMp isGroupOwner (failureMp c id p s.mp) := by
    simp only [headsRemoved, State.withLe_mp, State.withCc_mp, releaseDescs_frame, mediaVoided, recordsDropped, State.withHp_mp, ← hw]
    rfl
  refine ⟨headsRemoved (releaseDescs rec.writes (mediaVoided logging w)), ?_, ?_, ?_, ?_, ump, ?_, ?_, fun b hb => ?_⟩
  · rw [exec_groupFailed hl hf ho hj ht, stop, settle_quiet hq he (e := e) (by rw [ho]; rfl) free ?_ ?_ ?_]
    · rw [ump, withdrawnMp, ← entries]
      simp only [List.map_map, issuedPiece_markWithdrawn]
    · simp [headsRemoved, mediaVoided, recordsDropped, ← hw, advanceHead, withdrawRequests, afterFailure]
    · simp [headsRemoved, mediaVoided, recordsDropped, ← hw, advanceHead, withdrawRequests, afterFailure]
  · simp [headsRemoved, mediaVoided, recordsDropped, ← hw, advanceHead, withdrawRequests, afterFailure]
  · simp only [headsRemoved, State.withLe_le, releaseDescs_frame, mediaVoided, recordsDropped, State.withHp_le, State.withCc_le, ringU, ← hw]
    simp only [advanceHead, withdrawRequests, afterFailure, ringU, State.withHp_mg, State.withCc_mg, State.withLe_mg, State.withMp_mg, State.withMg_mg, failureMg_cfg]
    rfl
  · simp only [headsRemoved, State.withLe_hp, State.withCc_hp, releaseDescs_frame, mediaVoided, recordsDropped, State.withHp_hp, ← hw]
    rw [show ∀ x, (advanceHead x (withdrawRequests isGroupOwner ((afterFailure c id p s).withLe s.le))).cc = s.cc by
      intro x; cases x <;> rfl, hr]
    rfl
  · simp [headsRemoved, mediaVoided, recordsDropped, ← hw, advanceHead, withdrawRequests, afterFailure]
  · exact (released_releaseDescs rec.writes (mediaVoided logging w)).of_same (by rw [← hw]; rfl) (by rw [← hw]; rfl) (by rw [← hw]; rfl)
      (by rw [← hw]; rfl) rfl rfl rfl rfl
  · rw [← hw]
    cases b <;> simp [sameBlock, headsRemoved, mediaVoided, recordsDropped, advanceHead, withdrawRequests, afterFailure] at hb ⊢


end

/-- An anchor write that fails for good in RUN or STOPPED without the LOG cause stops the log (R103). -/
theorem exec_anchorFailed {c : Instr} {id : MemId} {s : State} {p : Piece} (hl : Live s) (hf : FailsForGood c id s p)
    (ho : p.owner = .anchor) (hp : s.cc.path = .run ∨ s.cc.path = .stopped) (hq : s.cc.quiesce = none) (hn : s.cc.stopLog = false) :
    exec c s = .next (settle (logStop (match s.le.job with | some job => job.trailer.isNone | none => false)
      ((afterFailure c id p s).withLe { s.le with anchor := none }))) := by
  rw [exec_failsForGood hl hf, ho]
  have goes : ¬ (s.cc.path = .draining ∨ s.cc.quiesce.isSome ∨ s.cc.stopLog) := by
    rcases hp with hp | hp <;> simp [hp, hq, hn]
  exact congrArg (fun x => Host.Outcome.next (settle x)) (if_neg goes)

/-- Settles O27: a group's piece or trailer in RUN and STOPPED, in quiesce and in DRAINING, and an anchor. -/
theorem logFailureStopsThePath : Obligations.LogFailureStopsThePath := by
  refine ⟨fun c id s p part k job rec sp hl hs hf ho hj ht hr hsp => ?_, fun c id s p hl hs hf ho hp hq hm hn => ?_⟩
  · refine ⟨fun hp hq hm => groupFailed_stops hl hs hf ho hj ht hr hsp hp hq hm,
      fun cmd hp hq hm hw => groupFailed_quiesce cmd hl hs hf ho hj ht hr hsp hp hq hm hw,
      fun hp hq => groupFailed_drain hl hs hf ho hj ht hr hsp hp hq⟩
  · intro le mp goesOn
    obtain ⟨begun, orphan⟩ := addLogCause_afterFailure (c := c) (id := id) (p := p) le hl hs hp
    have step := exec_anchorFailed hl hf ho hp hq hn
    refine ⟨fun goes => ?_, fun rec sp goes hr hsp => ?_⟩
    · have stays : (match s.le.job with | some job => job.trailer.isNone | none => false) = false := by
        split
        · rename_i job hj
          cases h : job.trailer with
          | none => exact absurd h (goes job hj)
          | some b => rfl
        · rfl
      have stopped := begun.logStopped (chosen := fun r => r.state == .queued) hl hs hp hq (by simp +contextual [unansweredState])
      rw [stays, logStop_goesOn (s := s) (by rfl) hp] at step
      refine ⟨_, ?_, stopped, fun hto => mediaDropped_kept.lines _ (orphan hto)⟩
      rw [step, settle_stopped (s := s) (by rw [stopped.control]) (by rw [stopped.control]; exact hq) stopped.engines.2.1 hm]
    · have gives : (match s.le.job with | some job => job.trailer.isNone | none => false) = true := by
        obtain ⟨job, hj, ht⟩ : ∃ job, s.le.job = some job ∧ job.trailer = none := by
          by_contra none
          exact goes fun job hj ht => none ⟨job, hj, ht⟩
        simp [hj, ht]
      obtain ⟨w, begun', stop, causes⟩ := begun.giveUp rfl hp hr hsp
      have stopped := begun'.logStopped (chosen := fun r => r.state == .logging || r.state == .queued) hl hs hp hq
        (fun r h => by simpa [unansweredState, or_comm] using h)
      rw [gives, stop] at step
      refine ⟨_, ?_, stopped, fun hto => mediaDropped_kept.lines _ (by rw [causes]; exact orphan hto)⟩
      rw [step, settle_stopped (s := s) (by rw [stopped.control]) (by rw [stopped.control]; exact hq) stopped.engines.2.1 hm]

end Sys2Proof.Machine
end

section
/-! PROOF. The apply stop, and the home writes and fallback reads that AE hands (O29). -/

namespace Sys2Proof.Machine

/-! ## An apply failure -/

theorem addApplyCause_run {s : State} (hp : s.cc.path = .run) : addApplyCause s =
    evaluate .causeAdded (setCause .stopApply (enterStopped (s.withCc { s.cc with stopApply := true }))) := by
  simp only [addApplyCause, hp]

theorem addApplyCause_stopped {s : State} (hp : s.cc.path = .stopped) (ha : s.cc.stopApply = false) (hq : s.cc.quiesce = none) :
    addApplyCause s = evaluate .causeAdded (setCause .stopApply (s.withCc { s.cc with stopApply := true })) := by
  simp [addApplyCause, hp, ha, hq]

/-- The APPLY cause has been added to `s` and the request that holds the port is about to be evaluated (R45, R153). -/
structure ApplyStopBegun (s t : State) : Prop where
  control : t.cc = { s.cc with path := .stopped, stopApply := true }
  parts : t.le = s.le ∧ t.ae = s.ae ∧ t.mp = s.mp ∧ t.re = s.re ∧ t.pf = s.pf ∧ t.mg.cfg = s.mg.cfg
  cause : causeIn .stopApply t.mg.causes = true
  lines : ∀ c, causeIn c s.mg.causes = true → causeIn c t.mg.causes = true
  sound : HoldSound t
  noneOpen : s.cc.path = .run → NoneOpen t ∧ Released (openLists s) s t
  stopped : s.cc.path = .stopped → t.hp = s.hp ∧ t.ss = s.ss ∧ t.gt = s.gt
  port : s.hp.hold ≠ some .stageWait → t.hp = s.hp
  waited : s.cc.path = .run → ∀ r, s.hp.hold = some .stageWait → s.hp.intake.head? = some r →
    t.hp = holdAnswered s.hp r .nolog ∧ t.ss.timer = none

theorem addApplyCause_begun {s : State} (hl : Live s) (hs : HoldSound s) (hp : s.cc.path = .run ∨ s.cc.path = .stopped)
    (ha : s.cc.stopApply = false) (hq : s.cc.quiesce = none) :
    ∃ t, addApplyCause s = evaluate .causeAdded t ∧ ApplyStopBegun s t := by
  rcases hp with hp | hp
  · have entered := enterStopped_stopped (cc := { s.cc with stopApply := true }) hl hs
    have sound : HoldSound (enterStopped (s.withCc { s.cc with stopApply := true })) :=
      (enterStopped_reports (s := s.withCc { s.cc with stopApply := true }) hp).hold ⟨hs.head, hs.noneInDrain⟩
    obtain ⟨control, ⟨h1, h2, h3, h4, h5, h6⟩, open', rel, noWait, port, waited⟩ := entered
    exact ⟨_, addApplyCause_run hp, by rw [(setCause_frame ..).2.2.2.2.1, control], ⟨h1, h2, h3, h4, h5, by simp⟩,
      setCause_causeIn .stopApply _, fun c hc => causeIn_mono c _ _ hc _ (by rw [h6]),
      ⟨sound.head, sound.noneInDrain⟩, fun _ => ⟨open', rel.of_same rfl rfl rfl rfl rfl rfl rfl rfl⟩,
      fun h => absurd (hp.symm.trans h) nofun, port, fun _ => waited⟩
  · refine ⟨_, addApplyCause_stopped hp ha hq, by simp [← hp], by simp, setCause_causeIn .stopApply _, fun c hc => causeIn_mono c _ _ hc _ rfl,
      ⟨hs.head, hs.noneInDrain⟩, fun h => absurd (hp.symm.trans h) nofun, fun _ => ⟨rfl, rfl, rfl⟩, fun _ => rfl,
      fun h => absurd (hp.symm.trans h) nofun⟩

/-- An apply failure outside HALTED stops the path (R117, R153). -/
theorem applyFailure_stopped {i : Nat} {s v : State} (hl : Live s) (hs : HoldSound s) (hp : s.cc.path = .run ∨ s.cc.path = .stopped)
    (ha : s.cc.stopApply = false) (hq : s.cc.quiesce = none) (hm : v.ae.mode ≠ .halted)
    (h1 : v.hp = s.hp ∧ v.ss = s.ss ∧ v.gt = s.gt ∧ v.cc = s.cc ∧ v.le = s.le ∧ v.pf = s.pf ∧ v.mg.cfg = s.mg.cfg)
    (h2 : v.ae.failed = s.ae.failed ∧ v.ae.current = s.ae.current ∧ v.ae.walk = s.ae.walk) :
    ApplyStopped i v.mp s (applyFailure i v) ∧
      (applyFailure i v).ae = (haltApply (v.withAe { v.ae with failed := v.ae.failed ++ [i] })).ae ∧
      (applyFailure i v).re = v.re ∧ ∀ c, causeIn c v.mg.causes = true → causeIn c (applyFailure i v).mg.causes = true := by
  obtain ⟨e1, e2, e3, e4, e5, e6, e7⟩ := h1
  obtain ⟨f1, f2, f3⟩ := h2
  have halts : haltApply (v.withAe { v.ae with failed := v.ae.failed ++ [i] }) = _ := if_neg hm
  generalize hh : haltApply (v.withAe { v.ae with failed := v.ae.failed ++ [i] }) = h at halts ⊢
  have fails : applyFailure i v = addApplyCause h := by
    rw [applyFailure, if_neg hm, hh]
  have hhp : h.hp = s.hp := by rw [halts]; exact e1
  have hss : h.ss = s.ss := by rw [halts]; exact e2
  have hgt : h.gt = s.gt := by rw [halts]; exact e3
  have hcc : h.cc = s.cc := by rw [halts]; exact e4
  have hle : h.le = s.le := by rw [halts]; exact e5
  have hpf : h.pf = s.pf := by rw [halts]; exact e6
  have hmg : h.mg = v.mg := by rw [halts]; rfl
  have hre : h.re = v.re := by rw [halts]; rfl
  have hmp : h.mp = (withdrawRequests isApplyOwner (s.withMp v.mp)).mp := by rw [halts]; rfl
  have hae : h.ae.mode = .halted ∧ h.ae.failed = s.ae.failed ++ [i] ∧ h.ae.current = s.ae.current ∧ h.ae.walk = s.ae.walk := by
    rw [halts]; exact ⟨rfl, congrArg (· ++ [i]) f1, f2, f3⟩
  have live : Live h := by rw [Live, hpf]; exact hl
  have holds : HoldSound h := ⟨by rw [hhp]; exact hs.head, by rw [hhp, hcc]; exact hs.noneInDrain⟩
  obtain ⟨t, causeAdded, control, ⟨p1, p2, p3, p4, p5, p6⟩, cause, lines, sound, noneOpen, stopped, port, waited⟩ :=
    addApplyCause_begun live holds (by rw [hcc]; exact hp) (by rw [hcc]; exact ha) (by rw [hcc]; exact hq)
  have tlive : Live t := by rw [Live, p5]; exact live
  have tpath : t.cc.path = .stopped := by rw [control]
  have tquiet : t.cc.quiesce = none := by rw [control, hcc]; exact hq
  have kept := evaluate_kept .causeAdded t
  rw [fails, causeAdded]
  refine ⟨⟨?_, kept.lines _ cause, ?_, ?_, ?_, fun hr => ?_, fun hr hn => ?_, ?_, fun hn => ?_, fun r hr hw hi => ?_,
    fun c r hc hne hi hread => ?_, fun r hc hi => ?_⟩, by simp [p2], by simp [p4, hre], fun c hc => kept.lines _ (lines c (by rw [hmg]; exact hc))⟩
  · rw [evaluate_stopped_cc tlive sound tpath, control, hcc]
  · simpa [p2] using hae
  · rw [kept.ready.2, p3, hmp]; rfl
  · rw [kept.entries.1, p3, hmp]
    change (v.mp.entries.map (markWithdrawn isApplyOwner)).map issuedPiece = _
    rw [List.map_map, issuedPiece_markWithdrawn]
  · obtain ⟨none, rel⟩ := noneOpen (by rw [hcc]; exact hr)
    obtain ⟨store, none'⟩ := evaluate_stopped_store (ev := .causeAdded) tlive sound tpath none
    have lists : openLists h = openLists s := by simp only [openLists, hgt]
    rw [lists] at rel
    exact ⟨rel.of_same (by rw [hss]) (by rw [hss]) (by rw [hss]) (by rw [hss]) (by rw [store]) (by rw [store]) (by rw [store]) (by rw [store]), none'⟩
  · obtain ⟨q1, q2, q3⟩ := stopped (by rw [hcc]; exact hr)
    have none : NoneOpen t := by rw [NoneOpen, q3, hgt]; exact hn
    rw [(evaluate_stopped_store tlive sound tpath none).1, q2, hss]
  · simp [p1, hle]
  · have same := port (by rw [hhp, hn]; nofun)
    rw [evaluate_noHold _ _ (by rw [same, hhp]; exact hn), same, hhp]
  · obtain ⟨q1, q2⟩ := waited (by rw [hcc]; exact hr) r (by rw [hhp]; exact hw) (by rw [hhp]; exact hi)
    rw [evaluate_noHold _ _ (by rw [q1]; rfl), q1, hhp]
    exact ⟨rfl, q2⟩
  · have same : t.hp = s.hp := by rw [port (by rw [hhp, hc]; simpa using hne), hhp]
    obtain ⟨r', hr', free, -⟩ := sound.head c (by rw [same]; exact hc)
    rw [same, hi] at hr'
    cases hr'
    have again : evaluate .causeAdded t = passThrough r t := evaluate_onReadPath (h := c) (by rw [same]; exact hc) (by rw [same]; exact hi) hread
      (by rw [wakes_causeAdded]; simpa using hne) (pathTakes_of tquiet (.inr tpath))
    have slot : needsSlot r t = (s.cc.path == .stopped && needsSlot r s) := by
      rcases hp with hr | hr
      · rw [(noneOpen (by rw [hcc]; exact hr)).1.needsSlot r, hr]; rfl
      · obtain ⟨-, -, q3⟩ := stopped (by rw [hcc]; exact hr)
        simp [needsSlot, ctxOf, q3, hgt, hr]
    have evaluated := passThrough_evaluates r t tlive (by rw [same]; exact hi) (notInFlight_of_sound free)
    rw [again, ← slot, ← hmp, ← p3, ← same]
    exact evaluated
  · have same : t.hp = s.hp := by rw [port (by rw [hhp, hc]; nofun), hhp]
    obtain ⟨r', hr', -, commit⟩ := sound.head _ (by rw [same]; exact hc)
    rw [same, hi] at hr'
    cases hr'
    rw [evaluate_commit_stopped (r := r) tlive (by rw [same]; exact hc) (by rw [same]; exact hi) commit rfl tpath tquiet, same]
    rfl

/-! ## Home writes -/

/-- The home write of the next descriptor is handed (R112, R136). -/
theorem handHome_eq (rec : CommitRecord) (i : Nat) (w : RecordWrite) (s : State) : handHome rec i w s =
    (s.withMp (applyHanded s.mp (cutRequest (burst s.mg.cfg) (Owner.home i) .write w.addr.toNat w.length w.mask w.data))).withAe
      (walkedOn rec s ⟨i, w.addr, w.length, List.replicate (pieceCount (burst s.mg.cfg) w.addr.toNat w.length) .pending⟩) := by
  have place : rec.writes.length + (s.ae.walk + 1) - (rec.count + 1) = rec.writes.length + s.ae.walk - rec.count := by omega
  simp only [handHome, handRequest_apply (owner := Owner.home i) rfl, walkedOn, descAtWalk, place]
  rfl

/-- The fallback read of a descriptor is handed (R114, R136). -/
theorem handFallback_eq (i : Nat) (d : Descriptor) (s : State) : handFallback i d s =
    (s.withMp (applyHanded s.mp (cutRequest (burst s.mg.cfg) Owner.fallback .read (unitAddr s.mg.cfg (d.logPos.getD 0))
      (32 * dataUnits d.length d.mask.isSome) none []))).withAe { s.ae with
        mode := .fetching
        fallback := some ⟨i, d.logPos.getD 0, List.replicate (pieceCount (burst s.mg.cfg) (unitAddr s.mg.cfg (d.logPos.getD 0))
          (32 * dataUnits d.length d.mask.isSome)) .pending⟩ } := by
  simp only [handFallback, handRequest_apply (owner := Owner.fallback) rfl]
  rfl

/-- The walk on the next descriptor, after the changed bits of the store (R111, R112, R114). -/
theorem homeWrite_walks (us : List Upset) (s : State) (i : Nat) (rec : CommitRecord) (hl : Live s) (hm : s.ae.mode = .walking)
    (hn : s.ae.next = some i) (hr : currentRecord s = some rec) (hw : walkReady s (descAt s i) = true) :
    let d := descAt s i
    let read := readDescriptor d (applyUpsets us s)
    exec (.homeWriteHand us) s = .next (if read.1 = .uncorrectable then handFallback i d read.2.2
      else handHome rec i ⟨d.addr, d.length, d.mask, read.2.1⟩ read.2.2) := by
  intro d read
  have hr' : currentRecord (applyUpsets us s) = some rec := hr
  have hw' : walkReady (applyUpsets us s) d = true := hw
  rw [exec_live (.homeWriteHand us) hl]
  simp only [effect, applyUpsets_frame, hm, hn, hr', walkStep, descAt_applyUpsets]
  rw [if_pos hw']

/-- The next descriptor is read clean or corrected, or its fallback read is handed. -/
theorem homeWrite_handed (us : List Upset) (s : State) (i : Nat) (rec : CommitRecord) (hl : Live s) (hm : s.ae.mode = .walking)
    (hn : s.ae.next = some i) (hr : currentRecord s = some rec) (hw : walkReady s (descAt s i) = true) :
    let d := descAt s i
    let read := readDescriptor d (applyUpsets us s)
    (read.1 ≠ .uncorrectable → ∃ t, exec (.homeWriteHand us) s = .next t ∧
      t.mp = applyHanded s.mp (cutRequest (burst s.mg.cfg) (Owner.home i) .write d.addr.toNat d.length d.mask read.2.1) ∧
      t.ae = walkedOn rec s ⟨i, d.addr, d.length,
        List.replicate (pieceCount (burst s.mg.cfg) d.addr.toNat d.length) .pending⟩ ∧
      t.ss = read.2.2.ss ∧ t.mg = read.2.2.mg ∧ OnlyIn [.ss, .ae, .mp, .mg] s t) ∧
    (read.1 = .uncorrectable → ∃ t, exec (.homeWriteHand us) s = .next t ∧ t.ae.mode = .fetching ∧ t.ae.walk = s.ae.walk ∧
      (∀ q, d.logPos = some q → t.mp = applyHanded s.mp (cutRequest (burst s.mg.cfg) Owner.fallback .read
        (unitAddr s.mg.cfg q) (32 * dataUnits d.length d.mask.isSome) none []) ∧
        t.ae = { s.ae with mode := .fetching, fallback := some ⟨i, q, List.replicate
          (pieceCount (burst s.mg.cfg) (unitAddr s.mg.cfg q) (32 * dataUnits d.length d.mask.isSome)) .pending⟩ }) ∧
      t.ae.handed = s.ae.handed ∧ t.ae.failed = s.ae.failed ∧ t.ss = read.2.2.ss ∧ t.mg = read.2.2.mg ∧
      OnlyIn [.ss, .ae, .mp, .mg] s t) := by
  intro d read
  have step := homeWrite_walks us s i rec hl hm hn hr hw
  have port : read.2.2.mp = s.mp := by simp [read]
  have engine : read.2.2.ae = s.ae := by simp [read]
  have config : read.2.2.mg.cfg = s.mg.cfg := by simp [read]
  refine ⟨fun clean => ⟨_, step, ?_⟩, fun dirty => ⟨_, step, ?_⟩⟩
  · rw [if_neg clean, handHome_eq]
    refine ⟨by simp only [State.withAe_mp, State.withMp_mp, ← port, ← config]; rfl, ?_, rfl, rfl, fun b hb => ?_⟩
    · simp only [State.withAe_ae, walkedOn, ← engine, ← config]
      rfl
    · cases b <;> simp [sameBlock] at hb ⊢
  · rw [if_pos dirty, handFallback_eq]
    refine ⟨rfl, by rw [← engine]; rfl, fun q hq => ⟨?_, ?_⟩, by rw [← engine]; rfl,
      by rw [← engine]; rfl, rfl, rfl, fun b hb => ?_⟩
    · simp only [State.withAe_mp, State.withMp_mp, ← port, ← config, show (descAt s i).logPos = some q from hq]
      rfl
    · simp only [State.withAe_ae, ← engine, ← config, show (descAt s i).logPos = some q from hq]
      rfl
    · cases b <;> simp [sameBlock] at hb ⊢

/-! ## The fallback read -/

section
variable {id : MemId} {data : List Byte} {s : State} {p : Piece} {t0 : Option (BitVec 16)} {w : Bool} {k : Nat} {f : Fallback}

/-- What follows an apply stop settles to itself. -/
theorem ApplyStopped.settles {i : Nat} {mp : MemoryPort} {s t : State} (h : ApplyStopped i mp s t) (hq : s.cc.quiesce = none)
    (hr : t.re = s.re) (hm : s.re.mode ≠ .ending) : settle t = t :=
  settle_stopped (s := s) (by rw [h.path]) (by rw [h.path]; exact hq) hr hm

/-- A piece of the fallback read returns OK in FETCHING (R115, R116). -/
theorem fallback_returns {rec : CommitRecord} (hl : Live s) (hset : Settled s) (hs : HoldSound s) (hm : s.ae.mode = .fetching)
    (he : s.mp.entries.getD id.toNat .free = .issued p t0 w) (ho : p.owner = .fallback k) (hk : p.kind = .read)
    (hd : p.length = data.length) (hf : s.ae.fallback = some f) (hr : currentRecord s = some rec) (ha : s.cc.stopApply = false)
    (hp : s.cc.path = .run ∨ s.cc.path = .stopped) :
    let ms := f.pieces.set k (.done data)
    let bs := piecesData ms
    let d := descAt s f.desc
    let copy := recordWrite (datFields bs) (bs.drop 32)
    let mp := entryFreed s.mp id
    (allDone ms = false → exec (.memoryResponse id .ok data) s =
      .next ((s.withMp mp).withAe { s.ae with fallback := some { f with pieces := ms } })) ∧
    (allDone ms = true → ringCopyChecks s.le.epoch rec.number s.ae.walk d bs = true →
      ∃ t, exec (.memoryResponse id .ok data) s = .next t ∧
        t.mp = applyHanded mp (cutRequest (burst s.mg.cfg) (Owner.home f.desc) .write copy.addr.toNat copy.length copy.mask
          copy.data) ∧
        t.ae = walkedOn rec s ⟨f.desc, copy.addr, copy.length,
          List.replicate (pieceCount (burst s.mg.cfg) copy.addr.toNat copy.length) .pending⟩ ∧ OnlyIn [.ae, .mp] s t) ∧
    (allDone ms = true → ringCopyChecks s.le.epoch rec.number s.ae.walk d bs = false →
      ∃ t, exec (.memoryResponse id .ok data) s = .next t ∧ ApplyStopped f.desc mp s t ∧ t.ae.fallback = none ∧
        t.cc.queue = s.cc.queue) := by
  intro ms bs d copy mp
  have step := response_read hl he hk hd
  have fetched : reportRead p.owner data (s.withMp mp) =
      if allDone ms then fallbackReturned f bs (s.withMp mp)
      else (s.withMp mp).withAe { s.ae with fallback := some { f with pieces := ms } } := by
    rw [ho]
    change fallbackPiece k (.done data) (s.withMp mp) = _
    simp only [fallbackPiece, State.withMp_ae, hf, hm]
    rfl
  rw [fetched] at step
  have current : currentRecord (s.withMp mp) = some rec := hr
  refine ⟨fun h => ?_, fun h hc => ?_, fun h hc => ?_⟩
  · rw [step, h, if_neg nofun]
    exact congrArg _ (settle_settled _ hset)
  · rw [h, if_pos rfl, fallbackReturned, current] at step
    dsimp only at step
    rw [if_pos (by exact hc), handHome_eq, settle_settled _ (by exact hset)] at step
    refine ⟨_, step, rfl, rfl, fun b hb => ?_⟩
    cases b <;> simp [sameBlock] at hb ⊢
  · rw [h, if_pos rfl, fallbackReturned, current] at step
    dsimp only at step
    rw [if_neg (by exact fun passes => by cases hc.symm.trans passes)] at step
    obtain ⟨stopped, engine, recovery, -⟩ := applyFailure_stopped (i := f.desc)
      (v := (s.withMp mp).withAe { (s.withMp mp).ae with fallback := none }) hl hs hp ha hset.2.1
      (by change s.ae.mode ≠ .halted; rw [hm]; nofun) ⟨rfl, rfl, rfl, rfl, rfl, rfl, rfl⟩ ⟨rfl, rfl, rfl⟩
    refine ⟨_, ?_, stopped, ?_, by rw [stopped.path]⟩
    · rw [step, stopped.settles hset.2.1 recovery hset.1]
    · rw [engine, haltApply, if_neg (by change ¬ s.ae.mode = .halted; rw [hm]; nofun)]
      rfl

/-- A piece of the fallback read that fails for good in FETCHING (R116, R117). -/
theorem fallback_fails (c : Instr) (hl : Live s) (hset : Settled s) (hs : HoldSound s) (hm : s.ae.mode = .fetching)
    (ho : p.owner = .fallback k) (hf : s.ae.fallback = some f) (ha : s.cc.stopApply = false)
    (hp : s.cc.path = .run ∨ s.cc.path = .stopped) (hfail : FailsForGood c id s p) :
    ∃ t, exec c s = .next t ∧ ApplyStopped f.desc (failureMp c id p s.mp) s t ∧
      t.ae.fallback = none ∧ (c = .responseTimeout id → causeIn .orphan t.mg.causes = true) := by
  have step := exec_failsForGood hl hfail
  have failed : reportFailed p.owner (afterFailure c id p s) =
      applyFailure f.desc ((afterFailure c id p s).withAe { s.ae with fallback := none }) := by
    rw [ho]
    change fallbackPiece k .failed (afterFailure c id p s) = _
    simp only [fallbackPiece]
    rw [show (afterFailure c id p s).ae = s.ae from rfl, hf]
    dsimp only
    rw [if_neg (by rw [hm]; nofun), if_pos trivial]
  obtain ⟨stopped, engine, recovery, causes⟩ := applyFailure_stopped (i := f.desc)
    (v := (afterFailure c id p s).withAe { s.ae with fallback := none }) hl hs hp ha hset.2.1
    (by change s.ae.mode ≠ .halted; rw [hm]; nofun) ⟨rfl, rfl, rfl, rfl, rfl, rfl, failureMg_cfg ..⟩ ⟨rfl, rfl, rfl⟩
  refine ⟨_, ?_, stopped, ?_, fun hto => causes _ (failureMg_orphan c id s.mg hto)⟩
  · rw [step, failed, stopped.settles hset.2.1 recovery hset.1]
  · rw [engine, haltApply, if_neg (by change ¬ s.ae.mode = .halted; rw [hm]; nofun)]
    rfl

/-- In HALTED the bytes of the read are not used and nothing is reported (R118). -/
theorem fallback_halted (c : Instr) (u : State) (m : PieceMark) (hl : Live s) (hs : Quiet s ∨ Quiescing s)
    (hm : s.ae.mode = .halted) (he : s.mp.entries.getD id.toNat .free = .issued p t0 w) (ho : p.owner = .fallback k)
    (hf : s.ae.fallback = some f) (h : (∃ data, c = .memoryResponse id .ok data ∧ p.kind = .read ∧ p.length = data.length ∧
      m = .done data ∧ u = s.withMp (entryFreed s.mp id)) ∨ (FailsForGood c id s p ∧ m = .failed ∧ u = afterFailure c id p s)) :
    let ms := f.pieces.set k m
    exec c s = .next (afterEvent (u.withAe { s.ae with
      fallback := if anyPending ms then some { f with pieces := ms } else none })) := by
  intro ms
  have marked (v : State) (hv : v.ae = s.ae) : fallbackPiece k m v = v.withAe { s.ae with
      fallback := if anyPending ms then some { f with pieces := ms } else none } := by
    simp only [fallbackPiece, hv, hf, hm]
    rfl
  rcases h with ⟨data, rfl, hk, hd, rfl, rfl⟩ | ⟨hfail, rfl, rfl⟩
  · rw [response_read hl he hk hd, ho]
    refine (congrArg (fun v => Host.Outcome.next (settle v)) (marked (s.withMp (entryFreed s.mp id)) rfl)).trans ?_
    exact congrArg _ (settle_afterEvent hs he (e := .free) (by rw [ho]; rfl) rfl rfl rfl rfl rfl)
  · obtain ⟨e, free, entries⟩ := failureMp_entries c id p s.mp
    rw [exec_failsForGood hl hfail, ho]
    refine (congrArg (fun v => Host.Outcome.next (settle v)) (marked (afterFailure c id p s) rfl)).trans ?_
    exact congrArg _ (settle_afterEvent hs he (e := e) (by rw [ho]; rfl) free (congrArg (List.map issuedPiece) entries) rfl rfl rfl)

end

/-- Settles O29: the walk, the fallback read in FETCHING, and the fallback read in HALTED. -/
theorem homeWriteIsHanded : Obligations.HomeWriteIsHanded := by
  refine ⟨homeWrite_handed, fun id data s p t0 w k f rec hl hset hs hm he ho hk hd hf hr ha hp => ?_,
    fun c id s u p t0 w k f m hl hs hm he ho hf h => fallback_halted c u m hl hs hm he ho hf h⟩
  obtain ⟨waits, handed, fails⟩ := fallback_returns hl hset hs hm he ho hk hd hf hr ha hp
  exact ⟨waits, handed, fails, fun c hfail => fallback_fails c hl hset hs hm ho hf ha hp hfail⟩

end Sys2Proof.Machine
end

section
/-! PROOF. The outcome of a home write piece (O30). -/

namespace Sys2Proof.Machine

/-! ## The APPLYING record -/

/-- The record `rec`, APPLYING, has lost a descriptor, or has lost its last one and is APPLIED (R68, R113). -/
def shrunkQueue (rec : CommitRecord) (others : List Nat) (st : RecordState) (queue : List CommitRecord) : List CommitRecord :=
  queue.map fun r => if r.number = rec.number ∧ r.state = .applying then { r with writes := others, state := st } else r

/-- Descriptor `i` has left the APPLYING record and is about to be released. -/
def descriptorLeft (rec : CommitRecord) (i : Nat) (s : State) : State :=
  s.withCc { s.cc with queue := shrunkQueue rec (rec.writes.erase i) .applying s.cc.queue }

theorem descriptorLeft_eq (rec : CommitRecord) (i : Nat) (s : State) :
    updateRecord rec.number .applying (fun r => { r with writes := rec.writes.erase i }) s = descriptorLeft rec i s := by
  have same : (s.cc.queue.map fun r => if r.number = rec.number ∧ r.state = .applying then
      { r with writes := rec.writes.erase i } else r) = shrunkQueue rec (rec.writes.erase i) .applying s.cc.queue := by
    refine List.map_congr_left fun r _ => ?_
    by_cases h : r.number = rec.number ∧ r.state = .applying
    · rw [if_pos h, if_pos h, ← h.2]
    · rw [if_neg h, if_neg h]
  rw [updateRecord, same]
  rfl

/-- The record is APPLIED when its list is empty. -/
theorem shrunkQueue_applied (rec : CommitRecord) (others : List Nat) (queue : List CommitRecord) :
    ((shrunkQueue rec others .applying queue).map fun r =>
      if r.number = rec.number ∧ r.state = .applying then { r with state := .applied } else r) = shrunkQueue rec others .applied queue := by
  rw [shrunkQueue, List.map_map]
  refine List.map_congr_left fun r _ => ?_
  by_cases h : r.number = rec.number ∧ r.state = .applying
  · simp [h]
  · simp [h]

/-- AE when a record has been APPLIED (R113, R118). -/
def applyEnded (ae : ApplyEngine) : ApplyEngine :=
  { ae with current := none, mode := if ae.mode = .halted then .halted else .idle }

/-- The state in which the record, its list empty, is APPLIED and AE has no current record. -/
def recordApplied (rec : CommitRecord) (s : State) : State :=
  (s.withCc { s.cc with queue := s.cc.queue.map fun r =>
    if r.number = rec.number ∧ r.state = .applying then { r with state := .applied } else r }).withAe (applyEnded s.ae)

/-- The state after the release and its evaluation. -/
def writeReleased (rec : CommitRecord) (i : Nat) (s : State) : State :=
  evaluate .hazardShrank (releaseEvent [i] (descriptorLeft rec i s))

/-- The end of an applied write: the release, the evaluation, and the removal when it was the last one (R68, R71, R113). -/
theorem applyRelease_eq {s : State} {rec : CommitRecord} {i : Nat} (hr : currentRecord s = some rec) (hi : i ∈ rec.writes) :
    applyRelease i s =
      if rec.writes.erase i = [] then removeHeads (recordApplied rec (writeReleased rec i s)) else writeReleased rec i s := by
  rw [applyRelease, hr]
  dsimp only
  rw [if_pos (by simpa using hi), descriptorLeft_eq]
  by_cases h : rec.writes.erase i = []
  · rw [if_pos (by simp [h]), if_pos h]
    rfl
  · rw [if_neg (by simpa using h), if_neg h]
    rfl

/-- A record with no descriptor overlaps with nothing, whatever its state (R124). -/
theorem overlapsSide_recordApplied {rec : CommitRecord} {s : State} (side : RecordState → Bool)
    (h : ∀ r ∈ s.cc.queue, r.number = rec.number ∧ r.state = .applying → r.writes = []) (a n : Nat) :
    overlapsSide side (recordApplied rec s) a n = overlapsSide side s a n := by
  simp only [overlapsSide, recordApplied, State.withAe_cc, State.withCc_cc, State.withAe_ss, State.withCc_ss, List.any_map]
  rw [Bool.eq_iff_iff, List.any_eq_true, List.any_eq_true]
  refine exists_congr fun r => and_congr_right fun hr => ?_
  by_cases hm : r.number = rec.number ∧ r.state = .applying
  · simp [hm, recordMeets, h r hr hm]
  · simp [hm]

/-! ## The acknowledgement of the last piece -/

section
variable {s : State} {rec : CommitRecord} {i : Nat}

theorem holdSound_descriptorLeft (hs : HoldSound s) : HoldSound (descriptorLeft rec i s) := ⟨hs.head, hs.noneInDrain⟩

theorem writeReleased_cc (hs : HoldSound s) : (writeReleased rec i s).cc = (descriptorLeft rec i s).cc :=
  released_cc (holdSound_descriptorLeft hs)

theorem writeReleased_kept : ControlKept s (writeReleased rec i s) := by
  refine ControlKept.trans (u := descriptorLeft rec i s)
    ⟨rfl, ⟨rfl, rfl, rfl⟩, ⟨rfl, rfl, rfl, rfl, rfl⟩, ⟨rfl, rfl⟩, ⟨rfl, rfl, rfl⟩, fun _ h => h⟩ ?_
  exact .trans (.of_same (by simp) (by simp) (by simp)) (evaluate_kept ..)

theorem applyRelease_kept (hr : currentRecord s = some rec) (hi : i ∈ rec.writes) : ControlKept s (applyRelease i s) := by
  rw [applyRelease_eq hr hi]
  split
  · refine (writeReleased_kept (rec := rec) (i := i)).trans (ControlKept.trans (u := recordApplied rec (writeReleased rec i s))
      ⟨rfl, ⟨rfl, rfl, rfl⟩, ⟨rfl, rfl, rfl, rfl, rfl⟩, ⟨rfl, rfl⟩, ⟨rfl, rfl, rfl⟩, fun _ h => h⟩ (removeHeads_kept _))
  · exact writeReleased_kept

/-- When the list is empty the record is APPLIED. -/
theorem recordApplied_queue (hs : HoldSound s) : (recordApplied rec (writeReleased rec i s)).cc =
    { s.cc with queue := shrunkQueue rec (rec.writes.erase i) .applied s.cc.queue } := by
  simp only [recordApplied, State.withAe_cc, State.withCc_cc, writeReleased_cc hs, descriptorLeft, shrunkQueue_applied]

theorem overlapsSide_applied (hs : HoldSound s) (he : rec.writes.erase i = []) (side : RecordState → Bool) (a n : Nat) :
    overlapsSide side (recordApplied rec (writeReleased rec i s)) a n = overlapsSide side (writeReleased rec i s) a n := by
  refine overlapsSide_recordApplied side (fun r hr hm => ?_) a n
  rw [writeReleased_cc hs] at hr
  obtain ⟨x, -, rfl⟩ := List.mem_map.mp hr
  split at hm
  · rw [if_pos (by assumption)]; exact he
  · contradiction

/-- The removal has no COMMIT to evaluate when none held before. -/
theorem removeHeads_recordApplied (hs : HoldSound s) (h : s.hp.hold ≠ some .commitQueueFull) :
    removeHeads (recordApplied rec (writeReleased rec i s)) = headsRemoved (recordApplied rec (writeReleased rec i s)) :=
  removeHeads_unwoken (unwoken_recordRemoved (released_hold (s := descriptorLeft rec i s) (holdSound_descriptorLeft hs) h))

/-- What becomes of the log engine, the controller and AE. -/
theorem applyRelease_control (hs : HoldSound s) (hr : currentRecord s = some rec) (hi : i ∈ rec.writes) :
    (applyRelease i s).ae.handed = s.ae.handed ∧ (applyRelease i s).ae.failed = s.ae.failed ∧ (applyRelease i s).ae.walk = s.ae.walk ∧
    (rec.writes.erase i ≠ [] → (applyRelease i s).cc = { s.cc with queue := shrunkQueue rec (rec.writes.erase i) .applying s.cc.queue } ∧
      (applyRelease i s).ae = s.ae ∧ (applyRelease i s).le = s.le) ∧
    (rec.writes.erase i = [] → (applyRelease i s).ae.current = none ∧
      (applyRelease i s).ae.mode = (if s.ae.mode = .halted then .halted else .idle) ∧
      (applyRelease i s).le = retired (ringU s)
        ((shrunkQueue rec (rec.writes.erase i) .applied s.cc.queue).takeWhile fun r => finished r.state) s.le ∧
      (s.hp.hold ≠ some .commitQueueFull ∨ pathTakes s.cc = false → (applyRelease i s).cc =
        { s.cc with queue := (shrunkQueue rec (rec.writes.erase i) .applied s.cc.queue).dropWhile fun r => finished r.state })) := by
  have frame : (writeReleased rec i s).ae = s.ae ∧ (writeReleased rec i s).le = s.le ∧ (writeReleased rec i s).mg.cfg = s.mg.cfg := by
    simp [writeReleased, descriptorLeft]
  rw [applyRelease_eq hr hi]
  by_cases he : rec.writes.erase i = []
  · rw [if_pos he]
    have engine : (removeHeads (recordApplied rec (writeReleased rec i s))).ae = applyEnded s.ae := by
      simp [recordApplied, frame.1]
    refine ⟨(congrArg ApplyEngine.handed engine).trans rfl, (congrArg ApplyEngine.failed engine).trans rfl, (congrArg ApplyEngine.walk engine).trans rfl, fun h => absurd he h, fun _ =>
      ⟨congrArg ApplyEngine.current engine, congrArg ApplyEngine.mode engine, ?_, fun h => ?_⟩⟩
    · rw [removeHeads_le]
      simp only [headsRemoved, State.withLe_le, recordApplied_queue hs]
      simp only [recordApplied, State.withAe_le, State.withCc_le, ringU, State.withAe_mg, State.withCc_mg, frame]
    · have unwoken : Unwoken .recordRemoved (recordApplied rec (writeReleased rec i s)) := by
        rcases h with h | h
        · exact unwoken_recordRemoved (released_hold (holdSound_descriptorLeft hs) h)
        · exact .inr (by simpa [pathTakes, recordApplied_queue hs] using h)
      rw [removeHeads_unwoken unwoken]
      simp only [headsRemoved, State.withLe_cc, State.withCc_cc, recordApplied_queue hs]
  · rw [if_neg he]
    exact ⟨congrArg ApplyEngine.handed frame.1, congrArg ApplyEngine.failed frame.1, congrArg ApplyEngine.walk frame.1,
      fun _ => ⟨writeReleased_cc hs, frame.1, frame.2.1⟩, fun h => absurd h he⟩

/-- With nothing that waits or is evaluated the release stands and the port is as before. -/
theorem applyRelease_unwoken (hr : currentRecord s = some rec) (hi : i ∈ rec.writes)
    (hw : s.hp.hold ≠ some .stageWait) (h : s.hp.hold = none ∨ pathTakes s.cc = false) :
    Released [i] s (applyRelease i s) ∧ (applyRelease i s).hp = s.hp ∧ (applyRelease i s).mp = s.mp ∧
      OnlyIn [.ss, .cc, .le, .ae] s (applyRelease i s) := by
  have unwoken (ev : EvalEvent) (u : State) (hu : u.hp.hold = s.hp.hold ∧ u.cc.path = s.cc.path ∧ u.cc.quiesce = s.cc.quiesce) :
      Unwoken ev u := by
    rcases h with h | h
    · exact .inl fun c hc => by rw [hu.1, h] at hc; cases hc
    · exact .inr (by unfold pathTakes at h ⊢; rw [hu.2.1, hu.2.2]; exact h)
  have first : writeReleased rec i s = releaseDescs [i] (descriptorLeft rec i s) :=
    released_unwoken hw (unwoken _ _ ⟨rfl, rfl, rfl⟩)
  have rel (t : State) (ht : t.ss = (releaseDescs [i] (descriptorLeft rec i s)).ss) : Released [i] s t :=
    (released_releaseDescs [i] (descriptorLeft rec i s)).of_same rfl rfl rfl rfl (by rw [ht]) (by rw [ht]) (by rw [ht]) (by rw [ht])
  rw [applyRelease_eq hr hi, first]
  split
  · rw [removeHeads_unwoken (unwoken _ _ (by simp [recordApplied, descriptorLeft]))]
    refine ⟨rel _ rfl, by simp [headsRemoved, recordApplied, descriptorLeft], by simp [headsRemoved, recordApplied, descriptorLeft], fun b hb => ?_⟩
    cases b <;> simp [sameBlock, headsRemoved, recordApplied, descriptorLeft] at hb ⊢
  · refine ⟨rel _ rfl, by simp [descriptorLeft], by simp [descriptorLeft], fun b hb => ?_⟩
    cases b <;> simp [sameBlock, descriptorLeft] at hb ⊢

/-- A request that holds on overlap is evaluated anew (R126). -/
theorem applyRelease_hazard {r : HostRequest} (hl : Live s) (hs : HoldSound s) (hr : currentRecord s = some rec) (hi : i ∈ rec.writes)
    (hh : s.hp.hold = some .hazardOverlap) (hhead : s.hp.intake.head? = some r) (ht : pathTakes s.cc = true) :
    PassEvaluated (needsSlot r s) r s.hp s.mp (applyRelease i s) ∧ (needsSlot r s = false → Released [i] s (applyRelease i s)) := by
  obtain ⟨evaluated, rel⟩ := released_hazard_evaluated (ds := [i]) (s := descriptorLeft rec i s) hl (holdSound_descriptorLeft hs) hh hhead ht
  change PassEvaluated (needsSlot r s) r s.hp s.mp (writeReleased rec i s) at evaluated
  have rel' (hn : needsSlot r s = false) (t : State) (ht : t.ss = (writeReleased rec i s).ss) : Released [i] s t :=
    (rel hn).of_same rfl rfl rfl rfl (by rw [ht]; rfl) (by rw [ht]; rfl) (by rw [ht]; rfl) (by rw [ht]; rfl)
  rw [applyRelease_eq hr hi]
  split
  · rename_i he
    rw [removeHeads_recordApplied hs (by rw [hh]; nofun)]
    have applied := evaluated.of_same (t := recordApplied rec (writeReleased rec i s)) rfl rfl rfl rfl
      fun side _ a n => overlapsSide_applied hs he side a n
    exact ⟨applied.headsRemoved, fun hn => rel' hn _ rfl⟩
  · exact ⟨evaluated, fun hn => rel' hn _ rfl⟩

/-- A stage-wait test is seen from the port, the store and the contexts. -/
theorem StageTested.of_same {x y : Staging} {hp hp' : HostPort} {r : HostRequest} {s t s' t' : State} (h : StageTested x hp r s t)
    (hx : y = x) (hh : hp' = hp) (h1 : s'.gt = s.gt) (h2 : t'.hp = t.hp) (h3 : t'.ss = t.ss) (h4 : t'.gt = t.gt) :
    StageTested y hp' r s' t' := by
  have before : ctxOf s' = ctxOf s := by funext t; simp only [ctxOf, h1]
  have after : ctxOf t' = ctxOf t := by funext t; simp only [ctxOf, h4]
  obtain ⟨staged, waits⟩ := h
  exact ⟨by rw [hx, hh, before, after, h2, h3]; exact staged, by rw [hx, hh, h1, h2, h3, h4]; exact waits⟩

/-- A write in stage wait is tested (R25). -/
theorem applyRelease_stageWait {r : HostRequest} (hl : Live s) (hs : HoldSound s) (hr : currentRecord s = some rec) (hi : i ∈ rec.writes)
    (hh : s.hp.hold = some .stageWait) (hhead : s.hp.intake.head? = some r) (h63 : s.gt.ctxs.length = 63) :
    StageTested (releaseOne s.ss i) s.hp r s (applyRelease i s) := by
  have tested := releaseEvent_tested (ds := [i]) (s := descriptorLeft rec i s) hl (holdSound_descriptorLeft hs) hh hhead h63 (by simp)
  have same : writeReleased rec i s = releaseEvent [i] (descriptorLeft rec i s) := released_stageWait (s := descriptorLeft rec i s) hh
  rw [← same] at tested
  rw [applyRelease_eq hr hi]
  split
  · rw [removeHeads_recordApplied hs (by rw [hh]; nofun)]
    generalize writeReleased rec i s = u at tested
    exact tested.of_same rfl rfl rfl rfl rfl rfl
  · exact tested.of_same rfl rfl rfl rfl rfl rfl

/-- A COMMIT on a full queue is accepted in RUN when the removal makes room (R61, R71). -/
theorem applyRelease_commit {r : HostRequest} (hl : Live s) (hs : HoldSound s) (hr : currentRecord s = some rec) (hi : i ∈ rec.writes)
    (he : rec.writes.erase i = []) (hh : s.hp.hold = some .commitQueueFull) (hhead : s.hp.intake.head? = some r) (hp : s.cc.path = .run) :
    CommitAccepted ((shrunkQueue rec (rec.writes.erase i) .applied s.cc.queue).dropWhile fun r => finished r.state) s.hp r s
      (applyRelease i s) := by
  have same : writeReleased rec i s = releaseDescs [i] (descriptorLeft rec i s) :=
    released_unwoken (s := descriptorLeft rec i s) (by change s.hp.hold ≠ _; rw [hh]; nofun)
      (unwoken_hazardShrank (by change s.hp.hold ≠ _; rw [hh]; nofun))
  have control := recordApplied_queue (rec := rec) (i := i) hs
  have port : (recordApplied rec (writeReleased rec i s)).hp = s.hp := by rw [same]; simp [recordApplied, descriptorLeft]
  rw [applyRelease_eq hr hi, if_pos he]
  have accepted := removeHeads_commit (s := s) (u := recordApplied rec (writeReleased rec i s)) (r := r)
    (by rw [same]; simpa [Live, recordApplied, descriptorLeft] using hl)
    ⟨by rw [port]; exact hs.head, by rw [port, control]; exact hs.noneInDrain⟩ (by rw [port]; exact hh) (by rw [port]; exact hhead) hp
    (by rw [same]; simp [recordApplied, descriptorLeft]) (by rw [same]; simp [recordApplied, descriptorLeft]) (by rw [control])
    (by rw [control]; simp [shrunkQueue])
  rw [control, port] at accepted
  exact accepted

end

/-! ## The outcome of a piece -/

theorem sameBlock_trans {b : Block} {s u t : State} (h : sameBlock b s u) (k : sameBlock b u t) : sameBlock b s t := by
  cases b <;> exact Eq.trans k h

/-- What two steps change is what either changes. -/
theorem OnlyIn.trans {bs cs : List Block} {s u t : State} (h : OnlyIn bs s u) (k : OnlyIn cs u t) : OnlyIn (bs ++ cs) s t :=
  fun b hb => sameBlock_trans (h b fun hm => hb (List.mem_append_left _ hm)) (k b fun hm => hb (List.mem_append_right _ hm))

section
variable {id : MemId} {data : List Byte} {s : State} {p : Piece} {t0 : Option (BitVec 16)} {w : Bool} {i k : Nat} {h : HandedWrite}

/-- A piece is acknowledged while others of its write are not (R113). -/
theorem homePiece_marked (hl : Live s) (hs : Quiet s ∨ Quiescing s) (he : s.mp.entries.getD id.toNat .free = .issued p t0 w)
    (ho : p.owner = .home i k) (hk : p.kind = .write) (hf : s.ae.handed.find? (fun h => h.desc == i) = some h)
    (hd : allDone (h.pieces.set k (.done [])) = false) : exec (.memoryResponse id .ok data) s =
      .next (afterEvent ((s.withMp (entryFreed s.mp id)).withAe { s.ae with
        handed := s.ae.handed.map fun x => if x.desc = i then { x with pieces := h.pieces.set k (.done []) } else x })) := by
  refine exec_acked hl hs he hk (by rw [ho]; rfl) ?_ rfl rfl rfl rfl
  rw [ho]
  change homePieceAcked i k (s.withMp (entryFreed s.mp id)) = _
  simp only [homePieceAcked, State.withMp_ae, hf]
  rw [if_neg (by exact fun d => by cases hd.symm.trans d)]
  rfl

/-- The last piece of a write is acknowledged (R113). -/
theorem homePiece_completes {rec : CommitRecord} (hl : Live s) (hs : Quiet s ∨ Quiescing s)
    (he : s.mp.entries.getD id.toNat .free = .issued p t0 w)
    (ho : p.owner = .home i k) (hk : p.kind = .write) (hf : s.ae.handed.find? (fun h => h.desc == i) = some h)
    (hr : currentRecord s = some rec) (hi : i ∈ rec.writes) (hd : allDone (h.pieces.set k (.done [])) = true) :
    exec (.memoryResponse id .ok data) s = .next (afterEvent (applyRelease i ((s.withMp (entryFreed s.mp id)).withAe { s.ae with
        handed := s.ae.handed.filter fun x => x.desc != i }))) := by
  have kept := applyRelease_kept (s := (s.withMp (entryFreed s.mp id)).withAe { s.ae with
        handed := s.ae.handed.filter fun x => x.desc != i }) (rec := rec) hr hi
  refine exec_acked hl hs he hk (by rw [ho]; rfl) ?_ kept.entries.1 ?_ kept.causes.2.2 kept.path
  · rw [ho]
    change homePieceAcked i k (s.withMp (entryFreed s.mp id)) = _
    simp only [homePieceAcked, State.withMp_ae, hf]
    rw [if_pos (by exact hd)]
  · simp

/-- A piece of a handed write fails for good: the apply failure, with the write out of the handed set (R117). -/
theorem exec_homeFailed {c : Instr} (hl : Live s) (hfail : FailsForGood c id s p) (ho : p.owner = .home i k)
    (hf : s.ae.handed.find? (fun h => h.desc == i) = some h) :
    exec c s = .next (settle (applyFailure i ((afterFailure c id p s).withAe { s.ae with
      handed := s.ae.handed.filter fun x => x.desc != i }))) := by
  rw [exec_failsForGood hl hfail, ho]
  refine congrArg (fun v => Host.Outcome.next (settle v)) (if_pos ?_)
  exact List.any_eq_true.mpr ⟨h, List.mem_of_find?_eq_some hf, List.find?_some (p := fun h : HandedWrite => h.desc == i) hf⟩

/-- Outside HALTED the failure stops the path (R117, R153). -/
theorem homeFailed_stops {c : Instr} (hl : Live s) (hs : HoldSound s) (hfail : FailsForGood c id s p) (ho : p.owner = .home i k)
    (hf : s.ae.handed.find? (fun h => h.desc == i) = some h) (hp : s.cc.path = .run ∨ s.cc.path = .stopped)
    (hq : s.cc.quiesce = none) (hm : s.re.mode ≠ .ending) (ha : s.cc.stopApply = false) (hh : s.ae.mode ≠ .halted) :
    ∃ t, exec c s = .next t ∧ ApplyStopped i (failureMp c id p s.mp) s t ∧
      t.ae.handed.map HandedWrite.desc = (s.ae.handed.filter fun x => x.desc != i).map HandedWrite.desc ∧
      (c = .responseTimeout id → causeIn .orphan t.mg.causes = true) := by
  obtain ⟨stopped, engine, recovery, causes⟩ := applyFailure_stopped (i := i)
    (v := (afterFailure c id p s).withAe { s.ae with handed := s.ae.handed.filter fun x => x.desc != i }) hl hs hp ha hq hh
    ⟨rfl, rfl, rfl, rfl, rfl, rfl, failureMg_cfg ..⟩ ⟨rfl, rfl, rfl⟩
  refine ⟨_, ?_, stopped, ?_, fun hto => causes _ (failureMg_orphan c id s.mg hto)⟩
  · rw [exec_homeFailed hl hfail ho hf, stopped.settles hq recovery hm]
  · rw [engine, haltApply, if_neg (by exact hh)]
    simp [withdrawRequests]

/-- In HALTED the descriptor joins the failed set and nothing is reported (R118). -/
theorem homeFailed_halted {c : Instr} (hl : Live s) (hs : Quiet s ∨ Quiescing s) (hfail : FailsForGood c id s p)
    (ho : p.owner = .home i k) (hf : s.ae.handed.find? (fun h => h.desc == i) = some h) (hh : s.ae.mode = .halted) :
    exec c s = .next (afterEvent ((afterFailure c id p s).withAe { s.ae with
      handed := s.ae.handed.filter fun x => x.desc != i, failed := s.ae.failed ++ [i] })) := by
  obtain ⟨e, free, entries⟩ := failureMp_entries c id p s.mp
  have ⟨timer, wd, he, _⟩ := hfail
  rw [exec_homeFailed hl hfail ho hf]
  refine (congrArg (fun v => Host.Outcome.next (settle v)) (if_pos hh)).trans ?_
  exact congrArg _ (settle_afterEvent hs he (e := e) (by rw [ho]; rfl) free (congrArg (List.map issuedPiece) entries) rfl rfl rfl)

end

/-- Settles O30: a piece among others, the last piece, and a failure. -/
theorem homeWriteAckReleasesDescriptor : Obligations.HomeWriteAckReleasesDescriptor := by
  intro id data s p t0 w i k h rec hl hev hs hp he ho hk hf hr hi ms left mp others shrunk
  refine ⟨fun hd => homePiece_marked hl hev he ho hk hf hd, fun hd => ⟨_, homePiece_completes hl hev he ho hk hf hr hi hd, ?_⟩,
    fun c hfail => ⟨fun hdrain hq hm ha hh => ?_, fun hh => homeFailed_halted hl hev hfail ho hf hh⟩⟩
  · generalize hv : (s.withMp (entryFreed s.mp id)).withAe { s.ae with handed := s.ae.handed.filter fun x => x.desc != i } = v
    have live : Live v := by rw [← hv]; exact hl
    have sound : HoldSound v := by rw [← hv]; exact ⟨hs.head, hs.noneInDrain⟩
    have current : currentRecord v = some rec := by rw [← hv]; exact hr
    have port : v.hp = s.hp := by rw [← hv]; rfl
    have control : v.cc = s.cc := by rw [← hv]; rfl
    have groups : v.gt = s.gt := by rw [← hv]; rfl
    have store : v.ss = s.ss := by rw [← hv]; rfl
    have closed (h : s.cc.quiesce ≠ none) : pathTakes v.cc = false := by
      rw [control]
      rcases hev with hev | hev
      · exact absurd hev.2 h
      · exact pathTakes_quiescing hev.1 h
    have touched : OnlyIn [.mp, .ae] s v := by rw [← hv]; exact fun b hb => by cases b <;> simp [sameBlock] at hb ⊢
    obtain ⟨handed, failed, walk, more, last⟩ := applyRelease_control sound current hi
    refine ⟨?_, ?_, ?_, fun hm => ?_, fun hm => ?_, fun hn => ?_, fun r hhead => ⟨fun hz hq => ?_, fun hw h63 => ?_, fun hc hrun hm => ?_⟩⟩
    · rw [handed, ← hv]; rfl
    · rw [failed, ← hv]; rfl
    · rw [walk, ← hv]; rfl
    · obtain ⟨m1, m2, m3⟩ := more hm
      exact ⟨by rw [m1, control]; rfl, by rw [m2, ← hv]; rfl, by rw [m3, ← hv]; rfl⟩
    · obtain ⟨l1, l2, l3, l4⟩ := last hm
      refine ⟨l1, by rw [l2, ← hv]; rfl, ?_, fun hn => ?_⟩
      · rw [l3, control, ← hv]
        simp only [shrunkQueue, hm, shrunk, others]
        rfl
      · rw [l4 (hn.imp (fun h => by rw [port]; exact h) closed), control]
        rfl
    · have wait : v.hp.hold ≠ some .stageWait := by
        rw [port]
        rcases hn with hn | hn
        · rw [hn]; nofun
        · exact hn.2
      obtain ⟨rel, same, mem, only⟩ := applyRelease_unwoken current hi wait
        (hn.imp (fun h => by rw [port]; exact h) fun h => closed h.1)
      refine ⟨rel.of_same (by rw [store]) (by rw [store]) (by rw [store]) (by rw [store]) rfl rfl rfl rfl, same.trans port, ?_, fun b hb => ?_⟩
      · rw [mem, ← hv]; rfl
      · exact (touched.trans only) b fun hm => hb (by revert hm; cases b <;> decide)
    · have path : s.cc.path = .run ∨ s.cc.path = .stopped := by
        rcases hp with hp | hp | hp
        · exact .inl hp
        · exact .inr hp
        · rw [hs.noneInDrain (.inl hp)] at hz; cases hz
      obtain ⟨evaluated, rel⟩ := applyRelease_hazard (r := r) live sound current hi (by rw [port]; exact hz) (by rw [port]; exact hhead)
        (by rw [control]; exact pathTakes_of hq path)
      have slot : needsSlot r v = needsSlot r s := by simp only [needsSlot, ctxOf, groups]
      rw [slot, port, show v.mp = mp by rw [← hv]; rfl] at evaluated
      refine ⟨evaluated, fun hns => ?_⟩
      exact (rel (slot.trans hns)).of_same (by rw [store]) (by rw [store]) (by rw [store]) (by rw [store]) rfl rfl rfl rfl
    · have tested := applyRelease_stageWait (r := r) live sound current hi (by rw [port]; exact hw) (by rw [port]; exact hhead)
        (by rw [groups]; exact h63)
      have ctx : ctxOf v = ctxOf s := by funext t; simp only [ctxOf, groups]
      obtain ⟨staged, waits⟩ := tested
      rw [store, port, ctx] at staged
      rw [store, port, groups] at waits
      exact ⟨staged, waits⟩
    · have accepted := applyRelease_commit (r := r) live sound current hi hm (by rw [port]; exact hc) (by rw [port]; exact hhead)
        (by rw [control]; exact hrun)
      rw [← hv] at accepted ⊢
      exact accepted
  · refine homeFailed_stops hl hs hfail ho hf ?_ hq hm ha hh
    rcases hp with hp | hp | hp
    · exact .inl hp
    · exact .inr hp
    · exact absurd hp hdrain

end Sys2Proof.Machine
end

section
/-! PROOF. The memory port's pieces (O31), its grants (O32) and its retries (O35). -/

namespace Sys2Proof.Machine

/-! ## Pieces (R137) -/

section
variable {b addr len i : Nat}

/-- A piece starts below the end of the request: the windows before it hold fewer bytes than it has. -/
theorem window_lt (hl : 0 < len) (hi : i < pieceCount b addr len) : i * b < addr % b + len := by
  rw [pieceCount, if_neg (by omega)] at hi
  have := Nat.div_mul_le_self (addr % b + len - 1) b
  have : i * b ≤ (addr % b + len - 1) / b * b := Nat.mul_le_mul_right b (by omega)
  omega

/-- A window that is not the last one ends inside the request. -/
theorem window_le (hl : 0 < len) (hi : pieceCount b addr len ≤ i) : addr % b + len ≤ i * b ∨ b = 0 := by
  rw [pieceCount, if_neg (by omega)] at hi
  by_cases hb : b = 0
  · exact .inr hb
  · have := Nat.lt_div_mul_add (a := addr % b + len - 1) (Nat.pos_of_ne_zero hb)
    have : ((addr % b + len - 1) / b + 1) * b ≤ i * b := Nat.mul_le_mul_right b hi
    rw [Nat.succ_mul] at this
    omega

/-- A piece is not empty, lies within the request, and within one window of the burst boundary. -/
theorem pieceRange_within (hb : 0 < b) (hl : 0 < len) (hi : i < pieceCount b addr len) :
    let p := pieceRange b addr len i
    0 < p.2 ∧ p.1 + p.2 ≤ len ∧ (addr + p.1) / b = (addr + p.1 + p.2 - 1) / b := by
  have below := window_lt hl hi
  have start : addr % b < b := Nat.mod_lt addr hb
  have split := Nat.div_add_mod addr b
  have next : (i + 1) * b = i * b + b := Nat.succ_mul i b
  have one : i * b = 0 ∨ b ≤ i * b := by
    rcases Nat.eq_zero_or_pos i with h | h
    · exact .inl (by rw [h, Nat.zero_mul])
    · exact .inr (Nat.le_mul_of_pos_left b h)
  have window (x : Nat) (h1 : b * (addr / b) + i * b ≤ x) (h2 : x < b * (addr / b) + i * b + b) : x / b = addr / b + i := by
    refine Nat.div_eq_of_lt_le ?_ ?_
    · rw [Nat.add_mul, Nat.mul_comm (addr / b)]; exact h1
    · rw [Nat.succ_mul, Nat.add_mul, Nat.mul_comm (addr / b)]; exact h2
  simp only [pieceRange, next]
  refine ⟨by omega, by omega, ?_⟩
  exact (window _ (by omega) (by omega)).trans (window _ (by omega) (by omega)).symm

/-- The pieces before piece `i` together reach from the first byte to where it starts. -/
theorem pieces_sum (hb : 0 < b) (hl : 0 < len) (n : Nat) (hn : n ≤ pieceCount b addr len) :
    (((List.range n).map (pieceRange b addr len)).map Prod.snd).sum = min len (n * b - addr % b) := by
  induction n with
  | zero => simp
  | succ n ih =>
    have below := window_lt hl hn
    have start : addr % b < b := Nat.mod_lt addr hb
    rw [List.range_succ, List.map_append, List.map_append, List.sum_append, ih (by omega), Nat.succ_mul]
    simp only [pieceRange, List.map_cons, List.map_nil, List.sum_cons, List.sum_nil, Nat.succ_mul]
    have one : n * b = 0 ∨ b ≤ n * b := by
      rcases Nat.eq_zero_or_pos n with h | h
      · exact .inl (by rw [h, Nat.zero_mul])
      · exact .inr (Nat.le_mul_of_pos_left b h)
    omega

/-- With windows of at least 64 bytes a request touches at most one window more than its bytes fill. -/
theorem pieceCount_le {k : Nat} (hb : 64 ≤ b) (hl : 0 < len) (hk : len ≤ 64 * k) : pieceCount b addr len ≤ k + 1 := by
  have start : addr % b < b := Nat.mod_lt addr (by omega)
  have fill : 64 * k ≤ k * b := by rw [Nat.mul_comm]; exact Nat.mul_le_mul_left k hb
  rw [pieceCount, if_neg (by omega)]
  have : (addr % b + len - 1) / b < k + 1 := by
    rw [Nat.div_lt_iff_lt_mul (by omega), Nat.succ_mul]
    omega
  omega

end

/-- Settles O31: piece by piece, then the sums, then the counts. -/
theorem piecesTileTheRequest : Obligations.PiecesTileTheRequest := by
  intro b addr len hb hl ps
  have count : ps.length = pieceCount b addr len := by simp [ps, splitRanges]
  refine ⟨fun p hp => ?_, ?_, fun i h => ?_, fun h64 h256 => ?_, fun h64 _ _ h320 => ?_⟩
  · obtain ⟨i, hi, rfl⟩ := List.mem_map.mp hp
    exact pieceRange_within hb hl (List.mem_range.mp hi)
  · rw [show ps = (List.range (pieceCount b addr len)).map (pieceRange b addr len) from rfl, pieces_sum hb hl _ (Nat.le_refl _)]
    have := window_le (b := b) (addr := addr) hl (Nat.le_refl _)
    omega
  · have hi : i < pieceCount b addr len := count ▸ h
    have taken : ps.take i = (List.range i).map (pieceRange b addr len) := by
      simp only [ps, splitRanges, ← List.map_take, List.take_range, Nat.min_eq_left (Nat.le_of_lt hi)]
    have below := window_lt hl hi
    rw [taken, pieces_sum hb hl i (Nat.le_of_lt hi)]
    simp only [ps, splitRanges, List.getElem_map, List.getElem_range, pieceRange]
    omega
  · have := pieceCount_le (addr := addr) (k := 4) h64 hl h256
    rw [count]
    exact ⟨by rw [pieceCount, if_neg (by omega)]; exact Nat.succ_pos _, this⟩
  · rw [count]
    exact pieceCount_le (k := 5) h64 hl h320

/-! ## Grants (R138, R140) -/

/-- Setting the log position of a descriptor changes that field of a held descriptor alone (R94). -/
theorem lookupDesc_setLogPos (i u j : Nat) (s : State) : lookupDesc (setLogPos i u s).ss.descs j =
    (lookupDesc s.ss.descs j).map fun x => if j = i then { x with logPos := some u } else x := by
  unfold setLogPos
  split
  · rename_i none
    by_cases h : j = i
    · rw [h, none]; rfl
    · simp [h]
  · rename_i d found
    rw [State.withSs_ss, lookupDesc_insertDesc]
    by_cases h : j = i
    · rw [if_pos h, h, found]; simp
    · simp [h]

theorem setLogPos_ss (i u : Nat) (s : State) : (setLogPos i u s).ss = { s.ss with descs := (setLogPos i u s).ss.descs } := by
  unfold setLogPos
  split <;> rfl

/-- A piece that becomes ISSUED changes its own state in its request record alone (R138). -/
theorem passPieceIssued_records {k i : Nat} {s : State} :
    (∀ m, m ≠ k → (passPieceIssued k i s).mp.records[m]? = s.mp.records[m]?) ∧
    (∀ r, s.mp.records[k]? = some (some r) → (passPieceIssued k i s).mp.records[k]? = some (some (setPassPiece i .issued r))) := by
  unfold passPieceIssued
  refine ⟨fun m hm => ?_, fun r hr => ?_⟩
  · split
    · rfl
    · simp [Ne.symm hm]
  · have hk : k < s.mp.records.length := by
      by_contra h
      rw [List.getElem?_eq_none (Nat.le_of_not_lt h)] at hr
      cases hr
    rw [List.getD_eq_getElem?_getD, hr]
    simp [hk]

/-- The owner's part of a first grant touches request records and log positions alone. -/
theorem firstGrant_mp (p : Piece) (s : State) : (firstGrant p s).mp = { s.mp with records := (firstGrant p s).mp.records } := by
  unfold firstGrant
  split
  · unfold passPieceIssued
    split <;> rfl
  · split <;> simp
  · rfl

theorem firstGrant_ss (p : Piece) (s : State) : (firstGrant p s).ss = { s.ss with descs := (firstGrant p s).ss.descs } := by
  unfold firstGrant
  split
  · simp
  · split
    · exact setLogPos_ss ..
    · rfl
  · rfl

/-- A grant, when a class wins and an entry is FREE (R140). -/
theorem exec_grant {s : State} {c : RequestClass} {k : Nat} {p : Piece} {rest : List Piece} (hl : Live s)
    (hw : winner s.mp = some c) (hk : freeEntry s.mp = some k) (hr : readyOf s.mp c = p :: rest) (hp : s.cc.path ≠ .safe) :
    exec .arbiterGrant s = .next (followDrain (firstGrant p (s.withMp (placePiece c k p s.mp)))) := by
  rw [exec_live .arbiterGrant hl]
  simp only [effect]
  rw [if_neg hp, grantOne, hw, hk]
  simp only [hr]

theorem followDrain_eq (s : State) : followDrain s = s.withPf (followDrain s).pf := by
  unfold followDrain
  split <;> rfl

/-- Settles O32: the placed piece, its owner's part, and the drain. -/
theorem arbiterGrantsInRotation : Obligations.ArbiterGrantsInRotation := by
  intro s c k p rest hl hw hk hr
  refine ⟨fun hp => ⟨_, exec_grant hl hw hk hr hp, ?_⟩, fun hp => ?_⟩
  · generalize hu : s.withMp (placePiece c k p s.mp) = u
    have port : u.mp = placePiece c k p s.mp := by rw [← hu]; rfl
    have mem : (followDrain (firstGrant p u)).mp = { placePiece c k p s.mp with records := (firstGrant p u).mp.records } := by
      rw [(followDrain_frame _).2.2.2.2.2.2.2.1, firstGrant_mp, port]
    have store : (followDrain (firstGrant p u)).ss = (firstGrant p u).ss := (followDrain_frame _).2.2.1
    have before : u.ss = s.ss := by rw [← hu]; rfl
    have records : u.mp.records = s.mp.records := by rw [port]; simp [placePiece]
    refine ⟨?_, ?_, ?_, ?_, fun c' hc' => ?_, ?_, fun none => ?_, fun m i ho => ⟨fun m' hm => ?_, fun r hm => ?_⟩, ⟨?_, fun d => ?_⟩,
      fun hd => ?_, fun hd => ?_, fun b hb => ?_⟩
    · rw [mem]; rfl
    · rw [mem]; cases c <;> rfl
    · rw [mem]; rfl
    · rw [mem]
      cases c <;> simp_all [placePiece, readyOf, setReady]
    · rw [mem]
      cases c <;> cases c' <;> simp_all [placePiece, readyOf, setReady]
    · rw [mem]; simp [placePiece]
    · rw [mem]
      change (firstGrant p u).mp.records = _
      rw [← records]
      unfold firstGrant
      split
      · rename_i m i ho
        exact absurd ho (none m i)
      · split <;> simp
      · rfl
    · rw [mem]
      change (firstGrant p u).mp.records[m']? = _
      simp only [firstGrant, ho]
      rw [passPieceIssued_records.1 m' hm, records]
    · refine ⟨setPassPiece i .issued r, ?_, rfl, by simp [setPassPiece], fun j => ?_⟩
      · rw [mem]
        change (firstGrant p u).mp.records[m]? = _
        simp only [firstGrant, ho]
        exact passPieceIssued_records.2 r (by rw [records]; exact hm)
      · simp only [setPassPiece, List.getElem?_map, List.getElem?_zipIdx]
        cases r.pieces[j]? <;> simp
    · rw [store, firstGrant_ss, before]
    · rw [store, ← before]
      unfold firstGrant
      split
      · rename_i ho; simp [ho]
      · rename_i a d' v ho
        rw [ho]
        split
        · rename_i hz
          rw [lookupDesc_setLogPos]
          simp [hz]
        · rename_i hz
          simp [hz]
      · rename_i h1 h2
        split
        · rename_i a d' v ho
          exact absurd ho (h2 a d' v)
        · simp
    · have : u.cc = s.cc := by rw [← hu]; rfl
      rw [followDrain, if_neg (by simpa [this] using hd), (firstGrant_frame p u).2.2.2.2.2.2.2.1, ← hu]
      rfl
    · have same : (firstGrant p u).cc = s.cc ∧ (firstGrant p u).le = s.le ∧ (firstGrant p u).pf = s.pf := by simp [← hu]
      have issued : issuedCount (fun _ => true) (firstGrant p u).mp = issuedCount (fun _ => true) s.mp + 1 :=
        issuedCount_granted hk (by rw [firstGrant_entries, port]; rfl) _
      rw [followDrain, if_pos (by rw [same.1]; exact hd)]
      simp only [State.withPf_pf, drainNow, same, issued]
    · rw [followDrain_eq, ← hu]
      cases b <;> simp [sameBlock] at hb ⊢
  · rw [exec_live .arbiterGrant hl]
    simp [effect, hp]

/-! ## Retries (R145) -/

/-- Settles O35: the retried piece, and what the event then leaves due. -/
theorem failedAttemptIsRetried : Obligations.FailedAttemptIsRetried := by
  intro c id s p timer hl hs hc hr he hf mp again
  have entry : s.mp.entries.getD id.toNat .free = .issued p timer false := by rw [List.getD_eq_getElem?_getD, he]; rfl
  have tries : triesAgain s.mg.cfg p false = true := by simp [triesAgain, hc, hr]
  generalize hu : (afterFailure c id p s).withMp (if ownerClass p.owner = .log
      then { mp with readyLog := again :: mp.readyLog } else { mp with readyApply := again :: mp.readyApply }) = u
  have retried : retryPiece p (afterFailure c id p s) = u := by
    rw [← hu, retryPiece]
    cases hk : ownerClass p.owner with
    | pass => exact absurd hk hc
    | log => rfl
    | apply => rfl
  rw [exec_attemptFails hl entry hf, tries, if_pos rfl, retried]
  have control : u.cc = s.cc := by rw [← hu]; rfl
  have recovery : u.re = s.re := by rw [← hu]; rfl
  obtain ⟨e, free, entries⟩ := failureMp_entries c id p s.mp
  have table : u.mp.entries.map issuedPiece = (s.mp.entries.set id.toNat e).map issuedPiece := by
    rw [← hu, ← entries]
    split <;> rfl
  rcases hs with hs | ⟨hq, hend⟩
  · rw [settle_quiescing u (by rw [Quiescing, control, recovery]; exact hs), afterEvent, if_neg (by rw [control]; exact hs.2.1)]
  · have ending : endingDue u = false := by
      by_cases hm : s.re.mode = .ending
      · exact endingDue_quiet (fun h => (hend h).2) entry (hend hm).1 free table recovery
      · simp [endingDue, recovery, hm]
    rw [settle_afterDrain u ending (by simp [discardDue, control, hq]), afterEvent, if_pos (by rw [control]; exact hq)]

end Sys2Proof.Machine
end

section
/-! PROOF. The staging store's words: what is stored where, the check of a word, the read-out of a descriptor, and the merge
overlay of a walk (R20, R21, R29 to R31, R129). -/

namespace Sys2Proof.Machine

/-! ## The check of a word -/

theorem wordBytes_length (cells : List Host.Cell) (w : Nat) : (wordBytes cells w).length = 8 := by simp [wordBytes]

theorem checkWord_bytes_length (ss : Staging) (w : Nat) : (checkWord ss w).bytes.length = 8 := by
  unfold checkWord
  dsimp only
  split <;> simp [wordBytes_length]

theorem checkWord_unchanged {ss : Staging} {w : Nat} (h : (ss.flips.filter fun f => f.1 == w).length = 0) :
    checkWord ss w = ⟨.clean, wordBytes ss.cells w⟩ := by
  have hf : flipsOf ss.flips w = [] := by rw [flipsOf, List.length_eq_zero_iff.mp h]; rfl
  unfold checkWord
  rw [hf]

theorem checkWord_oneChanged {ss : Staging} {w : Nat} (h : (ss.flips.filter fun f => f.1 == w).length = 1) :
    checkWord ss w = ⟨.corrected, wordBytes ss.cells w⟩ := by
  obtain ⟨f, hf⟩ := List.length_eq_one_iff.mp h
  have hf : flipsOf ss.flips w = [f.2] := by rw [flipsOf, hf]; rfl
  unfold checkWord
  rw [hf]

theorem checkWord_twoChanged {ss : Staging} {w : Nat} (h : (ss.flips.filter fun f => f.1 == w).length = 2) :
    checkWord ss w = ⟨.uncorrectable, wordBytes ss.cells w⟩ := by
  obtain ⟨f, g, hf⟩ := List.length_eq_two.mp h
  have hf : flipsOf ss.flips w = [f.2, g.2] := by rw [flipsOf, hf]; rfl
  unfold checkWord
  rw [hf]

/-! ## The segments of a write -/

theorem segmentBytes_length (data : List Byte) (i : Nat) : (segmentBytes data i).length = 64 := by
  simp [segmentBytes, Config.segmentBytes]

theorem segmentBytes_getD {data : List Byte} {i j : Nat} (h : j < 64) :
    (segmentBytes data i).getD j 0 = data.getD (64 * i + j) 0 := by
  simp [segmentBytes, Config.segmentBytes, h]

/-- After one segment is written, its bytes read as written and every other byte as before. -/
theorem readCell_writeSegment {cs : List Host.Cell} (x g i : Nat) (data : List Byte) (h : cellsWf cs = true) :
    readCell (writeCells cs (64 * g) (segmentBytes data i)) x =
      if x / 64 = g then data.getD (64 * i + x % 64) 0 else readCell cs x := by
  rw [readCell_writeCells _ _ _ h, segmentBytes_length]
  by_cases hx : x / 64 = g
  · have hg : x - 64 * g = x % 64 := by omega
    rw [if_pos hx, if_pos (by omega), hg, segmentBytes_getD (by omega)]
  · rw [if_neg hx, if_neg (by omega)]

/-- After segments are written from position `n` of the data on, a byte of one of them reads as written and every other byte as
before. -/
theorem readCell_foldl_segments (data : List Byte) (x : Nat) {segs : List Nat} (hnd : segs.Nodup) (n : Nat)
    {cs : List Host.Cell} (h : cellsWf cs = true) :
    let written := (segs.zipIdx n).foldl (fun cs (p : Nat × Nat) => writeCells cs (64 * p.1) (segmentBytes data p.2)) cs
    (∀ i, segs[i]? = some (x / 64) → readCell written x = data.getD (64 * (n + i) + x % 64) 0) ∧
      (x / 64 ∉ segs → readCell written x = readCell cs x) := by
  induction segs generalizing n cs with
  | nil => simp
  | cons g segs ih =>
    obtain ⟨hg, hnd⟩ := List.nodup_cons.mp hnd
    obtain ⟨hin, hout⟩ := ih hnd (n + 1) (cellsWf_writeCells (64 * g) (segmentBytes data n) h)
    simp only [List.zipIdx_cons, List.foldl_cons]
    refine ⟨fun i hi => ?_, fun hx => ?_⟩
    · cases i with
      | zero =>
        have hgx : g = x / 64 := by simpa using hi
        rw [hout (hgx ▸ hg), readCell_writeSegment _ _ _ _ h, if_pos hgx.symm, Nat.add_zero]
      | succ i => rw [hin i (by simpa using hi), Nat.add_right_comm, Nat.add_assoc n]
    · obtain ⟨hne, hx⟩ := not_or.mp (mt List.mem_cons.mpr hx)
      rw [hout hx, readCell_writeSegment _ _ _ _ h, if_neg hne]

/-- Every word of a segment just taken has no changed bit. -/
theorem flips_allocate (r : HostRequest) {ss : Staging} {w : Nat} (h : w / 8 ∈ ss.segPool.take (needSegs r.length)) :
    ((allocate r ss).flips.filter fun f => f.1 == w).length = 0 := by
  rw [List.length_eq_zero_iff, List.filter_eq_nil_iff]
  intro f hf hw
  obtain ⟨-, hf⟩ := List.mem_filter.mp hf
  simp [eq_of_beq hw, h] at hf

/-! ## Words counted -/

/-- The number of words with result `x` among the checks made. -/
def resultCount (x : EccResult) (cs : List WordCheck) : Nat := (cs.filter fun c => c.result == x).length

/-- `k` corrected and `u` uncorrectable words counted (R30). -/
def wordsCounted (k u : Nat) (s : State) : State :=
  (s.withSs { s.ss with corrected := s.ss.corrected + BitVec.ofNat 32 k, uncorrectable := s.ss.uncorrectable + BitVec.ofNat 32 u }).withMg
    (if 0 < u then { s.mg with causes := s.mg.causes ||| 16#7 } else s.mg)

theorem foldl_countCheck (cs : List WordCheck) (s : State) :
    cs.foldl countCheck s = wordsCounted (resultCount .corrected cs) (resultCount .uncorrectable cs) s := by
  induction cs generalizing s with
  | nil => simp [wordsCounted, resultCount, State.withSs, State.withMg]
  | cons c cs ih =>
    rw [List.foldl_cons, ih]
    have hsum : ∀ (v : Word32) (n : Nat), v + 1#32 + BitVec.ofNat 32 n = v + BitVec.ofNat 32 (n + 1) := fun v n => by
      rw [BitVec.ofNat_add]; exact (BitVec.add_assoc ..).trans (congrArg (v + ·) (BitVec.add_comm ..))
    obtain ⟨result, bytes⟩ := c
    cases result with
    | clean => simp [countCheck, resultCount]
    | corrected => simp [countCheck, resultCount, wordsCounted, State.withSs, State.withMg, hsum]
    | uncorrectable =>
      have hor : s.mg.causes ||| 16#7 ||| 16#7 = s.mg.causes ||| 16#7 := by rw [BitVec.or_assoc]; congr
      by_cases hu : 0 < (cs.filter fun c => c.result == .uncorrectable).length <;>
        simp [countCheck, resultCount, wordsCounted, State.withSs, State.withMg, setCause, causeBit, hsum, hu, hor]

theorem combineChecks_eq (cs : List WordCheck) :
    combineChecks cs = if 0 < resultCount .uncorrectable cs then .uncorrectable
      else if 0 < resultCount .corrected cs then .corrected else .clean := by
  have hany : ∀ x, cs.any (fun c => c.result == x) = decide (0 < resultCount x cs) := fun x => by
    rw [Bool.eq_iff_iff]; simp [resultCount, List.length_pos_iff_exists_mem]
  simp [combineChecks, hany]

theorem resultCount_map {α : Type} (x : EccResult) (f : α → WordCheck) (xs : List α) :
    resultCount x (xs.map f) = (xs.filter fun i => (f i).result == x).length := by
  simp [resultCount, List.filter_map, Function.comp_def]

/-! ## Bytes of consecutive words -/

/-- The bytes of words of eight, one after another: byte k is byte k mod 8 of word k/8. -/
theorem flatMap_words_getElem? {α : Type} (f : α → List Byte) (hf : ∀ w, (f w).length = 8) (ws : List α) (k : Nat) :
    (ws.flatMap f)[k]? = ws[k / 8]?.bind fun w => (f w)[k % 8]? := by
  induction ws generalizing k with
  | nil => simp
  | cons w ws ih =>
    rw [List.flatMap_cons]
    by_cases hk : k < 8
    · rw [List.getElem?_append_left (by rw [hf]; exact hk), Nat.div_eq_of_lt hk, Nat.mod_eq_of_lt hk]; rfl
    · obtain ⟨m, rfl⟩ : ∃ m, k = m + 8 := ⟨k - 8, by omega⟩
      rw [List.getElem?_append_right (by rw [hf]; omega), hf, Nat.add_sub_cancel, ih, Nat.add_div_right m (by omega),
        Nat.add_mod_right]; rfl

theorem flatMap_words_length {α : Type} (f : α → List Byte) (hf : ∀ w, (f w).length = 8) (ws : List α) :
    (ws.flatMap f).length = 8 * ws.length := by
  simp [List.length_flatMap, hf, Nat.mul_comm]

theorem readWords_bytes (ws : List Nat) (s : State) : (readWords ws s).2.1 = ws.flatMap fun w => (checkWord s.ss w).bytes :=
  List.flatMap_map ..

/-- Settles O16: the segments hold what was written, the check of a word follows its changed bits, and a read-out is its words'
checks combined and counted. -/
theorem segmentsHoldTheData : Obligations.SegmentsHoldTheData := by
  unfold Obligations.SegmentsHoldTheData
  refine ⟨fun r ss x hwf hnd => ?_, fun ss w => ?_, fun d s => ?_⟩
  · obtain ⟨hin, hout⟩ := readCell_foldl_segments (writeData r) x (hnd.sublist (List.take_sublist ..)) 0 hwf
    refine ⟨fun i hi => ?_, hout, fun w hw => ?_⟩
    · have := hin i hi
      rwa [Nat.zero_add] at this
    · rw [checkWord_unchanged (flips_allocate r hw)]
  · exact ⟨checkWord_unchanged, checkWord_oneChanged, fun h => by rw [checkWord_twoChanged h], checkWord_bytes_length ss w⟩
  · intro word found read
    have hcount : ∀ x, resultCount x (((List.range (ceilDiv d.length 8)).map (descWord d)).map (checkWord s.ss)) = found x :=
      fun x => by rw [List.map_map, resultCount_map]; rfl
    refine ⟨?_, ?_, fun j hj => ?_, ?_⟩
    · exact (combineChecks_eq _).trans (by simp only [hcount])
    · have hlen : ((readWords ((List.range (ceilDiv d.length 8)).map (descWord d)) s).2.1).length = 8 * ceilDiv d.length 8 := by
        rw [readWords_bytes, flatMap_words_length _ (checkWord_bytes_length s.ss)]; simp
      exact (List.length_take ..).trans (by rw [hlen, ceilDiv]; omega)
    · have hw : j / 8 < ceilDiv d.length 8 := by rw [ceilDiv]; omega
      refine (List.getElem?_take_of_lt hj).trans ?_
      rw [readWords_bytes, flatMap_words_getElem? _ (checkWord_bytes_length s.ss)]
      simp [hw, word, descWord]
    · exact (foldl_countCheck _ _).trans (by simp only [hcount]; rfl)

/-! ## The merge overlay -/

/-- Two states read the same staged words: the same descriptors held, the same bytes and the same changed bits. -/
structure SameWords (s t : State) : Prop where
  descs : t.ss.descs = s.ss.descs
  cells : t.ss.cells = s.ss.cells
  flips : t.ss.flips = s.ss.flips

section
variable {s t u : State}

theorem SameWords.rfl : SameWords s s := ⟨Eq.refl _, Eq.refl _, Eq.refl _⟩

theorem SameWords.trans (h : SameWords s t) (g : SameWords t u) : SameWords s u :=
  ⟨g.descs.trans h.descs, g.cells.trans h.cells, g.flips.trans h.flips⟩

theorem SameWords.checkWord (h : SameWords s t) (w : Nat) : checkWord t.ss w = checkWord s.ss w := by
  simp only [Machine.checkWord, h.cells, h.flips]

theorem SameWords.descAt (h : SameWords s t) (i : Nat) : descAt t i = descAt s i := by simp only [Machine.descAt, h.descs]

theorem SameWords.writerByte (h : SameWords s t) (x i : Nat) : writerByte t x i = writerByte s x i := by
  simp only [Machine.writerByte, stagedByte, h.descAt, h.checkWord]

theorem SameWords.lastWritten (h : SameWords s t) (x : Nat) (is : List Nat) : lastWritten t x is = lastWritten s x is :=
  congrArg (fun f => is.reverse.findSome? f) (funext (h.writerByte x))

/-- What words read is the same in both states. -/
theorem SameWords.readWords (h : SameWords s t) (ws : List Nat) :
    (readWords ws t).1 = (readWords ws s).1 ∧ (readWords ws t).2.1 = (readWords ws s).2.1 := by
  have : ws.map (Machine.checkWord t.ss) = ws.map (Machine.checkWord s.ss) := congrArg (fun f => ws.map f) (funext h.checkWord)
  exact ⟨congrArg combineChecks this, congrArg (fun cs => cs.flatMap WordCheck.bytes) this⟩

end

/-- Reading words changes no word. -/
theorem readWords_sameWords (ws : List Nat) (s : State) : SameWords s (readWords ws s).2.2 := by
  have h : (readWords ws s).2.2 = wordsCounted _ _ s := foldl_countCheck (ws.map (checkWord s.ss)) s
  rw [h]
  exact ⟨rfl, rfl, rfl⟩

/-- The overlay depends on the descriptors held, the bytes and the changed bits alone. -/
theorem overlayWalk_congr {a len : Nat} {s t : State} (h : SameWords s t) (is : List Nat) (ov : List (Option Byte)) :
    (overlayWalk a len is ov t).1 = (overlayWalk a len is ov s).1 := by
  induction is generalizing ov s t with
  | nil => rfl
  | cons i is ih =>
    obtain ⟨hres, hbytes⟩ := h.readWords (sharedWords a len (descAt s i))
    have hnext := ((readWords_sameWords (sharedWords a len (descAt s i)) t))
    have hstep : SameWords (readWords (sharedWords a len (descAt s i)) s).2.2
        (readWords (sharedWords a len (descAt s i)) t).2.2 :=
      have hs := readWords_sameWords (sharedWords a len (descAt s i)) s
      ⟨(h.trans hnext).descs.trans hs.descs.symm, (h.trans hnext).cells.trans hs.cells.symm,
        (h.trans hnext).flips.trans hs.flips.symm⟩
    simp only [overlayWalk, h.descAt, hres, hbytes]
    split
    · split
      · rfl
      · exact ih hstep _
    · exact ih h _

/-- A descriptor that shares no byte with the read writes none of its bytes. -/
theorem writerByte_apart {s : State} {a len i j : Nat}
    (h : ¬ rangesMeet a len (descAt s i).addr.toNat (descAt s i).length = true) (hj : j < len) :
    writerByte s (a + j) i = none := by
  simp only [rangesMeet, decide_eq_true_eq] at h
  simp only [writerByte]
  rw [if_neg]
  rintro ⟨h1, h2, -⟩
  omega

/-- A byte that a descriptor shares with the read stands among the words read of it. -/
theorem sharedWords_getD {s : State} {a len j : Nat} {d : Descriptor} (hj : j < len) (hlow : d.addr.toNat ≤ a + j)
    (hhigh : a + j < d.addr.toNat + d.length) :
    (readWords (sharedWords a len d) s).2.1.getD (a + j - d.addr.toNat - 8 * (shareFrom a d / 8)) 0 =
      stagedByte s d (a + j - d.addr.toNat) := by
  have hfrom : shareFrom a d / 8 ≤ (a + j - d.addr.toNat) / 8 := Nat.div_le_div_right (by rw [shareFrom]; omega)
  have hto : (a + j - d.addr.toNat) / 8 ≤ (shareTo a len d - 1) / 8 := Nat.div_le_div_right (by rw [shareTo]; omega)
  generalize a + j - d.addr.toNat = x at hfrom hto ⊢
  have hdiv : (x - 8 * (shareFrom a d / 8)) / 8 = x / 8 - shareFrom a d / 8 := by omega
  have hmod : (x - 8 * (shareFrom a d / 8)) % 8 = x % 8 := by omega
  have hword : shareFrom a d / 8 + (x / 8 - shareFrom a d / 8) = x / 8 := by omega
  rw [List.getD_eq_getElem?_getD, readWords_bytes, flatMap_words_getElem? _ (checkWord_bytes_length s.ss), hdiv, hmod,
    sharedWords, List.getElem?_map, List.getElem?_range' (by omega), Nat.one_mul, hword]
  rfl

/-- The overlay after one descriptor is laid over it: its byte where it writes one, else the byte before. -/
theorem layBytes_getD {s : State} {a len i j : Nat} {ov : List (Option Byte)} (hj : j < len) (hov : ov.length = len) :
    (layBytes a (descAt s i) (readWords (sharedWords a len (descAt s i)) s).2.1 ov).getD j none =
      (writerByte s (a + j) i).or (ov.getD j none) := by
  have hget : ov[j]? = some ov[j] := List.getElem?_eq_getElem (by omega)
  simp only [layBytes, List.getD_eq_getElem?_getD, List.getElem?_map, List.getElem?_zipIdx, hget, Option.map_some, Nat.zero_add,
    Option.getD_some, writerByte]
  by_cases h : (descAt s i).addr.toNat ≤ a + j ∧ a + j < (descAt s i).addr.toNat + (descAt s i).length ∧
      selects (descAt s i).mask (a + j - (descAt s i).addr.toNat) = true
  · obtain ⟨h1, h2, h3⟩ := h
    rw [if_pos (by simp [h1, h2, h3]), if_pos ⟨h1, h2, h3⟩, ← List.getD_eq_getElem?_getD, sharedWords_getD hj h1 h2]; rfl
  · rw [if_neg h, if_neg (by simpa using h)]; rfl

theorem lastWritten_cons (s : State) (x i : Nat) (is : List Nat) :
    lastWritten s x (i :: is) = (lastWritten s x is).or (writerByte s x i) := by
  simp [lastWritten]

/-- A walk over an overlay: the last writer's byte where one of the list writes the byte, else the byte before. -/
theorem overlayWalk_spec {a len : Nat} (is : List Nat) {s t : State} {ov res : List (Option Byte)} (hov : ov.length = len)
    (h : overlayWalk a len is ov s = (some res, t)) :
    res.length = len ∧ ∀ j, j < len → res.getD j none = (lastWritten s (a + j) is).or (ov.getD j none) := by
  induction is generalizing s ov with
  | nil =>
    obtain ⟨rfl, -⟩ : ov = res ∧ s = t := by simpa [overlayWalk] using h
    exact ⟨hov, fun j _ => rfl⟩
  | cons i is ih =>
    simp only [overlayWalk] at h
    split at h
    · split at h
      · simp at h
      · obtain ⟨hlen, hbytes⟩ := ih (by simpa [layBytes] using hov) h
        refine ⟨hlen, fun j hj => ?_⟩
        rw [hbytes j hj, (readWords_sameWords _ s).lastWritten, layBytes_getD hj hov, lastWritten_cons, Option.or_assoc]
    next hmeet =>
      obtain ⟨hlen, hbytes⟩ := ih hov h
      refine ⟨hlen, fun j hj => ?_⟩
      rw [hbytes j hj, lastWritten_cons, writerByte_apart hmeet hj, Option.or_none]

/-- Settles O13, by induction on the group's list with the overlay generalised. -/
theorem overlayHoldsLastWriter : Obligations.OverlayHoldsLastWriter := by
  unfold Obligations.OverlayHoldsLastWriter
  intro a len is s t ov h
  obtain ⟨hlen, hbytes⟩ := overlayWalk_spec is List.length_replicate h
  refine ⟨hlen, fun j hj => (hbytes j hj).trans ?_⟩
  simp [List.getD_eq_getElem?_getD, hj]

end Sys2Proof.Machine
end

section
/-! PROOF. The outcome of a piece of a pass-through request, and the completion of its record (R133, R134, R138, R147): O36. -/

namespace Sys2Proof.Machine

/-! ## The record after an outcome -/

/-- A read that holds a merge slot (R128, R133). -/
def holdsSlot (r : PassRecord) (slots : List (Option MergeSlot)) : Bool := r.kind == .read && (slotOverlay slots r.id).isSome

/-- The record when piece `pc`, its `i`-th, has had its outcome: its state, and the bytes that a read piece returned (R138, R147). -/
def outcomeTaken (i : Nat) (pc : PassPiece) (outcome : Option (List Byte)) (r : PassRecord) : PassRecord :=
  { r with
    pieces := r.pieces.set i { pc with state := if outcome.isSome then .completedOk else .completedErr }
    buffer := match outcome with
      | some bytes => if r.kind = .read then fillBuffer pc.offset bytes r.buffer else r.buffer
      | none => r.buffer }

theorem setPassPiece_pieces {r : PassRecord} {i : Nat} {pc : PassPiece} (st : PassPieceState) (h : r.pieces[i]? = some pc) :
    (setPassPiece i st r).pieces = r.pieces.set i { pc with state := st } := by
  apply List.ext_getElem?
  intro j
  simp only [setPassPiece, List.getElem?_map, List.getElem?_zipIdx, Nat.zero_add, List.getElem?_set]
  by_cases hj : i = j
  · subst hj
    obtain ⟨hi, rfl⟩ := List.getElem?_eq_some_iff.mp h
    simp [hi]
  · cases r.pieces[j]? <;> simp [hj, Ne.symm hj]

theorem fillBuffer_getElem? (off : Nat) (bytes : List Byte) (buffer : List (Option Byte)) (j : Nat) :
    (fillBuffer off bytes buffer)[j]? =
      buffer[j]?.map fun old => if off ≤ j ∧ j < off + bytes.length then bytes[j - off]? else old := by
  simp only [fillBuffer, List.getElem?_map, List.getElem?_zipIdx, Nat.zero_add, Option.map_map]
  rfl

/-- An outcome marks the piece, and the record is completed when it was the last one (R147). -/
theorem passPieceDone_eq {k i : Nat} {s : State} {r : PassRecord} {pc : PassPiece} (outcome : Option (List Byte))
    (hr : s.mp.records[k]? = some (some r)) (hp : r.pieces[i]? = some pc) :
    passPieceDone k i outcome s =
      completePass k (s.withMp { s.mp with records := s.mp.records.set k (some (outcomeTaken i pc outcome r)) }) := by
  have hget : s.mp.records.getD k none = some r := by rw [List.getD_eq_getElem?_getD, hr]; rfl
  have hoff : (r.pieces.map PassPiece.offset).getD i 0 = pc.offset := by
    rw [List.getD_eq_getElem?_getD, List.getElem?_map, hp]; rfl
  have hset : ∀ st, setPassPiece i st r = { r with pieces := r.pieces.set i { pc with state := st } } := fun st => by
    rw [← setPassPiece_pieces st hp]; rfl
  unfold passPieceDone
  rw [hget]
  dsimp only
  rw [hoff, hset, hset]
  cases outcome with
  | none => rfl
  | some bytes => by_cases hk : r.kind = .read <;> simp [outcomeTaken, hk]

/-! ## The completion of a record -/

/-- The slots when a completed read has freed its own (R133). -/
def slotsFreed (r : PassRecord) (slots : List (Option MergeSlot)) : List (Option MergeSlot) :=
  slots.map fun m => if holdsSlot r slots && (m.map MergeSlot.id == some r.id) then none else m

theorem slotsFreed_eq (r : PassRecord) (slots : List (Option MergeSlot)) :
    slotsFreed r slots = if holdsSlot r slots then freeSlot r.id slots else slots := by
  unfold slotsFreed freeSlot
  cases holdsSlot r slots with
  | false => simp
  | true =>
    refine List.map_congr_left fun m _ => ?_
    cases m <;> simp

/-- The state when record `k` has completed, before what that wakes: its answer is produced in its place, its slot, its record and its
id are free (R133, R134, R147). -/
def passCompleted (k : Nat) (r : PassRecord) (s : State) : State :=
  (s.withHp { owedAnswered s.hp ⟨r.id, passAnswer r, passData r s.hp.slots⟩ with slots := slotsFreed r s.hp.slots }).withMp
    { s.mp with records := s.mp.records.set k none }

theorem completePass_open {k : Nat} {s : State} {r : PassRecord} (hr : s.mp.records[k]? = some (some r)) (ho : passOpen r = true) :
    completePass k s = s := by
  simp [completePass, List.getD_eq_getElem?_getD, hr, ho]

theorem completePass_closed {k : Nat} {s : State} {r : PassRecord} (hr : s.mp.records[k]? = some (some r))
    (ho : passOpen r = false) :
    completePass k s = evaluate .recordFreed
      (if holdsSlot r s.hp.slots then evaluate .slotFreed (passCompleted k r s) else passCompleted k r s) := by
  simp only [completePass, List.getD_eq_getElem?_getD, hr, Option.getD_some, ho, passCompleted, slotsFreed_eq, holdsSlot]
  rfl

/-- A freed record can be taken. -/
theorem firstAbsent_freed {α : Type} (xs : List (Option α)) {k : Nat} (hk : k < xs.length) :
    ∃ m, firstAbsent (xs.set k none) = some m := by
  have : ((xs.set k none).findIdx? Option.isNone).isSome = true := by
    rw [List.findIdx?_isSome, List.any_eq_true]
    exact ⟨none, List.mem_set hk _, rfl⟩
  exact Option.isSome_iff_exists.mp this

/-! ## What the completion wakes -/

theorem wakes_slotFreed (c : HoldCondition) : wakes c .slotFreed = (c == .noMergeSlot) := by cases c <;> rfl

theorem wakes_recordFreed (c : HoldCondition) : wakes c .recordFreed = (c == .passListFull) := by cases c <;> rfl

theorem unwoken_slotFreed {s : State} (h : s.hp.hold ≠ some .noMergeSlot) : Unwoken .slotFreed s :=
  .inl fun c hc => by rw [wakes_slotFreed]; simp only [beq_eq_false_iff_ne]; rintro rfl; exact h hc

theorem unwoken_recordFreed {s : State} (h : s.hp.hold ≠ some .passListFull) : Unwoken .recordFreed s :=
  .inl fun c hc => by rw [wakes_recordFreed]; simp only [beq_eq_false_iff_ne]; rintro rfl; exact h hc

/-- The state `u` and what its slot and its record, now free, wake. -/
def freedWakes (held : Bool) (u : State) : State := evaluate .recordFreed (if held then evaluate .slotFreed u else u)

section
variable {u : State} {held : Bool} {q : HostRequest}

theorem freedWakes_kept : ControlKept u (freedWakes held u) := by
  unfold freedWakes
  cases held with
  | false => exact evaluate_kept _ _
  | true => exact (evaluate_kept _ _).trans (evaluate_kept _ _)

theorem freedWakes_re : (freedWakes held u).re = u.re := by
  unfold freedWakes
  cases held <;> simp

theorem freedWakes_unwoken (h1 : Unwoken .slotFreed u) (h2 : Unwoken .recordFreed u) : freedWakes held u = u := by
  unfold freedWakes
  cases held with
  | false => exact evaluate_unwoken h2
  | true =>
    rw [if_pos rfl, evaluate_unwoken h1]
    exact evaluate_unwoken h2

/-- A request that holds on the full list goes the read path anew (R13). -/
theorem freedWakes_listFull (hh : u.hp.hold = some .passListFull) (hs : HoldSound u) (hq : u.hp.intake.head? = some q)
    (ht : pathTakes u.cc = true) : freedWakes held u = passThrough q u ∧ protocolError u.hp.inflight q = false := by
  obtain ⟨r, hr, he, hp⟩ := hs.head _ hh
  obtain rfl : r = q := Option.some.inj (hr.symm.trans hq)
  have hwake : evaluate .recordFreed u = passThrough r u := evaluate_onReadPath hh hr hp rfl ht
  have hsame : (if held then evaluate .slotFreed u else u) = u := by
    rw [evaluate_unwoken (unwoken_slotFreed (by rw [hh]; nofun)), ite_self]
  exact ⟨by rw [freedWakes, hsame, hwake], he⟩

/-- A read that holds on no free merge slot takes the freed one, when its overlay is correct (R13, R129). -/
theorem freedWakes_noSlot {n m : Nat} {ov : List (Option Byte)} (hl : Live u) (hh : u.hp.hold = some .noMergeSlot) (hs : HoldSound u)
    (hq : u.hp.intake.head? = some q) (hp : u.cc.path = .run) (ho : (ctxOf u q.tag).state = .opened)
    (hn : firstAbsent u.hp.slots = some n) (hm : firstAbsent u.mp.records = some m)
    (hc : overlapsSide (fun st => loggingSide st || homeSide st) u q.addr.toNat q.length = false)
    (hw : (overlayWalk q.addr.toNat q.length (ctxOf u q.tag).writes (List.replicate q.length none) u).1 = some ov) :
    (freedWakes true u).mp = passSent u.mg.cfg u.mp m q ∧
      (freedWakes true u).hp = { holdDispatched u.hp q with slots := u.hp.slots.set n (some ⟨q.id, q.addr, q.length, ov⟩) } := by
  obtain ⟨r, hr, sound, hk⟩ := hs.head _ hh
  obtain rfl : r = q := Option.some.inj (hr.symm.trans hq)
  have slot : needsSlot r u = true := needsSlot_iff.mpr ⟨of_decide_eq_true hk, ho⟩
  have frame := overlayWalk_frame r.addr.toNat r.length (ctxOf u r.tag).writes (List.replicate r.length none) u
  generalize hv : overlayWalk r.addr.toNat r.length (ctxOf u r.tag).writes (List.replicate r.length none) u = v at frame hw
  obtain ⟨res, v⟩ := v
  obtain rfl : res = some ov := hw
  obtain ⟨-, whp, -, -, -, -, wmp, -, wpf, wcfg⟩ := frame
  replace whp : v.hp = u.hp := whp
  replace wmp : v.mp = u.mp := wmp
  replace wpf : v.pf = u.pf := wpf
  replace wcfg : v.mg.cfg = u.mg.cfg := wcfg
  have read : passThrough r u = sendPass r (takeSlot r ov v) := by
    unfold passThrough
    dsimp only
    rw [passThrough_clear hc, slot, if_neg nofun, if_neg (by simp [hc]), if_neg (by simp [hn]), if_neg (by simp [hm]), if_pos rfl,
      overlayRead, hv]
  have taken : takeSlot r ov v = v.withHp { u.hp with slots := u.hp.slots.set n (some ⟨r.id, r.addr, r.length, ov⟩) } := by
    simp only [takeSlot, whp, hn]
  have sent : freedWakes true u = (v.withHp { holdDispatched u.hp r with
      slots := u.hp.slots.set n (some ⟨r.id, r.addr, r.length, ov⟩) }).withMp (passSent u.mg.cfg u.mp m r) := by
    rw [freedWakes, if_pos rfl, evaluate_onReadPath hh hr (by rw [onReadPath, show isRead r = true from hk]; rfl) rfl
      (by simp [pathTakes, hp]), read, taken, sendPass_eq r _ m (by rw [Live, State.withHp_pf, wpf]; exact hl)
        (by simpa [wmp] using hm) (by simpa using notInFlight_of_sound sound),
      evaluate_unwoken (unwoken_recordFreed (by simp [holdDispatched, headLeft]))]
    simp only [State.withHp_mp, State.withHp_mg, wmp, wcfg]
    rfl
  rw [sent]
  exact ⟨rfl, rfl⟩

end

/-! ## The event -/

/-- What a failed attempt or a read or write that returned OK reports of a PASS piece (R146, R147). -/
def passOutcome (good : Bool) (data : List Byte) (r : PassRecord) : Option (List Byte) :=
  if good then some (if r.kind = .read then data else []) else none

/-- The memory port when the entry of piece `p` has returned well, has failed or has expired (R142, R143). -/
def outcomeMp (good late : Bool) (id : MemId) (p : Piece) (mp : MemoryPort) : MemoryPort :=
  { mp with
    entries := mp.entries.set id.toNat (if late then .orphaned p else .free)
    errors := if good || late then mp.errors else mp.errors + 1
    timeouts := if late then mp.timeouts + 1 else mp.timeouts
    orphaned := if late then mp.orphaned + 1 else mp.orphaned }

def outcomeMg (late : Bool) (mg : Management) : Management :=
  if late then { mg with causes := mg.causes ||| 32#7 } else mg

section
variable {c : Instr} {id : MemId} {data : List Byte} {s : State} {p : Piece} {t0 : Option (BitVec 16)} {w : Bool} {k i : Nat}
  {r : PassRecord} {good late : Bool}

/-- Any of the three events is the outcome of the piece, reported to its record (R142, R143, R147). -/
theorem exec_passOutcome (hl : Live s) (he : s.mp.entries.getD id.toNat .free = .issued p t0 w) (ho : p.owner = .pass k i)
    (hk : p.kind = r.kind)
    (hc : c = .memoryResponse id .ok data ∨ c = .memoryResponse id .err data ∨ (c = .responseTimeout id ∧ t0 ≠ none))
    (hd : c = .memoryResponse id .ok data → r.kind = .read → data.length = p.length)
    (hgood : decide (c = .memoryResponse id .ok data) = good) (hlate : decide (c = .responseTimeout id) = late) :
    exec c s = .next (settle (passPieceDone k i (passOutcome good data r)
      ((s.withMp (outcomeMp good late id p s.mp)).withMg (outcomeMg late s.mg)))) := by
  have notAgain : triesAgain s.mg.cfg p w = false := by rw [triesAgain, ho]; rfl
  rcases hc with rfl | rfl | ⟨rfl, ht⟩
  · obtain ⟨rfl, rfl⟩ : good = true ∧ late = false := ⟨hgood ▸ decide_eq_true rfl, hlate ▸ decide_eq_false nofun⟩
    cases hr : r.kind with
    | read =>
      rw [response_read hl he (hk.trans hr) (hd rfl hr).symm, ho, passOutcome, if_pos rfl, if_pos hr]
      rfl
    | write =>
      rw [response_acked hl he (hk.trans hr), ho, passOutcome, if_pos rfl, if_neg (by rw [hr]; nofun)]
      rfl
  · obtain ⟨rfl, rfl⟩ : good = false ∧ late = false := ⟨hgood ▸ decide_eq_false nofun, hlate ▸ decide_eq_false nofun⟩
    rw [exec_attemptFails hl he (.inl ⟨data, rfl⟩), notAgain, ho]
    rfl
  · obtain ⟨rfl, rfl⟩ : good = false ∧ late = true := ⟨hgood ▸ decide_eq_false nofun, hlate ▸ decide_eq_true rfl⟩
    rw [exec_attemptFails hl he (.inr ⟨rfl, ht⟩), notAgain, ho]
    simp [afterFailure, failureMp, failureMg, passOutcome, outcomeMp, outcomeMg, reportFailed]

end

/-! ## The record's bytes -/

section
variable {data : List Byte} {i : Nat} {pc : PassPiece} {r : PassRecord} {good : Bool}

theorem outcomeTaken_pieces : (outcomeTaken i pc (passOutcome good data r) r).pieces =
    r.pieces.set i { pc with state := if good then .completedOk else .completedErr } := by
  cases good <;> rfl

theorem outcomeTaken_buffer_kept (h : good = false ∨ r.kind ≠ .read) :
    (outcomeTaken i pc (passOutcome good data r) r).buffer = r.buffer := by
  rcases h with rfl | h
  · rfl
  · cases good <;> simp [outcomeTaken, passOutcome, h]

theorem outcomeTaken_buffer_read (hg : good = true) (hk : r.kind = .read) (hd : data.length = pc.length) (j : Nat) :
    (outcomeTaken i pc (passOutcome good data r) r).buffer[j]? =
      r.buffer[j]?.map fun old => if pc.offset ≤ j ∧ j < pc.offset + pc.length then data[j - pc.offset]? else old := by
  subst hg
  have : (outcomeTaken i pc (passOutcome true data r) r).buffer = fillBuffer pc.offset data r.buffer := by
    simp [outcomeTaken, passOutcome, hk]
  rw [this, fillBuffer_getElem?, hd]

/-- A record answered OK has had no piece that failed (R147). -/
theorem good_of_answered_ok (hp : r.pieces[i]? = some pc)
    (h : passAnswer (outcomeTaken i pc (passOutcome good data r) r) = .ok) : good = true := by
  obtain ⟨hi, -⟩ := List.getElem?_eq_some_iff.mp hp
  rw [passAnswer, outcomeTaken_pieces] at h
  cases good with
  | true => rfl
  | false =>
    have : (r.pieces.set i { pc with state := .completedErr }).any (fun x => x.state == .completedErr) = true :=
      List.any_eq_true.mpr ⟨_, List.mem_set hi _, rfl⟩
    simp only [Bool.false_eq_true, if_false, this, if_true] at h
    split at h <;> cases h

theorem passData_none {slots : List (Option MergeSlot)} (h : passAnswer r ≠ .ok ∨ r.kind ≠ .read) : passData r slots = [] :=
  if_neg fun ⟨hk, ha⟩ => h.elim (absurd ha) (absurd hk)

/-- The bytes of a read answered OK (R133). -/
theorem passData_outcome {slots : List (Option MergeSlot)} (hp : r.pieces[i]? = some pc)
    (ha : passAnswer (outcomeTaken i pc (passOutcome good data r) r) = .ok) (hk : r.kind = .read) (hd : data.length = pc.length)
    (hb : r.length ≤ r.buffer.length) :
    let bytes := passData (outcomeTaken i pc (passOutcome good data r) r) slots
    bytes.length = r.length ∧ ∀ j, j < r.length → bytes.getD j 0 = (((slotOverlay slots r.id).getD []).getD j none).getD
      (if pc.offset ≤ j ∧ j < pc.offset + pc.length then data.getD (j - pc.offset) 0
       else (r.buffer.getD j none).getD (Config.unsentByte j)) := by
  intro bytes
  have hbytes : bytes = readResult (outcomeTaken i pc (passOutcome good data r) r) ((slotOverlay slots r.id).getD []) :=
    if_pos ⟨hk, ha⟩
  rw [hbytes]
  refine ⟨by simp [readResult, outcomeTaken], fun j hj => ?_⟩
  have hget : r.buffer[j]? = some r.buffer[j] := List.getElem?_eq_getElem (by omega)
  have buffer := outcomeTaken_buffer_read (data := data) (i := i) (good_of_answered_ok hp ha) hk hd j
  rw [hget, Option.map_some] at buffer
  have hrange : (List.range (outcomeTaken i pc (passOutcome good data r) r).length)[j]? = some j := List.getElem?_range hj
  simp only [readResult, List.getD_eq_getElem?_getD, List.getElem?_map, hrange, Option.map_some, Option.getD_some, buffer, hget]
  cases ((slotOverlay slots r.id).getD [])[j]?.getD none with
  | some b => rfl
  | none =>
    by_cases hin : pc.offset ≤ j ∧ j < pc.offset + pc.length
    · have hlt : j - pc.offset < data.length := by omega
      simp [hin, List.getElem?_eq_getElem hlt]
    · simp [hin]

end

section
variable {id : MemId} {s : State} {p : Piece} {t0 : Option (BitVec 16)} {w : Bool} {k i : Nat} {r' : PassRecord} {late : Bool}

theorem outcomeMg_orphan (mg : Management) (h : late = true) : causeIn .orphan (outcomeMg late mg).causes = true := by
  simp [outcomeMg, h, causeIn, causeBit]

/-- What an outcome leaves due is a step of the drain or of quiesce, when the commit controller's figures are as before. -/
theorem settle_outcome {good : Bool} {u : State} (hev : Quiet s ∨ Quiescing s)
    (he : s.mp.entries.getD id.toNat .free = .issued p t0 w) (ho : p.owner = .pass k i)
    (hm : u.mp.entries = (outcomeMp good late id p s.mp).entries) (hr : u.re = s.re) (hq : u.cc.quiesce = s.cc.quiesce)
    (hc : u.cc.path = s.cc.path) : settle u = afterEvent u := by
  refine settle_afterEvent hev he (by rw [ho]; rfl) (e := if late then .orphaned p else .free) ?_ (congrArg _ hm) hr hq hc
  cases late <;> rfl

/-- The path takes no request while a hold is there and quiesce is. -/
theorem unwoken_of_quiet {ev : EvalEvent} {u : State} (hev : Quiet s ∨ Quiescing s) (h : s.hp.hold = none ∨ s.cc.quiesce ≠ none)
    (hh : u.hp.hold = s.hp.hold) (hc : u.cc = s.cc) : Unwoken ev u := by
  by_cases hn : s.hp.hold = none
  · exact .inl fun c hc => by rw [hh, hn] at hc; cases hc
  · have hq : s.cc.quiesce ≠ none := h.resolve_left hn
    have hquiescing : Quiescing s := hev.resolve_left fun quiet => hq quiet.2
    exact .inr (by rw [hc]; exact pathTakes_quiescing hquiescing.1 hq)

end

/-- Settles O36: the outcome is taken in the record; with the last one the record completes and what it frees is woken. -/
theorem passReadCompletes : Obligations.PassReadCompletes := by
  intro c id data s p t0 w k i r pc hl hev hs he ho hr hk hp hlen hc hd good late mp marked isOpen answer slotHeld
  have exec := exec_passOutcome (r := r) hl he ho hk hc (fun h1 h2 => (hd h1 h2).trans hlen.symm) (rfl : _ = good) (rfl : _ = late)
  have dataLength : good = true → r.kind = .read → data.length = pc.length := fun h => hd (of_decide_eq_true h)
  have pieces : (outcomeTaken i pc (passOutcome good data r) r).pieces = marked := outcomeTaken_pieces
  have hmp : outcomeMp good late id p s.mp = mp := rfl
  clear_value mp marked
  generalize hv : (s.withMp (outcomeMp good late id p s.mp)).withMg (outcomeMg late s.mg) = v at exec
  have vmp : v.mp = mp := by rw [← hv, ← hmp]; rfl
  have hrec : mp.records = s.mp.records := by rw [← hmp]; rfl
  have entries : mp.entries = (outcomeMp good late id p s.mp).entries := congrArg _ hmp.symm
  rw [passPieceDone_eq _ (by rw [vmp, hrec]; exact hr) hp] at exec
  generalize hr' : outcomeTaken i pc (passOutcome good data r) r = r' at exec pieces
  have set : (v.withMp { v.mp with records := v.mp.records.set k (some r') }) =
    ((s.withMp { mp with records := s.mp.records.set k (some r') }).withMg (outcomeMg late s.mg)) := by
    rw [vmp, hrec, ← hv]; rfl
  rw [set] at exec
  have hr1 : ((s.withMp { mp with records := s.mp.records.set k (some r') }).withMg (outcomeMg late s.mg)).mp.records[k]? = some (some r') :=
    List.getElem?_set_self (List.getElem?_eq_some_iff.mp hr).1
  have openEq : passOpen r' = isOpen := by rw [passOpen, pieces]
  have answerEq : passAnswer r' = answer := by rw [passAnswer, pieces]
  cases hopen : isOpen with
  | true =>
    rw [completePass_open hr1 (openEq.trans hopen), settle_outcome (good := good) (late := late) hev he ho (by exact entries) (by rfl) (by rfl) (by rfl)] at exec
    refine ⟨_, exec, outcomeMg_orphan s.mg, fun _ => rfl, fun _ => ⟨rfl, r', rfl, ?_, ?_, ?_, fun b hb => ?_⟩, nofun⟩
    · rw [← pieces, ← hr']; rfl
    · rw [← hr']; exact outcomeTaken_buffer_kept
    · intro hg hkr j hj
      rw [← hr', outcomeTaken_buffer_read hg hkr (dataLength hg hkr), List.getElem?_eq_getElem hj]
      simp only [Option.map_some, apply_ite some]
    · cases b <;> simp [sameBlock] at hb ⊢
  | false =>
    have closed := completePass_closed hr1 (openEq.trans hopen)
    have same : r'.id = r.id ∧ r'.kind = r.kind := by rw [← hr']; exact ⟨rfl, rfl⟩
    have completed : passCompleted k r' ((s.withMp { mp with records := s.mp.records.set k (some r') }).withMg (outcomeMg late s.mg)) =
        ((s.withHp { owedAnswered s.hp ⟨r.id, answer, passData r' s.hp.slots⟩ with slots := slotsFreed r s.hp.slots }).withMp
          { mp with records := s.mp.records.set k none }).withMg (outcomeMg late s.mg) := by
      simp [passCompleted, slotsFreed, holdsSlot, same, answerEq, State.withHp, State.withMp, State.withMg]
    rw [completed] at closed
    generalize hW : ((s.withHp { owedAnswered s.hp ⟨r.id, answer, passData r' s.hp.slots⟩ with slots := slotsFreed r s.hp.slots }).withMp
          { mp with records := s.mp.records.set k none }).withMg (outcomeMg late s.mg) = W at closed
    rw [closed] at exec
    change Machine.exec c s = .next (settle (freedWakes (holdsSlot r' s.hp.slots) W)) at exec
    have whp : W.hp = { owedAnswered s.hp ⟨r.id, answer, passData r' s.hp.slots⟩ with slots := slotsFreed r s.hp.slots } := by
      rw [← hW]; rfl
    have wmp : W.mp = { mp with records := s.mp.records.set k none } := by rw [← hW]; rfl
    have wmg : W.mg = outcomeMg late s.mg := by rw [← hW]; rfl
    have wcc : W.cc = s.cc := by rw [← hW]; rfl
    have wre : W.re = s.re := by rw [← hW]; rfl
    have words : SameWords s W := by rw [← hW]; exact ⟨rfl, rfl, rfl⟩
    have kept := freedWakes_kept (u := W) (held := holdsSlot r' s.hp.slots)
    have sound : HoldSound W := by
      refine ⟨fun c hc => ?_, fun h => by rw [whp]; exact hs.noneInDrain (by rwa [wcc] at h)⟩
      rw [whp] at hc ⊢
      obtain ⟨q, hq, sound, holds⟩ := hs.head c hc
      exact ⟨q, hq, protocolError_mono (fun x hx => (List.mem_filter.mp hx).1) sound, holds⟩
    have live : Live W := by rw [← hW]; exact hl
    have wgt : W.gt = s.gt := by rw [← hW]; rfl
    have overlap : ∀ side a len, overlapsSide side W a len = overlapsSide side s a len := fun side a len =>
      overlapsSide_congr side (by rw [wcc]) words.descs a len
    have held : holdsSlot r' s.hp.slots = slotHeld := by rw [holdsSlot, same.1, same.2]
    have quiet : s.hp.hold = none ∨ s.cc.quiesce ≠ none → freedWakes (holdsSlot r' s.hp.slots) W = W := fun h =>
      freedWakes_unwoken (unwoken_of_quiet hev h (by rw [whp]; rfl) wcc) (unwoken_of_quiet hev h (by rw [whp]; rfl) wcc)
    rw [settle_outcome (good := good) (late := late) hev he ho (by rw [kept.entries.1, wmp]; exact entries)
      (freedWakes_re.trans wre) (by rw [kept.causes.2.2, wcc]) (by rw [kept.path, wcc])] at exec
    refine ⟨_, exec, fun hlate => kept.lines _ (by rw [wmg]; exact outcomeMg_orphan s.mg hlate), fun h => ?_, nofun, fun _ =>
      ⟨passData r' s.hp.slots, fun h => passData_none (by rw [answerEq, same.2]; exact h), fun ha hkr hb => ?_, fun h => ?_,
        fun q hh hq hqu hpath => ?_, fun q n ov v' hh hq hpath hslot hopened hn hover hwalk => ?_⟩⟩
    · rw [quiet h, wmg]; rfl
    · rw [← hr'] at answerEq ⊢
      have := answerEq.trans ha
      exact passData_outcome hp this hkr (dataLength (good_of_answered_ok hp this) hkr) hb
    · rw [quiet h]
      refine ⟨whp, wmp, fun b hb => ?_⟩
      rw [← hW]
      cases b <;> simp [sameBlock] at hb ⊢
    · have head : W.hp.intake.head? = some q := by rw [whp]; exact hq
      obtain ⟨hread, hsound⟩ := freedWakes_listFull (held := holdsSlot r' s.hp.slots) (by rw [whp]; exact hh) sound head
        (by rw [wcc]; exact pathTakes_of hqu hpath)
      have evaluated := passThrough_evaluates q W live head (notInFlight_of_sound hsound)
      rw [← hread, whp, wmp, show needsSlot q W = needsSlot q s by simp only [needsSlot, ctxOf, wgt]] at evaluated
      exact evaluated
    · obtain ⟨m, hm⟩ : ∃ m, firstAbsent W.mp.records = some m := by
        rw [wmp]
        exact firstAbsent_freed _ (List.getElem?_eq_some_iff.mp hr).1
      have ctx : ctxOf W q.tag = ctxOf s q.tag := by simp only [ctxOf, wgt]
      have walk := (overlayWalk_congr words (ctxOf s q.tag).writes (List.replicate q.length none)).trans (congrArg Prod.fst hwalk)
      obtain ⟨tmp, thp⟩ := freedWakes_noSlot live (by rw [whp]; exact hh) sound (by rw [whp]; exact hq) (by rw [wcc]; exact hpath)
        (by rw [ctx]; exact hopened) (by rw [whp]; exact hn) hm (by rw [overlap]; exact hover) (by rw [ctx]; exact walk)
      rw [held.trans hslot]
      refine ⟨m, by rw [← hm, wmp], tmp.trans ?_, thp.trans ?_⟩
      · rw [wmp, wmg]
        congr 1
        cases late <;> rfl
      · rw [whp]; rfl

end Sys2Proof.Machine
end

section
/-! PROOF. The entry to DRAINING in one event, and what is then due (R148, R154, R171 to R173): O5 and O7. -/

namespace Sys2Proof.Machine

/-! ## PASS requests withdrawn (R148) -/

theorem passOpen_withdrawn (r : PassRecord) : passOpen (withdrawPassPieces r) = r.pieces.any fun p => p.state == .issued := by
  rw [passOpen, withdrawPassPieces, List.any_map]
  congr 1
  funext p
  obtain ⟨offset, length, state⟩ := p
  cases state <;> rfl

theorem passAnswer_withdrawn (r : PassRecord) : passAnswer (withdrawPassPieces r) =
    if r.pieces.any (fun p => p.state == .ready) then .power else passAnswer r := by
  have hwithdrawn : (withdrawPassPieces r).pieces.any (fun p => p.state == .withdrawn) =
      (r.pieces.any (fun p => p.state == .ready) || r.pieces.any (fun p => p.state == .withdrawn)) := by
    simp only [withdrawPassPieces]
    induction r.pieces with
    | nil => rfl
    | cons p ps ih =>
      obtain ⟨offset, length, state⟩ := p
      cases state <;> simp_all [beq_eq_decide]
  have herr : (withdrawPassPieces r).pieces.any (fun p => p.state == .completedErr) = r.pieces.any (fun p => p.state == .completedErr) := by
    rw [withdrawPassPieces, List.any_map]
    congr 1
    funext p
    obtain ⟨offset, length, state⟩ := p
    cases state <;> rfl
  rw [passAnswer, hwithdrawn, herr]
  by_cases h : r.pieces.any (fun p => p.state == .ready) = true
  · simp [h]
  · simp [h, passAnswer]

/-- The answer to a record that completes (R147). -/
def completedAnswer (o : Option PassRecord) : Option (HostId × Answer) :=
  o.bind fun r => if passOpen r then none else some (r.id, passAnswer r)

/-- Nothing holds the port, so the completion of a record wakes nothing. -/
theorem completePass_unheld {k : Nat} {s : State} {r : PassRecord} (hh : s.hp.hold = none) (hr : s.mp.records[k]? = some (some r))
    (ho : passOpen r = false) : completePass k s = passCompleted k r s := by
  rw [completePass_closed hr ho]
  exact freedWakes_unwoken (.inl fun c hc => by cases hc.symm.trans hh) (.inl fun c hc => by cases hc.symm.trans hh)

/-- The completion of record `k` when nothing holds the port: an open record stays, a closed one is answered and freed. -/
theorem completePass_spec {s : State} (hh : s.hp.hold = none) (k : Nat) : ∃ hp ps,
    completePass k s = (s.withHp hp).withMp
      { s.mp with records := s.mp.records.set k ((s.mp.records.getD k none).filter passOpen) } ∧
    hp.hold = none ∧ hp.intake = s.hp.intake ∧ hp.responses = s.hp.responses ++ ps ∧
    ps.map (fun x => (x.id, x.answer)) = (completedAnswer (s.mp.records.getD k none)).toList ∧
    ∀ x ∈ ps, x.answer = .power → x.data = [] := by
  have kept : ∀ o, s.mp.records.getD k none = o → s = (s.withHp s.hp).withMp { s.mp with records := s.mp.records.set k o } := by
    rintro o rfl
    have : s.mp.records.set k (s.mp.records.getD k none) = s.mp.records := by
      by_cases hk : k < s.mp.records.length
      · rw [List.getD_eq_getElem _ _ hk, List.set_getElem_self]
      · exact List.set_eq_of_length_le (Nat.le_of_not_lt hk)
    rw [this]
    rfl
  cases hr : s.mp.records.getD k none with
  | none =>
    have same : completePass k s = s := by rw [completePass, hr]
    exact ⟨s.hp, [], same.trans (kept _ hr), hh, rfl, (List.append_nil _).symm, rfl, by simp⟩
  | some r =>
    have hget : s.mp.records[k]? = some (some r) := by
      rw [List.getD_eq_getElem?_getD] at hr
      cases hg : s.mp.records[k]? with
      | none => rw [hg] at hr; cases hr
      | some o => rw [hg] at hr; exact congrArg some hr
    cases ho : passOpen r with
    | true =>
      refine ⟨s.hp, [], (completePass_open hget ho).trans ?_, hh, rfl, (List.append_nil _).symm, ?_, by simp⟩
      · rw [Option.filter_some_pos ho]; exact kept _ hr
      · simp [completedAnswer, ho]
    | false =>
      refine ⟨(passCompleted k r s).hp, [⟨r.id, passAnswer r, passData r s.hp.slots⟩], (completePass_unheld hh hget ho).trans ?_, hh, rfl, rfl, ?_, ?_⟩
      · rw [Option.filter_some_neg (by simp [ho])]; rfl
      · simp [completedAnswer, ho]
      · rintro x hx ha
        obtain rfl := List.mem_singleton.mp hx
        exact passData_none (.inl (by rw [show passAnswer r = .power from ha]; nofun))

/-- The completion of the first `n` records, when nothing holds the port: the open ones stay (R147, R148). -/
theorem completeRecords {s : State} (hh : s.hp.hold = none) (n : Nat) : ∃ hp records ps,
    (List.range n).foldl (fun t k => completePass k t) s = (s.withHp hp).withMp { s.mp with records := records } ∧
    hp.hold = none ∧ hp.intake = s.hp.intake ∧ hp.responses = s.hp.responses ++ ps ∧
    ps.map (fun x => (x.id, x.answer)) = (s.mp.records.take n).filterMap completedAnswer ∧
    (∀ x ∈ ps, x.answer = .power → x.data = []) ∧
    ∀ j, records[j]? = if j < n then s.mp.records[j]?.map (Option.filter passOpen) else s.mp.records[j]? := by
  induction n with
  | zero => exact ⟨s.hp, s.mp.records, [], rfl, hh, rfl, by simp, by simp, by simp, by simp⟩
  | succ n ih =>
    obtain ⟨hp, records, ps, eq, hold, intake, responses, answers, bytes, recs⟩ := ih
    have hn : records[n]? = s.mp.records[n]? := (recs n).trans (if_neg (Nat.lt_irrefl n))
    have hget : records.getD n none = s.mp.records.getD n none := by
      rw [List.getD_eq_getElem?_getD, hn, List.getD_eq_getElem?_getD]
    obtain ⟨hp', ps', eq', hold', intake', responses', answers', bytes'⟩ :=
      completePass_spec (s := (s.withHp hp).withMp { s.mp with records := records }) hold n
    refine ⟨hp', records.set n ((records.getD n none).filter passOpen), ps ++ ps', ?_, hold', intake'.trans intake, ?_, ?_, fun x hx => ?_, fun j => ?_⟩
    · rw [List.range_succ, List.foldl_append, eq]
      exact eq'
    · rw [responses', ← List.append_assoc]
      exact congrArg (· ++ ps') responses
    · rw [List.map_append, answers, answers', List.take_add_one, List.filterMap_append]
      congr 1
      rw [State.withMp_mp, hget, List.getD_eq_getElem?_getD]
      cases s.mp.records[n]? with
      | none => rfl
      | some o => cases h : completedAnswer o <;> simp [h]
    · rcases List.mem_append.mp hx with hx | hx
      · exact bytes x hx
      · exact bytes' x hx
    · by_cases hj : j = n
      · subst hj
        rw [if_pos (Nat.lt_succ_self j), List.getElem?_set_self', hn, hget, List.getD_eq_getElem?_getD]
        cases s.mp.records[j]? <;> rfl
      · rw [List.getElem?_set_ne (Ne.symm hj), recs j]
        have : j < n ↔ j < n + 1 := by omega
        simp only [this]

/-- A record that waits for its ISSUED pieces, the others withdrawn; a record without one is freed (R148). -/
def recordWithdrawn (o : Option PassRecord) : Option PassRecord :=
  o.bind fun r => if (r.pieces.any fun p => p.state == .issued) then some (withdrawPassPieces r) else none

/-- The answer to a record with no ISSUED piece (R147, R148). -/
def withdrawnAnswer (o : Option PassRecord) : Option (HostId × Answer) :=
  o.bind fun r => if (r.pieces.any fun p => p.state == .issued) then none
    else some (r.id, if r.pieces.any (fun p => p.state == .ready) then .power else passAnswer r)

theorem completedAnswer_withdrawn (o : Option PassRecord) : completedAnswer (o.map withdrawPassPieces) = withdrawnAnswer o := by
  cases o with
  | none => rfl
  | some r =>
    have same : (withdrawPassPieces r).id = r.id := rfl
    simp only [Option.map_some, completedAnswer, withdrawnAnswer, Option.bind_some, passOpen_withdrawn, passAnswer_withdrawn, same]

/-- PASS requests are withdrawn when nothing holds the port (R148). -/
theorem withdrawPass_spec {s : State} (hh : s.hp.hold = none) (h16 : s.mp.records.length = 16) : ∃ hp ps,
    withdrawPass s = (s.withHp hp).withMp { s.mp with readyPass := [], records := s.mp.records.map recordWithdrawn } ∧
    hp.hold = none ∧ hp.intake = s.hp.intake ∧ hp.responses = s.hp.responses ++ ps ∧
    ps.map (fun x => (x.id, x.answer)) = s.mp.records.filterMap withdrawnAnswer ∧
    ∀ x ∈ ps, x.answer = .power → x.data = [] := by
  obtain ⟨hp, records, ps, eq, hold, intake, responses, answers, bytes, recs⟩ := completeRecords
    (s := s.withMp { s.mp with readyPass := [], records := s.mp.records.map fun r => r.map withdrawPassPieces }) hh 16
  refine ⟨hp, ps, ?_, hold, intake, responses, answers.trans ?_, bytes⟩
  · have hrecords : records = s.mp.records.map recordWithdrawn := by
      apply List.ext_getElem?
      intro j
      rw [recs, State.withMp_mp, List.getElem?_map, List.getElem?_map]
      by_cases hj : j < 16
      · rw [if_pos hj]
        cases s.mp.records[j]? with
        | none => rfl
        | some o =>
          cases o with
          | none => rfl
          | some r =>
            simp only [Option.map_some, recordWithdrawn, Option.bind_some, Option.filter, passOpen_withdrawn]
      · rw [if_neg hj, List.getElem?_eq_none (by omega)]; rfl
    rw [← hrecords, withdrawPass, show Config.passRecords = 16 from rfl]
    dsimp only
    rw [eq]
    rfl
  · rw [State.withMp_mp, List.take_of_length_le (by simp [h16]), List.filterMap_map]
    exact congrArg (fun f => s.mp.records.filterMap f) (funext completedAnswer_withdrawn)

/-! ## The blocks one by one -/

/-- The head of the host port when the request that held it has been answered POWER, and a stage wait has ended (R10, R27). -/
theorem powerHead_spec {s : State} (hl : Live s) (hs : HoldSound s) :
    (powerHead s).hp.intake = (if s.hp.hold.isSome then (headLeft s.hp).intake else s.hp.intake) ∧
    (powerHead s).hp.responses = s.hp.responses ++
      (if s.hp.hold.isSome then (s.hp.intake.take 1).map fun r => ⟨r.id, .power, []⟩ else []) ∧
    (powerHead s).ss = { s.ss with timer := if s.hp.hold.isSome then none else s.ss.timer } := by
  unfold powerHead
  by_cases h : s.hp.hold.isSome = true
  · obtain ⟨c, hc⟩ := Option.isSome_iff_exists.mp h
    obtain ⟨r, hr, -⟩ := hs.head c hc
    obtain ⟨rest, hi⟩ := intake_of_head hr
    simp only [if_pos h]
    rw [answerHead_eq _ r _ (by exact hl) (by exact hr)]
    exact ⟨rfl, by rw [hi]; rfl, rfl⟩
  · simp [h]

theorem discardGroups_unheld {s : State} (hh : s.hp.hold = none) :
    discardGroups s = releaseDescs (openLists s) (idleContexts s) :=
  releaseEvent_noWait _ _ (by rw [(idleContexts_frame s).2.1, hh]; nofun)

theorem dropForPower_unheld {s : State} (hh : s.hp.hold = none) : dropForPower s = headsRemoved
    (releaseDescs ((s.cc.queue.filter fun r => r.state == .queued).flatMap CommitRecord.writes)
      (recordsDropped (fun r => r.state == .queued) .power .failedPower s)) := by
  have none' : (recordsDropped (fun r => r.state == .queued) .power .failedPower s).hp.hold = none := hh
  rw [dropForPower, dropRecords_eq, released_unwoken (by rw [none']; nofun) (unwoken_hazardShrank (by rw [none']; nofun)),
    removeHeads_unwoken (unwoken_recordRemoved (by simp [none']))]

theorem haltApply_spec (s : State) : (haltApply s).ae.mode = .halted ∧ (haltApply s).mp.readyPass = s.mp.readyPass ∧
    (haltApply s).mp.records = s.mp.records ∧
    (haltApply s).mp.readyApply = s.mp.readyApply.filter (fun p => !(s.ae.mode != .halted && isApplyOwner p.owner)) ∧
    (haltApply s).mp.entries.map issuedPiece = s.mp.entries.map issuedPiece := by
  unfold haltApply
  by_cases h : s.ae.mode = .halted
  · simp [h]
  · have hne : (s.ae.mode != .halted) = true := bne_iff_ne.mpr h
    simp only [if_neg h, withdrawRequests, hne, Bool.true_and]
    exact ⟨rfl, rfl, rfl, rfl, by simp [issuedPiece_markWithdrawn]⟩

theorem interruptRecovery_spec (s : State) :
    ((interruptRecovery s).re.mode = .idle ∨ (interruptRecovery s).re.mode = .ending ∧ (interruptRecovery s).re.owed = none) ∧
    (interruptRecovery s).mp.readyPass = s.mp.readyPass ∧ (interruptRecovery s).mp.records = s.mp.records ∧
    (interruptRecovery s).mp.readyApply = s.mp.readyApply.filter (fun p => !(s.re.mode != .idle && isRecoveryOwner p.owner)) ∧
    (interruptRecovery s).mp.entries.map issuedPiece = s.mp.entries.map issuedPiece := by
  unfold interruptRecovery
  by_cases h : s.re.mode = .idle
  · simp [h]
  · have hne : (s.re.mode != .idle) = true := bne_iff_ne.mpr h
    simp only [if_neg h, withdrawRequests, hne, Bool.true_and]
    exact ⟨.inr ⟨rfl, rfl⟩, rfl, rfl, rfl, by simp [issuedPiece_markWithdrawn]⟩

/-! ## The entry as a whole -/

/-- DRAINING has been entered from `s`, with what every block makes of it (R171). -/
structure DrainEntered (s u : State) : Prop where
  control : u.cc = { interruptedControl s.cc with
    queue := (recordsVoided s.cc.queue (fun r => r.state == .queued) .power).dropWhile fun r => finished r.state }
  hold : u.hp.hold = none
  intake : u.hp.intake = if s.hp.hold.isSome then (headLeft s.hp).intake else s.hp.intake
  timer : s.hp.hold = some .stageWait → u.ss.timer = none
  responses : ∃ ps, u.hp.responses = s.hp.responses ++
      (if s.hp.hold.isSome then (s.hp.intake.take 1).map fun r => ⟨r.id, .power, []⟩ else []) ++ ps ++
      (s.cc.queue.filter fun r => r.state == .queued).map (fun r => ⟨r.hostId, .failedPower, []⟩) ∧
    ps.map (fun x => (x.id, x.answer)) = s.mp.records.filterMap withdrawnAnswer ∧ ∀ x ∈ ps, x.answer = .power → x.data = []
  records : u.mp.records = s.mp.records.map recordWithdrawn
  contexts : u.gt.ctxs = s.gt.ctxs.map fun _ => Context.idle
  released : Released (openLists s ++ (s.cc.queue.filter fun r => r.state == .queued).flatMap CommitRecord.writes) s u
  log : u.le = retired (ringU s)
    ((recordsVoided s.cc.queue (fun r => r.state == .queued) .power).takeWhile fun r => finished r.state) s.le
  readyPass : u.mp.readyPass = []
  apply : u.ae.mode = .halted
  recovery : u.re.mode = .idle ∨ u.re.mode = .ending ∧ u.re.owed = none
  readyApply : u.mp.readyApply = s.mp.readyApply.filter fun p => !(s.ae.mode != .halted && isApplyOwner p.owner) &&
    !(s.re.mode != .idle && isRecoveryOwner p.owner)
  entries : u.mp.entries.map issuedPiece = s.mp.entries.map issuedPiece
  power : u.pf = s.pf
  management : u.mg = interruptedCauses s

/-- What stands when the request that held the port has been answered, PASS requests are withdrawn and the groups are gone; the commit
queue and the engines have not reacted yet. -/
structure GroupsDiscarded (s u : State) : Prop where
  control : u.cc = interruptedControl s.cc
  hold : u.hp.hold = none
  intake : u.hp.intake = if s.hp.hold.isSome then (headLeft s.hp).intake else s.hp.intake
  timer : s.hp.hold = some .stageWait → u.ss.timer = none
  responses : ∃ ps, u.hp.responses = s.hp.responses ++
      (if s.hp.hold.isSome then (s.hp.intake.take 1).map fun r => ⟨r.id, .power, []⟩ else []) ++ ps ∧
    ps.map (fun x => (x.id, x.answer)) = s.mp.records.filterMap withdrawnAnswer ∧ ∀ x ∈ ps, x.answer = .power → x.data = []
  contexts : u.gt.ctxs = s.gt.ctxs.map fun _ => Context.idle
  released : Released (openLists s) s u
  log : u.le = s.le
  apply : u.ae = s.ae
  port : u.mp = { s.mp with readyPass := [], records := s.mp.records.map recordWithdrawn }
  recovery : u.re = s.re
  power : u.pf = s.pf
  management : u.mg = interruptedCauses s

theorem groupsDiscarded {s : State} (hl : Live s) (hs : HoldSound s) (h16 : s.mp.records.length = 16) :
    GroupsDiscarded s (discardGroups (withdrawPass (drainBegun s))) := by
  obtain ⟨intake0, responses0, store0⟩ := powerHead_spec hl hs
  obtain ⟨-, gt0, cc0, le0, ae0, mp0, re0, pf0, mg0⟩ := powerHead_frame s
  have hold0 : (drainBegun s).hp.hold = none := powerHead_hold hs
  have mp1 : (drainBegun s).mp = s.mp := mp0
  obtain ⟨hp, ps, withdrawn, hold1, intake1, responses1, answers, bytes⟩ := withdrawPass_spec hold0 (by rw [mp1]; exact h16)
  rw [withdrawn, discardGroups_unheld (s := ((drainBegun s).withHp hp).withMp _) hold1, mp1]
  generalize hu : ((drainBegun s).withHp hp).withMp { s.mp with readyPass := [], records := s.mp.records.map recordWithdrawn } = u
  have lists : openLists u = openLists s := by rw [← hu]; exact congrArg (fun gt : GroupTable => gt.ctxs.flatMap _) gt0
  have store : u.ss = { s.ss with timer := if s.hp.hold.isSome then none else s.ss.timer } := by rw [← hu]; exact store0
  rw [lists]
  constructor
  case timer => intro h; simp [releaseDescs, foldl_releaseOne, store, h]
  case responses =>
    refine ⟨ps, ?_, answers.trans (by rw [mp1]), bytes⟩
    rw [(releaseDescs_frame ..).2.1, (idleContexts_frame _).2.1, ← hu]
    exact responses1.trans (congrArg (· ++ ps) responses0)
  case released =>
    exact (released_releaseDescs (openLists s) (idleContexts u)).of_same (by simp [store]) (by simp [store]) (by simp [store])
      (by simp [store]) rfl rfl rfl rfl
  case intake => rw [(releaseDescs_frame ..).2.1, (idleContexts_frame _).2.1, ← hu]; exact intake1.trans intake0
  case contexts =>
    rw [(releaseDescs_frame ..).2.2.1, ← hu]
    exact congrArg (fun gt : GroupTable => gt.ctxs.map fun _ => Context.idle) gt0
  all_goals simp only [releaseDescs_frame, idleContexts_frame]; rw [← hu]
  · rfl
  · exact hold1
  · exact le0
  · exact ae0
  · rfl
  · exact re0
  · exact pf0
  · rfl

theorem enterDraining_entered {s : State} (hl : Live s) (hs : HoldSound s) (h16 : s.mp.records.length = 16) :
    DrainEntered s (enterDraining s) := by
  rw [enterDraining_eq]
  have groups := groupsDiscarded hl hs h16
  generalize discardGroups (withdrawPass (drainBegun s)) = u at groups
  obtain ⟨control, hold, intake, timer, ⟨ps, responses, answers, bytes⟩, contexts, released, log, apply, port, recovery, power,
    management⟩ := groups
  have cfg : u.mg.cfg = s.mg.cfg := by rw [management, interruptedCauses]; split <;> rfl
  have queue : u.cc.queue = s.cc.queue := by rw [control, (interruptedControl_spec s.cc).1]
  have release := released_releaseDescs ((s.cc.queue.filter fun r => r.state == .queued).flatMap CommitRecord.writes)
    (recordsDropped (fun r => r.state == .queued) .power .failedPower u)
  rw [dropForPower_unheld hold, queue]
  generalize hv : releaseDescs ((s.cc.queue.filter fun r => r.state == .queued).flatMap CommitRecord.writes)
    (recordsDropped (fun r => r.state == .queued) .power .failedPower u) = v at release
  have frame := releaseDescs_frame ((s.cc.queue.filter fun r => r.state == .queued).flatMap CommitRecord.writes)
    (recordsDropped (fun r => r.state == .queued) .power .failedPower u)
  rw [hv] at frame
  obtain ⟨-, vhp, vgt, vcc, vle, vae, vmp, vre, vpf, vmg⟩ := frame
  have vtimer : v.ss.timer = u.ss.timer := by rw [← hv]; simp [releaseDescs, foldl_releaseOne, recordsDropped]
  have vqueue : v.cc.queue = recordsVoided s.cc.queue (fun r => r.state == .queued) .power := by rw [vcc, ← queue]; rfl
  have vmp' : v.mp = { s.mp with readyPass := [], records := s.mp.records.map recordWithdrawn } := vmp.trans port
  clear hv
  obtain ⟨halted, hpass, hrecords, happly, hentries⟩ := haltApply_spec (headsRemoved v)
  obtain ⟨idle, ipass, irecords, iapply, ientries⟩ := interruptRecovery_spec (haltApply (headsRemoved v))
  constructor
  case recovery => exact idle
  case readyPass => rw [ipass, hpass]; exact congrArg MemoryPort.readyPass vmp'
  case records => rw [irecords, hrecords]; exact congrArg MemoryPort.records vmp'
  case entries =>
    rw [ientries, hentries]
    change v.mp.entries.map issuedPiece = _
    rw [vmp']
  case readyApply =>
    have ae : (headsRemoved v).ae = s.ae := vae.trans apply
    have re : (haltApply (headsRemoved v)).re = s.re := by simp [headsRemoved, vre, recovery, recordsDropped]
    have mp : (headsRemoved v).mp.readyApply = s.mp.readyApply := by change v.mp.readyApply = _; rw [vmp']
    rw [iapply, happly, List.filter_filter, ae, re, mp]
    exact List.filter_congr fun p _ => Bool.and_comm ..
  case responses =>
    refine ⟨ps, ?_, answers, bytes⟩
    simp only [interruptRecovery_frame, haltApply_frame]
    change v.hp.responses = _
    rw [vhp, ← responses, ← queue]
    rfl
  case released =>
    refine (released.trans (release.of_same rfl rfl rfl rfl rfl rfl rfl rfl)).of_same rfl rfl rfl rfl ?_ ?_ ?_ ?_ <;>
      simp [headsRemoved]
  all_goals simp only [interruptRecovery_frame, haltApply_frame]
  case control =>
    change { v.cc with queue := v.cc.queue.dropWhile fun r => finished r.state } = _
    rw [vqueue, vcc, ← control]
    rfl
  case hold => change v.hp.hold = none; rw [vhp]; exact hold
  case intake => change v.hp.intake = _; rw [vhp]; exact intake
  case timer => exact fun h => vtimer.trans (timer h)
  case contexts => rw [← contexts]; exact congrArg GroupTable.ctxs vgt
  case log =>
    change retired (ringU v) _ v.le = _
    rw [vqueue, vle.trans log, ringU, vmg]
    exact congrArg (fun cfg : Settings => retired (ringUnits cfg.sizeExp) _ s.le) cfg
  case apply => exact halted
  case power => exact vpf.trans power
  case management => exact vmg.trans management

/-! ## What is then due -/

/-- The drain has been followed from `w`, and the path is SAFE when it is complete (R172, R173). -/
structure DrainFollowed (w t : State) : Prop where
  path : t.cc.path = .draining ∨ t.cc.path = .safe
  complete : t.cc.path = .safe ↔ loggingRecord w.cc = none ∧ w.le.anchor = none ∧ issuedCount (fun _ => true) w.mp = 0
  control : t.cc = { w.cc with path := t.cc.path }
  blocks : t.hp = w.hp ∧ t.ss = w.ss ∧ t.gt = w.gt ∧ t.le = w.le ∧ t.ae = w.ae ∧ t.mp = w.mp ∧ t.re = w.re
  progress : t.pf.drain.isSome = true
  level : t.pf.pfwLow = w.pf.pfwLow
  settings : t.mg.cfg = w.mg.cfg
  causes : ∀ c, causeIn c w.mg.causes = true → causeIn c t.mg.causes = true
  safe : t.cc.path = .safe → t.pf.psafe = true ∧ causeIn .safe t.mg.causes = true ∧ t.pf.drain = some ⟨false, false, 0⟩

theorem drainClear_iff (s : State) : drainClear (drainNow s) = true ↔
    loggingRecord s.cc = none ∧ s.le.anchor = none ∧ issuedCount (fun _ => true) s.mp = 0 := by
  simp [drainClear, drainNow, and_assoc]

theorem drainSettle_followed {w : State} (hp : w.cc.path = .draining) : DrainFollowed w (drainSettle w) := by
  by_cases hc : drainClear (drainNow w) = true
  · have : drainSettle w = enterSafe w := if_pos ⟨hp, hc⟩
    rw [this]
    exact ⟨.inr rfl, ⟨fun _ => (drainClear_iff w).mp hc, fun _ => rfl⟩, rfl, ⟨rfl, rfl, rfl, rfl, rfl, rfl, rfl⟩, rfl, rfl, rfl,
      fun c h => causeIn_mono c _ _ h _ rfl, fun _ => ⟨rfl, setCause_causeIn .safe _, rfl⟩⟩
  · have : drainSettle w = w.withPf { w.pf with drain := some (drainNow w) } := by
      rw [drainSettle, if_neg fun h => hc h.2, followDrain, if_pos hp]
    have not : w.cc.path ≠ .safe := by rw [hp]; nofun
    rw [this]
    exact ⟨.inl hp, ⟨fun h => absurd h not, fun h => absurd ((drainClear_iff w).mpr h) hc⟩, rfl, ⟨rfl, rfl, rfl, rfl, rfl, rfl, rfl⟩,
      rfl, rfl, rfl, fun _ h => h, fun h => absurd h not⟩

/-- An interruption keeps the stop causes, ends a quiesce, and ends a BUSY command (R154). -/
theorem interruptedControl_kept (cc : CommitControl) : (interruptedControl cc).stopLog = cc.stopLog ∧
    (interruptedControl cc).stopApply = cc.stopApply ∧ (interruptedControl cc).quiesce = none ∧
    (cc.status = .busy → (interruptedControl cc).status = .done ∧ (interruptedControl cc).result = some .interrupted) := by
  unfold interruptedControl
  split
  · exact ⟨rfl, rfl, rfl, fun _ => ⟨rfl, rfl⟩⟩
  · rename_i h
    exact ⟨rfl, rfl, rfl, fun hb => absurd hb h⟩

/-- In DRAINING an interrupted RE leaves ENDING with nothing owed, and then the drain is followed (R154, R172, R173). -/
theorem settle_draining {u : State} (hp : u.cc.path = .draining)
    (hr : u.re.mode = .idle ∨ u.re.mode = .ending ∧ u.re.owed = none) :
    ∃ re, (re.mode = .idle ∨ re.mode = .ending) ∧ settle u = drainSettle (u.withRe re) := by
  have quiet : ∀ w : State, w.cc.path = .draining → quiesceSettle w = w := fun w hw => if_neg (by simp [discardDue, hw])
  cases he : endingDue u with
  | false =>
    refine ⟨u.re, hr.imp id And.left, ?_⟩
    rw [settle, show endingSettle u = u from if_neg (by simp [he]), quiet u hp]
    rfl
  | true =>
    have owed : u.re.owed = none := by
      rcases hr with hr | hr
      · simp [endingDue, hr] at he
      · exact hr.2
    refine ⟨idleRecovery u.re, .inl rfl, ?_⟩
    rw [settle, show endingSettle u = u.withRe (idleRecovery u.re) by rw [endingSettle, if_pos he, owed],
      quiet (u.withRe (idleRecovery u.re)) hp]

/-- Removed records are not LOGGING, and no record becomes it: the drain waits for the same one. -/
theorem loggingRecord_voided {queue : List CommitRecord} {cc : CommitControl}
    (h : cc.queue = (recordsVoided queue (fun r => r.state == .queued) .power).dropWhile fun r => finished r.state) :
    loggingRecord cc = none ↔ ∀ r ∈ queue, r.state ≠ .logging := by
  have split := List.takeWhile_append_dropWhile (p := fun r : CommitRecord => finished r.state)
    (l := recordsVoided queue (fun r => r.state == .queued) .power)
  have none' : loggingRecord cc = none ↔ ∀ r ∈ recordsVoided queue (fun r => r.state == .queued) .power, r.state ≠ .logging := by
    rw [loggingRecord, List.find?_eq_none, h]
    conv_rhs => rw [← split]
    simp only [List.mem_append, beq_iff_eq]
    refine ⟨fun hd r hr => hr.elim (fun ht hl => ?_) (hd r), fun ha r hr => ha r (.inr hr)⟩
    have := List.mem_takeWhile_imp ht
    rw [hl] at this
    cases this
  rw [none', recordsVoided]
  simp only [List.mem_map, forall_exists_index, and_imp, forall_apply_eq_imp_iff₂]
  refine forall₂_congr fun r _ => ?_
  split
  · rename_i hq
    simp [eq_of_beq hq]
  · rfl

/-- Settles O7: what every block makes of the entry to DRAINING, and what is then due. -/
theorem pfwAssertionDrains : Obligations.PfwAssertionDrains := by
  intro s hl hq hdrain hsafe hs hshape dropped voided issuedOf
  have entered := enterDraining_entered (s := s.withPf { s.pf with qualifying := false }) hl
    ⟨hs.head, hs.noneInDrain⟩ hshape.records16
  have run : exec .pfwNAssertion s = .next (settle (enterDraining (s.withPf { s.pf with qualifying := false }))) := by
    have hl : s.pf.resetAsserted = false := hl
    simp [exec, execPfwNAssertion, live, hl, hq, hdrain, hsafe]
  generalize enterDraining (s.withPf { s.pf with qualifying := false }) = u at entered run
  obtain ⟨re, hre, due⟩ := settle_draining (u := u) (by rw [entered.control]; exact (interruptedControl_spec s.cc).2.2) entered.recovery
  have followed := drainSettle_followed (w := u.withRe re) (by
    rw [State.withRe_cc, entered.control]; exact (interruptedControl_spec s.cc).2.2)
  rw [← due] at followed
  generalize settle u = t at followed run
  obtain ⟨hp, ss, gt, le, ae, mp, re'⟩ := followed.blocks
  obtain ⟨stopLog, stopApply, quiesce, busy⟩ := interruptedControl_kept s.cc
  obtain ⟨ps, responses, answers, bytes⟩ := entered.responses
  have cc : t.cc = { interruptedControl s.cc with
      queue := (recordsVoided s.cc.queue (fun r => r.state == .queued) .power).dropWhile fun r => finished r.state
      path := t.cc.path } := followed.control.trans (by rw [State.withRe_cc, entered.control]; rfl)
  have queue : t.cc.queue = voided.dropWhile fun r => finished r.state := by
    rw [cc]
    simp only [recordsVoided, beq_iff_eq]
    rfl
  have log : t.le = retired (ringU s) (voided.takeWhile fun r => finished r.state) s.le := by
    rw [le, State.withRe_le, entered.log]
    simp only [recordsVoided, beq_iff_eq]
    rfl
  have entries : t.mp.entries.map issuedPiece = s.mp.entries.map issuedPiece := by rw [mp]; exact entered.entries
  refine ⟨t, ps, run, followed.path, followed.complete.trans ?_, ?_, ?_, ?_, fun hb => ?_, ?_, ?_, fun h => ?_, ?_, ?_, bytes, ?_, ?_,
    ?_, queue, fun r hr => ?_, log, ?_, ?_, ?_, ?_, entries, followed.progress, ?_, ?_, ?_⟩
  · refine and_congr ((loggingRecord_voided (congrArg CommitControl.queue entered.control)).trans ?_) (and_congr ?_ ?_)
    · rw [loggingRecord, List.find?_eq_none]
      simp only [beq_iff_eq]
      rfl
    · rw [State.withRe_le, entered.log]; rfl
    · rw [State.withRe_mp, issuedCount_congr entered.entries]; rfl
  · rw [cc]; exact stopLog
  · rw [cc]; exact stopApply
  · rw [cc]; exact quiesce
  · obtain ⟨status, result⟩ := busy hb
    refine ⟨by rw [cc]; exact status, by rw [cc]; exact result, followed.causes _ ?_⟩
    rw [State.withRe_mg, entered.management, interruptedCauses, if_pos (by exact hb)]
    exact setCause_causeIn ..
  · rw [hp]; exact entered.hold
  · rw [hp]; exact entered.intake
  · rw [ss]; exact entered.timer h
  · rw [hp]; exact responses
  · exact answers
  · rw [mp]; exact entered.records
  · rw [gt]; exact entered.contexts
  · exact entered.released.of_same rfl rfl rfl rfl (by rw [ss]; rfl) (by rw [ss]; rfl) (by rw [ss]; rfl) (by rw [ss]; rfl)
  · rw [queue] at hr
    obtain ⟨x, -, rfl⟩ := List.mem_map.mp ((List.dropWhile_sublist _).mem hr)
    split
    · nofun
    · assumption
  · rw [mp]; exact entered.readyPass
  · rw [ae]; exact entered.apply
  · rw [re']; exact hre
  · rw [mp]; exact entered.readyApply
  · rw [followed.settings, State.withRe_mg, entered.management, interruptedCauses]; split <;> rfl
  · rw [log]; rfl
  · rw [log]; rfl

/-! ## Reset and start -/

/-- Settles O5: the reset values, the start from them, and a start with PFW_N low as a drain with nothing in flight. -/
theorem resetStopsAndStartsTheDevice : Obligations.ResetStopsAndStartsTheDevice := by
  intro s off on
  refine ⟨⟨rfl, rfl⟩, fun hh => ?_, fun hlow hreset => ?_⟩
  · have start : startDevice s = on := startDevice_high s hh
    exact ⟨congrArg Host.Outcome.next start, fun hreset => congrArg Host.Outcome.next ((if_pos hreset).trans start)⟩
  · have run : exec .resetNDeassert s = .next (settle (enterDraining (acceptWaiting (resetBlocks s)))) := by
      rw [← startDevice_low s hlow]
      exact congrArg Host.Outcome.next (if_pos hreset)
    rw [acceptWaiting_resetBlocks] at run
    generalize hv : ({ State.reset with
      pending := s.pending
      hp := { HostPort.reset with intake := s.hp.channel.take 16, channel := s.hp.channel.drop 16 }
      pf := { PowerFail.reset with pfwLow := s.pf.pfwLow } } : State) = v at run
    have empty : v.cc.queue = [] := by rw [← hv]; rfl
    have entered := enterDraining_entered (s := v) (by rw [← hv]; rfl)
      ⟨fun c hc => absurd hc (by rw [← hv]; nofun), fun _ => by rw [← hv]; rfl⟩ (by rw [← hv]; rfl)
    generalize enterDraining v = u at entered run
    have draining : u.cc.path = .draining := by rw [entered.control]; exact (interruptedControl_spec v.cc).2.2
    have queue : u.cc.queue = [] := by rw [entered.control, empty]; rfl
    obtain ⟨re, -, due⟩ := settle_draining draining entered.recovery
    have followed := drainSettle_followed (w := u.withRe re) draining
    rw [← due] at followed
    generalize settle u = t at followed run
    have idle : t.cc.path = .safe := by
      refine followed.complete.mpr ⟨?_, ?_, ?_⟩
      · rw [State.withRe_cc, loggingRecord, queue]; rfl
      · rw [State.withRe_le, entered.log, ← hv]; rfl
      · rw [State.withRe_mp, issuedCount_congr entered.entries, ← hv]; rfl
    obtain ⟨psafe, cause, drain⟩ := followed.safe idle
    obtain ⟨ps, responses, answers, -⟩ := entered.responses
    obtain ⟨-, -, -, -, tae, -, -⟩ := followed.blocks
    refine ⟨t, run, idle, psafe, cause, drain, ?_, ?_, ?_, ?_⟩
    · rw [followed.control]; exact queue
    · have none' : ps = [] := by
        rw [← hv] at answers
        exact List.map_eq_nil_iff.mp (answers.trans (by rfl))
      rw [followed.blocks.1, State.withRe_hp, responses, none', empty, ← hv]
      rfl
    · rw [tae]; exact entered.apply
    · rw [followed.level, State.withRe_pf, entered.power, ← hv]; exact hlow

end Sys2Proof.Machine
end

section
/-! PROOF. Start-up commands taken, quiesce and its discard step (R155 to R158, R161): O38 and O40, and the first part of O37. -/

namespace Sys2Proof.Machine

/-! ## The anchor-slot reads -/

/-- The pieces of the read of an anchor slot (R158, R161). -/
def slotReadPieces (cfg : Settings) (k : Nat) : List Piece :=
  cutRequest (burst cfg) (Owner.recovery (.anchorRead k)) .read (slotAddr cfg k) 64 none []

theorem readSlots_port (s : State) :
    (readSlots s).mp = applyHanded s.mp (slotReadPieces s.mg.cfg 0 ++ slotReadPieces s.mg.cfg 1) := by
  simp only [readSlots, handRecoveryRead]
  rw [handRequest_apply rfl, handRequest_apply rfl]
  simp [applyHanded, slotReadPieces]

theorem readSlots_mode (s : State) : (readSlots s).re.mode = .anchorRead := rfl

/-! ## The discard step -/

theorem unanswered_queued {cc : CommitControl} (h : loggingRecord cc = none) :
    unanswered cc = cc.queue.filter fun r => r.state == .queued := by
  refine List.filter_congr fun r hr => ?_
  rw [loggingRecord, List.find?_eq_none] at h
  rw [Bool.eq_false_of_not_eq_true (h r hr), Bool.or_false]

theorem startUpPath_eq (c : Command) : startUpPath c = if c = .format then .formatting else .recovering := by cases c <;> rfl

/-- The discard step, block by block (R157). -/
theorem discard_spec {s : State} {c : Command} (h : loggingRecord s.cc = none) :
    (discard c s).cc = { s.cc with queue := [], stopLog := false, stopApply := false, quiesce := none,
                                   path := if c = .format then .formatting else .recovering } ∧
    (discard c s).hp.responses = s.hp.responses ++
      (s.cc.queue.filter fun r => r.state == .queued).map (fun r => ⟨r.hostId, .stopped, []⟩) ∧
    (discard c s).hp.intake = s.hp.intake ∧ (discard c s).hp.hold = s.hp.hold ∧
    (discard c s).hp.slots = s.hp.slots.map (fun _ => none) ∧ (discard c s).gt.ctxs = s.gt.ctxs.map (fun _ => Context.idle) ∧
    (discard c s).ss = { s.ss with descPool := List.range 4096, segPool := List.range 8192, descs := [] } ∧
    (discard c s).ae = ApplyEngine.reset ∧ (discard c s).re.mode = .anchorRead ∧ (discard c s).mp.entries = s.mp.entries ∧
    OnlyIn [.hp, .ss, .gt, .cc, .ae, .re, .mp] s (discard c s) := by
  have asks := asks_readSlots (discarded c s)
  rw [discard_eq]
  refine ⟨?_, ?_, ?_, ?_, ?_, ?_, ?_, ?_, readSlots_mode _, asks.entries, fun b hb => ?_⟩
  · rw [asks.cc, discarded, startUpPath_eq]
  · rw [asks.hp, discarded, unanswered_queued h]
  · rw [asks.hp]; rfl
  · rw [asks.hp]; rfl
  · rw [asks.hp]; rfl
  · rw [asks.gt]; rfl
  · rw [asks.ss]
    simp only [discarded, refillPools, Config.descriptors, Config.segments, List.range_eq_range']
  · rw [asks.ae]; rfl
  · cases b
    case queue => rfl
    case le => exact asks.le
    case pf => exact asks.pf
    case mg => exact asks.mg
    all_goals simp at hb

/-- Settles O40: the step is due, and taken. -/
theorem quiesceDiscardsVolatileState : Obligations.QuiesceDiscardsVolatileState := by
  intro s c hl hp hq hlog hanchor hrecords hissued
  have due : discardDue s = true := by simp only [discardDue, hp, hq, hlog, hanchor, hrecords, hissued]; rfl
  have run : exec .quiesceDiscard s = .next (discard c s) := by
    rw [exec_live _ hl]
    exact congrArg Host.Outcome.next ((if_pos due).trans (by rw [hq]))
  exact ⟨_, run, discard_spec hlog⟩

/-! ## Commands taken -/

/-- Nothing is LOGGING, in flight or ISSUED (R157). -/
def atRest (s : State) : Bool :=
  (loggingRecord s.cc).isNone && s.le.anchor.isNone && s.mp.records.all Option.isNone && issuedCount (fun _ => true) s.mp == 0

/-- A command taken in STOPPED: quiesce begins (R155, R156). -/
def quiesceBegun (c : Command) (s : State) : State := beginQuiesce c (takenCommand c s)

theorem quiesceBegun_frame (c : Command) (s : State) :
    (quiesceBegun c s).cc = { (takenCommand c s).cc with quiesce := some c } ∧ (quiesceBegun c s).re = s.re ∧
    (quiesceBegun c s).hp = s.hp ∧ (quiesceBegun c s).le = s.le := by
  simp [quiesceBegun, beginQuiesce, takenCommand]

theorem atRest_quiesceBegun (c : Command) (s : State) : atRest (quiesceBegun c s) = atRest s := by
  obtain ⟨-, -, records, -, entries⟩ := haltApply_spec ((takenCommand c s).withCc { (takenCommand c s).cc with quiesce := some c })
  simp only [atRest, quiesceBegun, beginQuiesce, records, issuedCount_congr entries, haltApply_frame]
  rfl

/-- Quiesce has begun, and its discard step follows when it is due (R156, R157). -/
theorem settle_quiesceBegun {c : Command} {s : State} (hp : s.cc.path = .stopped) (hr : s.re.mode = .idle) :
    settle (quiesceBegun c s) = if atRest s then discard c (quiesceBegun c s) else quiesceBegun c s := by
  obtain ⟨cc, re, -, -⟩ := quiesceBegun_frame c s
  rw [settle_quiescing _ ⟨by rw [cc]; exact hp, by rw [cc]; nofun, by rw [re, hr]; nofun⟩, quiesceSettle]
  have due : discardDue (quiesceBegun c s) = atRest s := by
    rw [← atRest_quiesceBegun c s, discardDue, atRest, cc]
    simp [takenCommand, hp]
  rw [due, cc]

/-- Settles O38: the command begins quiesce, and the discard step is taken when it is due. -/
theorem restartBeginsQuiesce : Obligations.RestartBeginsQuiesce := by
  intro c s hc hl hp hb hr cmd rest
  have pair : (c = .format ∧ cmd = .format) ∨ (c = .recover ∧ cmd = .recover) ∨ (c = .restart ∧ cmd = .restart) := by
    rcases hc with rfl | rfl
    · exact .inr (.inr ⟨rfl, rfl⟩)
    · exact .inl ⟨rfl, rfl⟩
  have taken : controllerTakes cmd s = settle (quiesceBegun cmd s) := by
    unfold controllerTakes
    rw [hp]
    rcases hc with rfl | rfl <;> rfl
  have run : exec c s = .next (endFrame (commandFrame s) 56 0 (settle (quiesceBegun cmd s))) := by
    rw [exec_live _ hl, effect_command pair, commandEvent, if_neg hb, taken]
  rw [endFrame_whole, settle_quiesceBegun hp hr] at run
  obtain ⟨cc, -, hpframe, le⟩ := quiesceBegun_frame cmd s
  have restEq : atRest s = rest := rfl
  have path : (if cmd = .format then PathState.formatting else .recovering) = if c = .format then .formatting else .recovering := by
    rcases hc with rfl | rfl <;> rfl
  cases hrest : rest with
  | true =>
    rw [if_pos (restEq.trans hrest)] at run
    have log : loggingRecord (quiesceBegun cmd s).cc = none := by
      simp only [rest, Bool.and_eq_true, Option.isNone_iff_eq_none] at hrest
      obtain ⟨⟨⟨hlog, -⟩, -⟩, -⟩ := hrest
      rw [cc]
      exact hlog
    obtain ⟨dcc, -, intake, hold, -, -, -, ae, re, -, only⟩ := discard_spec (c := cmd) log
    rw [cc, path] at dcc
    refine ⟨_, run, ?_, ?_, ?_, ?_, fun _ => ⟨?_, ?_, ?_, congrArg ApplyEngine.mode ae, re⟩, nofun, (only .le (by decide)).trans le,
      intake.trans (congrArg HostPort.intake hpframe), hold.trans (congrArg HostPort.hold hpframe)⟩
    all_goals rw [State.withMg_cc, dcc]
    all_goals rfl
  | false =>
    rw [if_neg (Bool.eq_false_iff.mp (restEq.trans hrest))] at run
    refine ⟨_, run, ?_, ?_, ?_, ?_, nofun, fun _ => ⟨?_, ?_, ?_, (haltApply_spec _).1⟩, le, congrArg HostPort.intake hpframe,
      congrArg HostPort.hold hpframe⟩
    all_goals rw [State.withMg_cc, cc]
    case refine_5 => exact hp
    all_goals rfl

end Sys2Proof.Machine
end

section
/-! PROOF. The ends of start-up commands: OK into RUN, and a failure into UNCONFIGURED (R106, R152, R155, R159, R160, R165, R166). -/

namespace Sys2Proof.Machine

/-! ## The evaluation when the path changes (R9, R14) -/

theorem wakes_pathChanged (c : HoldCondition) : wakes c .pathChanged = (c != .stageWait) := by cases c <;> rfl

/-- In UNCONFIGURED a request that is dispatched leaves the commit controller alone (R8). -/
theorem dispatch_unconfigured_cc {r : HostRequest} {s : State} (h : s.cc.path = .unconfigured) : (dispatch r s).cc = s.cc := by
  unfold dispatch
  split
  · simp
  · simp
  · simp
  · rw [if_neg (by rw [h]; nofun)]; simp
  · rw [if_pos h]; simp
  · rw [if_pos h]; simp
  · rw [if_pos h]; simp
  · simp

theorem evaluate_unconfigured_cc {ev : EvalEvent} {s : State} (h : s.cc.path = .unconfigured) : (evaluate ev s).cc = s.cc := by
  unfold evaluate
  split
  · split
    · exact dispatch_unconfigured_cc h
    · rfl
  · rfl

theorem dispatch_commit {r : HostRequest} {s : State} (hr : isMarker .commit r = true) (h : s.cc.path ≠ .unconfigured) :
    dispatch r s = commitHead r s := by
  obtain ⟨hk, hc⟩ := isMarker_iff.mp hr
  simp only [dispatch, classify, hk, hc]
  rw [if_neg h]

/-- In RUN a COMMIT that held on a full queue is checked anew (R13, R59). -/
theorem evaluate_commit {ev : EvalEvent} {r : HostRequest} {s : State} (hh : s.hp.hold = some .commitQueueFull)
    (hr : s.hp.intake.head? = some r) (hm : isMarker .commit r = true) (hw : wakes .commitQueueFull ev = true)
    (hp : s.cc.path = .run) : evaluate ev s = commitHead r s := by
  obtain ⟨rest, hi⟩ := intake_of_head hr
  have takes : pathTakes s.cc = true := by rw [pathTakes, hp]
  simp only [evaluate, hh, hi, hw, takes, Bool.and_self, if_true]
  exact dispatch_commit hm (by rw [hp]; nofun)

/-- A request that holds on the read path leaves the commit controller alone (R11, R125, R127, R132). -/
theorem evaluate_notCommit_cc {ev : EvalEvent} {s : State} (hs : HoldSound s) (hh : s.hp.hold ≠ some .commitQueueFull)
    (hw : wakes .stageWait ev = false) : (evaluate ev s).cc = s.cc := by
  cases hc : s.hp.hold with
  | none => rw [evaluate_unwoken (.inl fun c h => by rw [hc] at h; cases h)]
  | some c =>
    cases hu : wakes c ev with
    | false => rw [evaluate_notWoken hc hu]
    | true =>
      obtain ⟨r, hr, -, hp⟩ := hs.head c hc
      cases ht : pathTakes s.cc with
      | false => rw [evaluate_unwoken (.inr ht)]
      | true =>
        have onPath : onReadPath r = true := by
          cases c
          case hazardOverlap => exact hp
          case passListFull => exact hp
          case noMergeSlot => rw [onReadPath, show isRead r = true from hp, Bool.true_or]
          case commitQueueFull => exact absurd hc hh
          case stageWait => rw [hw] at hu; cases hu
        rw [evaluate_onReadPath hc hr onPath hu ht]
        simp

/-! ## The end of a command -/

/-- A start-up command has ended with a result and RE is IDLE; the request that holds the port has not been evaluated yet (R155, R160). -/
def commandOver (res : ResultCode) (p : PathState) (s : State) : State :=
  let u := (endCommand res s).withRe (idleRecovery s.re)
  u.withCc { u.cc with path := p }

/-- A command has failed and the path is UNCONFIGURED (R155, R160, R166). -/
structure CommandEnded (res : ResultCode) (s t : State) : Prop where
  status : t.cc.status = .done ∧ t.cc.result = some res ∧ t.cc.command = s.cc.command ∧ t.cc.replayed = 0 ∧ t.cc.skipped = 0
  path : t.cc.path = .unconfigured ∧ t.cc.quiesce = s.cc.quiesce ∧ t.cc.next = s.cc.next
  cause : causeIn .cmdDone t.mg.causes = true
  lines : ∀ c, causeIn c s.mg.causes = true → causeIn c t.mg.causes = true
  recovery : t.re = idleRecovery s.re
  log : t.le = s.le
  ready : t.mp.readyApply = s.mp.readyApply ∧ t.mp.entries = s.mp.entries

theorem commandEnded {res : ResultCode} {s : State} (h : res ≠ .ok) :
    CommandEnded res s (evaluate .pathChanged (commandOver res .unconfigured s)) := by
  have counted : (res == .ok && s.cc.command != some .format) = false := by
    rw [show (res == .ok) = false from beq_eq_false_iff_ne.mpr h]; rfl
  have kept := evaluate_kept .pathChanged (commandOver res .unconfigured s)
  obtain ⟨-, le, -, re, -, -⟩ := evaluate_frame .pathChanged (commandOver res .unconfigured s)
  have cc : (evaluate .pathChanged (commandOver res .unconfigured s)).cc = (commandOver res .unconfigured s).cc :=
    evaluate_unconfigured_cc rfl
  have ended : (commandOver res .unconfigured s).cc = { s.cc with
      status := .done, result := some res, replayed := 0, skipped := 0, path := .unconfigured } := by
    simp only [commandOver, endCommand, counted]
    rfl
  rw [ended] at cc
  constructor
  case status => rw [cc]; exact ⟨rfl, rfl, rfl, rfl, rfl⟩
  case path => rw [cc]; exact ⟨rfl, rfl, rfl⟩
  case cause => exact kept.lines _ (setCause_causeIn .cmdDone _)
  case lines => exact fun c hc => kept.lines c (causeIn_mono c .cmdDone _ hc _ rfl)
  case recovery => rw [re]; rfl
  case log => rw [le]; rfl
  case ready => exact ⟨kept.ready.2, kept.entries.1⟩

/-- With nothing else under way, the end of a failed command leaves nothing due. -/
theorem CommandEnded.settles {res : ResultCode} {s t : State} (h : CommandEnded res s t) (hq : s.cc.quiesce = none) : settle t = t :=
  settle_settled t ⟨by rw [h.recovery]; nofun, h.path.2.1.trans hq, by rw [h.path.1]; nofun⟩

/-- The state when FORMAT or recovery has ended OK, before the request that holds the port is evaluated (R106, R159, R165). -/
def logOpened (p : Nat) (e : Epoch) (slot : Nat) (seq : Word32) (n : CommitNumber) (s : State) : State :=
  let u := s.withLe (openLog p e slot seq s.le)
  commandOver .ok .run (u.withCc { u.cc with next := n })

theorem logOpened_opens {p : Nat} {e : Epoch} {slot : Nat} {seq : Word32} {n : CommitNumber} {mp : MemoryPort} {s : State}
    (hl : Live s) (hs : HoldSound s) :
    LogOpens p e slot seq n mp s (evaluate .pathChanged (logOpened p e slot seq n (s.withMp mp))) := by
  generalize hu : logOpened p e slot seq n (s.withMp mp) = u
  have kept := evaluate_kept .pathChanged u
  obtain ⟨-, le, -, re, -, -⟩ := evaluate_frame .pathChanged u
  have hp : u.hp = s.hp := by rw [← hu]; rfl
  have path : u.cc.path = .run := by rw [← hu]; rfl
  have live : Live u := by rw [← hu]; exact hl
  have port : u.mp = mp := by rw [← hu]; rfl
  have groups : u.gt = s.gt := by rw [← hu]; rfl
  have sound : HoldSound u := ⟨by rw [hp]; exact hs.head, fun h => by rw [path] at h; simp at h⟩
  have takes : pathTakes u.cc = true := by rw [pathTakes, path]
  constructor
  case log => rw [le, ← hu]; rfl
  case ended =>
    refine ⟨kept.path.trans path, kept.command.1.trans ?_, kept.command.2.2.1.trans ?_, kept.command.2.1.trans ?_, kept.lines _ ?_⟩
    · rw [← hu]; rfl
    · rw [← hu]; rfl
    · rw [← hu]; rfl
    · rw [← hu]; exact setCause_causeIn .cmdDone _
  case counts =>
    have counted : ∀ x : Word32, (if (ResultCode.ok == .ok && s.cc.command != some Command.format) then x else 0) =
        if s.cc.command = some .format then 0 else x := fun x => by
      by_cases h : s.cc.command = some .format <;> simp [h]
    obtain ⟨-, -, -, replayed, skipped⟩ := kept.command
    refine ⟨replayed.trans ?_, skipped.trans ?_⟩
    · rw [← hu]; exact counted s.re.replayed
    · rw [← hu]; exact counted s.re.skipped
  case idle => rw [re, ← hu]; exact ⟨rfl, rfl, rfl, rfl⟩
  case number =>
    intro h
    rw [evaluate_notCommit_cc sound (by rwa [hp]) rfl, ← hu]
    exact ⟨rfl, rfl⟩
  case noHold =>
    intro h
    rw [evaluate_unwoken (.inl fun c hc => by rw [hp, h] at hc; cases hc)]
    exact ⟨hp, port⟩
  case readPath =>
    intro c r hc hw hr hread
    have head : u.hp.intake.head? = some r := by rw [hp]; exact hr
    have wake : wakes c .pathChanged = true := by rw [wakes_pathChanged]; exact bne_iff_ne.mpr hw
    obtain ⟨q, hq, sound', -⟩ := sound.head c (by rw [hp]; exact hc)
    obtain rfl : q = r := Option.some.inj (hq.symm.trans head)
    rw [evaluate_onReadPath (h := c) (by rw [hp]; exact hc) head hread wake takes]
    have evaluated := passThrough_evaluates q u live head (notInFlight_of_sound sound')
    rwa [hp, port, show needsSlot q u = needsSlot q s by simp only [needsSlot, ctxOf, groups]] at evaluated
  case commit =>
    intro r hc hr hi
    have head : u.hp.intake.head? = some r := by rw [hp]; exact hr
    obtain ⟨q, hq, -, marker⟩ := sound.head _ (by rw [hp]; exact hc)
    obtain rfl : q = r := Option.some.inj (hq.symm.trans head)
    have ctx : (ctxOf u q.tag).state = .idle := by rw [← hi]; simp only [ctxOf, groups]
    have answered : evaluate .pathChanged u = u.withHp (holdAnswered s.hp q .empty) := by
      rw [evaluate_commit (by rw [hp]; exact hc) head marker rfl path, commitHead,
        if_neg (by rw [path]; nofun), if_pos ctx, answerHead_eq u q _ live head, hp]
      rfl
    rw [answered]
    exact ⟨rfl, by rw [← hu]; rfl⟩

end Sys2Proof.Machine
end

section
/-! PROOF. Start-up: the anchor-slot reads, FORMAT (R152, R155, R158, R159, R161) and the commands that fail (R166): O37 and O41. -/

namespace Sys2Proof.Machine

/-! ## A start-up command taken in UNCONFIGURED -/

theorem startUp_taken {c : Instr} {cmd : Command} {s : State} (hc : (c = .format ∧ cmd = .format) ∨ (c = .recover ∧ cmd = .recover))
    (hl : Live s) (hp : s.cc.path = .unconfigured) (hb : s.cc.status ≠ .busy) :
    ∃ t, exec c s = .next t ∧
      t.cc = { s.cc with path := startUpPath cmd, status := .busy, command := some cmd, result := none, replayed := 0, skipped := 0 } ∧
      t.re.mode = .anchorRead ∧ t.mp = applyHanded s.mp (slotReadPieces s.mg.cfg 0 ++ slotReadPieces s.mg.cfg 1) ∧
      t.mg = frameEnded takenOnly 0 s.mg ∧ OnlyIn [.cc, .re, .mp, .mg] s t := by
  have pair : (c = .format ∧ cmd = .format) ∨ (c = .recover ∧ cmd = .recover) ∨ (c = .restart ∧ cmd = .restart) := hc.imp_right .inl
  have taken : controllerTakes cmd s = enterStartUp cmd (takenCommand cmd s) := by
    unfold controllerTakes
    rw [hp]
    rcases hc with ⟨-, rfl⟩ | ⟨-, rfl⟩ <;> rfl
  have frame : commandFrame s = takenOnly := by
    rw [commandFrame, beq_eq_false_iff_ne.mpr hb]; rfl
  have run : exec c s = .next ((enterStartUp cmd (takenCommand cmd s)).withMg
      (frameEnded takenOnly 0 (enterStartUp cmd (takenCommand cmd s)).mg)) := by
    rw [exec_live _ hl, effect_command pair, commandEvent, if_neg hb, taken, frame, endFrame_whole]
  have asks := asks_readSlots ((takenCommand cmd s).withCc { (takenCommand cmd s).cc with path := startUpPath cmd })
  have port := readSlots_port ((takenCommand cmd s).withCc { (takenCommand cmd s).cc with path := startUpPath cmd })
  have mode := readSlots_mode ((takenCommand cmd s).withCc { (takenCommand cmd s).cc with path := startUpPath cmd })
  have queue := (readSlots_frame ((takenCommand cmd s).withCc { (takenCommand cmd s).cc with path := startUpPath cmd })).1
  rw [enterStartUp] at run
  generalize readSlots _ = u at asks port mode queue run
  refine ⟨_, run, asks.cc, mode, port, congrArg (frameEnded takenOnly 0) asks.mg, fun b hb => ?_⟩
  cases b
  case queue => exact queue
  case hp => exact asks.hp
  case ss => exact asks.ss
  case gt => exact asks.gt
  case le => exact asks.le
  case ae => exact asks.ae
  case pf => exact asks.pf
  all_goals simp at hb

/-! ## Responses to RE -/

section
variable {id : MemId} {data : List Byte} {s : State} {p : Piece} {t0 : Option (BitVec 16)} {w : Bool} {what : RecoveryRequest} {k : Nat}

/-- A piece of a read of RE that returns OK (R146). -/
theorem exec_recoveryRead (hl : Live s) (he : s.mp.entries.getD id.toNat .free = .issued p t0 w) (ho : p.owner = .recovery what k)
    (hk : p.kind = .read) (hd : p.length = data.length) : exec (.memoryResponse id .ok data) s =
      .next (settle (recoveryPieceRead what k data (s.withMp (entryFreed s.mp id)))) := by
  rw [response_read hl he hk hd, ho]; rfl

/-- A piece of a write of RE that is acknowledged while RE listens (R146). -/
theorem exec_recoveryAcked (hl : Live s) (ha : AwaitsWrite id s what k) : exec (.memoryResponse id .ok data) s =
      .next (settle (recoveryPieceAcked what k (s.withMp (entryFreed s.mp id)))) := by
  obtain ⟨p, t0, w, he, ho, hk⟩ := ha
  rw [response_acked hl he hk, ho]; rfl

theorem listens_notEnding {re : RecoveryEngine} (h : recoveryListens re = true) : re.mode ≠ .ending := by
  simp only [recoveryListens, Bool.and_eq_true, bne_iff_ne] at h
  exact h.2

/-- What RE then does leaves nothing due, as long as it is not in ENDING (R154, R157, R166, R172). -/
theorem Settled.withRe {s : State} (h : Settled s) (mp : MemoryPort) {re : RecoveryEngine} (hr : re.mode ≠ .ending) :
    settle ((s.withMp mp).withRe re) = (s.withMp mp).withRe re := settle_settled _ ⟨hr, h.2.1, h.2.2⟩

/-- A piece of an anchor-slot read, with the reads that are then awaited (R158, R161). -/
theorem anchorPieceRead {x k : Nat} {data : List Byte} {v : State} {reads : List RecoveryRead} (hr : recoveryListens v.re = true)
    (hm : (v.re.reads.map fun r => if r.what = .anchorRead x then { r with pieces := r.pieces.set k (.done data) } else r) = reads) :
    recoveryPieceRead (.anchorRead x) k data v = if reads.all fun r => allDone r.pieces
      then slotsRead (v.withRe { v.re with reads := reads }) else v.withRe { v.re with reads := reads } := by
  subst hm
  rw [recoveryPieceRead, if_pos hr]
  rfl

end

/-- The current anchor of two slots' bytes (R158, R161). -/
def currentAnchor (cfg : Settings) (m0 m1 : List PieceMark) : Option Anchor :=
  chooseAnchor (readAnchor cfg.sizeExp 0 (piecesData m0)) (readAnchor cfg.sizeExp 1 (piecesData m1))

theorem slotsRead_eq {v : State} {m0 m1 : List PieceMark} (h : v.re.reads = [⟨.anchorRead 0, m0⟩, ⟨.anchorRead 1, m1⟩]) :
    slotsRead v = if v.cc.path = .formatting then beginFormat (currentAnchor v.mg.cfg m0 m1) v
      else beginScan (currentAnchor v.mg.cfg m0 m1) v := by
  rw [slotsRead, h]
  rfl

theorem handAnchorWrite_eq {what : RecoveryRequest} (slot : Nat) (bytes : List Byte) (s : State) :
    handAnchorWrite what slot bytes s = s.withMp (applyHanded s.mp (slotPieces s.mg.cfg what slot bytes)) := by
  rw [handAnchorWrite, handRequest_apply rfl]
  rfl

theorem handUnitRead_eq (what : RecoveryRequest) (p n : Nat) (s : State) :
    handUnitRead what p n s = (s.withMp (applyHanded s.mp (unitPieces s.mg.cfg what p n))).withRe
      { s.re with reads := s.re.reads ++ [unitAwaited s.mg.cfg what p n] } := by
  rw [handUnitRead, handRecoveryRead, handRequest_apply rfl]
  rfl

/-- Settles O37: the command taken, the anchor reads, and FORMAT's two writes. -/
theorem startUpCommandIsTaken : Obligations.StartUpCommandIsTaken := by
  refine ⟨?taken, ?reads, ?writes⟩
  case taken =>
    intro c s hc hl hp hb cmd slotRead
    rcases hc with rfl | rfl
    · exact startUp_taken (.inl ⟨rfl, rfl⟩) hl hp hb
    · exact startUp_taken (.inr ⟨rfl, rfl⟩) hl hp hb
  case reads =>
    intro id data s p t0 w x k m0 m1 hl hs hr he ho hk hd hm cfg mp current epoch slot
    have run := exec_recoveryRead hl he ho hk hd
    rw [anchorPieceRead (v := s.withMp (entryFreed s.mp id)) hr hm] at run
    have whole : ([⟨.anchorRead 0, m0⟩, ⟨.anchorRead 1, m1⟩] : List RecoveryRead).all (fun r => allDone r.pieces) =
        (allDone m0 && allDone m1) := by simp
    rw [whole] at run
    let v : State := (s.withMp mp).withRe { s.re with reads := [⟨.anchorRead 0, m0⟩, ⟨.anchorRead 1, m1⟩] }
    change exec _ s = .next (settle (if (allDone m0 && allDone m1) = true then slotsRead v else v)) at run
    have both : slotsRead v = if s.cc.path = .formatting then beginFormat current v else beginScan current v := slotsRead_eq rfl
    have listens : s.re.mode ≠ .ending := listens_notEnding hr
    refine ⟨fun h => ?_, fun h0 h1 hp => ?_, fun a h0 h1 hp ha => ?_, fun h0 h1 hp ha => ?_⟩
    · rw [if_neg (by rcases h with h | h <;> simp [h])] at run
      exact run.trans (congrArg Host.Outcome.next (hs.withRe _ listens))
    · rw [h0, h1, Bool.and_self, if_pos rfl, both, if_pos hp] at run
      have begun : beginFormat current v = (s.withMp (applyHanded mp (slotPieces cfg (.slotWrite false) slot
          (anchorRecord 1 epoch cfg.sizeExp 0 1)))).withRe
            { s.re with mode := .formatWrite, newEpoch := epoch, firstSlot := slot, reads := [] } :=
        handAnchorWrite_eq slot _ (v.withRe { v.re with mode := .formatWrite, newEpoch := epoch, firstSlot := slot, reads := [] })
      rw [begun, hs.withRe _ (by nofun)] at run
      exact run
    · rw [h0, h1, Bool.and_self, if_pos rfl, both, if_neg hp, ha] at run
      have begun : beginScan (some a) v = (s.withMp (applyHanded mp (unitPieces cfg .startUnit a.tail 1))).withRe { s.re with
          mode := .scan, chosen := some a, e := a.epoch, p := a.tail, c := a.commit, replayed := 0, skipped := 0,
          reads := [unitAwaited cfg .startUnit a.tail 1] } :=
        handUnitRead_eq .startUnit a.tail 1 (v.withRe { v.re with
          mode := .scan, chosen := some a, e := a.epoch, p := a.tail, c := a.commit, replayed := 0, skipped := 0, reads := [] })
      rw [begun, hs.withRe _ (by nofun)] at run
      exact run
    · rw [h0, h1, Bool.and_self, if_pos rfl, both, if_neg hp, ha] at run
      have ended := commandEnded (res := .noAnchor) (s := v) nofun
      have finished : beginScan none v = evaluate .pathChanged (commandOver .noAnchor .unconfigured v) := rfl
      rw [finished, ended.settles hs.2.1] at run
      exact ⟨_, run, ended.status.1, ended.status.2.1, ended.path.1, ended.cause, by rw [ended.recovery]; rfl, ended.log,
        ended.path.2.2, ended.ready.1⟩
  case writes =>
    intro id data s second k hl hs hsound hr ha other mp
    have run := exec_recoveryAcked (data := data) hl ha
    refine ⟨?_, ?_⟩
    · rintro rfl
      rw [recoveryPieceAcked, if_pos (by exact hr)] at run
      rw [formatSecond, handAnchorWrite_eq] at run
      exact run.trans (congrArg Host.Outcome.next (settle_settled _ hs))
    · rintro rfl
      rw [recoveryPieceAcked, if_pos (by exact hr)] at run
      have opens := logOpened_opens (p := 0) (e := s.re.newEpoch) (slot := other) (seq := 2) (n := 1) (mp := mp) hl hsound
      have done : formatDone (s.withMp (entryFreed s.mp id)) =
        evaluate .pathChanged (logOpened 0 s.re.newEpoch other 2 1 (s.withMp mp)) := rfl
      rw [done, settle_run _ opens.ended.1 (by rw [opens.idle.1]; nofun)] at run
      exact ⟨_, run, opens⟩

/-! ## Commands that fail -/

theorem discardDue_noQuiesce {u : State} (h : u.cc.quiesce = none) : discardDue u = false := by simp [discardDue, h]

theorem endingSettle_owed {u : State} {res : ResultCode} (hd : endingDue u = true) (ho : u.re.owed = some res) :
    endingSettle u = evaluate .pathChanged (commandOver res .unconfigured u) := by
  rw [endingSettle, if_pos hd, ho]
  rfl

/-- The end of a failed command when it is due (R166). -/
theorem settle_ended {u : State} {res : ResultCode} (hd : endingDue u = true) (ho : u.re.owed = some res) (hr : res ≠ .ok)
    (hq : u.cc.quiesce = none) : ∃ t, settle u = t ∧ CommandEnded res u t := by
  have ended := commandEnded (s := u) hr
  refine ⟨_, ?_, ended⟩
  have undone : settle u = settle (endingSettle u) := by
    have idle : (evaluate .pathChanged (commandOver res .unconfigured u)).re.mode = .idle := by rw [ended.recovery]; rfl
    have again : endingSettle (endingSettle u) = endingSettle u := by
      rw [endingSettle_owed hd ho]
      exact if_neg (by rw [endingDue, idle]; nofun)
    rw [settle, settle, again]
  rw [undone, endingSettle_owed hd ho, ended.settles hq]

theorem failureResult_ne_ok (path : PathState) (what : RecoveryRequest) : failureResult path what ≠ .ok := by
  cases what
  case anchorRead => rw [failureResult]; split <;> nofun
  all_goals nofun

/-- A failure of RE while it listens: RE waits in ENDING, and the command ends when none of its pieces is ISSUED (R166). -/
theorem failRecovery_fails {s v : State} {res : ResultCode} {mp : MemoryPort} (hs : Settled s) (hr : res ≠ .ok) (hmp : v.mp = mp)
    (hcc : v.cc = s.cc) (hle : v.le = s.le) (hhp : v.hp = s.hp) : ∃ t, settle (failRecovery res v) = t ∧
      CommandFails res mp s t ∧ ∀ c, causeIn c v.mg.causes = true → causeIn c t.mg.causes = true := by
  have hissued : issuedCount isRecoveryOwner (failRecovery res v).mp = issuedCount isRecoveryOwner mp := by
    refine issuedCount_congr ?_ _
    rw [← hmp]
    simp [failRecovery, withdrawRequests, issuedPiece_markWithdrawn]
  have ready : (failRecovery res v).mp.readyApply = mp.readyApply.filter fun p => !isRecoveryOwner p.owner := by rw [← hmp]; rfl
  have cc : (failRecovery res v).cc = s.cc := hcc
  by_cases hz : issuedCount isRecoveryOwner mp = 0
  · have due : endingDue (failRecovery res v) = true := by rw [endingDue, hissued, hz]; rfl
    obtain ⟨t, ht, ended⟩ := settle_ended due rfl hr (by rw [cc]; exact hs.2.1)
    refine ⟨t, ht, ⟨ended.ready.1.trans ready, fun h => absurd hz h, fun _ => ⟨by rw [ended.recovery]; rfl, ended.status.1,
      ended.status.2.1, ended.path.1, ended.cause⟩, ended.log.trans hle, ended.path.2.2.trans (congrArg _ cc),
      ended.status.2.2.1.trans (congrArg _ cc)⟩, ended.lines⟩
  · have undue : endingDue (failRecovery res v) = false := by
      rw [endingDue, hissued, beq_eq_false_iff_ne.mpr hz, Bool.and_false]
    refine ⟨failRecovery res v, settle_nothingDue _ undue (discardDue_noQuiesce (by rw [cc]; exact hs.2.1)) (by rw [cc]; exact hs.2.2),
      ⟨ready, fun _ => ⟨rfl, rfl, hcc, hhp⟩, fun h => absurd h hz, hle, congrArg _ hcc, congrArg _ hcc⟩, fun _ h => h⟩

/-- While RE waits in ENDING the outcomes of its pieces are discarded (R166). -/
theorem exec_recoveryDiscarded {c : Instr} {id : MemId} {s u : State} {p : Piece} {timer : Option (BitVec 16)} {w : Bool}
    {what : RecoveryRequest} {k : Nat} (hl : Live s) (hm : s.re.mode = .ending)
    (he : s.mp.entries.getD id.toNat .free = .issued p timer w) (ho : p.owner = .recovery what k)
    (hc : (∃ data, c = .memoryResponse id .ok data ∧ u = s.withMp (entryFreed s.mp id)) ∨
      (FailsForGood c id s p ∧ u = afterFailure c id p s)) : exec c s = .next (settle u) ∧ u.re = s.re ∧ u.cc = s.cc ∧ u.le = s.le := by
  have deaf : recoveryListens s.re = false := by rw [recoveryListens, hm]; rfl
  rcases hc with ⟨data, rfl, rfl⟩ | ⟨hf, rfl⟩
  · refine ⟨?_, rfl, rfl, rfl⟩
    cases hk : p.kind with
    | write =>
      rw [response_acked hl he hk, ho]
      exact congrArg (fun v => Host.Outcome.next (settle v)) (if_neg (by exact Bool.eq_false_iff.mp deaf))
    | read =>
      have hl : s.pf.resetAsserted = false := hl
      simp only [exec, execMemoryResponse, live, hl, takeResponse, he, pieceResponse, attemptOk, hk, ho]
      exact congrArg (fun v => Host.Outcome.next (settle v)) (if_neg (by exact Bool.eq_false_iff.mp deaf))
  · refine ⟨?_, rfl, rfl, rfl⟩
    rw [exec_failsForGood hl hf, ho]
    exact congrArg (fun v => Host.Outcome.next (settle v)) (if_neg (by exact Bool.eq_false_iff.mp deaf))

/-- Settles O41: the end that is due, a failure that ends a command, and the outcomes while RE waits. -/
theorem failedCommandEnds : Obligations.FailedCommandEnds := by
  refine ⟨?due, ?fails, ?waits⟩
  case due =>
    intro s res hl hm ho hr hz
    have due : endingDue s = true := by rw [endingDue, hm, hz]; rfl
    have run : exec .endingComplete s = .next (endingSettle s) := exec_live _ hl
    rw [endingSettle_owed due ho] at run
    have ended := commandEnded (s := s) hr
    obtain ⟨status, result, command, replayed, skipped⟩ := ended.status
    refine ⟨_, run, status, result, command, replayed, skipped, ended.path.1, ended.cause, ?_, ?_, ?_, ?_, ended.path.2.2, ended.log⟩ <;>
      (rw [ended.recovery]; rfl)
  case fails =>
    intro c id s p what k hl hs hr hf ho
    have run := exec_failsForGood hl hf
    have report : reportFailed p.owner (afterFailure c id p s) = failRecovery (failureResult s.cc.path what) (afterFailure c id p s) := by
      rw [ho]
      exact if_pos hr
    rw [report] at run
    obtain ⟨t, ht, fails, lines⟩ := failRecovery_fails (v := afterFailure c id p s) hs (failureResult_ne_ok s.cc.path what) rfl rfl rfl rfl
    rw [ht] at run
    refine ⟨t, run, ?_, fun hto => lines _ (failureMg_orphan c id s.mg hto)⟩
    cases what <;> exact fails
  case waits =>
    intro c id s u p timer w what k hl hq hm he ho hc
    obtain ⟨run, re, cc, le⟩ := exec_recoveryDiscarded hl hm he ho hc
    have undiscarded : discardDue u = false := discardDue_noQuiesce (by rw [cc]; exact hq)
    refine ⟨fun hz => ?_, fun hz howed => ?_, fun res hz howed hr => ?_⟩
    · rw [run, settle_afterDrain u (by rw [endingDue, beq_eq_false_iff_ne.mpr hz, Bool.and_false]) undiscarded]
    · have due : endingDue u = true := by rw [endingDue, re, hm, hz]; rfl
      have idle : settle u = settle (u.withRe (idleRecovery s.re)) := by
        have first : endingSettle u = u.withRe (idleRecovery s.re) := by rw [endingSettle, if_pos due, re, howed]
        have second : endingSettle (u.withRe (idleRecovery s.re)) = u.withRe (idleRecovery s.re) := if_neg nofun
        rw [settle, settle, first, second]
      rw [run, idle, settle_afterDrain _ rfl (by exact undiscarded)]
      rfl
    · have due : endingDue u = true := by rw [endingDue, re, hm, hz]; rfl
      obtain ⟨t, ht, ended⟩ := settle_ended due (by rw [re]; exact howed) hr (by rw [cc]; exact hq)
      rw [ht] at run
      exact ⟨t, run, ended.status.1, ended.status.2.1, ended.path.1, ended.cause, by rw [ended.recovery]; rfl,
        ended.path.2.2.trans (congrArg _ cc), ended.log.trans le⟩

end Sys2Proof.Machine
end

section
/-! PROOF. Recovery from the scan through verify and replay to RUN (R162 to R165): O42. -/

namespace Sys2Proof.Machine

/-! ## RE's requests -/

/-- The state with the memory port and the recovery engine given. -/
abbrev withEngine (s : State) (mp : MemoryPort) (re : RecoveryEngine) : State := (s.withMp mp).withRe re

/-- RE has handed a read of ring units and awaits it (R162 to R164). -/
def unitAsked (s : State) (mp : MemoryPort) (re : RecoveryEngine) (what : RecoveryRequest) (p n : Nat) : State :=
  withEngine s (applyHanded mp (unitPieces s.mg.cfg what p n)) { re with reads := re.reads ++ [unitAwaited s.mg.cfg what p n] }

/-- RE has handed the closing anchor at the scan's end (R165). -/
def scanClosed (a : Anchor) (s : State) (mp : MemoryPort) (re : RecoveryEngine) : State :=
  withEngine s (applyHanded mp (slotPieces s.mg.cfg .closing (if a.slot = 0 then 1 else 0)
    (anchorRecord (a.seq + 1) (re.e + 1) s.mg.cfg.sizeExp re.p re.c))) { re with mode := .close, reads := [] }

section
variable {s : State} {mp : MemoryPort} {re : RecoveryEngine} {a : Anchor} {g : GroupUnderTest} {bs : List Byte}

theorem handUnitRead_asked (what : RecoveryRequest) (p n : Nat) :
    handUnitRead what p n (withEngine s mp re) = unitAsked s mp re what p n := handUnitRead_eq ..

theorem scanStart_asked :
    scanStart (withEngine s mp re) = unitAsked s mp { re with mode := .scan, reads := [] } .startUnit re.p 1 :=
  handUnitRead_asked (re := { re with mode := .scan, reads := [] }) ..

theorem closeScan_closed (h : re.chosen = some a) : closeScan (withEngine s mp re) = scanClosed a s mp re := by
  have choice : (withEngine s mp re).re.chosen = some a := h
  rw [closeScan, choice]
  exact handAnchorWrite_eq ..

theorem passGroup_asked (n : Nat) : passGroup n (withEngine s mp re) =
    unitAsked s mp { re with p := if re.p + n = ringU s then 0 else re.p + n, c := re.c + 1, group := none, map := [],
                             mode := .scan, reads := [] } .startUnit (if re.p + n = ringU s then 0 else re.p + n) 1 :=
  scanStart_asked (re := { re with p := nextStart (ringU s) re.p n, c := re.c + 1, group := none, map := [] })

/-! ## The unit at p and the trailer's unit (R162) -/

theorem startUnitRead_eq : startUnitRead bs (withEngine s mp re) =
    if passesPad (ringU s) re.e re.c re.p bs then scanStart (withEngine s mp { re with p := 0 })
    else match passesHdr (ringU s) re.e re.c re.p bs with
      | none => closeScan (withEngine s mp re)
      | some (n, u) => handUnitRead .trailerUnit (re.p + u - 1) 1 (withEngine s mp { re with group := some ⟨n, u, re.p + u - 1⟩ }) := by
  rw [startUnitRead]
  dsimp only [State.withRe_re]
  rfl

theorem trailerUnitRead_eq (hg : re.group = some g) : trailerUnitRead bs (withEngine s mp re) =
    match passesTrl (ringU s) re.e re.c g.t (g.n + 1) bs with
    | none => closeScan (withEngine s mp re)
    | some true => passGroup g.g (withEngine s mp { re with skipped := re.skipped + 1 })
    | some false => verifyNext g (withEngine s mp { re with mode := .verify, map := [], i := 1, q := re.p + 1 }) := by
  rw [trailerUnitRead, show (withEngine s mp re).re.group = some g from hg]
  rfl

/-! ## VERIFY (R163) -/

theorem verifyNext_next (hi : re.i ≤ g.n) (hq : re.q < g.t) :
    verifyNext g (withEngine s mp re) = unitAsked s mp re .datHeader re.q 1 := by
  rw [verifyNext, if_neg (by exact Nat.not_lt.mpr hi), if_neg (by exact Nat.not_le.mpr hq)]
  exact handUnitRead_asked ..

theorem verifyNext_noRoom (hc : re.chosen = some a) (hi : re.i ≤ g.n) (hq : g.t ≤ re.q) :
    verifyNext g (withEngine s mp re) = scanClosed a s mp re := by
  rw [verifyNext, if_neg (by exact Nat.not_lt.mpr hi), if_pos (by exact hq)]
  exact closeScan_closed hc

theorem verifyNext_astray (hc : re.chosen = some a) (hi : g.n < re.i) (hq : re.q ≠ g.t) :
    verifyNext g (withEngine s mp re) = scanClosed a s mp re := by
  rw [verifyNext, if_pos (by exact hi), if_neg (by exact hq)]
  exact closeScan_closed hc

theorem verifyNext_replays {q1 r1 : Nat} {rest : List (Nat × Nat)} (hi : g.n < re.i) (hq : re.q = g.t)
    (hm : re.map = (q1, r1) :: rest) : verifyNext g (withEngine s mp re) =
      unitAsked s mp { re with mode := .replay, i := 1, held := none } .secondReading q1 r1 := by
  rw [verifyNext, if_pos (by exact hi), if_pos (by exact hq), show (withEngine s mp re).re.map = (q1, r1) :: rest from hm]
  exact handUnitRead_asked (re := { re with mode := .replay, i := 1, held := none }) ..

theorem datHeaderRead_eq (hg : re.group = some g) : datHeaderRead bs (withEngine s mp re) =
    match passesDatHeader re.e re.c re.i re.q g.t bs with
    | none => closeScan (withEngine s mp re)
    | some f => handUnitRead .datRest (re.q + 1) (f.units - 1) (withEngine s mp { re with header := bs }) := by
  rw [datHeaderRead, show (withEngine s mp re).re.group = some g from hg]
  rfl

theorem datRestRead_eq (hg : re.group = some g) : datRestRead bs (withEngine s mp re) =
    if codeChecks re.header (payloadOf (datFields re.header) bs) then
      verifyNext g (withEngine s mp { re with
        map := re.map ++ [(re.q, (datFields re.header).units)]
        q := re.q + (datFields re.header).units
        i := re.i + 1
        header := [] })
    else closeScan (withEngine s mp re) := by
  rw [datRestRead, show (withEngine s mp re).re.group = some g from hg]
  rfl

/-! ## Second readings (R164) -/

theorem secondReadingDone_eq {qi ri : Nat} (hg : re.group = some g) (hm : re.map[re.i - 1]? = some (qi, ri)) :
    secondReadingDone bs (withEngine s mp re) =
      match passesDat re.e re.c re.i qi g.t bs with
      | some w => if 32 * ri = bs.length ∧ (datFields bs).units = ri then withEngine s mp { re with held := some w }
        else failRecovery .replayFailed (withEngine s mp re)
      | none => failRecovery .replayFailed (withEngine s mp re) := by
  rw [secondReadingDone, show (withEngine s mp re).re.group = some g from hg,
    show (withEngine s mp re).re.map[(withEngine s mp re).re.i - 1]? = some (qi, ri) from hm]
  rfl

end

/-! ## The read that has returned -/

/-- The reads left when a read of RE has returned whole (R146). -/
theorem reads_without (what : RecoveryRequest) (k : Nat) (data : List Byte) (reads : List RecoveryRead) :
    (reads.map fun r => if r.what = what then { r with pieces := r.pieces.set k (.done data) } else r).filter
      (fun x => x.what != what) = reads.filter fun x => x.what != what := by
  induction reads with
  | nil => rfl
  | cons r reads ih => by_cases h : r.what = what <;> simp [h, ih]

/-- The last piece of a read of RE, other than an anchor read, gives it the read's bytes (R146). -/
theorem exec_readReturns {id : MemId} {data bs : List Byte} {s : State} {what : RecoveryRequest} (hl : Live s)
    (hr : recoveryListens s.re = true) (ha : isAnchorRead what = false) (h : ReadReturns id data s what bs) :
    exec (.memoryResponse id .ok data) s = .next (settle (recoveryReadDone what bs
      (withEngine s (entryFreed s.mp id) { s.re with reads := s.re.reads.filter fun x => x.what != what }))) := by
  obtain ⟨p, t0, w, k, ms, he, ho, hk, hd, hf, hall, hbytes⟩ := h
  have run := exec_recoveryRead hl he ho hk hd
  have found : (s.re.reads.map fun r => if r.what = what then { r with pieces := r.pieces.set k (.done data) } else r).find?
      (fun r => r.what == what) = some ⟨what, ms.set k (.done data)⟩ := by
    have same : ((fun r : RecoveryRead => r.what == what) ∘ fun r =>
        if r.what = what then { r with pieces := r.pieces.set k (.done data) } else r) = fun r => r.what == what := by
      funext r
      by_cases h : r.what = what <;> simp [h]
    rw [List.find?_map, same, hf]
    simp
  have without := reads_without what k data s.re.reads
  have returned : recoveryPieceRead what k data (s.withMp (entryFreed s.mp id)) = recoveryReadDone what bs
      (withEngine s (entryFreed s.mp id) { s.re with reads := s.re.reads.filter fun x => x.what != what }) := by
    rw [recoveryPieceRead, if_pos (by exact hr)]
    simp only [State.withMp_re, markPiece]
    rw [if_neg (Bool.eq_false_iff.mp ha), found]
    dsimp only
    rw [if_pos hall, hbytes, without]
    rfl
  rw [run, returned]

/-! ## Replay (R164) -/

/-- The home write of a record is handed, and with it the second reading of the next one (R164). -/
theorem handReplay_port {g : GroupUnderTest} {w : RecordWrite} {s : State} :
    (g.n ≤ s.re.i → (handReplay g w s).mp = applyHanded s.mp
      (cutRequest (burst s.mg.cfg) (Owner.recovery (.replayWrite s.re.i)) .write w.addr.toNat w.length w.mask w.data)) ∧
    (∀ q u, s.re.i < g.n → s.re.map[s.re.i]? = some (q, u) → (handReplay g w s).mp = applyHanded s.mp
      (cutRequest (burst s.mg.cfg) (Owner.recovery (.replayWrite s.re.i)) .write w.addr.toNat w.length w.mask w.data ++
        cutRequest (burst s.mg.cfg) (Owner.recovery .secondReading) .read (unitAddr s.mg.cfg q) (32 * u) none [])) := by
  rw [handReplay, handRequest_apply rfl]
  refine ⟨fun h => ?_, fun q u h hm => ?_⟩
  · rw [if_neg (Nat.not_lt.mpr h)]
    rfl
  · rw [if_pos h, hm]
    dsimp only
    rw [handUnitRead_eq]
    simp [applyHanded, unitPieces]

/-- RE after the handing: the record is no longer held, the write joins the in-flight set (R164). -/
theorem handReplay_engine {g : GroupUnderTest} {w : RecordWrite} {s : State} :
    (handReplay g w s).re.held = none ∧ (handReplay g w s).re.i = s.re.i + 1 ∧
    (handReplay g w s).re.replaySet = s.re.replaySet ++
      [⟨s.re.i, w.addr, w.length, List.replicate (pieceCount (burst s.mg.cfg) w.addr.toNat w.length) .pending⟩] ∧
    OnlyIn [.re, .mp] s (handReplay g w s) := by
  have port : ∀ (mp : MemoryPort) (re : RecoveryEngine), OnlyIn [.re, .mp] s (withEngine s mp re) := fun mp re b hb => by
    cases b <;> simp [sameBlock] at hb ⊢
  rw [handReplay, handRequest_apply rfl]
  dsimp only
  split
  · split
    · rw [handUnitRead_eq]
      exact ⟨rfl, rfl, rfl, port _ _⟩
    · exact ⟨rfl, rfl, rfl, port _ _⟩
  · exact ⟨rfl, rfl, rfl, port _ _⟩

section
variable {s : State} {mp : MemoryPort} {re : RecoveryEngine} {g : GroupUnderTest}

/-- An acknowledged piece of a replay write of the in-flight set (R164). -/
theorem replayPieceAcked_eq {x k : Nat} {y : ReplayWrite} (hy : s.re.replaySet.find? (fun y => y.index == x) = some y) :
    replayPieceAcked x k (s.withMp mp) = if allDone (y.pieces.set k (.done [])) then
        replayGroupEnd (withEngine s mp { s.re with replaySet := s.re.replaySet.filter fun y => y.index != x })
      else withEngine s mp { s.re with
        replaySet := s.re.replaySet.map fun z => if z.index = x then { z with pieces := y.pieces.set k (.done []) } else z } := by
  rw [replayPieceAcked, show (s.withMp mp).re.replaySet.find? _ = some y from hy]
  rfl

theorem replayGroupEnd_open (hg : re.group = some g) (h : g.n < re.i → re.replaySet ≠ []) :
    replayGroupEnd (withEngine s mp re) = withEngine s mp re := by
  rw [replayGroupEnd, show (withEngine s mp re).re.group = some g from hg]
  exact if_neg fun ⟨_, hi, hset⟩ => h hi hset

/-- The last write of a group is acknowledged: the group is replayed and the next start is tested (R164). -/
theorem replayGroupEnd_replayed (hg : re.group = some g) (hm : re.mode = .replay) (hi : g.n < re.i) (hset : re.replaySet = []) :
    replayGroupEnd (withEngine s mp re) = unitAsked s mp { re with
      replayed := re.replayed + 1, p := if re.p + g.g = ringU s then 0 else re.p + g.g, c := re.c + 1, group := none, map := [],
      mode := .scan, reads := [] } .startUnit (if re.p + g.g = ringU s then 0 else re.p + g.g) 1 := by
  rw [replayGroupEnd, show (withEngine s mp re).re.group = some g from hg]
  exact (if_pos ⟨hm, hi, hset⟩).trans (passGroup_asked (re := { re with replayed := re.replayed + 1 }) g.g)

end

/-- Settles O42: the handing of a replay write, the reads one by one, the acknowledgements of replay writes, and the closing anchor. -/
theorem replayWriteIsHanded : Obligations.ReplayWriteIsHanded := by
  refine ⟨?hand, ?reads, ?acked, ?closed⟩
  case hand =>
    intro s g w hl hm hg hw hready b home second
    have run : exec .replayWriteHand s = .next (handReplay g w s) := by
      rw [exec_live _ hl]
      refine congrArg Host.Outcome.next ?_
      change (match s.re.mode, s.re.group, s.re.held with
        | .replay, some gr, some w => if replayReady s w then handReplay gr w s else s
        | _, _, _ => s) = _
      rw [hm, hg, hw]
      exact if_pos hready
    obtain ⟨held, i, set, only⟩ := handReplay_engine (g := g) (w := w) (s := s)
    obtain ⟨last, next⟩ := handReplay_port (g := g) (w := w) (s := s)
    exact ⟨_, run, held, i, set, last, next, only⟩
  case reads =>
    intro id data bs s what a g hl hs hr ha hret hgroup cfg u re mp done reads starts ends
    have chosen : re.chosen = some a := ha
    have listens : re.mode ≠ .ending := listens_notEnding hr
    have finish : ∀ {mp' : MemoryPort} {re' : RecoveryEngine}, isAnchorRead what = false →
        recoveryReadDone what bs (withEngine s mp re) = withEngine s mp' re' → re'.mode ≠ .ending →
        done = .next (withEngine s mp' re') := fun hw h hm => by
      have run := exec_readReturns hl hr hw hret
      rw [show withEngine s (entryFreed s.mp id) _ = withEngine s mp re from rfl, h, hs.withRe _ hm] at run
      exact run
    refine ⟨?start, ?trailer, ?header, ?rest, ?second⟩
    case start =>
      rintro rfl
      have step : recoveryReadDone .startUnit bs (withEngine s mp re) = _ := startUnitRead_eq
      refine ⟨fun h => ?_, fun h hn => ?_, fun n v h hn => ?_⟩
      · exact finish rfl (step.trans ((if_pos h).trans (scanStart_asked (re := { re with p := 0 })))) nofun
      · refine finish rfl (step.trans ((if_neg (Bool.eq_false_iff.mp h)).trans ?_)) (by nofun)
        rw [hn]
        exact closeScan_closed chosen
      · refine finish rfl (step.trans ((if_neg (Bool.eq_false_iff.mp h)).trans ?_)) listens
        rw [hn]
        exact handUnitRead_asked (re := { re with group := some ⟨n, v, re.p + v - 1⟩ }) ..
    case trailer =>
      rintro rfl
      have group : re.group = some g := hgroup nofun
      have step : recoveryReadDone .trailerUnit bs (withEngine s mp re) = _ := trailerUnitRead_eq group
      refine ⟨fun h => ?_, fun h => ?_, fun h hn ht => ?_⟩
      · rw [h] at step
        exact finish rfl (step.trans (closeScan_closed chosen)) (by nofun)
      · rw [h] at step
        exact finish rfl (step.trans (passGroup_asked (re := { re with skipped := re.skipped + 1 }) g.g)) nofun
      · rw [h] at step
        exact finish rfl (step.trans (verifyNext_next (re := { re with mode := .verify, map := [], i := 1, q := re.p + 1 }) hn ht))
          nofun
    case header =>
      rintro rfl
      have group : re.group = some g := hgroup nofun
      have step : recoveryReadDone .datHeader bs (withEngine s mp re) = _ := datHeaderRead_eq group
      refine ⟨fun h => ?_, fun f h => ?_⟩
      · rw [h] at step
        exact finish rfl (step.trans (closeScan_closed chosen)) (by nofun)
      · rw [h] at step
        exact finish rfl (step.trans (handUnitRead_asked (re := { re with header := bs }) ..)) listens
    case rest =>
      rintro rfl
      have group : re.group = some g := hgroup nofun
      intro f next
      have step : recoveryReadDone .datRest bs (withEngine s mp re) = _ := datRestRead_eq group
      refine ⟨fun h => ?_, fun h => ⟨fun hi hq => ?_, fun hi hq => ?_, fun hi hq => ?_, fun q1 r1 rest hi hq hm => ?_⟩⟩
      · exact finish rfl (step.trans ((if_neg (Bool.eq_false_iff.mp h)).trans (closeScan_closed chosen))) (by nofun)
      · exact finish rfl (step.trans ((if_pos h).trans (verifyNext_next (re := next) hi hq))) listens
      · exact finish rfl (step.trans ((if_pos h).trans (verifyNext_noRoom (re := next) chosen hi hq))) (by nofun)
      · exact finish rfl (step.trans ((if_pos h).trans (verifyNext_astray (re := next) chosen (Nat.lt_succ_of_le hi) hq))) (by nofun)
      · exact finish rfl (step.trans ((if_pos h).trans (verifyNext_replays (re := next) (Nat.lt_succ_of_le hi) hq hm))) nofun
    case second =>
      rintro qi ri rfl hm
      have group : re.group = some g := hgroup nofun
      have step : recoveryReadDone .secondReading bs (withEngine s mp re) = _ := secondReadingDone_eq group hm
      refine ⟨fun w hw hlen hu => ?_, fun h => ?_⟩
      · rw [hw] at step
        exact finish (re' := { re with held := some w }) rfl (step.trans (if_pos ⟨hlen.symm, hu⟩)) listens
      · have fails : recoveryReadDone .secondReading bs (withEngine s mp re) = failRecovery .replayFailed (withEngine s mp re) := by
          rw [step]
          split
          · rename_i w hw
            refine if_neg fun ⟨hlen, hu⟩ => ?_
            rcases h with h | h | h
            · cases hw.symm.trans h
            · exact h hlen.symm
            · exact h hu
          · rfl
        have run := exec_readReturns hl hr rfl hret
        rw [show withEngine s (entryFreed s.mp id) _ = withEngine s mp re from rfl, fails] at run
        obtain ⟨t, ht, failed, -⟩ := failRecovery_fails (v := withEngine s mp re) (mp := mp) (res := .replayFailed) hs nofun rfl rfl
          rfl rfl
        rw [ht] at run
        exact ⟨t, run, failed⟩
  case acked =>
    intro id data s x k y g hl hs hm hg ha hy cfg mp ms left p
    have run := exec_recoveryAcked (data := data) hl ha
    have listens : recoveryListens s.re = true := by rw [recoveryListens, hm]; rfl
    rw [recoveryPieceAcked, if_pos (by exact listens)] at run
    rw [replayPieceAcked_eq (mp := mp) hy] at run
    refine ⟨fun hd => ?_, fun hd hopen => ?_, fun hd hi hleft => ?_⟩
    · rw [if_neg (Bool.eq_false_iff.mp hd), hs.withRe _ (by exact listens_notEnding listens)] at run
      exact run
    · have stays : replayGroupEnd (withEngine s mp { s.re with replaySet := left }) = withEngine s mp { s.re with replaySet := left } :=
        replayGroupEnd_open hg fun hi hl => hopen.elim (Nat.not_le.mpr hi) (absurd hl)
      rw [if_pos hd, stays, hs.withRe _ (by exact listens_notEnding listens)] at run
      exact run
    · rw [if_pos hd, replayGroupEnd_replayed (re := { s.re with replaySet := left }) hg hm hi hleft, unitAsked,
        hs.withRe _ (by nofun)] at run
      rw [run, hleft]
      rfl
  case closed =>
    intro id data s k a hl hs hsound hr ha hw
    have run := exec_recoveryAcked (data := data) hl hw
    rw [recoveryPieceAcked, if_pos (by exact hr)] at run
    have opens := logOpened_opens (p := s.re.p) (e := s.re.e + 1) (slot := if a.slot = 0 then 1 else 0) (seq := a.seq + 1)
      (n := s.re.c) (mp := entryFreed s.mp id) hl hsound
    have done : closeDone (s.withMp (entryFreed s.mp id)) = evaluate .pathChanged (logOpened s.re.p (s.re.e + 1)
        (if a.slot = 0 then 1 else 0) (a.seq + 1) s.re.c (s.withMp (entryFreed s.mp id))) := by
      rw [closeDone, show (s.withMp (entryFreed s.mp id)).re.chosen = some a from ha]
      rfl
    rw [done, settle_run _ opens.ended.1 (by rw [opens.idle.1]; nofun)] at run
    exact ⟨_, run, opens⟩

end Sys2Proof.Machine
end

section
/-! PROOF. The log region's format read back (R77 to R82, R86, R163): O51 and O52. -/

namespace Sys2Proof.Machine

/-! ## Fields (R77) -/

@[simp] theorem leBytes_length (n v : Nat) : (leBytes n v).length = n := by
  induction n generalizing v with
  | zero => rfl
  | succ n ih => rw [leBytes, List.length_cons, ih]

theorem leNat_leBytes (n v : Nat) : leNat (leBytes n v) = v % 256 ^ n := by
  induction n generalizing v with
  | zero => simp [leBytes, leNat, Nat.mod_one]
  | succ n ih =>
    rw [leBytes, leNat, ih, BitVec.toNat_ofNat]
    change v % 256 + 256 * (v / 256 % 256 ^ n) = v % 256 ^ (n + 1)
    rw [Nat.pow_succ, Nat.mul_comm (256 ^ n), Nat.mod_mul]

@[simp] theorem zeroBytes_length (n : Nat) : (zeroBytes n).length = n := List.length_replicate

/-- A field that stands where it was written reads as written. -/
theorem fieldAt_written {bs before after : List Byte} {off n v : Nat} (h : bs = before ++ (leBytes n v ++ after))
    (hl : before.length = off) (hv : v < 256 ^ n) : fieldAt bs off n = v := by
  rw [fieldAt, sliceOf, h, List.drop_left' hl, List.take_left' (leBytes_length n v), leNat_leBytes, Nat.mod_eq_of_lt hv]

/-- A one-byte field. -/
theorem fieldAt_byte {bs before after : List Byte} {off : Nat} {b : Byte} (h : bs = before ++ b :: after) (hl : before.length = off) :
    fieldAt bs off 1 = b.toNat := by
  rw [fieldAt, sliceOf, h, List.drop_left' hl]
  simp [leNat]

/-! ## Headers (R79, R81) -/

section
variable {type flags : Byte} {e : Epoch} {c : CommitNumber} {index payload units : Nat} {rest : List Byte}

@[simp] theorem recordHead_length : (recordHead type flags e c index payload units).length = 16 := by simp [recordHead]

theorem recordHead_type : fieldAt (recordHead type flags e c index payload units ++ rest) 0 1 = type.toNat :=
  fieldAt_byte (before := []) rfl rfl

theorem recordHead_flags : (recordHead type flags e c index payload units ++ rest).getD 1 0 = flags := rfl

theorem recordHead_epoch : fieldAt (recordHead type flags e c index payload units ++ rest) 2 2 = e.toNat :=
  fieldAt_written (before := [type, flags]) (by simp [recordHead]; rfl) rfl e.isLt

theorem recordHead_commit : fieldAt (recordHead type flags e c index payload units ++ rest) 4 4 = c.toNat :=
  fieldAt_written (before := [type, flags] ++ leBytes 2 e.toNat) (by simp [recordHead]; rfl) rfl c.isLt

theorem recordHead_index (h : index < 2 ^ 16) : fieldAt (recordHead type flags e c index payload units ++ rest) 8 2 = index :=
  fieldAt_written (before := [type, flags] ++ leBytes 2 e.toNat ++ leBytes 4 c.toNat) (by simp [recordHead]; rfl) rfl h

theorem recordHead_payload (h : payload < 2 ^ 16) :
    fieldAt (recordHead type flags e c index payload units ++ rest) 10 2 = payload :=
  fieldAt_written (before := [type, flags] ++ leBytes 2 e.toNat ++ leBytes 4 c.toNat ++ leBytes 2 index)
    (by simp [recordHead]; rfl) rfl h

theorem recordHead_units (h : units < 2 ^ 32) : fieldAt (recordHead type flags e c index payload units ++ rest) 12 4 = units :=
  fieldAt_written (before := [type, flags] ++ leBytes 2 e.toNat ++ leBytes 4 c.toNat ++ leBytes 2 index ++ leBytes 2 payload)
    (by simp [recordHead]; rfl) rfl h

/-- Fields after the first 16 bytes. -/
theorem recordHead_after {off n : Nat} : fieldAt (recordHead type flags e c index payload units ++ rest) (16 + off) n = fieldAt rest off n := by
  rw [fieldAt, sliceOf, List.drop_append, List.drop_of_length_le (by simp), recordHead_length, Nat.add_sub_cancel_left, List.nil_append]
  rfl

theorem headMatches_recordHead {type' : Nat} {c' : CommitNumber} :
    headMatches type' e c' (recordHead type flags e c index payload units ++ rest) = (type.toNat == type' && decide (c = c')) := by
  rw [headMatches, recordHead_type, recordHead_epoch, recordHead_commit]
  simp [beq_eq_decide, BitVec.toNat_inj]

end

theorem sealHeader_head (head rest payload : List Byte) :
    sealHeader (head ++ rest) payload = head ++ (rest ++ leBytes 4 (crc32 (head ++ rest ++ payload)).toNat) := by
  rw [sealHeader, List.append_assoc]

/-- A sealed header's check code checks (R81). -/
theorem codeChecks_seal {head payload : List Byte} (h : head.length = 28) : codeChecks (sealHeader head payload) payload = true := by
  have code : fieldAt (sealHeader head payload) 28 4 = (crc32 (head ++ payload)).toNat :=
    fieldAt_written (before := head) (after := []) (by rw [sealHeader, List.append_nil]) h (crc32 _).isLt
  rw [codeChecks, code, sealHeader, List.take_left' h, beq_self_eq_true]

/-! ## Group headers, trailers and pads (R86) -/

section
variable {u p count g index : Nat} {e : Epoch} {n n' : CommitNumber} {void : Bool}

theorem hdrRecord_eq : ∃ code, hdrRecord e n count g =
    recordHead 0x51 0 e n 0 0 1 ++ (leBytes 2 count ++ leBytes 4 g ++ zeroBytes 6 ++ leBytes 4 code) :=
  ⟨_, by rw [hdrRecord, List.append_assoc, List.append_assoc, ← List.append_assoc (leBytes 2 count), sealHeader_head]⟩

theorem trlRecord_eq : ∃ code, trlRecord e n index void =
    recordHead 0x53 (if void then 1 else 0) e n index 0 1 ++ (zeroBytes 12 ++ leBytes 4 code) := ⟨_, sealHeader_head ..⟩

theorem padRecord_eq {units : Nat} : ∃ code, padRecord e n units =
    recordHead 0x54 0 e n 0 0 units ++ (zeroBytes 12 ++ leBytes 4 code) := ⟨_, sealHeader_head ..⟩

theorem codeChecks_hdr : codeChecks (hdrRecord e n count g) [] = true := codeChecks_seal (by simp)

theorem codeChecks_trl : codeChecks (trlRecord e n index void) [] = true := codeChecks_seal (by simp)

theorem codeChecks_pad {units : Nat} : codeChecks (padRecord e n units) [] = true := codeChecks_seal (by simp)

theorem passesHdr_hdrRecord (hu : u < 2 ^ 32) (h1 : 1 ≤ count) (h2 : count ≤ 1024) (h3 : 2 + 2 * count ≤ g) (h4 : g ≤ 2 + 10 * count)
    (h5 : g ≤ u / 2) (h6 : p + g ≤ u) : passesHdr u e n p (hdrRecord e n count g) = some (count, g) := by
  have code := codeChecks_hdr (e := e) (n := n) (count := count) (g := g)
  obtain ⟨k, hk⟩ := hdrRecord_eq (e := e) (n := n) (count := count) (g := g)
  have fcount : fieldAt (hdrRecord e n count g) 16 2 = count := by
    rw [hk]
    exact (recordHead_after (off := 0)).trans (fieldAt_written (before := []) (by simp; rfl) rfl (by omega))
  have fg : fieldAt (hdrRecord e n count g) 18 4 = g := by
    rw [hk]
    exact (recordHead_after (off := 2)).trans (fieldAt_written (before := leBytes 2 count) (by simp; rfl) rfl (by omega))
  have head : headMatches 0x51 e n (hdrRecord e n count g) = true := by rw [hk, headMatches_recordHead]; simp
  have findex : fieldAt (hdrRecord e n count g) 8 2 = 0 := by rw [hk, recordHead_index (by omega)]
  have fpayload : fieldAt (hdrRecord e n count g) 10 2 = 0 := by rw [hk, recordHead_payload (by omega)]
  have funits : fieldAt (hdrRecord e n count g) 12 4 = 1 := by rw [hk, recordHead_units (by omega)]
  rw [passesHdr, fcount, fg, head, code, findex, fpayload, funits]
  refine if_pos ?_
  have : p + 1 ≤ u := by omega
  simp [h1, h2, h3, h4, h5, h6, this, Config.groupWrites]

theorem passesTrl_trlRecord (hp : p + 1 ≤ u) (hi : index < 2 ^ 16) :
    passesTrl u e n p index (trlRecord e n index void) = some void := by
  have code := codeChecks_trl (e := e) (n := n) (index := index) (void := void)
  obtain ⟨k, hk⟩ := trlRecord_eq (e := e) (n := n) (index := index) (void := void)
  have head : headMatches 0x53 e n (trlRecord e n index void) = true := by rw [hk, headMatches_recordHead]; simp
  have findex : fieldAt (trlRecord e n index void) 8 2 = index := by rw [hk, recordHead_index hi]
  have fpayload : fieldAt (trlRecord e n index void) 10 2 = 0 := by rw [hk, recordHead_payload (by omega)]
  have funits : fieldAt (trlRecord e n index void) 12 4 = 1 := by rw [hk, recordHead_units (by omega)]
  have flag : (trlRecord e n index void).getD 1 0 = if void then 1 else 0 := by rw [hk, recordHead_flags]
  rw [passesTrl, head, code, findex, fpayload, funits, flag, if_pos (by simp [hp])]
  cases void <;> rfl

theorem passesPad_padRecord (hu : u < 2 ^ 32) (hp : 0 < p) (hpu : p ≤ u) : passesPad u e n p (padRecord e n (u - p)) = true := by
  have code := codeChecks_pad (e := e) (n := n) (units := u - p)
  obtain ⟨k, hk⟩ := padRecord_eq (e := e) (n := n) (units := u - p)
  have head : headMatches 0x54 e n (padRecord e n (u - p)) = true := by rw [hk, headMatches_recordHead]; simp
  have findex : fieldAt (padRecord e n (u - p)) 8 2 = 0 := by rw [hk, recordHead_index (by omega)]
  have fpayload : fieldAt (padRecord e n (u - p)) 10 2 = 0 := by rw [hk, recordHead_payload (by omega)]
  have funits : fieldAt (padRecord e n (u - p)) 12 4 = u - p := by rw [hk, recordHead_units (by omega)]
  rw [passesPad, head, code, findex, fpayload, funits]
  have : p + (u - p) = u := by omega
  simp [hp, this]

/-- Under another commit number no record passes (R86). -/
theorem headMatches_other {type flags : Byte} {type' payload units : Nat} {rest : List Byte} (h : n' ≠ n) :
    headMatches type' e n' (recordHead type flags e n index payload units ++ rest) = false := by
  rw [headMatches_recordHead, decide_eq_false (Ne.symm h), Bool.and_false]

theorem passesHdr_other (h : n' ≠ n) : passesHdr u e n' p (hdrRecord e n count g) = none := by
  obtain ⟨k, hk⟩ := hdrRecord_eq (e := e) (n := n) (count := count) (g := g)
  rw [passesHdr, hk, headMatches_other h]
  rfl

theorem passesTrl_other (h : n' ≠ n) : passesTrl u e n' p index (trlRecord e n index void) = none := by
  obtain ⟨k, hk⟩ := trlRecord_eq (e := e) (n := n) (index := index) (void := void)
  rw [passesTrl, hk, headMatches_other h]
  rfl

theorem passesPad_other {units : Nat} (h : n' ≠ n) : passesPad u e n' p (padRecord e n units) = false := by
  obtain ⟨k, hk⟩ := padRecord_eq (e := e) (n := n) (units := units)
  rw [passesPad, hk, headMatches_other h]
  rfl

end

/-! ## Anchors (R78, R82) -/

/-- An anchor's bytes before its check code. -/
def anchorBody (seq : Word32) (epoch : Epoch) (k tail : Nat) (commit : CommitNumber) : List Byte :=
  anchorSignature ++ leBytes 4 seq.toNat ++ leBytes 2 epoch.toNat ++ [BitVec.ofNat 8 k, 0] ++ leBytes 4 tail ++
    leBytes 4 commit.toNat ++ zeroBytes 36

section
variable {seq : Word32} {e : Epoch} {k k' slot tail : Nat} {n : CommitNumber}

theorem anchorBody_length : (anchorBody seq e k tail n).length = 60 := by simp [anchorBody, anchorSignature]

theorem anchorRecord_eq : anchorRecord seq e k tail n = anchorBody seq e k tail n ++ leBytes 4 (crc32 (anchorBody seq e k tail n)).toNat :=
  rfl

theorem anchor_exponent (hk : k < 256) : fieldAt (anchorRecord seq e k tail n) 14 1 = k := by
  rw [fieldAt_byte (off := 14) (b := BitVec.ofNat 8 k) (before := anchorSignature ++ leBytes 4 seq.toNat ++ leBytes 2 e.toNat)
    (by simp [anchorRecord_eq, anchorBody]; rfl) rfl, BitVec.toNat_ofNat, Nat.mod_eq_of_lt (by omega)]

theorem readAnchor_anchorRecord (hk : k < 256) (ht : tail < ringUnits k) (h32 : ringUnits k ≤ 2 ^ 32) :
    readAnchor k slot (anchorRecord seq e k tail n) = some ⟨slot, seq, e, tail, n⟩ := by
  have signature : (anchorRecord seq e k tail n).take 8 = anchorSignature := by
    simp only [anchorRecord_eq, anchorBody, List.append_assoc]
    exact List.take_left' rfl
  have body : (anchorRecord seq e k tail n).take 60 = anchorBody seq e k tail n := List.take_left' anchorBody_length
  have code : fieldAt (anchorRecord seq e k tail n) 60 4 = (crc32 (anchorBody seq e k tail n)).toNat :=
    fieldAt_written (after := []) (by rw [anchorRecord_eq, List.append_nil]) anchorBody_length (crc32 _).isLt
  have fseq : fieldAt (anchorRecord seq e k tail n) 8 4 = seq.toNat :=
    fieldAt_written (before := anchorSignature) (by simp [anchorRecord_eq, anchorBody]; rfl) rfl seq.isLt
  have fepoch : fieldAt (anchorRecord seq e k tail n) 12 2 = e.toNat :=
    fieldAt_written (before := anchorSignature ++ leBytes 4 seq.toNat) (by simp [anchorRecord_eq, anchorBody]; rfl) rfl e.isLt
  have ftail : fieldAt (anchorRecord seq e k tail n) 16 4 = tail :=
    fieldAt_written (before := anchorSignature ++ leBytes 4 seq.toNat ++ leBytes 2 e.toNat ++ [BitVec.ofNat 8 k, 0])
      (by simp [anchorRecord_eq, anchorBody]; rfl) rfl (by omega)
  have fcommit : fieldAt (anchorRecord seq e k tail n) 20 4 = n.toNat :=
    fieldAt_written (before := anchorSignature ++ leBytes 4 seq.toNat ++ leBytes 2 e.toNat ++ [BitVec.ofNat 8 k, 0] ++ leBytes 4 tail)
      (by simp [anchorRecord_eq, anchorBody]; rfl) rfl n.isLt
  rw [readAnchor, signature, body, code, anchor_exponent hk, fseq, fepoch, ftail, fcommit, Nat.mod_eq_of_lt ht]
  simp

theorem readAnchor_otherExponent (hk : k < 256) (h : k' ≠ k) : readAnchor k' slot (anchorRecord seq e k tail n) = none := by
  rw [readAnchor, anchor_exponent hk, beq_eq_false_iff_ne.mpr (Ne.symm h), Bool.and_false]
  rfl

end

theorem ringUnits_le {k : Nat} (h : k ≤ 30) : ringUnits k ≤ 2 ^ 32 := by
  have : 2 ^ k ≤ 2 ^ 30 := Nat.pow_le_pow_right (by omega) h
  rw [ringUnits]
  omega

/-- Settles O52: field by field for the ring records, and the same for the anchor. -/
theorem framesAndAnchorsReadBack : Obligations.FramesAndAnchorsReadBack := by
  refine ⟨fun u e n n' p count g index void hu h1 h2 h3 h4 h5 h6 hi => ⟨passesHdr_hdrRecord hu h1 h2 h3 h4 h5 h6,
      passesTrl_trlRecord (by omega) hi, fun hp => passesPad_padRecord hu hp (by omega),
      fun h => ⟨passesHdr_other h, passesTrl_other h, passesPad_other h⟩⟩,
    fun seq e k k' slot tail n _ hk ht => ⟨?_, readAnchor_anchorRecord (by omega) ht (ringUnits_le hk),
      readAnchor_otherExponent (by omega)⟩⟩
  rw [anchorRecord_eq, List.length_append, anchorBody_length, leBytes_length]

/-! ## Masks (R80) -/

theorem eightFlags_getLsbD : ∀ c0 c1 c2 c3 c4 c5 c6 c7 : Bool, ∀ b < 8,
    (BitVec.ofNat 8 ((if c0 then 1 else 0) + ((if c1 then 2 else 0) + ((if c2 then 4 else 0) + ((if c3 then 8 else 0) +
      ((if c4 then 16 else 0) + ((if c5 then 32 else 0) + ((if c6 then 64 else 0) + ((if c7 then 128 else 0) + 0))))))))).getLsbD b =
      [c0, c1, c2, c3, c4, c5, c6, c7].getD b false := by
  decide +kernel

/-- Bit b of a byte of eight flags is flag b. -/
theorem flagByte_getLsbD (f : Nat → Bool) {b : Nat} (hb : b < 8) :
    (BitVec.ofNat 8 (((List.range 8).map fun b => if f b then 2 ^ b else 0).sum)).getLsbD b = f b := by
  refine (eightFlags_getLsbD (f 0) (f 1) (f 2) (f 3) (f 4) (f 5) (f 6) (f 7) b hb).trans ?_
  interval_cases b <;> rfl

theorem maskByte_getLsbD (m : List Bool) (i : Nat) {b : Nat} (hb : b < 8) :
    (maskByte m i).getLsbD b = m.getD (8 * i + b) false := flagByte_getLsbD (fun b => m.getD (8 * i + b) false) hb

theorem maskBytes_length (len : Nat) (mask : Option (List Bool)) : (maskBytes len mask).length = maskLength len mask.isSome := by
  cases mask <;> simp [maskBytes, maskLength]

/-- A mask reads back from its bytes, whatever follows them. -/
theorem unpackMask_maskBytes {m : List Bool} {len : Nat} (h : m.length = len) (after : List Byte) :
    unpackMask len (maskBytes len (some m) ++ after) = m := by
  apply List.ext_getElem (by simp [unpackMask, h])
  intro j h1 h2
  have hj : j / 8 < ceilDiv len 8 := by rw [ceilDiv]; omega
  have byte : (maskBytes len (some m) ++ after).getD (j / 8) 0 = maskByte m (j / 8) := by
    rw [List.getD_eq_getElem?_getD, List.getElem?_append_left (by simpa [maskBytes] using hj)]
    simp [maskBytes, hj]
  simp only [unpackMask, List.getElem_map, List.getElem_range, byte]
  rw [maskByte_getLsbD m _ (Nat.mod_lt _ (by omega)), Nat.div_add_mod, List.getD_eq_getElem _ _ h2]

/-! ## Data records (R79 to R81, R163) -/

/-- A data record's header unit before its check code. -/
def datHead (e : Epoch) (n : CommitNumber) (i : Nat) (w : RecordWrite) : List Byte :=
  recordHead 0x52 (if w.mask.isSome then 1 else 0) e n i (w.length + maskLength w.length w.mask.isSome)
    (dataUnits w.length w.mask.isSome) ++ leBytes 5 w.addr.toNat ++ zeroBytes 3 ++ leBytes 2 w.length ++ zeroBytes 2

def datPayload (w : RecordWrite) : List Byte := w.data ++ maskBytes w.length w.mask

section
variable {e : Epoch} {n : CommitNumber} {i q t : Nat} {w : RecordWrite}

theorem datHead_length : (datHead e n i w).length = 28 := by simp [datHead]

theorem datRecord_eq : datRecord e n i w = sealHeader (datHead e n i w) (datPayload w) ++
    (datPayload w ++ zeroBytes (32 * (dataUnits w.length w.mask.isSome - 1) - (datPayload w).length)) := List.append_assoc ..

theorem sealHeader_length {head payload : List Byte} (h : head.length = 28) : (sealHeader head payload).length = 32 := by
  simp [sealHeader, h]

theorem datPayload_length (hd : w.data.length = w.length) :
    (datPayload w).length = w.length + maskLength w.length w.mask.isSome := by
  rw [datPayload, List.length_append, hd, maskBytes_length]

theorem maskLength_le {len : Nat} (masked : Bool) (h : len ≤ 256) : maskLength len masked ≤ 32 := by
  rw [maskLength, ceilDiv]
  split <;> omega

theorem dataUnits_le {len : Nat} (masked : Bool) (h : len ≤ 256) : dataUnits len masked ≤ 10 := by
  have := maskLength_le masked h
  rw [dataUnits, ceilDiv]
  omega

/-- The header unit is a record head, the write's address and length, and what fills it up (R79). -/
theorem sealedHead_eq (payload : List Byte) : ∃ code, sealHeader (datHead e n i w) payload =
    recordHead 0x52 (if w.mask.isSome then 1 else 0) e n i (w.length + maskLength w.length w.mask.isSome)
      (dataUnits w.length w.mask.isSome) ++ (leBytes 5 w.addr.toNat ++ zeroBytes 3 ++ leBytes 2 w.length ++ zeroBytes 2 ++
        leBytes 4 code) := ⟨_, by simp only [sealHeader, datHead, List.append_assoc]; rfl⟩

/-- The header unit of a data record names the write (R79). -/
theorem datFields_datHead {payload : List Byte} (h256 : w.length ≤ 256) : datFields (sealHeader (datHead e n i w) payload) =
    ⟨w.mask.isSome, w.length, dataUnits w.length w.mask.isSome, w.addr.toNat⟩ := by
  obtain ⟨code, hk⟩ := sealedHead_eq (e := e) (n := n) (i := i) (w := w) payload
  have units := dataUnits_le w.mask.isSome h256
  have flength : fieldAt (sealHeader (datHead e n i w) payload) 24 2 = w.length := by
    rw [hk]
    exact (recordHead_after (off := 8)).trans
      (fieldAt_written (before := leBytes 5 w.addr.toNat ++ zeroBytes 3) (by simp; rfl) rfl (by omega))
  have faddr : fieldAt (sealHeader (datHead e n i w) payload) 16 5 = w.addr.toNat := by
    rw [hk]
    exact (recordHead_after (off := 0)).trans (fieldAt_written (before := []) (by simp; rfl) rfl w.addr.isLt)
  have funits : fieldAt (sealHeader (datHead e n i w) payload) 12 4 = dataUnits w.length w.mask.isSome := by
    rw [hk, recordHead_units (by omega)]
  have flag : (sealHeader (datHead e n i w) payload).getD 1 0 = if w.mask.isSome then 1 else 0 := by rw [hk, recordHead_flags]
  have bit : ∀ b : Bool, (if b then (1 : Byte) else 0).getLsbD 0 = b := by decide
  rw [datFields, flength, faddr, funits, flag, bit]

/-- The header unit passes the header tests of R163. -/
theorem passesDatHeader_datHead {payload : List Byte} (h1 : 1 ≤ w.length) (h256 : w.length ≤ 256) (h40 : w.addr.toNat + w.length ≤ 2 ^ 40)
    (h4k : w.addr.toNat % 4096 + w.length ≤ 4096) (hi : i < 2 ^ 16) (hq : q + dataUnits w.length w.mask.isSome ≤ t) :
    passesDatHeader e n i q t (sealHeader (datHead e n i w) payload) =
      some ⟨w.mask.isSome, w.length, dataUnits w.length w.mask.isSome, w.addr.toNat⟩ := by
  obtain ⟨code, hk⟩ := sealedHead_eq (e := e) (n := n) (i := i) (w := w) payload
  have mask := maskLength_le w.mask.isSome h256
  have head : headMatches 0x52 e n (sealHeader (datHead e n i w) payload) = true := by rw [hk, headMatches_recordHead]; simp
  have findex : fieldAt (sealHeader (datHead e n i w) payload) 8 2 = i := by rw [hk, recordHead_index hi]
  have fpayload : fieldAt (sealHeader (datHead e n i w) payload) 10 2 = w.length + maskLength w.length w.mask.isSome := by
    rw [hk, recordHead_payload (by omega)]
  rw [passesDatHeader, datFields_datHead h256, head, findex, fpayload]
  exact if_pos (by simp [h1, h256, h4k, hq]; exact h40)

/-- What follows the header unit gives the write back (R80). -/
theorem recordWrite_payload (hd : w.data.length = w.length) (hm : ∀ m, w.mask = some m → m.length = w.length) (after : List Byte) :
    recordWrite ⟨w.mask.isSome, w.length, dataUnits w.length w.mask.isSome, w.addr.toNat⟩ (datPayload w ++ after) = w := by
  obtain ⟨addr, length, mask, data⟩ := w
  have hd : data.length = length := hd
  have rest : (datPayload ⟨addr, length, mask, data⟩ ++ after).drop length = maskBytes length mask ++ after := by
    rw [datPayload, List.append_assoc, List.drop_left' hd]
  have bytes : (datPayload ⟨addr, length, mask, data⟩ ++ after).take length = data := by
    rw [datPayload, List.append_assoc, List.take_left' hd]
  simp only [recordWrite, rest, bytes, BitVec.ofNat_toNat, BitVec.setWidth_eq]
  cases mask with
  | none => rfl
  | some m => simp [unpackMask_maskBytes (hm m rfl)]

end

/-- A record passes when its header unit does and its check code covers what follows (R163). -/
theorem passesDat_append {e : Epoch} {n : CommitNumber} {i q t : Nat} {header rest : List Byte} {f : DatFields}
    (hl : header.length = 32) (hf : passesDatHeader e n i q t header = some f) (hc : codeChecks header (payloadOf f rest) = true) :
    passesDat e n i q t (header ++ rest) = some (recordWrite f rest) := by
  delta passesDat
  rw [List.take_left' hl, List.drop_left' hl, hf]
  exact if_pos hc

/-- Settles O51: the record cut into its header unit, its payload and its fill. -/
theorem dataRecordReadsBack : Obligations.DataRecordReadsBack := by
  intro e n i q t w h1 h256 hd hm h40 h4k hi hq
  have payload := datPayload_length hd
  have header : (sealHeader (datHead e n i w) (datPayload w)).length = 32 := sealHeader_length datHead_length
  refine ⟨?_, ?_⟩
  · have units : dataUnits w.length w.mask.isSome = 1 + ceilDiv (datPayload w).length 32 := by rw [payload, dataUnits]
    have length : (datRecord e n i w).length = 32 + ((datPayload w).length +
        (32 * (dataUnits w.length w.mask.isSome - 1) - (datPayload w).length)) := by
      rw [datRecord_eq, List.length_append, List.length_append, zeroBytes_length, header]
    rw [length, units]
    generalize (datPayload w).length = len
    rw [ceilDiv]
    omega
  · have covered : payloadOf ⟨w.mask.isSome, w.length, dataUnits w.length w.mask.isSome, w.addr.toNat⟩
        (datPayload w ++ zeroBytes (32 * (dataUnits w.length w.mask.isSome - 1) - (datPayload w).length)) = datPayload w :=
      List.take_left' payload
    rw [datRecord_eq, passesDat_append header (passesDatHeader_datHead h1 h256 h40 h4k hi hq)
      (by rw [covered]; exact codeChecks_seal datHead_length), recordWrite_payload hd hm]

end Sys2Proof.Machine
end
